-- ==== Sys2Proof/Word.lean ====
section
/-! DEFINITION. The words of E2E-BNEC: the 32-bit register and command word, the byte of DBUF and the 24-bit limb
of a BigNum (spec/00_scope.md R6, R7). Everything a test could show wrong about them stands in Decode.lean and in
the files of Machine/. -/

namespace Sys2Proof

/-- A control or status register and a command word (R48, R110). -/
abbrev Word := BitVec 32

/-- One byte of DBUF (R46). -/
abbrev Byte := BitVec 8

/-- One limb of a BigNum: LIMB_BITS = 24 (R6, R32). -/
abbrev Limb := BitVec 24

end Sys2Proof
end

