-- ==== Sys2Proof/Config.lean ====
section
/-! DEFINITION. The parameters of the implementation (spec/00_scope.md R6), the platform's open parameter BNEC_BASE,
and the free values the spec leaves without constraint (R337, R94). An `opaque` constant has no body: nothing can
evaluate it, so a statement that names one holds whatever it is. -/

namespace Sys2Proof.Config

/-- LMAX: the largest capacity of a BigNum register, in limbs (R6). -/
abbrev lmax : Nat := 48

/-- NT: the number of fast-multiply table slots (R6). -/
abbrev nt : Nat := 4

/-- DBUF_SIZE: the number of bytes of DBUF (R6). -/
abbrev dbufSize : Nat := 256

/-- The size of the register window in bytes (R80). -/
abbrev windowSize : Nat := 512

/-- The window's place on the platform, counted in windows of 512 bytes (R80: BNEC_BASE is a multiple of 512). OPEN
parameter of the platform (R6, decision D3; log entry 14). -/
opaque windowNumber : Nat

/-- BNEC_BASE: the host physical address of the register window (R6, R80). -/
def bnecBase : Nat := windowSize * windowNumber

/-- ID, the identification constant (R54). -/
def idWord : Word := 0x42450007#32

/-- CFG, composed from its fields as R55 lays them out: DBUF_SIZE/16, NT, NP-1, NB-1, 0, LMAX. -/
def cfgWord : Word := BitVec.ofNat 32 (dbufSize / 16 * 2 ^ 24 + nt * 2 ^ 20 + 15 * 2 ^ 16 + 15 * 2 ^ 12 + lmax)

/-- Free value: whether the n-th draw of a NIST point is INF (R337; log entry 7). -/
opaque freePointIsInf : Nat → Bool

/-- Free value: the x coordinate of the n-th drawn point, before it is brought into [0, p) (R337; log entry 7). -/
opaque freePointX : Nat → Nat

/-- Free value: the y coordinate of the n-th drawn point, before it is brought into [0, p) (R337; log entry 7). -/
opaque freePointY : Nat → Nat

/-- Free value: what the n-th draw of a host read answers (R94, decision D37; log entry 8). -/
opaque freeRead : Nat → Word

end Sys2Proof.Config
end

