-- ==== Sys2Proof/Syntax.lean ====
section
/-! DEFINITION. The commands of E2E-BNEC (spec/30_encoding.md R112, R116): one constructor for each row of
spec/opcode_table.json, its arguments in the operand order of R112. -/

namespace Sys2Proof

/-- The number of a BigNum register b0..b15 (R32, R113). -/
abbrev BnNum := Fin 16

/-- The number of a point register p0..p15 (R37, R113). -/
abbrev PtNum := Fin 16

/-- The curve field, 0..15, of which 0..4 name curves (R113, R114). -/
abbrev CurveField := Fin 16

/-- The field I or L: a DBUF offset, a shift amount, a capacity, a byte or limb count, a table slot (R111, R114). -/
abbrev Imm8 := Fin 256

/-- The field X: a bit index (R111, R114). -/
abbrev BitIndex := Fin 4096

/-- The field C where it is the flag z of EC.STENC (R119). -/
abbrev ZField := Fin 16

/-- The 58 commands (R116). -/
inductive Instr where
  /-- NOP (R505). -/
  | nop
  /-- BN.LDB rd, off, len (R151). -/
  | bnLdb (rd : BnNum) (off len : Imm8)
  /-- BN.STB rs, off (R157). -/
  | bnStb (rs : BnNum) (off : Imm8)
  /-- BN.FROMINT rd (R154). -/
  | bnFromint (rd : BnNum)
  /-- BN.LDL rd, off, n (R156). -/
  | bnLdl (rd : BnNum) (off n : Imm8)
  /-- BN.STL rs, off (R160). -/
  | bnStl (rs : BnNum) (off : Imm8)
  /-- BN.MOV rd, rs (R162). -/
  | bnMov (rd rs : BnNum)
  /-- BN.RESIZE rd, rs, n (R164). -/
  | bnResize (rd rs : BnNum) (n : Imm8)
  /-- BN.TRIM rd, rs (R168). -/
  | bnTrim (rd rs : BnNum)
  /-- BN.BITLEN rs (R172). -/
  | bnBitlen (rs : BnNum)
  /-- BN.SIZE rs (R174). -/
  | bnSize (rs : BnNum)
  /-- BN.ADD rd, rs1, rs2 (R204). -/
  | bnAdd (rd rs1 rs2 : BnNum)
  /-- BN.SUB rd, rs1, rs2 (R206). -/
  | bnSub (rd rs1 rs2 : BnNum)
  /-- BN.SUBGE rd, rs1, rs2 (R208). -/
  | bnSubge (rd rs1 rs2 : BnNum)
  /-- BN.MUL rd, rs1, rs2 (R210). -/
  | bnMul (rd rs1 rs2 : BnNum)
  /-- BN.SQR rd, rs (R212). -/
  | bnSqr (rd rs : BnNum)
  /-- BN.DIVMOD rq, rr, rs1, rs2 (R216). -/
  | bnDivmod (rq rr rs1 rs2 : BnNum)
  /-- BN.DIV rd, rs1, rs2 (R218). -/
  | bnDiv (rd rs1 rs2 : BnNum)
  /-- BN.MOD rd, rs1, rs2 (R220). -/
  | bnMod (rd rs1 rs2 : BnNum)
  /-- BN.DIVI rq, rr, rs1, rs2 (R222). -/
  | bnDivi (rq rr rs1 rs2 : BnNum)
  /-- BN.SHL rd, rs, sh (R226). -/
  | bnShl (rd rs : BnNum) (sh : Imm8)
  /-- BN.SHR rd, rs, sh (R228). -/
  | bnShr (rd rs : BnNum) (sh : Imm8)
  /-- BN.AND rd, rs1, rs2 (R232). -/
  | bnAnd (rd rs1 rs2 : BnNum)
  /-- BN.OR rd, rs1, rs2 (R233). -/
  | bnOr (rd rs1 rs2 : BnNum)
  /-- BN.XOR rd, rs1, rs2 (R234). -/
  | bnXor (rd rs1 rs2 : BnNum)
  /-- BN.NEG rd, rs (R236). -/
  | bnNeg (rd rs : BnNum)
  /-- BN.CMP rs1, rs2 (R260). -/
  | bnCmp (rs1 rs2 : BnNum)
  /-- BN.EQ rs1, rs2 (R262). -/
  | bnEq (rs1 rs2 : BnNum)
  /-- BN.LT rs1, rs2 (R264). -/
  | bnLt (rs1 rs2 : BnNum)
  /-- BN.GE rs1, rs2 (R266). -/
  | bnGe (rs1 rs2 : BnNum)
  /-- BN.BETW rs, ra, rb (R268). -/
  | bnBetw (rs ra rb : BnNum)
  /-- BN.BIT rs, idx (R270). -/
  | bnBit (rs : BnNum) (idx : BitIndex)
  /-- BN.EVEN rs (R272). -/
  | bnEven (rs : BnNum)
  /-- BN.ODD rs (R274). -/
  | bnOdd (rs : BnNum)
  /-- BN.SEL rd, rs1, rs2 (R276). -/
  | bnSel (rd rs1 rs2 : BnNum)
  /-- BN.NYB rs, off (R280). -/
  | bnNyb (rs : BnNum) (off : Imm8)
  /-- BN.MADD rd, rs1, rs2, rm (R302). -/
  | bnMadd (rd rs1 rs2 rm : BnNum)
  /-- BN.MSUB rd, rs1, rs2, rm (R304). -/
  | bnMsub (rd rs1 rs2 rm : BnNum)
  /-- BN.MMUL rd, rs1, rs2, rm (R306). -/
  | bnMmul (rd rs1 rs2 rm : BnNum)
  /-- BN.MEXP rd, rs1, rs2, rm (R308). -/
  | bnMexp (rd rs1 rs2 rm : BnNum)
  /-- EC.INF pd, cv (R346). -/
  | ecInf (pd : PtNum) (cv : CurveField)
  /-- EC.LDAFF pd, rx, ry, cv (R347). -/
  | ecLdaff (pd : PtNum) (rx ry : BnNum) (cv : CurveField)
  /-- EC.GEN pd, cv (R348). -/
  | ecGen (pd : PtNum) (cv : CurveField)
  /-- EC.LDENC pd, off, cv (R349). -/
  | ecLdenc (pd : PtNum) (off : Imm8) (cv : CurveField)
  /-- EC.STENC ps, off, z (R350). -/
  | ecStenc (ps : PtNum) (off : Imm8) (z : ZField)
  /-- EC.AFF rx, ry, ps (R351). -/
  | ecAff (rx ry : BnNum) (ps : PtNum)
  /-- EC.MOV pd, ps (R352). -/
  | ecMov (pd ps : PtNum)
  /-- EC.ORDER rd, cv (R353). -/
  | ecOrder (rd : BnNum) (cv : CurveField)
  /-- EC.PRIME rd, cv (R354). -/
  | ecPrime (rd : BnNum) (cv : CurveField)
  /-- EC.ADD pd, ps1, ps2 (R355). -/
  | ecAdd (pd ps1 ps2 : PtNum)
  /-- EC.DBL pd, ps (R356). -/
  | ecDbl (pd ps : PtNum)
  /-- EC.MUL pd, ps, rk (R358): the scalar is a BigNum register. -/
  | ecMul (pd ps : PtNum) (rk : BnNum)
  /-- EC.MKTAB ps, slot (R359). -/
  | ecMktab (ps : PtNum) (slot : Imm8)
  /-- EC.DETAB ps (R360). -/
  | ecDetab (ps : PtNum)
  /-- EC.NEG pd, ps (R357). -/
  | ecNeg (pd ps : PtNum)
  /-- EC.ISON ps (R361). -/
  | ecIson (ps : PtNum)
  /-- EC.ISINF ps (R362). -/
  | ecIsinf (ps : PtNum)
  /-- EC.EQ ps1, ps2 (R363). -/
  | ecEq (ps1 ps2 : PtNum)
deriving DecidableEq, Repr

end Sys2Proof
end

