-- ==== Sys2Proof/Machine/State.lean ====
section
/-! DEFINITION. The state of E2E-BNEC as plain data (spec/10_state.md R30 to R63), the reasons a step can stop, and
the state after reset. Two groups of fields are the model's own, not the spec's: the host's pending accesses and the
values its reads returned, and the counter of free values. -/

namespace Sys2Proof.Machine

/-- The five curves (R330). -/
inductive Curve where
  /-- cv 0: P-256. -/
  | p256
  /-- cv 1: P-384. -/
  | p384
  /-- cv 2: P-521. -/
  | p521
  /-- cv 3: edwards25519 with the Ed25519 encoding. -/
  | ed25519
  /-- cv 4: edwards25519 with the X25519 encoding. -/
  | x25519
deriving DecidableEq, Repr

/-- A BigNum: `size` limbs of 24 bits, limb 0 (the first) least significant (R32, R34). -/
structure BigNum where
  limbs : List Limb
deriving DecidableEq, Repr

/-- A BigNum register: its written bit and its limbs (R32, R33). The limbs of an unwritten register are those R63
gives (none) and no command reads them. -/
structure BigReg where
  written : Bool
  num : BigNum
deriving DecidableEq, Repr

/-- A group-element value: INF, or an affine pair (R38). -/
inductive PointVal where
  /-- The point at infinity of a NIST curve. -/
  | inf
  /-- The affine pair (x, y). -/
  | aff (x y : Nat)
deriving DecidableEq, Repr

/-- What a point register holds: EMPTY, or a curve and a value (R37). -/
inductive PointCell where
  /-- Never written since reset. -/
  | empty
  /-- PT(c, v). -/
  | pt (c : Curve) (v : PointVal)
deriving DecidableEq, Repr

/-- A point register: its contents and its table attachment (R37, R39). -/
structure PointReg where
  cell : PointCell
  tab : Option (Fin 4)
deriving DecidableEq, Repr

/-- FLAGS.CMP: the three results of BN.CMP; the code 0b10 is never produced (R40). -/
inductive CmpSign where
  /-- 0b00. -/
  | equal
  /-- 0b01. -/
  | greater
  /-- 0b11. -/
  | less
deriving DecidableEq, Repr

/-- FLAGS (R40): the condition bit C and the compare result CMP. -/
structure Flags where
  c : Bool
  cmp : CmpSign
deriving DecidableEq, Repr

/-- DBUF (R46): its bytes by address, strictly rising, none of them the byte an unlisted address reads as. -/
abbrev Memory := List Host.Cell

/-- The sequencer's state (R47). -/
inductive Sequencer where
  /-- The reset sequence is running. -/
  | resetting
  /-- Waiting for a CMD write. -/
  | idle
  /-- CMDREG holds an accepted command that has not completed. -/
  | busy
deriving DecidableEq, Repr

/-- CTRL (R50): the two interrupt enables (SRST reads as 0 and is no state). -/
structure Ctrl where
  ieDone : Bool
  ieErr : Bool
deriving DecidableEq, Repr

/-- STATUS (R51) without BUSY, which the sequencer's state gives (R47). -/
structure Status where
  done : Bool
  err : Bool
  ovr : Bool
  errCode : Byte
deriving DecidableEq, Repr

/-- The errors a command can raise (R12, R471). -/
inductive CmdError where
  /-- Code 1: the word does not decode (R472). -/
  | illegalCommand
  /-- Code 2: a value or immediate outside the command's domain (R474). -/
  | invalidArgument
  /-- Code 3: the operation does not exist for the operand's curve (R475). -/
  | unsupportedOperation
  /-- Code 4: a result or load would need more than LMAX limbs (R475). -/
  | capacityExceeded
  /-- Code 5: a source register has not been written since reset (R473). -/
  | unwrittenOperand
  /-- Code 6: an access would pass the end of DBUF (R475). -/
  | dbufRange
deriving DecidableEq, Repr

/-- The width of a host access (R83, R84). -/
inductive Width where
  /-- 8 bits. -/
  | byte
  /-- 16 bits. -/
  | half
  /-- 32 bits. -/
  | word
deriving DecidableEq, Repr

/-- What the outside world does at one step (R30, R93, R520; log entry 1). -/
inductive HostEvent where
  /-- A read of the window at a host address. -/
  | read (addr : Nat) (w : Width)
  /-- A write to the window at a host address; a narrow write takes the low bits of `data`. -/
  | write (addr : Nat) (w : Width) (data : Word)
  /-- The platform asserts the reset input (R520). -/
  | reset
  /-- The host makes no access: the sequencer moves. -/
  | pause
deriving DecidableEq, Repr

/-- The reasons a run stops. Both are the HOST's fault, never a command's (R484): no block state changes, and the
faulted run has no result. -/
inductive Fault where
  /-- Raised by a host access the window answers with a bus error: a wrong width or alignment (R83 to R86). Safe:
  the spec gives the run no result. -/
  | busError
  /-- Raised by a host access outside the 512-byte window, which the block does not decode (R85, I-4). Safe: the
  spec puts it outside the block. -/
  | notDecoded
deriving DecidableEq, Repr

/-- The reasons to have no meaning. -/
inductive Refusal where
  /-- Raised by `exec` for a command that has no meaning in this model, by its mnemonic. Safe. No command is left
  without one, so no step answers it. -/
  | notModelled (mnemonic : String)
deriving DecidableEq, Repr

/-- The machine. -/
structure State where
  /-- b0..b15 (R32). -/
  bn : Vector BigReg 16
  /-- p0..p15 (R37). -/
  pt : Vector PointReg 16
  /-- The owner of each table slot (R39). -/
  owner : Vector (Option PtNum) 4
  /-- FLAGS (R40). -/
  flags : Flags
  /-- DBUF (R46). -/
  dbuf : Memory
  /-- The sequencer's state (R47). -/
  seq : Sequencer
  /-- CMDREG, the command being executed (R47). -/
  cmdReg : Word
  /-- CTRL (R50). -/
  ctrl : Ctrl
  /-- STATUS (R51). -/
  status : Status
  /-- RES (R56). -/
  res : Word
  /-- ARG_LO (R57). -/
  argLo : Word
  /-- ARG_HI, bits 16:0 (R57). -/
  argHi : BitVec 17
  /-- ERRCMD (R58). -/
  errCmd : Word
  /-- CMDCNT (R59). -/
  cmdCnt : Word
  /-- The model's own: what the host will do, first event first (log entry 1). -/
  hostIn : List HostEvent
  /-- The model's own: what the host's reads have returned, oldest first (log entry 2). -/
  hostOut : List Word
  /-- The model's own: how many free values have been drawn (log entry 9). -/
  draws : Nat
deriving DecidableEq, Repr

/-- A BigNum register after reset: unwritten, size 0 (R63). -/
def BigReg.reset : BigReg := { written := false, num := { limbs := [] } }

/-- A point register after reset: EMPTY, no table (R63). -/
def PointReg.reset : PointReg := { cell := .empty, tab := none }

/-- The machine after reset (R63), with nothing pending from the host. -/
def State.reset : State :=
  { bn := Vector.replicate 16 BigReg.reset
    pt := Vector.replicate 16 PointReg.reset
    owner := Vector.replicate 4 none
    flags := { c := false, cmp := .equal }
    dbuf := []
    seq := .idle
    cmdReg := 0
    ctrl := { ieDone := false, ieErr := false }
    status := { done := false, err := false, ovr := false, errCode := 0 }
    res := 0
    argLo := 0
    argHi := 0
    errCmd := 0
    cmdCnt := 0
    hostIn := []
    hostOut := []
    draws := 0 }

end Sys2Proof.Machine
end

