-- ==== Sys2Proof/Machine/BigNum.lean ====
section
/-! DEFINITION. The numbers a BigNum register holds (spec/00_scope.md R8, R9), bit length (R9) and the byte orders
of R11. Values are unbounded naturals; limbs appear only where a register is written or read. -/

namespace Sys2Proof.Machine

/-- `a div b` rounded up, as in ceil(len / 3). -/
def ceilDiv (a b : Nat) : Nat := (a + (b - 1)) / b

/-- bitlen(v): 0 for 0, otherwise the k with 2^(k-1) ≤ v < 2^k (R9). -/
def bitlen (v : Nat) : Nat := if v = 0 then 0 else Nat.log2 v + 1

/-- nlimbs(v) = ceil(bitlen(v) / 24) (R9). -/
def nlimbs (v : Nat) : Nat := ceilDiv (bitlen v) 24

/-- The number limbs spell, the first least significant (R9). -/
def limbsVal : List Limb → Nat
  | [] => 0
  | l :: ls => l.toNat + 2 ^ 24 * limbsVal ls

/-- The `s` limbs of `v`: limb j is (v div 2^(24 j)) mod 2^24 (R9). -/
def limbsOf : Nat → Nat → List Limb
  | 0, _ => []
  | s + 1, v => BitVec.ofNat 24 v :: limbsOf s (v / 2 ^ 24)

/-- size(b): the capacity in limbs (R9, R34). -/
def BigNum.size (b : BigNum) : Nat := b.limbs.length

/-- val(b) (R9). -/
def BigNum.val (b : BigNum) : Nat := limbsVal b.limbs

/-- limb(b, j); a limb beyond the size counts as 0 (R9, R202). -/
def BigNum.limb (b : BigNum) (j : Nat) : Limb := b.limbs.getD j 0

/-- BN(s, v): capacity `s` and the limbs of `v` (R9). -/
def BigNum.ofVal (s v : Nat) : BigNum := { limbs := limbsOf s v }

/-! ### Byte strings (R11) -/

/-- LE(bytes): least significant byte first. -/
def leVal : List Byte → Nat
  | [] => 0
  | b :: bs => b.toNat + 256 * leVal bs

/-- BE(bytes): most significant byte first. -/
def beVal (bs : List Byte) : Nat := leVal bs.reverse

/-- LE_n(v). -/
def leBytes : Nat → Nat → List Byte
  | 0, _ => []
  | n + 1, v => BitVec.ofNat 8 v :: leBytes n (v / 256)

/-- BE_n(v). -/
def beBytes (n v : Nat) : List Byte := (leBytes n v).reverse

/-- The limbs that bytes spell three to a limb, least significant byte first, limb 0 first (R89, R156). -/
def limbsOfBytes : List Byte → List Limb
  | b0 :: b1 :: b2 :: bs => BitVec.ofNat 24 (leVal [b0, b1, b2]) :: limbsOfBytes bs
  | _ => []

/-- The three bytes of each limb, least significant byte first, limb 0 first (R89, R160). -/
def bytesOfLimbs : List Limb → List Byte
  | [] => []
  | l :: ls => leBytes 3 l.toNat ++ bytesOfLimbs ls

/-! ### Signed nybbles (R280) -/

/-- The bias 0x777777 in each of `s` limbs (R280). -/
def nybbleBias (s : Nat) : Nat := limbsVal (List.replicate s 0x777777#24)

/-- The 6 s + 1 signed digits of `v`, digit 0 first (R280). -/
def nybbleDigits (s v : Nat) : List Int :=
  (List.range (6 * s)).map (fun i => (((v + nybbleBias s) / 16 ^ i % 16 : Nat) : Int) - 7) ++
    [(((v + nybbleBias s) / 2 ^ (24 * s) : Nat) : Int)]

/-- The digits as two's-complement bytes (R280). -/
def nybbleBytes (s v : Nat) : List Byte := (nybbleDigits s v).map (BitVec.ofInt 8)

/-! ### The select data path (R276) -/

/-- The limb R276 computes at one position: the selection is made by a mask, never by a branch. -/
def selectLimb (c : Bool) (a b : Limb) : Limb :=
  let mask : Limb := if c then 0xFFFFFF#24 else 0#24
  b ^^^ ((a ^^^ b) &&& mask)

/-- The result of BN.SEL: every position up to the longer operand's capacity (R276). -/
def selectBig (c : Bool) (a b : BigNum) : BigNum :=
  { limbs := (List.range (max a.size b.size)).map (fun j => selectLimb c (a.limb j) (b.limb j)) }

end Sys2Proof.Machine
end

