-- ==== Sys2Proof/Machine/Ops.lean ====
section
/-! DEFINITION. The named operations over DBUF and the registers, the ways a command ends (completion and error
entry, the block's exception), the return from an error, and reset. -/

namespace Sys2Proof.Machine

/-- What a meaning and a step answer. -/
abbrev Result := Host.Outcome State Fault Refusal

/-! ### DBUF (R11, R46, R90) -/

/-- What an unlisted address of DBUF reads as: DBUF is 0x00 after reset (R63). -/
def Memory.unlisted : Byte := 0#8

/-- One byte. -/
def Memory.read : Memory → Nat → Byte
  | [], _ => Memory.unlisted
  | (a, v) :: m, k => if a = k then v else Memory.read m k

/-- One byte stored, the list kept in its canonical form. -/
def Memory.write : Memory → Nat → Byte → Memory
  | [], k, b => if b = Memory.unlisted then [] else [(k, b)]
  | (a, v) :: m, k, b =>
    if k < a then
      if b = Memory.unlisted then (a, v) :: m else (k, b) :: (a, v) :: m
    else if k = a then
      if b = Memory.unlisted then m else (k, b) :: m
    else (a, v) :: Memory.write m k b

/-- DbufRead(off, n) (R11). -/
def Memory.readBytes (m : Memory) : Nat → Nat → List Byte
  | _, 0 => []
  | off, n + 1 => m.read off :: Memory.readBytes m (off + 1) n

/-- DbufWrite(off, bytes) (R11). -/
def Memory.writeBytes : Memory → Nat → List Byte → Memory
  | m, _, [] => m
  | m, off, b :: bs => Memory.writeBytes (m.write off b) (off + 1) bs

/-- The addresses rise strictly from at least `lo`, and no entry holds the unlisted byte. -/
def Memory.wfFrom : Nat → Memory → Bool
  | _, [] => true
  | lo, (a, v) :: m => decide (lo ≤ a) && decide (v ≠ Memory.unlisted) && Memory.wfFrom (a + 1) m

/-- The canonical form: rising addresses, no unlisted byte, every address inside DBUF. -/
def Memory.wf (m : Memory) : Bool := Memory.wfFrom 0 m && m.all (fun e => decide (e.1 < Config.dbufSize))

/-! ### Registers (R32 to R39) -/

/-- `b[i]`. -/
def State.b (s : State) (i : BnNum) : BigReg := s.bn[i]

/-- `p[i]`. -/
def State.p (s : State) (i : PtNum) : PointReg := s.pt[i]

/-- owner(t). -/
def State.slotOwner (s : State) (t : Fin 4) : Option PtNum := s.owner[t]

/-- `b[i] <- BN(..)`: the limbs, and the written bit set (R9, R33). -/
def State.writeB (s : State) (i : BnNum) (n : BigNum) : State :=
  { s with bn := s.bn.set i { written := true, num := n } }

/-- `p[i].tab <- t`. -/
def State.setTab (s : State) (i : PtNum) (t : Option (Fin 4)) : State :=
  { s with pt := s.pt.set i { s.p i with tab := t } }

/-- owner(t) <- q. -/
def State.setOwner (s : State) (t : Fin 4) (q : Option PtNum) : State :=
  { s with owner := s.owner.set t q }

/-- Detach(i) (R345). -/
def State.detach (s : State) (i : PtNum) : State :=
  match (s.p i).tab with
  | some t => (s.setOwner t none).setTab i none
  | none => s

/-- `p[i] <- PT(c, v)`: the value written, any table of the register detached (R10, R345). -/
def State.writeP (s : State) (i : PtNum) (c : Curve) (v : PointVal) : State :=
  let s1 := s.detach i
  { s1 with pt := s1.pt.set i { s1.p i with cell := .pt c v } }

/-- The slot is taken from its old owner, if that is another register (R359, first step). -/
def State.releaseSlot (s : State) (i : PtNum) (t : Fin 4) : State :=
  match s.slotOwner t with
  | some q => if q = i then s else s.setTab q none
  | none => s

/-- The register gives up its old slot, if that is another slot (R359, second step). -/
def State.releaseTab (s : State) (i : PtNum) (t : Fin 4) : State :=
  match (s.p i).tab with
  | some u => if u = t then s else s.setOwner u none
  | none => s

/-- The table of `p[i]` attached in slot `t` (R359). -/
def State.attach (s : State) (i : PtNum) (t : Fin 4) : State :=
  (((s.releaseSlot i t).releaseTab i t).setOwner t (some i)).setTab i (some t)

/-! ### How a command ends (R470, R476) -/

/-- code(E) (R471). -/
def CmdError.code : CmdError → Byte
  | .illegalCommand => 1#8
  | .invalidArgument => 2#8
  | .unsupportedOperation => 3#8
  | .capacityExceeded => 4#8
  | .unwrittenOperand => 5#8
  | .dbufRange => 6#8

/-- ErrorEntry(E) (R476): the block's exception. ERR and ERRCODE are set, ERRCMD takes the command word, the
sequencer is IDLE; there is no vector, no saved program counter and no mode to change. -/
def State.errorEntry (s : State) (e : CmdError) : State :=
  { s with
    status := { s.status with err := true, errCode := e.code }
    errCmd := s.cmdReg
    seq := .idle }

/-- `raise E` (R12): the command ends in the error entry, with no other write. -/
def raise (e : CmdError) (s : State) : Result := .next (s.errorEntry e)

/-- The end of a command without error (R470): CMDCNT counts it, DONE is set, the sequencer is IDLE. -/
def State.completed (s : State) : State :=
  { s with
    cmdCnt := s.cmdCnt + 1
    status := { s.status with done := true }
    seq := .idle }

/-- A command that has made its writes in `s` completes. -/
def complete (s : State) : Result := .next s.completed

/-- The return from an error (R480): ERR and ERRCODE cleared together, ERRCMD kept. -/
def State.clearError (s : State) : State :=
  { s with status := { s.status with err := false, errCode := 0 } }

/-! ### The sequencer's latch (R52) -/

/-- The acceptance of a command word: CMDREG latches it, DONE is cleared, the sequencer is BUSY (R52). -/
def State.accept (s : State) (w : Word) : State :=
  { s with cmdReg := w, status := { s.status with done := false }, seq := .busy }

/-- The host's events with the sequencer to move first: a pause before any event (log entry 4). -/
def sequencerFirst : List HostEvent → List HostEvent
  | [] => []
  | e :: es => .pause :: e :: es

/-! ### Reset (R520, R521) -/

/-- Reset entered: every field at its value of R63, the sequencer RESETTING (log entry 5). What the host still has to
do, what it has read, and the count of draws are not the block's and stay. -/
def State.enterReset (s : State) : State :=
  { State.reset with seq := .resetting, hostIn := s.hostIn, hostOut := s.hostOut, draws := s.draws }

/-- Reset ended: the sequencer is IDLE (R520). -/
def State.finishReset (s : State) : State := { s with seq := .idle }

end Sys2Proof.Machine
end

