-- ==== Sys2Proof/Machine/Flags.lean ====
section
/-! DEFINITION. The flag computations (spec/10_state.md R40 to R44): the sign BN.CMP computes, the writes of C and
CMP, RES, and the words a host reads for FLAGS, STATUS and CTRL; and the interrupt output (R490). -/

namespace Sys2Proof.Machine

/-- FLAGS.C <- c; CMP unchanged. -/
def State.setC (s : State) (c : Bool) : State := { s with flags := { s.flags with c := c } }

/-- FLAGS.CMP <- r; C unchanged. -/
def State.setCmp (s : State) (r : CmpSign) : State := { s with flags := { s.flags with cmp := r } }

/-- RES <- n (R56). -/
def State.setRes (s : State) (n : Nat) : State := { s with res := BitVec.ofNat 32 n }

/-- The sign of this − that (R260). -/
def compareSign (a b : Nat) : CmpSign := if a = b then .equal else if b < a then .greater else .less

/-- Bit `idx` of a value: (v div 2^idx) mod 2 (R270). -/
def bitSet (v idx : Nat) : Bool := v / 2 ^ idx % 2 == 1

/-- The two bits of CMP (R40). -/
def CmpSign.code : CmpSign → BitVec 2
  | .equal => 0b00#2
  | .greater => 0b01#2
  | .less => 0b11#2

/-- One bit as a number. -/
def bitVal (b : Bool) : Nat := if b then 1 else 0

/-- The word FLAGS reads as: CMP in bits 2:1, C in bit 0, the rest 0 (R40, R53). -/
def State.flagsWord (s : State) : Word := BitVec.ofNat 32 (2 * s.flags.cmp.code.toNat + bitVal s.flags.c)

/-- STATUS.BUSY (R47): 1 in BUSY and RESETTING. -/
def State.busyBit (s : State) : Bool := s.seq != .idle

/-- The word STATUS reads as (R51). -/
def State.statusWord (s : State) : Word :=
  BitVec.ofNat 32
    (s.status.errCode.toNat * 2 ^ 8 + 8 * bitVal s.status.ovr + 4 * bitVal s.status.err + 2 * bitVal s.status.done +
      bitVal s.busyBit)

/-- The word CTRL reads as: SRST and the reserved bits read 0 (R50). -/
def State.ctrlWord (s : State) : Word := BitVec.ofNat 32 (2 * bitVal s.ctrl.ieErr + bitVal s.ctrl.ieDone)

/-- IRQ, level-sensitive (R490). -/
def State.irq (s : State) : Bool := (s.status.done && s.ctrl.ieDone) || (s.status.err && s.ctrl.ieErr)

end Sys2Proof.Machine
end

