-- ==== Sys2Proof/Machine/HostPort.lean ====
section
/-! DEFINITION. The host's accesses to the register window (spec/20_memory.md R80 to R99, spec/10_state.md R48 to
R59, spec/70_reset_and_hazards.md R522, R530). -/

namespace Sys2Proof.Machine

/-! ### The window (R80, R83 to R86) -/

/-- The offset of a host address in the window, or none outside it (R80, R85). -/
def windowOffset (addr : Nat) : Option Nat :=
  if Config.bnecBase ≤ addr ∧ addr < Config.bnecBase + Config.windowSize then some (addr - Config.bnecBase) else none

/-- The bytes of an access width. -/
def Width.bytes : Width → Nat
  | .byte => 1
  | .half => 2
  | .word => 4

/-- Whether an access is accepted: below 0x100 only 32-bit accesses at multiples of 4, in DBUF every naturally
aligned access (R83, R84, R85). Every other access is a bus error. -/
def accessOk (off : Nat) (w : Width) : Bool :=
  if off < 0x100 then w == .word && off % 4 == 0 else off % w.bytes == 0

/-! ### Reads -/

/-- The word a register reads as; write-only, reserved and unused offsets read 0 (R48 to R59, R85). -/
def State.readReg (s : State) (off : Nat) : Word :=
  match off with
  | 0x000 => Config.idWord
  | 0x004 => s.ctrlWord
  | 0x008 => s.statusWord
  | 0x010 => s.flagsWord
  | 0x014 => s.res
  | 0x018 => s.argLo
  | 0x01C => s.argHi.setWidth 32
  | 0x020 => s.errCmd
  | 0x024 => s.cmdCnt
  | 0x028 => Config.cfgWord
  | _ => 0

/-- DBUF read little-endian (R82, R84): DBUF[j] is at offset 0x100 + j. -/
def State.readDbuf (s : State) (off : Nat) (w : Width) : Word :=
  BitVec.ofNat 32 (leVal (s.dbuf.readBytes (off - 0x100) w.bytes))

/-- What a read returns in IDLE, and in BUSY for a register no command is writing (R87, R94). -/
def State.readNow (s : State) (off : Nat) (w : Width) : Word :=
  if off < 0x100 then s.readReg off else s.readDbuf off w

/-- What a read returns in RESETTING (R522): STATUS is BUSY alone, ID and CFG their constants, all else 0. -/
def readResetting (off : Nat) : Word :=
  match off with
  | 0x000 => Config.idWord
  | 0x008 => 1
  | 0x028 => Config.cfgWord
  | _ => 0

/-- The offsets whose reads are draws in BUSY: FLAGS, RES and DBUF (R94). -/
def drawnWhileBusy (off : Nat) : Bool := off == 0x010 || off == 0x014 || decide (0x100 ≤ off)

/-- The bits of a drawn read that are drawn: CMP and C of FLAGS, whose bits 31:3 read 0 in BUSY too (R40, R49, R53, I-8;
log entry 27), and the whole access elsewhere (R94, I-2). -/
def drawnBits (off : Nat) (w : Width) : Nat := if off = 0x010 then 3 else 8 * w.bytes

/-- The n-th drawn read, its bits above the drawn ones 0 (log entry 8). -/
def drawRead (n off : Nat) (w : Width) : Word := BitVec.ofNat 32 ((Config.freeRead n).toNat % 2 ^ drawnBits off w)

/-- A read answered with `v`. -/
def State.reply (s : State) (v : Word) : State := { s with hostOut := s.hostOut ++ [v] }

/-- A read of the window (R87: no side effect on the block). -/
def hostRead (off : Nat) (w : Width) (s : State) : Result :=
  if accessOk off w then
    match s.seq with
    | .resetting => .next (s.reply (readResetting off))
    | .busy =>
      if drawnWhileBusy off then .next { s.reply (drawRead s.draws off w) with draws := s.draws + 1 }
      else .next (s.reply (s.readNow off w))
    | .idle => .next (s.reply (s.readNow off w))
  else .fault .busError

/-! ### Writes -/

/-- A write ignored because of BUSY or ERR sets OVR (R530). -/
def State.overrun (s : State) : State := { s with status := { s.status with ovr := true } }

/-- A write that BUSY makes the block ignore (R530). -/
def State.unlessBusy (s t : State) : State := if s.seq = .busy then s.overrun else t

/-- CTRL (R50, R521): SRST = 1 starts a reset and the other bits are ignored; otherwise the enables are written. -/
def State.writeCtrl (s : State) (d : Word) : State :=
  if d.getLsbD 31 then s.enterReset
  else { s with ctrl := { ieDone := d.getLsbD 0, ieErr := d.getLsbD 1 } }

/-- STATUS (R51): a 1 written to DONE, ERR or OVR clears it; ERR takes ERRCODE with it (the return, R480). -/
def State.writeStatus (s : State) (d : Word) : State :=
  let s1 := if d.getLsbD 1 then { s with status := { s.status with done := false } } else s
  let s2 := if d.getLsbD 2 then s1.clearError else s1
  if d.getLsbD 3 then { s2 with status := { s2.status with ovr := false } } else s2

/-- CMD (R52): accepted in IDLE with ERR = 0, otherwise ignored with OVR set. -/
def State.writeCmd (s : State) (d : Word) : State :=
  if s.seq = .idle ∧ s.status.err = false then s.accept d else s.overrun

/-- A register written in IDLE or BUSY; read-only registers and reserved offsets ignore it (R48 to R59, R85, R530). -/
def State.writeReg (s : State) (off : Nat) (d : Word) : State :=
  match off with
  | 0x004 => s.writeCtrl d
  | 0x008 => s.writeStatus d
  | 0x00C => s.writeCmd d
  | 0x010 => s.unlessBusy (s.setC (d.getLsbD 0))
  | 0x018 => s.unlessBusy { s with argLo := d }
  | 0x01C => s.unlessBusy { s with argHi := d.setWidth 17 }
  | _ => s

/-- DBUF written little-endian (R82, R84). -/
def State.writeDbuf (s : State) (off : Nat) (w : Width) (d : Word) : State :=
  { s with dbuf := s.dbuf.writeBytes (off - 0x100) (leBytes w.bytes d.toNat) }

/-- A write to the window; in RESETTING it is ignored and OVR is not set (R522). -/
def hostWrite (off : Nat) (w : Width) (d : Word) (s : State) : Result :=
  if accessOk off w then
    if s.seq = .resetting then .next s
    else if off < 0x100 then .next (s.writeReg off d)
    else .next (s.unlessBusy (s.writeDbuf off w d))
  else .fault .busError

end Sys2Proof.Machine
end

