-- ==== Sys2Proof/WellFormed.lean ====
section
/-! DEFINITION. The well-formed commands: the checks a decoder makes beyond the reserved fields
(spec/30_encoding.md R118, R119). Register numbers and immediates are in range by their types (R113, R114); a
curve field of 5 or more, a shift amount above 23 and a slot of 4 or more are argument errors of the command
itself, not decoding errors (R114). -/

namespace Sys2Proof

/-- R118: the two destinations of BN.DIVMOD, BN.DIVI and EC.AFF differ. R119: the flag z of EC.STENC is 0 or 1. -/
def Instr.wf : Instr → Bool
  | .nop => true
  | .bnLdb _ _ _ => true
  | .bnStb _ _ => true
  | .bnFromint _ => true
  | .bnLdl _ _ _ => true
  | .bnStl _ _ => true
  | .bnMov _ _ => true
  | .bnResize _ _ _ => true
  | .bnTrim _ _ => true
  | .bnBitlen _ => true
  | .bnSize _ => true
  | .bnAdd _ _ _ => true
  | .bnSub _ _ _ => true
  | .bnSubge _ _ _ => true
  | .bnMul _ _ _ => true
  | .bnSqr _ _ => true
  | .bnDivmod rq rr _ _ => rq != rr
  | .bnDiv _ _ _ => true
  | .bnMod _ _ _ => true
  | .bnDivi rq rr _ _ => rq != rr
  | .bnShl _ _ _ => true
  | .bnShr _ _ _ => true
  | .bnAnd _ _ _ => true
  | .bnOr _ _ _ => true
  | .bnXor _ _ _ => true
  | .bnNeg _ _ => true
  | .bnCmp _ _ => true
  | .bnEq _ _ => true
  | .bnLt _ _ => true
  | .bnGe _ _ => true
  | .bnBetw _ _ _ => true
  | .bnBit _ _ => true
  | .bnEven _ => true
  | .bnOdd _ => true
  | .bnSel _ _ _ => true
  | .bnNyb _ _ => true
  | .bnMadd _ _ _ _ => true
  | .bnMsub _ _ _ _ => true
  | .bnMmul _ _ _ _ => true
  | .bnMexp _ _ _ _ => true
  | .ecInf _ _ => true
  | .ecLdaff _ _ _ _ => true
  | .ecGen _ _ => true
  | .ecLdenc _ _ _ => true
  | .ecStenc _ _ z => decide (z.val ≤ 1)
  | .ecAff rx ry _ => rx != ry
  | .ecMov _ _ => true
  | .ecOrder _ _ => true
  | .ecPrime _ _ => true
  | .ecAdd _ _ _ => true
  | .ecDbl _ _ => true
  | .ecMul _ _ _ => true
  | .ecMktab _ _ => true
  | .ecDetab _ => true
  | .ecNeg _ _ => true
  | .ecIson _ => true
  | .ecIsinf _ => true
  | .ecEq _ _ => true

end Sys2Proof
end

