-- ==== Sys2Proof/Decode.lean ====
section
/-! DEFINITION. The decoder of command words, total on every 32-bit word (spec/30_encoding.md R110 to R121), and
after it the encoder, written from the same tables. A command is one 32-bit word (R110), so there is no length to
find: a word decodes to a command or is an illegal command (`none`). -/

namespace Sys2Proof

/-! ### The fields of a command word (R111) -/

/-- OP, bits 31:24. -/
def fieldOp (w : Word) : Nat := w.toNat / 2 ^ 24

/-- A, bits 23:20. -/
def fieldA (w : Word) : Fin 16 := ⟨w.toNat / 2 ^ 20 % 16, Nat.mod_lt _ (by decide)⟩

/-- B, bits 19:16. -/
def fieldB (w : Word) : Fin 16 := ⟨w.toNat / 2 ^ 16 % 16, Nat.mod_lt _ (by decide)⟩

/-- C, bits 15:12. -/
def fieldC (w : Word) : Fin 16 := ⟨w.toNat / 2 ^ 12 % 16, Nat.mod_lt _ (by decide)⟩

/-- D, bits 11:8. -/
def fieldD (w : Word) : Fin 16 := ⟨w.toNat / 2 ^ 8 % 16, Nat.mod_lt _ (by decide)⟩

/-- I, bits 7:0. -/
def fieldI (w : Word) : Imm8 := ⟨w.toNat % 256, Nat.mod_lt _ (by decide)⟩

/-- L, bits 15:8, over C and D. -/
def fieldL (w : Word) : Imm8 := ⟨w.toNat / 2 ^ 8 % 256, Nat.mod_lt _ (by decide)⟩

/-- X, bits 11:0, over D and I. -/
def fieldX (w : Word) : BitIndex := ⟨w.toNat % 4096, Nat.mod_lt _ (by decide)⟩

/-! ### The formats (R112): every field a format does not use is zero (R115) -/

/-- Format N: no field. -/
def formatN (w : Word) (k : Instr) : Option Instr :=
  if fieldA w = 0 ∧ fieldB w = 0 ∧ fieldC w = 0 ∧ fieldD w = 0 ∧ fieldI w = 0 then some k else none

/-- Format R3: A, B, C. -/
def formatR3 (w : Word) (k : Fin 16 → Fin 16 → Fin 16 → Instr) : Option Instr :=
  if fieldD w = 0 ∧ fieldI w = 0 then some (k (fieldA w) (fieldB w) (fieldC w)) else none

/-- Format R2: A, B. -/
def formatR2 (w : Word) (k : Fin 16 → Fin 16 → Instr) : Option Instr :=
  if fieldC w = 0 ∧ fieldD w = 0 ∧ fieldI w = 0 then some (k (fieldA w) (fieldB w)) else none

/-- Format R4: A, B, C, D. -/
def formatR4 (w : Word) (k : Fin 16 → Fin 16 → Fin 16 → Fin 16 → Instr) : Option Instr :=
  if fieldI w = 0 then some (k (fieldA w) (fieldB w) (fieldC w) (fieldD w)) else none

/-- Format Q: A, B, C, D (rq, rr, rs1, rs2 in the order A, D, B, C). -/
def formatQ (w : Word) (k : Fin 16 → Fin 16 → Fin 16 → Fin 16 → Instr) : Option Instr :=
  if fieldI w = 0 then some (k (fieldA w) (fieldD w) (fieldB w) (fieldC w)) else none

/-- Format S1: B. -/
def formatS1 (w : Word) (k : Fin 16 → Instr) : Option Instr :=
  if fieldA w = 0 ∧ fieldC w = 0 ∧ fieldD w = 0 ∧ fieldI w = 0 then some (k (fieldB w)) else none

/-- Format S2: B, C. -/
def formatS2 (w : Word) (k : Fin 16 → Fin 16 → Instr) : Option Instr :=
  if fieldA w = 0 ∧ fieldD w = 0 ∧ fieldI w = 0 then some (k (fieldB w) (fieldC w)) else none

/-- Format S3: B, C, D. -/
def formatS3 (w : Word) (k : Fin 16 → Fin 16 → Fin 16 → Instr) : Option Instr :=
  if fieldA w = 0 ∧ fieldI w = 0 then some (k (fieldB w) (fieldC w) (fieldD w)) else none

/-- Format D1: A. -/
def formatD1 (w : Word) (k : Fin 16 → Instr) : Option Instr :=
  if fieldB w = 0 ∧ fieldC w = 0 ∧ fieldD w = 0 ∧ fieldI w = 0 then some (k (fieldA w)) else none

/-- Format MI: A, I, L. -/
def formatMI (w : Word) (k : Fin 16 → Imm8 → Imm8 → Instr) : Option Instr :=
  if fieldB w = 0 then some (k (fieldA w) (fieldI w) (fieldL w)) else none

/-- Format MO: B, I. -/
def formatMO (w : Word) (k : Fin 16 → Imm8 → Instr) : Option Instr :=
  if fieldA w = 0 ∧ fieldC w = 0 ∧ fieldD w = 0 then some (k (fieldB w) (fieldI w)) else none

/-- Format SH: A, B, I. -/
def formatSH (w : Word) (k : Fin 16 → Fin 16 → Imm8 → Instr) : Option Instr :=
  if fieldC w = 0 ∧ fieldD w = 0 then some (k (fieldA w) (fieldB w) (fieldI w)) else none

/-- Format BX: B, X. -/
def formatBX (w : Word) (k : Fin 16 → BitIndex → Instr) : Option Instr :=
  if fieldA w = 0 ∧ fieldC w = 0 then some (k (fieldB w) (fieldX w)) else none

/-- Format CV: A, D. -/
def formatCV (w : Word) (k : Fin 16 → Fin 16 → Instr) : Option Instr :=
  if fieldB w = 0 ∧ fieldC w = 0 ∧ fieldI w = 0 then some (k (fieldA w) (fieldD w)) else none

/-- Format CA: A, B, C, D. -/
def formatCA (w : Word) (k : Fin 16 → Fin 16 → Fin 16 → Fin 16 → Instr) : Option Instr :=
  if fieldI w = 0 then some (k (fieldA w) (fieldB w) (fieldC w) (fieldD w)) else none

/-- Format CE: A, I, D. -/
def formatCE (w : Word) (k : Fin 16 → Imm8 → Fin 16 → Instr) : Option Instr :=
  if fieldB w = 0 ∧ fieldC w = 0 then some (k (fieldA w) (fieldI w) (fieldD w)) else none

/-- Format SE: B, I, C. -/
def formatSE (w : Word) (k : Fin 16 → Imm8 → Fin 16 → Instr) : Option Instr :=
  if fieldA w = 0 ∧ fieldD w = 0 then some (k (fieldB w) (fieldI w) (fieldC w)) else none

/-- Format AF: A, D, B. -/
def formatAF (w : Word) (k : Fin 16 → Fin 16 → Fin 16 → Instr) : Option Instr :=
  if fieldC w = 0 ∧ fieldI w = 0 then some (k (fieldA w) (fieldD w) (fieldB w)) else none

/-- Format PS: B, I. -/
def formatPS (w : Word) (k : Fin 16 → Imm8 → Instr) : Option Instr :=
  if fieldA w = 0 ∧ fieldC w = 0 ∧ fieldD w = 0 then some (k (fieldB w) (fieldI w)) else none

/-! ### The opcode map (R116) -/

/-- The row of the opcode map a word selects (R115, R116, R117), before the checks of R118 and R119. -/
def decodeRow (w : Word) : Option Instr :=
  match fieldOp w with
  | 0x00 => formatN w .nop
  | 0x01 => formatMI w .bnLdb
  | 0x02 => formatMO w .bnStb
  | 0x03 => formatD1 w .bnFromint
  | 0x04 => formatMI w .bnLdl
  | 0x05 => formatMO w .bnStl
  | 0x06 => formatR2 w .bnMov
  | 0x07 => formatSH w .bnResize
  | 0x08 => formatR2 w .bnTrim
  | 0x09 => formatS1 w .bnBitlen
  | 0x0A => formatS1 w .bnSize
  | 0x10 => formatR3 w .bnAdd
  | 0x11 => formatR3 w .bnSub
  | 0x12 => formatR3 w .bnSubge
  | 0x13 => formatR3 w .bnMul
  | 0x14 => formatR2 w .bnSqr
  | 0x15 => formatQ w .bnDivmod
  | 0x16 => formatR3 w .bnDiv
  | 0x17 => formatR3 w .bnMod
  | 0x18 => formatQ w .bnDivi
  | 0x19 => formatSH w .bnShl
  | 0x1A => formatSH w .bnShr
  | 0x1B => formatR3 w .bnAnd
  | 0x1C => formatR3 w .bnOr
  | 0x1D => formatR3 w .bnXor
  | 0x1E => formatR2 w .bnNeg
  | 0x20 => formatS2 w .bnCmp
  | 0x21 => formatS2 w .bnEq
  | 0x22 => formatS2 w .bnLt
  | 0x23 => formatS2 w .bnGe
  | 0x24 => formatS3 w .bnBetw
  | 0x25 => formatBX w .bnBit
  | 0x26 => formatS1 w .bnEven
  | 0x27 => formatS1 w .bnOdd
  | 0x28 => formatR3 w .bnSel
  | 0x29 => formatMO w .bnNyb
  | 0x30 => formatR4 w .bnMadd
  | 0x31 => formatR4 w .bnMsub
  | 0x32 => formatR4 w .bnMmul
  | 0x33 => formatR4 w .bnMexp
  | 0x40 => formatCV w .ecInf
  | 0x41 => formatCA w .ecLdaff
  | 0x42 => formatCV w .ecGen
  | 0x43 => formatCE w .ecLdenc
  | 0x44 => formatSE w .ecStenc
  | 0x45 => formatAF w .ecAff
  | 0x46 => formatR2 w .ecMov
  | 0x47 => formatCV w .ecOrder
  | 0x48 => formatCV w .ecPrime
  | 0x50 => formatR3 w .ecAdd
  | 0x51 => formatR2 w .ecDbl
  | 0x52 => formatR3 w .ecMul
  | 0x53 => formatPS w .ecMktab
  | 0x54 => formatS1 w .ecDetab
  | 0x55 => formatR2 w .ecNeg
  | 0x58 => formatS1 w .ecIson
  | 0x59 => formatS1 w .ecIsinf
  | 0x5A => formatS2 w .ecEq
  | _ => none

/-- R121: the command a word stands for, or `none` where it is ILLEGAL_COMMAND. -/
def decode (w : Word) : Option Instr :=
  match decodeRow w with
  | some i => if i.wf then some i else none
  | none => none

/-- The command read from the low `nbits` bits of `w`, every higher bit 0 (a command word has 32 bits, R110). -/
def decodeTableWord (nbits w : Nat) : Option Instr := decode (BitVec.ofNat 32 (w % 2 ^ nbits))

/-! ### The encoder -/

/-- A word from its fields OP, A, B, C, D, I (R111). -/
def packWord (op a b c d i : Nat) : Word :=
  BitVec.ofNat 32 (op * 2 ^ 24 + a * 2 ^ 20 + b * 2 ^ 16 + c * 2 ^ 12 + d * 2 ^ 8 + i)

/-- The word of a command (R112, R116): L is laid over C and D, X over D and I (R111). -/
def encode : Instr → Word
  | .nop => packWord 0x00 0 0 0 0 0
  | .bnLdb rd off len => packWord 0x01 rd.val 0 (len.val / 16) (len.val % 16) off.val
  | .bnStb rs off => packWord 0x02 0 rs.val 0 0 off.val
  | .bnFromint rd => packWord 0x03 rd.val 0 0 0 0
  | .bnLdl rd off n => packWord 0x04 rd.val 0 (n.val / 16) (n.val % 16) off.val
  | .bnStl rs off => packWord 0x05 0 rs.val 0 0 off.val
  | .bnMov rd rs => packWord 0x06 rd.val rs.val 0 0 0
  | .bnResize rd rs n => packWord 0x07 rd.val rs.val 0 0 n.val
  | .bnTrim rd rs => packWord 0x08 rd.val rs.val 0 0 0
  | .bnBitlen rs => packWord 0x09 0 rs.val 0 0 0
  | .bnSize rs => packWord 0x0A 0 rs.val 0 0 0
  | .bnAdd rd rs1 rs2 => packWord 0x10 rd.val rs1.val rs2.val 0 0
  | .bnSub rd rs1 rs2 => packWord 0x11 rd.val rs1.val rs2.val 0 0
  | .bnSubge rd rs1 rs2 => packWord 0x12 rd.val rs1.val rs2.val 0 0
  | .bnMul rd rs1 rs2 => packWord 0x13 rd.val rs1.val rs2.val 0 0
  | .bnSqr rd rs => packWord 0x14 rd.val rs.val 0 0 0
  | .bnDivmod rq rr rs1 rs2 => packWord 0x15 rq.val rs1.val rs2.val rr.val 0
  | .bnDiv rd rs1 rs2 => packWord 0x16 rd.val rs1.val rs2.val 0 0
  | .bnMod rd rs1 rs2 => packWord 0x17 rd.val rs1.val rs2.val 0 0
  | .bnDivi rq rr rs1 rs2 => packWord 0x18 rq.val rs1.val rs2.val rr.val 0
  | .bnShl rd rs sh => packWord 0x19 rd.val rs.val 0 0 sh.val
  | .bnShr rd rs sh => packWord 0x1A rd.val rs.val 0 0 sh.val
  | .bnAnd rd rs1 rs2 => packWord 0x1B rd.val rs1.val rs2.val 0 0
  | .bnOr rd rs1 rs2 => packWord 0x1C rd.val rs1.val rs2.val 0 0
  | .bnXor rd rs1 rs2 => packWord 0x1D rd.val rs1.val rs2.val 0 0
  | .bnNeg rd rs => packWord 0x1E rd.val rs.val 0 0 0
  | .bnCmp rs1 rs2 => packWord 0x20 0 rs1.val rs2.val 0 0
  | .bnEq rs1 rs2 => packWord 0x21 0 rs1.val rs2.val 0 0
  | .bnLt rs1 rs2 => packWord 0x22 0 rs1.val rs2.val 0 0
  | .bnGe rs1 rs2 => packWord 0x23 0 rs1.val rs2.val 0 0
  | .bnBetw rs ra rb => packWord 0x24 0 rs.val ra.val rb.val 0
  | .bnBit rs idx => packWord 0x25 0 rs.val 0 (idx.val / 256) (idx.val % 256)
  | .bnEven rs => packWord 0x26 0 rs.val 0 0 0
  | .bnOdd rs => packWord 0x27 0 rs.val 0 0 0
  | .bnSel rd rs1 rs2 => packWord 0x28 rd.val rs1.val rs2.val 0 0
  | .bnNyb rs off => packWord 0x29 0 rs.val 0 0 off.val
  | .bnMadd rd rs1 rs2 rm => packWord 0x30 rd.val rs1.val rs2.val rm.val 0
  | .bnMsub rd rs1 rs2 rm => packWord 0x31 rd.val rs1.val rs2.val rm.val 0
  | .bnMmul rd rs1 rs2 rm => packWord 0x32 rd.val rs1.val rs2.val rm.val 0
  | .bnMexp rd rs1 rs2 rm => packWord 0x33 rd.val rs1.val rs2.val rm.val 0
  | .ecInf pd cv => packWord 0x40 pd.val 0 0 cv.val 0
  | .ecLdaff pd rx ry cv => packWord 0x41 pd.val rx.val ry.val cv.val 0
  | .ecGen pd cv => packWord 0x42 pd.val 0 0 cv.val 0
  | .ecLdenc pd off cv => packWord 0x43 pd.val 0 0 cv.val off.val
  | .ecStenc ps off z => packWord 0x44 0 ps.val z.val 0 off.val
  | .ecAff rx ry ps => packWord 0x45 rx.val ps.val 0 ry.val 0
  | .ecMov pd ps => packWord 0x46 pd.val ps.val 0 0 0
  | .ecOrder rd cv => packWord 0x47 rd.val 0 0 cv.val 0
  | .ecPrime rd cv => packWord 0x48 rd.val 0 0 cv.val 0
  | .ecAdd pd ps1 ps2 => packWord 0x50 pd.val ps1.val ps2.val 0 0
  | .ecDbl pd ps => packWord 0x51 pd.val ps.val 0 0 0
  | .ecMul pd ps rk => packWord 0x52 pd.val ps.val rk.val 0 0
  | .ecMktab ps slot => packWord 0x53 0 ps.val 0 0 slot.val
  | .ecDetab ps => packWord 0x54 0 ps.val 0 0 0
  | .ecNeg pd ps => packWord 0x55 pd.val ps.val 0 0 0
  | .ecIson ps => packWord 0x58 0 ps.val 0 0 0
  | .ecIsinf ps => packWord 0x59 0 ps.val 0 0 0
  | .ecEq ps1 ps2 => packWord 0x5A 0 ps1.val ps2.val 0 0

/-! ### The map as masks (R115, R116) -/

/-- The rows of the opcode map as (match, mask), in the order of R116. -/
def opcodeTable : List (Word × Word) :=
  [(0x00000000#32, 0xFFFFFFFF#32), (0x01000000#32, 0xFF0F0000#32), (0x02000000#32, 0xFFF0FF00#32), (0x03000000#32, 0xFF0FFFFF#32),
   (0x04000000#32, 0xFF0F0000#32), (0x05000000#32, 0xFFF0FF00#32), (0x06000000#32, 0xFF00FFFF#32), (0x07000000#32, 0xFF00FF00#32),
   (0x08000000#32, 0xFF00FFFF#32), (0x09000000#32, 0xFFF0FFFF#32), (0x0A000000#32, 0xFFF0FFFF#32), (0x10000000#32, 0xFF000FFF#32)] ++
  [(0x11000000#32, 0xFF000FFF#32), (0x12000000#32, 0xFF000FFF#32), (0x13000000#32, 0xFF000FFF#32), (0x14000000#32, 0xFF00FFFF#32),
   (0x15000000#32, 0xFF0000FF#32), (0x16000000#32, 0xFF000FFF#32), (0x17000000#32, 0xFF000FFF#32), (0x18000000#32, 0xFF0000FF#32),
   (0x19000000#32, 0xFF00FF00#32), (0x1A000000#32, 0xFF00FF00#32), (0x1B000000#32, 0xFF000FFF#32), (0x1C000000#32, 0xFF000FFF#32)] ++
  [(0x1D000000#32, 0xFF000FFF#32), (0x1E000000#32, 0xFF00FFFF#32), (0x20000000#32, 0xFFF00FFF#32), (0x21000000#32, 0xFFF00FFF#32),
   (0x22000000#32, 0xFFF00FFF#32), (0x23000000#32, 0xFFF00FFF#32), (0x24000000#32, 0xFFF000FF#32), (0x25000000#32, 0xFFF0F000#32),
   (0x26000000#32, 0xFFF0FFFF#32), (0x27000000#32, 0xFFF0FFFF#32), (0x28000000#32, 0xFF000FFF#32), (0x29000000#32, 0xFFF0FF00#32)] ++
  [(0x30000000#32, 0xFF0000FF#32), (0x31000000#32, 0xFF0000FF#32), (0x32000000#32, 0xFF0000FF#32), (0x33000000#32, 0xFF0000FF#32),
   (0x40000000#32, 0xFF0FF0FF#32), (0x41000000#32, 0xFF0000FF#32), (0x42000000#32, 0xFF0FF0FF#32), (0x43000000#32, 0xFF0FF000#32),
   (0x44000000#32, 0xFFF00F00#32), (0x45000000#32, 0xFF00F0FF#32), (0x46000000#32, 0xFF00FFFF#32), (0x47000000#32, 0xFF0FF0FF#32)] ++
  [(0x48000000#32, 0xFF0FF0FF#32), (0x50000000#32, 0xFF000FFF#32), (0x51000000#32, 0xFF00FFFF#32), (0x52000000#32, 0xFF000FFF#32),
   (0x53000000#32, 0xFFF0FF00#32), (0x54000000#32, 0xFFF0FFFF#32), (0x55000000#32, 0xFF00FFFF#32), (0x58000000#32, 0xFFF0FFFF#32),
   (0x59000000#32, 0xFFF0FFFF#32), (0x5A000000#32, 0xFFF00FFF#32)]

end Sys2Proof
end

