-- ==== Sys2Proof/Machine/Operands.lean ====
section
/-! DEFINITION. The operand forms (spec/30_encoding.md R113, R114; spec/60_exceptions.md R473): a BigNum register
and a point register read as a source, and the curve field. An unwritten source raises UNWRITTEN_OPERAND. -/

namespace Sys2Proof.Machine

/-- A source `b[i]`: unwritten raises UNWRITTEN_OPERAND (R33, R473). -/
def withB (s : State) (i : BnNum) (k : BigNum → Result) : Result :=
  if (s.b i).written then k (s.b i).num else raise .unwrittenOperand s

/-- A source `p[i]`: EMPTY raises UNWRITTEN_OPERAND (R37, R473). -/
def withP (s : State) (i : PtNum) (k : Curve → PointVal → Result) : Result :=
  match (s.p i).cell with
  | .pt c v => k c v
  | .empty => raise .unwrittenOperand s

/-- The curve a curve field names (R330); 5 and above name none. -/
def curveOf (cv : CurveField) : Option Curve :=
  match cv.val with
  | 0 => some .p256
  | 1 => some .p384
  | 2 => some .p521
  | 3 => some .ed25519
  | 4 => some .x25519
  | _ => none

/-- The curve field of a command: cv > 4 raises INVALID_ARGUMENT (R331). -/
def withCurve (s : State) (cv : CurveField) (k : Curve → Result) : Result :=
  match curveOf cv with
  | some c => k c
  | none => raise .invalidArgument s

/-- The table slot an immediate names (R114, R359); NT and above name none. -/
def slotOf (slot : Imm8) : Option (Fin 4) := if h : slot.val < 4 then some ⟨slot.val, h⟩ else none

/-- ARG = ARG_HI : ARG_LO, the 49-bit integer argument (R57). -/
def State.arg (s : State) : Nat := s.argHi.toNat * 2 ^ 32 + s.argLo.toNat

end Sys2Proof.Machine
end

