-- ==== Sys2Proof/Machine/BnArith.lean ====
section
/-! DEFINITION. BigNum arithmetic, shift and bitwise commands (spec/41_bignum_arith.md). The result capacities are
those of R200; the checks stand in the order of each rule's pseudocode (spec/60_exceptions.md R478). -/

namespace Sys2Proof.Machine

/-- BN.ADD rd, rs1, rs2 (R204). -/
def execBnAdd (rd rs1 rs2 : BnNum) (s : State) : Result :=
  withB s rs1 fun a => withB s rs2 fun b =>
    if Config.lmax < max a.size b.size + 1 then raise .capacityExceeded s
    else complete (s.writeB rd (BigNum.ofVal (max a.size b.size + 1) (a.val + b.val)))

/-- BN.SUB rd, rs1, rs2 (R206): underflow is an error. -/
def execBnSub (rd rs1 rs2 : BnNum) (s : State) : Result :=
  withB s rs1 fun a => withB s rs2 fun b =>
    if a.val < b.val then raise .invalidArgument s
    else complete (s.writeB rd (BigNum.ofVal (max a.size b.size) (a.val - b.val)))

/-- BN.SUBGE rd, rs1, rs2 (R208): this unchanged where this < that. -/
def execBnSubge (rd rs1 rs2 : BnNum) (s : State) : Result :=
  withB s rs1 fun a => withB s rs2 fun b =>
    complete (s.writeB rd
      (BigNum.ofVal (max a.size b.size) (if b.val ≤ a.val then a.val - b.val else a.val)))

/-- BN.MUL rd, rs1, rs2 (R210). -/
def execBnMul (rd rs1 rs2 : BnNum) (s : State) : Result :=
  withB s rs1 fun a => withB s rs2 fun b =>
    if Config.lmax < a.size + b.size then raise .capacityExceeded s
    else complete (s.writeB rd (BigNum.ofVal (a.size + b.size) (a.val * b.val)))

/-- BN.SQR rd, rs (R212). -/
def execBnSqr (rd rs : BnNum) (s : State) : Result :=
  withB s rs fun a =>
    if Config.lmax < 2 * a.size then raise .capacityExceeded s
    else complete (s.writeB rd (BigNum.ofVal (2 * a.size) (a.val * a.val)))

/-- BN.DIVMOD rq, rr, rs1, rs2 (R216): rq ≠ rr by decoding (R118). -/
def execBnDivmod (rq rr rs1 rs2 : BnNum) (s : State) : Result :=
  withB s rs1 fun a => withB s rs2 fun b =>
    if b.val = 0 then raise .invalidArgument s
    else complete ((s.writeB rq (BigNum.ofVal a.size (a.val / b.val))).writeB rr
      (BigNum.ofVal b.size (a.val % b.val)))

/-- BN.DIV rd, rs1, rs2 (R218). -/
def execBnDiv (rd rs1 rs2 : BnNum) (s : State) : Result :=
  withB s rs1 fun a => withB s rs2 fun b =>
    if b.val = 0 then raise .invalidArgument s
    else complete (s.writeB rd (BigNum.ofVal a.size (a.val / b.val)))

/-- BN.MOD rd, rs1, rs2 (R220). -/
def execBnMod (rd rs1 rs2 : BnNum) (s : State) : Result :=
  withB s rs1 fun a => withB s rs2 fun b =>
    if b.val = 0 then raise .invalidArgument s
    else complete (s.writeB rd (BigNum.ofVal b.size (a.val % b.val)))

/-- BN.DIVI rq, rr, rs1, rs2 (R222): the divisor's value is one limb; the remainder has capacity 1. -/
def execBnDivi (rq rr rs1 rs2 : BnNum) (s : State) : Result :=
  withB s rs1 fun a => withB s rs2 fun b =>
    if b.val = 0 then raise .invalidArgument s
    else if 2 ^ 24 ≤ b.val then raise .invalidArgument s
    else complete ((s.writeB rq (BigNum.ofVal a.size (a.val / b.val))).writeB rr
      (BigNum.ofVal 1 (a.val % b.val)))

/-- BN.SHL rd, rs, sh (R226): the amount is checked before the capacity, as the pseudocode stands. -/
def execBnShl (rd rs : BnNum) (sh : Imm8) (s : State) : Result :=
  withB s rs fun a =>
    if 23 < sh.val then raise .invalidArgument s
    else if Config.lmax < a.size + 1 then raise .capacityExceeded s
    else complete (s.writeB rd (BigNum.ofVal (a.size + 1) (a.val * 2 ^ sh.val)))

/-- BN.SHR rd, rs, sh (R228). -/
def execBnShr (rd rs : BnNum) (sh : Imm8) (s : State) : Result :=
  withB s rs fun a =>
    if 23 < sh.val then raise .invalidArgument s
    else complete (s.writeB rd (BigNum.ofVal a.size (a.val / 2 ^ sh.val)))

/-- BN.AND rd, rs1, rs2 (R232). -/
def execBnAnd (rd rs1 rs2 : BnNum) (s : State) : Result :=
  withB s rs1 fun a => withB s rs2 fun b =>
    complete (s.writeB rd (BigNum.ofVal (max a.size b.size) (a.val &&& b.val)))

/-- BN.OR rd, rs1, rs2 (R233). -/
def execBnOr (rd rs1 rs2 : BnNum) (s : State) : Result :=
  withB s rs1 fun a => withB s rs2 fun b =>
    complete (s.writeB rd (BigNum.ofVal (max a.size b.size) (a.val ||| b.val)))

/-- BN.XOR rd, rs1, rs2 (R234). -/
def execBnXor (rd rs1 rs2 : BnNum) (s : State) : Result :=
  withB s rs1 fun a => withB s rs2 fun b =>
    complete (s.writeB rd (BigNum.ofVal (max a.size b.size) (a.val ^^^ b.val)))

/-- BN.NEG rd, rs (R236): (2^W − v) mod 2^W with W = 24·size. -/
def execBnNeg (rd rs : BnNum) (s : State) : Result :=
  withB s rs fun a =>
    complete (s.writeB rd (BigNum.ofVal a.size ((2 ^ (24 * a.size) - a.val) % 2 ^ (24 * a.size))))

end Sys2Proof.Machine
end

