-- ==== Sys2Proof/Machine/BnCompare.lean ====
section
/-! DEFINITION. BigNum comparison, predicates, select and signed-nybble recoding (spec/42_bignum_compare.md).
Comparisons are on values, not capacities (R258). -/

namespace Sys2Proof.Machine

/-- BN.CMP rs1, rs2 (R260). -/
def execBnCmp (rs1 rs2 : BnNum) (s : State) : Result :=
  withB s rs1 fun a => withB s rs2 fun b => complete (s.setCmp (compareSign a.val b.val))

/-- BN.EQ rs1, rs2 (R262). -/
def execBnEq (rs1 rs2 : BnNum) (s : State) : Result :=
  withB s rs1 fun a => withB s rs2 fun b => complete (s.setC (decide (a.val = b.val)))

/-- BN.LT rs1, rs2 (R264). -/
def execBnLt (rs1 rs2 : BnNum) (s : State) : Result :=
  withB s rs1 fun a => withB s rs2 fun b => complete (s.setC (decide (a.val < b.val)))

/-- BN.GE rs1, rs2 (R266). -/
def execBnGe (rs1 rs2 : BnNum) (s : State) : Result :=
  withB s rs1 fun a => withB s rs2 fun b => complete (s.setC (decide (b.val ≤ a.val)))

/-- BN.BETW rs, ra, rb (R268): both bounds exclusive. -/
def execBnBetw (rs ra rb : BnNum) (s : State) : Result :=
  withB s rs fun v => withB s ra fun lo => withB s rb fun hi =>
    complete (s.setC (decide (lo.val < v.val ∧ v.val < hi.val)))

/-- BN.BIT rs, idx (R270). -/
def execBnBit (rs : BnNum) (idx : BitIndex) (s : State) : Result :=
  withB s rs fun a => complete (s.setC (bitSet a.val idx.val))

/-- BN.EVEN rs (R272). -/
def execBnEven (rs : BnNum) (s : State) : Result :=
  withB s rs fun a => complete (s.setC (decide (a.val % 2 = 0)))

/-- BN.ODD rs (R274). -/
def execBnOdd (rs : BnNum) (s : State) : Result :=
  withB s rs fun a => complete (s.setC (decide (a.val % 2 = 1)))

/-- BN.SEL rd, rs1, rs2 (R276): C selects, over every limb position. -/
def execBnSel (rd rs1 rs2 : BnNum) (s : State) : Result :=
  withB s rs1 fun a => withB s rs2 fun b => complete (s.writeB rd (selectBig s.flags.c a b))

/-- BN.NYB rs, off (R280): 6·size + 1 digits. -/
def execBnNyb (rs : BnNum) (off : Imm8) (s : State) : Result :=
  withB s rs fun a =>
    if Config.dbufSize < off.val + (6 * a.size + 1) then raise .dbufRange s
    else complete
      ({ s with dbuf := s.dbuf.writeBytes off.val (nybbleBytes a.size a.val) }.setRes (6 * a.size + 1))

end Sys2Proof.Machine
end

