-- ==== Sys2Proof/Machine/BnData.lean ====
section
/-! DEFINITION. BigNum construction, conversion and size commands (spec/40_bignum_data.md). The checks stand in the
order of each rule's pseudocode (spec/60_exceptions.md R478). -/

namespace Sys2Proof.Machine

/-- BN.LDB rd, off, len (R151). -/
def execBnLdb (rd : BnNum) (off len : Imm8) (s : State) : Result :=
  if Config.dbufSize < off.val + len.val then raise .dbufRange s
  else if Config.lmax < ceilDiv len.val 3 then raise .capacityExceeded s
  else complete (s.writeB rd (BigNum.ofVal (ceilDiv len.val 3) (beVal (s.dbuf.readBytes off.val len.val))))

/-- BN.STB rs, off (R157): leading zero bytes are not written. -/
def execBnStb (rs : BnNum) (off : Imm8) (s : State) : Result :=
  withB s rs fun a =>
    let m := ceilDiv (bitlen a.val) 8
    if Config.dbufSize < off.val + m then raise .dbufRange s
    else complete ({ s with dbuf := s.dbuf.writeBytes off.val (beBytes m a.val) }.setRes m)

/-- BN.FROMINT rd (R154): ARG up to 2^48, capacity 3. -/
def execBnFromint (rd : BnNum) (s : State) : Result :=
  if 2 ^ 48 < s.arg then raise .invalidArgument s
  else complete (s.writeB rd (BigNum.ofVal 3 s.arg))

/-- BN.LDL rd, off, n (R156). -/
def execBnLdl (rd : BnNum) (off n : Imm8) (s : State) : Result :=
  if Config.lmax < n.val then raise .capacityExceeded s
  else if Config.dbufSize < off.val + 3 * n.val then raise .dbufRange s
  else complete (s.writeB rd { limbs := limbsOfBytes (s.dbuf.readBytes off.val (3 * n.val)) })

/-- BN.STL rs, off (R160): every limb of the capacity is written. -/
def execBnStl (rs : BnNum) (off : Imm8) (s : State) : Result :=
  withB s rs fun a =>
    if Config.dbufSize < off.val + 3 * a.size then raise .dbufRange s
    else complete ({ s with dbuf := s.dbuf.writeBytes off.val (bytesOfLimbs a.limbs) }.setRes (3 * a.size))

/-- BN.MOV rd, rs (R162). -/
def execBnMov (rd rs : BnNum) (s : State) : Result :=
  withB s rs fun a => complete (s.writeB rd (BigNum.ofVal a.size a.val))

/-- BN.RESIZE rd, rs, n (R164): the value is truncated mod 2^(24 n). -/
def execBnResize (rd rs : BnNum) (n : Imm8) (s : State) : Result :=
  withB s rs fun a =>
    if Config.lmax < n.val then raise .capacityExceeded s
    else complete (s.writeB rd (BigNum.ofVal n.val (a.val % 2 ^ (24 * n.val))))

/-- BN.TRIM rd, rs (R168): capacity nlimbs(v). -/
def execBnTrim (rd rs : BnNum) (s : State) : Result :=
  withB s rs fun a => complete (s.writeB rd (BigNum.ofVal (nlimbs a.val) a.val))

/-- BN.BITLEN rs (R172). -/
def execBnBitlen (rs : BnNum) (s : State) : Result :=
  withB s rs fun a => complete (s.setRes (bitlen a.val))

/-- BN.SIZE rs (R174). -/
def execBnSize (rs : BnNum) (s : State) : Result :=
  withB s rs fun a => complete (s.setRes a.size)

end Sys2Proof.Machine
end

