-- ==== Sys2Proof/Machine/ModArith.lean ====
section
/-! DEFINITION. Arithmetic modulo a natural number, as the modular commands (spec/43_modular.md) and the curve
formulas (spec/45_ec_nist.md, spec/46_ec_edwards.md) use it. Results are the non-negative remainders of R8. -/

namespace Sys2Proof.Machine

/-- (a − b) mod m (R304): the remainder is not negative. -/
def subMod (m a b : Nat) : Nat := (a + (m - b % m)) % m

/-- The power by squaring over the low `f` bits of the exponent. -/
def powModBits (m a : Nat) : Nat → Nat → Nat
  | 0, _ => 1 % m
  | f + 1, e =>
    let r := powModBits m a f (e / 2)
    let q := r * r % m
    if e % 2 = 1 then q * a % m else q

/-- a^e mod m (R308), with a^0 = 1 mod m. Law: Laws/ModArith.lean proves it equal to `a ^ e % m`. -/
def powMod (m a e : Nat) : Nat := powModBits m (a % m) (bitlen e) e

/-- Euclid's algorithm on (r0, r1), with t0·a ≡ r0 and t1·a ≡ r1 (mod m); the remainders fall, so the fuel r1 is
enough. -/
def invLoop (m : Nat) : Nat → Nat → Nat → Nat → Nat → Nat
  | 0, _, _, t0, _ => t0
  | f + 1, r0, r1, t0, t1 =>
    if r1 = 0 then t0 else invLoop m f r1 (r0 % r1) t1 (subMod m t0 (r0 / r1 * t1))

/-- a⁻¹ mod m, the inverse the curve formulas write; 0 where a ≡ 0, a case no formula reaches (log entry 11). -/
def invMod (m a : Nat) : Nat := invLoop m (a % m + 1) m (a % m) 0 1 % m

end Sys2Proof.Machine
end

