-- ==== Sys2Proof/Machine/BnModular.lean ====
section
/-! DEFINITION. The modular arithmetic commands (spec/43_modular.md R300 to R308): the modulus is a register, m = 0
raises INVALID_ARGUMENT, operands need not be reduced, and the result has the capacity of the modulus. -/

namespace Sys2Proof.Machine

/-- BN.MADD rd, rs1, rs2, rm (R302). -/
def execBnMadd (rd rs1 rs2 rm : BnNum) (s : State) : Result :=
  withB s rs1 fun a => withB s rs2 fun b => withB s rm fun m =>
    if m.val = 0 then raise .invalidArgument s
    else complete (s.writeB rd (BigNum.ofVal m.size ((a.val + b.val) % m.val)))

/-- BN.MSUB rd, rs1, rs2, rm (R304). -/
def execBnMsub (rd rs1 rs2 rm : BnNum) (s : State) : Result :=
  withB s rs1 fun a => withB s rs2 fun b => withB s rm fun m =>
    if m.val = 0 then raise .invalidArgument s
    else complete (s.writeB rd (BigNum.ofVal m.size (subMod m.val a.val b.val)))

/-- BN.MMUL rd, rs1, rs2, rm (R306). -/
def execBnMmul (rd rs1 rs2 rm : BnNum) (s : State) : Result :=
  withB s rs1 fun a => withB s rs2 fun b => withB s rm fun m =>
    if m.val = 0 then raise .invalidArgument s
    else complete (s.writeB rd (BigNum.ofVal m.size (a.val * b.val % m.val)))

/-- BN.MEXP rd, rs1, rs2, rm (R308). -/
def execBnMexp (rd rs1 rs2 rm : BnNum) (s : State) : Result :=
  withB s rs1 fun a => withB s rs2 fun b => withB s rm fun m =>
    if m.val = 0 then raise .invalidArgument s
    else complete (s.writeB rd (BigNum.ofVal m.size (powMod m.val a.val b.val)))

end Sys2Proof.Machine
end

