-- ==== Sys2Proof/Machine/CurveRom.lean ====
section
/-! DEFINITION. The curve ROM (spec/44_ec_common.md R330, R332; spec/10_state.md R45): read-only constants of the
five curves. Curves 3 and 4 are the same group (R330). -/

namespace Sys2Proof.Machine

/-- Whether a curve is of the NIST family (cv ≤ 2) rather than the Edwards family (R330). -/
def Curve.isNist : Curve → Bool
  | .p256 => true
  | .p384 => true
  | .p521 => true
  | .ed25519 => false
  | .x25519 => false

/-- p_c, the field prime, by its formula in R332. -/
def Curve.prime : Curve → Nat
  | .p256 => 2 ^ 256 - 2 ^ 224 + 2 ^ 192 + 2 ^ 96 - 1
  | .p384 => 2 ^ 384 - 2 ^ 128 - 2 ^ 96 + 2 ^ 32 - 1
  | .p521 => 2 ^ 521 - 1
  | .ed25519 => 2 ^ 255 - 19
  | .x25519 => 2 ^ 255 - 19

/-- The curve coefficient: b_c of a NIST curve, d of edwards25519 (R332). -/
def Curve.coeff : Curve → Nat
  | .p256 => 0x5AC635D8AA3A93E7B3EBBD55769886BC651D06B0CC53B0F63BCE3C3E27D2604B
  | .p384 => 0xB3312FA7E23EE7E4988E056BE3F82D19181D9C6EFE8141120314088F5013875AC656398D8A2ED19D2A85C8EDD3EC2AEF
  | .p521 =>
    0x51953EB9618E1C9A1F929A21A0B68540EEA2DA725B99B315F3B8B489918EF109E156193951EC7E937B1652C0BD3BB1BF073573DF883D2C34F1EF451FD46B503F00
  | .ed25519 => 0x52036CEE2B6FFE738CC740797779E89800700A4D4141D8AB75EB4DCA135978A3
  | .x25519 => 0x52036CEE2B6FFE738CC740797779E89800700A4D4141D8AB75EB4DCA135978A3

/-- The x coordinate of the base point G_c (R332). -/
def Curve.gx : Curve → Nat
  | .p256 => 0x6B17D1F2E12C4247F8BCE6E563A440F277037D812DEB33A0F4A13945D898C296
  | .p384 => 0xAA87CA22BE8B05378EB1C71EF320AD746E1D3B628BA79B9859F741E082542A385502F25DBF55296C3A545E3872760AB7
  | .p521 =>
    0xC6858E06B70404E9CD9E3ECB662395B4429C648139053FB521F828AF606B4D3DBAA14B5E77EFE75928FE1DC127A2FFA8DE3348B3C1856A429BF97E7E31C2E5BD66
  | .ed25519 => 0x216936D3CD6E53FEC0A4E231FDD6DC5C692CC7609525A7B2C9562D608F25D51A
  | .x25519 => 0x216936D3CD6E53FEC0A4E231FDD6DC5C692CC7609525A7B2C9562D608F25D51A

/-- The y coordinate of the base point G_c (R332). -/
def Curve.gy : Curve → Nat
  | .p256 => 0x4FE342E2FE1A7F9B8EE7EB4A7C0F9E162BCE33576B315ECECBB6406837BF51F5
  | .p384 => 0x3617DE4A96262C6F5D9E98BF9292DC29F8F41DBD289A147CE9DA3113B5F0B8C00A60B1CE1D7E819D7A431D7C90EA0E5F
  | .p521 =>
    0x11839296A789A3BC0045C8A5FB42C7D1BD998F54449579B446817AFBD17273E662C97EE72995EF42640C550B9013FAD0761353C7086A272C24088BE94769FD16650
  | .ed25519 => 0x6666666666666666666666666666666666666666666666666666666666666658
  | .x25519 => 0x6666666666666666666666666666666666666666666666666666666666666658

/-- n_c, the group order (R332). -/
def Curve.order : Curve → Nat
  | .p256 => 0xFFFFFFFF00000000FFFFFFFFFFFFFFFFBCE6FAADA7179E84F3B9CAC2FC632551
  | .p384 => 0xFFFFFFFFFFFFFFFFFFFFFFFFFFFFFFFFFFFFFFFFFFFFFFFFC7634D81F4372DDF581A0DB248B0A77AECEC196ACCC52973
  | .p521 =>
    0x1FFFFFFFFFFFFFFFFFFFFFFFFFFFFFFFFFFFFFFFFFFFFFFFFFFFFFFFFFFFFFFFFFA51868783BF2F966B7FCC0148F709A5D03BB5C9B8899C47AEBB6FB71E91386409
  | .ed25519 => 2 ^ 252 + 27742317777372353535851937790883648493
  | .x25519 => 2 ^ 252 + 27742317777372353535851937790883648493

/-- F, the field bytes (R330). -/
def Curve.fieldBytes : Curve → Nat
  | .p256 => 32
  | .p384 => 48
  | .p521 => 66
  | .ed25519 => 32
  | .x25519 => 32

/-- Lf, the limbs of p (R330). -/
def Curve.fieldLimbs : Curve → Nat
  | .p256 => 11
  | .p384 => 16
  | .p521 => 22
  | .ed25519 => 11
  | .x25519 => 11

/-- Ln, the limbs of n (R330). -/
def Curve.orderLimbs : Curve → Nat
  | .p256 => 11
  | .p384 => 16
  | .p521 => 22
  | .ed25519 => 11
  | .x25519 => 11

/-- G_c, the base point. -/
def Curve.base (c : Curve) : PointVal := .aff c.gx c.gy

/-- O_c, the identity (R334): INF for a NIST curve, (0, 1) for edwards25519. -/
def Curve.identity (c : Curve) : PointVal := if c.isNist then .inf else .aff 0 1

end Sys2Proof.Machine
end

