-- ==== Sys2Proof/Machine/Edwards.lean ====
section
/-! DEFINITION. The Edwards curve family (spec/46_ec_edwards.md): −x² + y² = 1 + d·x²·y² over GF(p). INF is never a
value of an Edwards register (R334); the functions below leave it as it is (log entry 19). -/

namespace Sys2Proof.Machine

/-- The on-curve test (R439). -/
def edOnCurve (p d : Nat) : PointVal → Bool
  | .inf => false
  | .aff x y => subMod p (y * y) (x * x + 1 + d * (x * x) * (y * y)) == 0

/-- Neg (R433). -/
def edNeg (p : Nat) : PointVal → PointVal
  | .inf => .inf
  | .aff x y => .aff ((p - x) % p) y

/-- t = d·x1·x2·y1·y2 mod p (R434). -/
def edCross (p d x1 y1 x2 y2 : Nat) : Nat := d * x1 * x2 * y1 * y2 % p

/-- The group operation, the unified law (R434). -/
def edAdd (p d : Nat) : PointVal → PointVal → PointVal
  | .aff x1 y1, .aff x2 y2 =>
    let t := edCross p d x1 y1 x2 y2
    .aff ((x1 * y2 + y1 * x2) * invMod p (1 + t) % p) ((y1 * y2 + x1 * x2) * invMod p (subMod p 1 t) % p)
  | .inf, _ => .inf
  | .aff _ _, .inf => .inf

/-! ### The square root of R441 and R442 -/

/-- u = y² − 1 (R441). -/
def edRootNum (p y : Nat) : Nat := subMod p (y * y) 1

/-- w = d·y² + 1 (R441). -/
def edRootDen (p d y : Nat) : Nat := (d * y * y + 1) % p

/-- The candidate (u·w³)·(u·w⁷)^((p−5)/8) (R442). -/
def edRootCandidate (p u w : Nat) : Nat := u * w ^ 3 * powMod p (u * w ^ 7 % p) ((p - 5) / 8) % p

/-- A square root of u·w⁻¹ mod p, or none, by the method of R442. -/
def edSqrtRatio (p u w : Nat) : Option Nat :=
  let x := edRootCandidate p u w
  let v := w * x * x % p
  if v = u % p then some x
  else if v = subMod p 0 u then some (x * powMod p 2 ((p - 1) / 4) % p)
  else none

/-- The x of parity `s` for an ordinate `y`, or none (R441). -/
def edRecoverX (p d y s : Nat) : Option Nat :=
  match edSqrtRatio p (edRootNum p y) (edRootDen p d y) with
  | none => none
  | some x => if x = 0 ∧ s = 1 then none else if x % 2 ≠ s then some (p - x) else some x

/-! ### Byte encodings -/

/-- The Ed25519 encoding LE32(y + 2^255·(x mod 2)) (R440). -/
def edEncode (x y : Nat) : List Byte := leBytes 32 (y + 2 ^ 255 * (x % 2))

/-- The Ed25519 decoding (R441). -/
def edDecode (p d : Nat) (e : List Byte) : Option PointVal :=
  let s := leVal e / 2 ^ 255 % 2
  let y := leVal e % 2 ^ 255
  if p ≤ y then none else (edRecoverX p d y s).map (fun x => .aff x y)

/-- The Montgomery coordinate u = (1 + y)·(1 − y)⁻¹ mod p, 0 for y = 1 (R443). -/
def montU (p y : Nat) : Nat := if y = 1 then 0 else (1 + y) * invMod p (subMod p 1 y) % p

/-- The X25519 encoding LE32(u) (R443). -/
def montEncode (p y : Nat) : List Byte := leBytes 32 (montU p y)

/-- The ordinate y = (u − 1)·(u + 1)⁻¹ mod p (R444). -/
def montY (p u : Nat) : Nat := subMod p u 1 * invMod p (u + 1) % p

/-- The X25519 decoding (R444): bit 255 ignored, u reduced mod p, the even root taken. -/
def montDecode (p d : Nat) (e : List Byte) : Option PointVal :=
  let u := leVal e % 2 ^ 255 % p
  if (u + 1) % p = 0 then none else (edRecoverX p d (montY p u) 0).map (fun x => .aff x (montY p u))

end Sys2Proof.Machine
end

