-- ==== Sys2Proof/Machine/Nist.lean ====
section
/-! DEFINITION. The NIST curve family (spec/45_ec_nist.md): y² = x³ − 3x + b over GF(p). `p` and `b` are p_c and b_c,
`F` the field bytes. -/

namespace Sys2Proof.Machine

/-- (x³ − 3x + b) mod p (R390). -/
def nistRhs (p b x : Nat) : Nat := subMod p (x * x * x + b) (3 * x)

/-- The on-curve test (R398); INF passes (R399). -/
def nistOnCurve (p b : Nat) : PointVal → Bool
  | .inf => true
  | .aff x y => subMod p (y * y) (nistRhs p b x) == 0

/-- Neg (R392). -/
def nistNeg (p : Nat) : PointVal → PointVal
  | .inf => .inf
  | .aff x y => .aff x ((p - y) % p)

/-- The slope λ of R393 for two affine points that are not inverse: the tangent where x1 = x2, else the chord. -/
def nistSlope (p x1 y1 x2 y2 : Nat) : Nat :=
  if x1 = x2 then subMod p (3 * x1 * x1) 3 * invMod p (2 * y1) % p
  else subMod p y2 y1 * invMod p (subMod p x2 x1) % p

/-- The third point on the line of slope `l` through (x1, y1), reflected (R393). -/
def nistChord (p l x1 y1 x2 : Nat) : PointVal :=
  let x3 := subMod p (subMod p (l * l) x1) x2
  .aff x3 (subMod p (l * subMod p x1 x3) y1)

/-- The group operation P ⊕ Q (R393, R394). -/
def nistAdd (p : Nat) : PointVal → PointVal → PointVal
  | .inf, q => q
  | .aff x1 y1, .inf => .aff x1 y1
  | .aff x1 y1, .aff x2 y2 =>
    if x1 = x2 ∧ (y1 + y2) % p = 0 then .inf else nistChord p (nistSlope p x1 y1 x2 y2) x1 y1 x2

/-! ### Byte encodings (R400 to R407) -/

/-- The uncompressed encoding 0x04 ‖ X ‖ Y (R401). -/
def nistEncode (F x y : Nat) : List Byte := 0x04#8 :: (beBytes F x ++ beBytes F y)

/-- The compressed encoding (0x02 + (y mod 2)) ‖ X (R402). -/
def nistEncodeShort (F x y : Nat) : List Byte := BitVec.ofNat 8 (2 + y % 2) :: beBytes F x

/-- EncLen (R403): the length from the first byte, or INVALID_ARGUMENT. -/
def nistEncLen (F : Nat) (h : Byte) : Option Nat :=
  if h = 0x04#8 then some (2 * F + 1)
  else if h = 0x02#8 ∨ h = 0x03#8 then some (F + 1)
  else none

/-- The square root R406 takes: α^((p+1)/4) mod p, a root when one exists (R407). -/
def nistSqrt (p a : Nat) : Nat := powMod p a ((p + 1) / 4)

/-- Decoding the uncompressed form (R404): the coordinates are checked against p, not against the curve. -/
def nistDecodeLong (p F : Nat) (e : List Byte) : Option PointVal :=
  let x := beVal ((e.drop 1).take F)
  let y := beVal ((e.drop (F + 1)).take F)
  if p ≤ x ∨ p ≤ y then none else some (.aff x y)

/-- Decoding the compressed form (R406). -/
def nistDecodeShort (p b F : Nat) (e : List Byte) : Option PointVal :=
  let x := beVal ((e.drop 1).take F)
  let sign := (e.headD 0).toNat - 2
  let root := nistSqrt p (nistRhs p b x)
  let y := if root % 2 = sign then root else (p - root) % p
  if p ≤ x then none
  else if subMod p (root * root) (nistRhs p b x) ≠ 0 then none
  else if y % 2 ≠ sign then none
  else some (.aff x y)

/-- Decode for a NIST curve, by the prefix (R404, R406). -/
def nistDecode (p b F : Nat) (e : List Byte) : Option PointVal :=
  if e.headD 0 = 0x04#8 then nistDecodeLong p F e else nistDecodeShort p b F e

end Sys2Proof.Machine
end

