-- ==== Sys2Proof/Machine/Curves.lean ====
section
/-! DEFINITION. What the two curve families share (spec/44_ec_common.md): well-formedness, the group operations of a
curve, scalar multiplication, the byte encodings by curve, and the free value of a malformed operand. -/

namespace Sys2Proof.Machine

/-- v is well formed on curve c (R335): the test of EC.ISON. -/
def Curve.wellFormed (c : Curve) (v : PointVal) : Bool :=
  if c.isNist then nistOnCurve c.prime c.coeff v else edOnCurve c.prime c.coeff v

/-- v ⊕_c w (R336, R393, R434). -/
def Curve.add (c : Curve) (v w : PointVal) : PointVal :=
  if c.isNist then nistAdd c.prime v w else edAdd c.prime c.coeff v w

/-- Neg_c(v) (R357, R392, R433). -/
def Curve.neg (c : Curve) (v : PointVal) : PointVal :=
  if c.isNist then nistNeg c.prime v else edNeg c.prime v

/-- The k-fold sum of R336, word for word: 0·v = O_c and (k+1)·v = (k·v) ⊕ v. -/
def Curve.kFold (c : Curve) (v : PointVal) : Nat → PointVal
  | 0 => c.identity
  | k + 1 => c.add (c.kFold v k) v

/-- Doubling and adding over the low `f` bits of the scalar, the top bit first. -/
def Curve.mulBits (c : Curve) (v : PointVal) : Nat → Nat → PointVal
  | 0, _ => c.identity
  | f + 1, k =>
    let q := c.mulBits v f (k / 2)
    let d := c.add q q
    if k % 2 = 1 then c.add d v else d

/-- k ·_c v (R336, R358), computed by doubling and adding with ⊕_c (log entry 10). -/
def Curve.mul (c : Curve) (k : Nat) (v : PointVal) : PointVal := c.mulBits v (bitlen k) k

/-- Encode(c, v, z) for v = (x, y) (R401, R402, R440, R443). -/
def Curve.encode (c : Curve) (x y : Nat) (compressed : Bool) : List Byte :=
  match c with
  | .p256 => if compressed then nistEncodeShort c.fieldBytes x y else nistEncode c.fieldBytes x y
  | .p384 => if compressed then nistEncodeShort c.fieldBytes x y else nistEncode c.fieldBytes x y
  | .p521 => if compressed then nistEncodeShort c.fieldBytes x y else nistEncode c.fieldBytes x y
  | .ed25519 => edEncode x y
  | .x25519 => montEncode c.prime y

/-- EncLen(c, h) (R349, R403): 32 for the Edwards curves. -/
def Curve.encLen (c : Curve) (h : Byte) : Option Nat :=
  if c.isNist then nistEncLen c.fieldBytes h else some 32

/-- Decode(c, e) (R349, R404, R406, R441, R444). -/
def Curve.decode (c : Curve) (e : List Byte) : Option PointVal :=
  match c with
  | .p256 => nistDecode c.prime c.coeff c.fieldBytes e
  | .p384 => nistDecode c.prime c.coeff c.fieldBytes e
  | .p521 => nistDecode c.prime c.coeff c.fieldBytes e
  | .ed25519 => edDecode c.prime c.coeff e
  | .x25519 => montDecode c.prime c.coeff e

/-- The n-th draw of a point value of curve c (R337): any coordinates in [0, p_c), or INF on a NIST curve. -/
def Curve.draw (c : Curve) (n : Nat) : PointVal :=
  if c.isNist && Config.freePointIsInf n then .inf
  else .aff (Config.freePointX n % c.prime) (Config.freePointY n % c.prime)

end Sys2Proof.Machine
end

