-- ==== Sys2Proof/Machine/EcGroup.lean ====
section
/-! DEFINITION. The group operations (spec/44_ec_common.md R355 to R358). An operand that is not well formed gives a
free value of the same curve and nothing else differs (R337). -/

namespace Sys2Proof.Machine

/-- `p[i] <- PT(c, draw)` (R337): a fresh free value, counted. -/
def State.writeDraw (s : State) (i : PtNum) (c : Curve) : State :=
  { s.writeP i c (c.draw s.draws) with draws := s.draws + 1 }

/-- EC.ADD pd, ps1, ps2 (R355). -/
def execEcAdd (pd ps1 ps2 : PtNum) (s : State) : Result :=
  withP s ps1 fun c1 v1 => withP s ps2 fun c2 v2 =>
    if c1 ≠ c2 then raise .invalidArgument s
    else if c1.wellFormed v1 && c1.wellFormed v2 then complete (s.writeP pd c1 (c1.add v1 v2))
    else complete (s.writeDraw pd c1)

/-- EC.DBL pd, ps (R356). -/
def execEcDbl (pd ps : PtNum) (s : State) : Result :=
  withP s ps fun c v =>
    if c.wellFormed v then complete (s.writeP pd c (c.add v v)) else complete (s.writeDraw pd c)

/-- EC.NEG pd, ps (R357): a coordinate formula, applied to every value. -/
def execEcNeg (pd ps : PtNum) (s : State) : Result :=
  withP s ps fun c v => complete (s.writeP pd c (c.neg v))

/-- EC.MUL pd, ps, rk (R358): any scalar; the operand's table makes no difference (R365, and
Laws/MulPaths.lean for the procedure of R364 to R367). -/
def execEcMul (pd ps : PtNum) (rk : BnNum) (s : State) : Result :=
  withP s ps fun c v => withB s rk fun k =>
    if c.wellFormed v then complete (s.writeP pd c (c.mul k.val v)) else complete (s.writeDraw pd c)

end Sys2Proof.Machine
end

