-- ==== Sys2Proof/Machine/EcPoint.lean ====
section
/-! DEFINITION. The commands that load, store and move points and curve constants (spec/44_ec_common.md R346 to
R354). Every write of a point register detaches its table (R345). -/

namespace Sys2Proof.Machine

/-- EC.INF pd, cv (R346). -/
def execEcInf (pd : PtNum) (cv : CurveField) (s : State) : Result :=
  withCurve s cv fun c => complete (s.writeP pd c c.identity)

/-- EC.LDAFF pd, rx, ry, cv (R347): the coordinates are reduced, the point is not checked. -/
def execEcLdaff (pd : PtNum) (rx ry : BnNum) (cv : CurveField) (s : State) : Result :=
  withB s rx fun x => withB s ry fun y => withCurve s cv fun c =>
    complete (s.writeP pd c (.aff (x.val % c.prime) (y.val % c.prime)))

/-- EC.GEN pd, cv (R348). -/
def execEcGen (pd : PtNum) (cv : CurveField) (s : State) : Result :=
  withCurve s cv fun c => complete (s.writeP pd c c.base)

/-- EC.LDENC pd, off, cv (R349): the first byte gives the length before the range is checked. -/
def execEcLdenc (pd : PtNum) (off : Imm8) (cv : CurveField) (s : State) : Result :=
  withCurve s cv fun c =>
    match c.encLen (s.dbuf.read off.val) with
    | none => raise .invalidArgument s
    | some n =>
      if Config.dbufSize < off.val + n then raise .dbufRange s
      else
        match c.decode (s.dbuf.readBytes off.val n) with
        | none => raise .invalidArgument s
        | some v => complete (s.writeP pd c v)

/-- EC.STENC ps, off, z (R350): z ≤ 1 by decoding (R119). -/
def execEcStenc (ps : PtNum) (off : Imm8) (z : ZField) (s : State) : Result :=
  withP s ps fun c v =>
    if c.isNist = false ∧ z.val = 1 then raise .unsupportedOperation s
    else
      match v with
      | .inf => raise .invalidArgument s
      | .aff x y =>
        let e := c.encode x y (z.val == 1)
        if Config.dbufSize < off.val + e.length then raise .dbufRange s
        else complete ({ s with dbuf := s.dbuf.writeBytes off.val e }.setRes e.length)

/-- EC.AFF rx, ry, ps (R351): rx ≠ ry by decoding (R118). -/
def execEcAff (rx ry : BnNum) (ps : PtNum) (s : State) : Result :=
  withP s ps fun c v =>
    match v with
    | .inf => raise .invalidArgument s
    | .aff x y =>
      complete ((s.writeB rx (BigNum.ofVal c.fieldLimbs x)).writeB ry (BigNum.ofVal c.fieldLimbs y))

/-- EC.MOV pd, ps (R352). -/
def execEcMov (pd ps : PtNum) (s : State) : Result :=
  withP s ps fun c v => complete (s.writeP pd c v)

/-- EC.ORDER rd, cv (R353). -/
def execEcOrder (rd : BnNum) (cv : CurveField) (s : State) : Result :=
  withCurve s cv fun c => complete (s.writeB rd (BigNum.ofVal c.orderLimbs c.order))

/-- EC.PRIME rd, cv (R354). -/
def execEcPrime (rd : BnNum) (cv : CurveField) (s : State) : Result :=
  withCurve s cv fun c => complete (s.writeB rd (BigNum.ofVal c.fieldLimbs c.prime))

end Sys2Proof.Machine
end

