-- ==== Sys2Proof/Machine/EcTable.lean ====
section
/-! DEFINITION. The table and predicate commands (spec/44_ec_common.md R359 to R363). A table's contents are not
architectural (R62): only the attachment is state. -/

namespace Sys2Proof.Machine

/-- EC.MKTAB ps, slot (R359): the value of the register is not written. -/
def execEcMktab (ps : PtNum) (slot : Imm8) (s : State) : Result :=
  withP s ps fun _ _ =>
    match slotOf slot with
    | none => raise .invalidArgument s
    | some t => complete (s.attach ps t)

/-- EC.DETAB ps (R360). -/
def execEcDetab (ps : PtNum) (s : State) : Result :=
  withP s ps fun _ _ => complete (s.detach ps)

/-- EC.ISON ps (R361). -/
def execEcIson (ps : PtNum) (s : State) : Result :=
  withP s ps fun c v => complete (s.setC (c.wellFormed v))

/-- EC.ISINF ps (R362). -/
def execEcIsinf (ps : PtNum) (s : State) : Result :=
  withP s ps fun c v => complete (s.setC (decide (v = c.identity)))

/-- EC.EQ ps1, ps2 (R363): points of different curves compare unequal. -/
def execEcEq (ps1 ps2 : PtNum) (s : State) : Result :=
  withP s ps1 fun c1 v1 => withP s ps2 fun c2 v2 => complete (s.setC (decide (c1 = c2 ∧ v1 = v2)))

end Sys2Proof.Machine
end

