-- ==== Sys2Proof/Machine/System.lean ====
section
/-! DEFINITION. NOP (spec/60_exceptions.md R505). -/

namespace Sys2Proof.Machine

/-- NOP: completes like any command, with no effect of its own (R505). -/
def execNop (s : State) : Result := complete s

end Sys2Proof.Machine
end

