-- ==== Sys2Proof/Machine/Dispatch.lean ====
section
/-! DEFINITION. The dispatch of a decoded command to its meaning, one arm per constructor. -/

namespace Sys2Proof.Machine

def exec (i : Instr) (s : State) : Host.Outcome State Fault Refusal :=
  match i with
  | .nop => Sys2Proof.Machine.execNop s
  | .bnLdb rd off len => Sys2Proof.Machine.execBnLdb rd off len s
  | .bnStb rs off => Sys2Proof.Machine.execBnStb rs off s
  | .bnFromint rd => Sys2Proof.Machine.execBnFromint rd s
  | .bnLdl rd off n => Sys2Proof.Machine.execBnLdl rd off n s
  | .bnStl rs off => Sys2Proof.Machine.execBnStl rs off s
  | .bnMov rd rs => Sys2Proof.Machine.execBnMov rd rs s
  | .bnResize rd rs n => Sys2Proof.Machine.execBnResize rd rs n s
  | .bnTrim rd rs => Sys2Proof.Machine.execBnTrim rd rs s
  | .bnBitlen rs => Sys2Proof.Machine.execBnBitlen rs s
  | .bnSize rs => Sys2Proof.Machine.execBnSize rs s
  | .bnAdd rd rs1 rs2 => Sys2Proof.Machine.execBnAdd rd rs1 rs2 s
  | .bnSub rd rs1 rs2 => Sys2Proof.Machine.execBnSub rd rs1 rs2 s
  | .bnSubge rd rs1 rs2 => Sys2Proof.Machine.execBnSubge rd rs1 rs2 s
  | .bnMul rd rs1 rs2 => Sys2Proof.Machine.execBnMul rd rs1 rs2 s
  | .bnSqr rd rs => Sys2Proof.Machine.execBnSqr rd rs s
  | .bnDivmod rq rr rs1 rs2 => Sys2Proof.Machine.execBnDivmod rq rr rs1 rs2 s
  | .bnDiv rd rs1 rs2 => Sys2Proof.Machine.execBnDiv rd rs1 rs2 s
  | .bnMod rd rs1 rs2 => Sys2Proof.Machine.execBnMod rd rs1 rs2 s
  | .bnDivi rq rr rs1 rs2 => Sys2Proof.Machine.execBnDivi rq rr rs1 rs2 s
  | .bnShl rd rs sh => Sys2Proof.Machine.execBnShl rd rs sh s
  | .bnShr rd rs sh => Sys2Proof.Machine.execBnShr rd rs sh s
  | .bnAnd rd rs1 rs2 => Sys2Proof.Machine.execBnAnd rd rs1 rs2 s
  | .bnOr rd rs1 rs2 => Sys2Proof.Machine.execBnOr rd rs1 rs2 s
  | .bnXor rd rs1 rs2 => Sys2Proof.Machine.execBnXor rd rs1 rs2 s
  | .bnNeg rd rs => Sys2Proof.Machine.execBnNeg rd rs s
  | .bnCmp rs1 rs2 => Sys2Proof.Machine.execBnCmp rs1 rs2 s
  | .bnEq rs1 rs2 => Sys2Proof.Machine.execBnEq rs1 rs2 s
  | .bnLt rs1 rs2 => Sys2Proof.Machine.execBnLt rs1 rs2 s
  | .bnGe rs1 rs2 => Sys2Proof.Machine.execBnGe rs1 rs2 s
  | .bnBetw rs ra rb => Sys2Proof.Machine.execBnBetw rs ra rb s
  | .bnBit rs idx => Sys2Proof.Machine.execBnBit rs idx s
  | .bnEven rs => Sys2Proof.Machine.execBnEven rs s
  | .bnOdd rs => Sys2Proof.Machine.execBnOdd rs s
  | .bnSel rd rs1 rs2 => Sys2Proof.Machine.execBnSel rd rs1 rs2 s
  | .bnNyb rs off => Sys2Proof.Machine.execBnNyb rs off s
  | .bnMadd rd rs1 rs2 rm => Sys2Proof.Machine.execBnMadd rd rs1 rs2 rm s
  | .bnMsub rd rs1 rs2 rm => Sys2Proof.Machine.execBnMsub rd rs1 rs2 rm s
  | .bnMmul rd rs1 rs2 rm => Sys2Proof.Machine.execBnMmul rd rs1 rs2 rm s
  | .bnMexp rd rs1 rs2 rm => Sys2Proof.Machine.execBnMexp rd rs1 rs2 rm s
  | .ecInf pd cv => Sys2Proof.Machine.execEcInf pd cv s
  | .ecLdaff pd rx ry cv => Sys2Proof.Machine.execEcLdaff pd rx ry cv s
  | .ecGen pd cv => Sys2Proof.Machine.execEcGen pd cv s
  | .ecLdenc pd off cv => Sys2Proof.Machine.execEcLdenc pd off cv s
  | .ecStenc ps off z => Sys2Proof.Machine.execEcStenc ps off z s
  | .ecAff rx ry ps => Sys2Proof.Machine.execEcAff rx ry ps s
  | .ecMov pd ps => Sys2Proof.Machine.execEcMov pd ps s
  | .ecOrder rd cv => Sys2Proof.Machine.execEcOrder rd cv s
  | .ecPrime rd cv => Sys2Proof.Machine.execEcPrime rd cv s
  | .ecAdd pd ps1 ps2 => Sys2Proof.Machine.execEcAdd pd ps1 ps2 s
  | .ecDbl pd ps => Sys2Proof.Machine.execEcDbl pd ps s
  | .ecMul pd ps rk => Sys2Proof.Machine.execEcMul pd ps rk s
  | .ecMktab ps slot => Sys2Proof.Machine.execEcMktab ps slot s
  | .ecDetab ps => Sys2Proof.Machine.execEcDetab ps s
  | .ecNeg pd ps => Sys2Proof.Machine.execEcNeg pd ps s
  | .ecIson ps => Sys2Proof.Machine.execEcIson ps s
  | .ecIsinf ps => Sys2Proof.Machine.execEcIsinf ps s
  | .ecEq ps1 ps2 => Sys2Proof.Machine.execEcEq ps1 ps2 s

end Sys2Proof.Machine
end

