-- ==== Sys2Proof/Machine/Sequencer.lean ====
section
/-! DEFINITION. The sequencer's step (spec/60_exceptions.md R470): one step per accepted command. -/

namespace Sys2Proof.Machine

/-- R470: the latched word is decoded and run; a word that does not decode raises ILLEGAL_COMMAND. -/
def runCommand (s : State) : Result :=
  match decode s.cmdReg with
  | some i => exec i s
  | none => raise .illegalCommand s

/-- The sequencer moves: BUSY runs the command, RESETTING ends the reset, IDLE waits (R47, R470, R520). -/
def sequencerStep (s : State) : Result :=
  match s.seq with
  | .busy => runCommand s
  | .resetting => .next s.finishReset
  | .idle => .next s

end Sys2Proof.Machine
end

