-- ==== Sys2Proof/Machine/Events.lean ====
section
/-! DEFINITION. One event of the outside world (spec/10_state.md R30, spec/20_memory.md R93, R99): the host's access
takes effect, the reset input is asserted, or the host makes no access and the sequencer moves. -/

namespace Sys2Proof.Machine

/-- One event. An access outside the window is not decoded by the block (R85). -/
def runEvent (e : HostEvent) (s : State) : Result :=
  match e with
  | .read addr w =>
    match windowOffset addr with
    | some off => hostRead off w s
    | none => .fault .notDecoded
  | .write addr w d =>
    match windowOffset addr with
    | some off => hostWrite off w d s
    | none => .fault .notDecoded
  | .reset => .next s.enterReset
  | .pause => sequencerStep s

/-- The command word that takes the place of a CMD write (R52): the low `nbits` bits of `w`. -/
def commandWord (nbits w : Nat) : Word := BitVec.ofNat 32 (w % 2 ^ nbits)

end Sys2Proof.Machine
end

