-- ==== Sys2Proof/Machine/Step.lean ====
section
/-! DEFINITION. One step of the machine: the first pending event of the outside world, or, where none is pending, the
sequencer's own move (spec/20_memory.md R93, spec/60_exceptions.md R470; log entries 1 and 3). -/

namespace Sys2Proof.Machine

/-- One step. -/
def step (s : State) : Host.Outcome State Fault Refusal :=
  match s.hostIn with
  | [] => sequencerStep s
  | e :: es => runEvent e { s with hostIn := es }

/-- The state in which the sequencer has accepted the command word (R52), so that the very next step runs it
(log entry 4). -/
def State.withFetchWord (s : State) (nbits w : Nat) : State :=
  { s.accept (commandWord nbits w) with hostIn := sequencerFirst s.hostIn }

end Sys2Proof.Machine
end

