-- ==== Sys2Proof/Safety.lean ====
section
/-! DEFINITION. The terms claims are stated in: the invariant of the machine, what a completing command leaves
unchanged (its frame), and when a host access is safe. -/

namespace Sys2Proof.Machine

/-! ### The invariant -/

/-- Every BigNum register has at most LMAX limbs (R32), and an unwritten one has none (R63). -/
abbrev State.BnOk (s : State) : Prop :=
  ∀ i : BnNum, (s.b i).num.size ≤ Config.lmax ∧ ((s.b i).written = false → (s.b i).num.size = 0)

/-- A value in the domain of a curve (R38): coordinates in [0, p_c), INF on NIST curves only. -/
def Curve.inDomain (c : Curve) : PointVal → Bool
  | .inf => c.isNist
  | .aff x y => decide (x < c.prime) && decide (y < c.prime)

/-- A point register's contents lie in their curve's domain (R38). -/
def PointCell.ok : PointCell → Bool
  | .empty => true
  | .pt c v => c.inDomain v

/-- Every point register holds a value of its curve's domain (R38). -/
abbrev State.PointsOk (s : State) : Prop := ∀ i : PtNum, (s.p i).cell.ok = true

/-- The attachment and the owner agree (R39, R344). -/
abbrev State.TabsAgree (s : State) : Prop :=
  ∀ (i : PtNum) (t : Fin 4), (s.p i).tab = some t ↔ s.slotOwner t = some i

/-- STATUS is consistent (R51, R52, R471, R492): ERRCODE is one of the codes 1..6 while ERR = 1 and 0 otherwise,
DONE and ERR are not both set, and neither is set while a command runs. -/
abbrev State.StatusOk (s : State) : Prop :=
  (s.status.err = false → s.status.errCode = 0) ∧
  (s.status.err = true → 1 ≤ s.status.errCode.toNat ∧ s.status.errCode.toNat ≤ 6) ∧
  ¬(s.status.done = true ∧ s.status.err = true) ∧
  (s.seq = .busy → s.status.done = false ∧ s.status.err = false)

/-- In RESETTING the block's state is that of R63 (log entry 5). -/
abbrev State.ResettingOk (s : State) : Prop :=
  s.seq = .resetting → s = { State.reset with
    seq := .resetting, hostIn := s.hostIn, hostOut := s.hostOut, draws := s.draws }

/-- The invariant of the machine. -/
abbrev State.Inv (s : State) : Prop :=
  s.BnOk ∧ s.PointsOk ∧ s.TabsAgree ∧ s.dbuf.wf = true ∧ s.StatusOk ∧ s.ResettingOk

/-! ### Frames -/

/-- What every completing command does, and what no command writes (R470, R57): CMDCNT counts it, DONE is set, the
sequencer is IDLE; the rest of STATUS, and CMDREG, CTRL, ARG, ERRCMD and the host's side stay. -/
structure CompletedFrom (s t : State) : Prop where
  cmdCnt : t.cmdCnt = s.cmdCnt + 1
  status : t.status = { s.status with done := true }
  seq : t.seq = .idle
  cmdReg : t.cmdReg = s.cmdReg
  ctrl : t.ctrl = s.ctrl
  argLo : t.argLo = s.argLo
  argHi : t.argHi = s.argHi
  errCmd : t.errCmd = s.errCmd
  hostIn : t.hostIn = s.hostIn
  hostOut : t.hostOut = s.hostOut

/-- No BigNum register outside the list has changed. -/
def SameBnExcept (s t : State) (l : List BnNum) : Prop := ∀ i, i ∉ l → t.b i = s.b i

/-- No point register and no attachment has changed. -/
def SamePoints (s t : State) : Prop := (∀ i, t.p i = s.p i) ∧ ∀ j, t.slotOwner j = s.slotOwner j

/-- Every byte of DBUF outside `n` bytes from `off` reads as before. -/
def SameDbufOutside (s t : State) (off n : Nat) : Prop :=
  ∀ a, (a < off ∨ off + n ≤ a) → t.dbuf.read a = s.dbuf.read a

/-- Every byte of DBUF reads as before. -/
def SameDbuf (s t : State) : Prop := ∀ a, t.dbuf.read a = s.dbuf.read a

/-- The frame of a command that completes with no effect of its own. -/
structure NothingElse (s t : State) : Prop where
  completed : CompletedFrom s t
  bn : SameBnExcept s t []
  points : SamePoints s t
  dbuf : SameDbuf s t
  flags : t.flags = s.flags
  res : t.res = s.res
  draws : t.draws = s.draws

/-- The frame of a command whose destinations are the listed BigNum registers. -/
structure OnlyBn (s t : State) (l : List BnNum) : Prop where
  completed : CompletedFrom s t
  bn : SameBnExcept s t l
  points : SamePoints s t
  dbuf : SameDbuf s t
  flags : t.flags = s.flags
  res : t.res = s.res
  draws : t.draws = s.draws

/-- The frame of a command that writes FLAGS alone. -/
structure OnlyFlags (s t : State) : Prop where
  completed : CompletedFrom s t
  bn : SameBnExcept s t []
  points : SamePoints s t
  dbuf : SameDbuf s t
  res : t.res = s.res
  draws : t.draws = s.draws

/-- The frame of a command that writes RES and `n` bytes of DBUF from `off` (n = 0: RES alone). -/
structure OnlyResAndDbuf (s t : State) (off n : Nat) : Prop where
  completed : CompletedFrom s t
  bn : SameBnExcept s t []
  points : SamePoints s t
  dbuf : SameDbufOutside s t off n
  flags : t.flags = s.flags
  draws : t.draws = s.draws

/-- The frame of a command whose destination is the point register `pd` (R345): no other point register changes, and
`pd`'s table, if it had one, is detached. -/
structure OnlyPoint (s t : State) (pd : PtNum) : Prop where
  completed : CompletedFrom s t
  bn : SameBnExcept s t []
  points : ∀ i, i ≠ pd → t.p i = s.p i
  detached : (t.p pd).tab = none
  owners : ∀ j, t.slotOwner j = if (s.p pd).tab = some j then none else s.slotOwner j
  dbuf : SameDbuf s t
  flags : t.flags = s.flags
  res : t.res = s.res

/-- The frame of a command that changes attachments alone: every point keeps its contents. -/
structure OnlyTabs (s t : State) : Prop where
  completed : CompletedFrom s t
  bn : SameBnExcept s t []
  cells : ∀ i, (t.p i).cell = (s.p i).cell
  dbuf : SameDbuf s t
  flags : t.flags = s.flags
  res : t.res = s.res
  draws : t.draws = s.draws

/-! ### Results -/

/-- `b[i] = BN(size, val)` (R9). -/
def HoldsBn (t : State) (i : BnNum) (size val : Nat) : Prop :=
  (t.b i).written = true ∧ (t.b i).num.size = size ∧ (t.b i).num.val = val

/-- `p[i] = PT(c, v)` (R10). -/
def HoldsPt (t : State) (i : PtNum) (c : Curve) (v : PointVal) : Prop := (t.p i).cell = .pt c v

/-- The command ends in the error entry E and nothing else changes (R476, R477). -/
def Raises (i : Instr) (s : State) (e : CmdError) : Prop := exec i s = .next (s.errorEntry e)

/-- The command answers a next state, of which `P` holds. -/
def Completes (i : Instr) (s : State) (P : State → Prop) : Prop := ∃ t, exec i s = .next t ∧ P t

/-- val(b[i]) (R9). -/
abbrev State.val (s : State) (i : BnNum) : Nat := (s.b i).num.val

/-- size(b[i]) (R9). -/
abbrev State.size (s : State) (i : BnNum) : Nat := (s.b i).num.size

/-- Every listed BigNum register is written (R33). -/
abbrev State.Written (s : State) (l : List BnNum) : Prop := ∀ i ∈ l, (s.b i).written = true

/-- `p[i] = PT(c, v)` before the command (R10). -/
abbrev State.Holds (s : State) (i : PtNum) (c : Curve) (v : PointVal) : Prop := (s.p i).cell = .pt c v

/-- An unwritten register of the list makes the command raise UNWRITTEN_OPERAND (R473). -/
abbrev NeedsB (i : Instr) (s : State) (l : List BnNum) : Prop := ¬s.Written l → Raises i s .unwrittenOperand

/-- An EMPTY point register makes the command raise UNWRITTEN_OPERAND (R473). -/
abbrev NeedsP (i : Instr) (s : State) (r : PtNum) : Prop := (s.p r).cell = .empty → Raises i s .unwrittenOperand

/-- The word of R111 with these fields decodes to the command. -/
def Encodes (op a b c d i : Nat) (cmd : Instr) : Prop := decode (packWord op a b c d i) = some cmd

/-! ### The curve ROM (R330, R332), in the spec's own hexadecimal -/

/-- The row P256 of R330 and its constants of R332: family, F, Lf, Ln, p, b, G and n. -/
structure HasRomP256 (c : Curve) : Prop where
  family : c.isNist = true
  sizes : c.fieldBytes = 32 ∧ c.fieldLimbs = 11 ∧ c.orderLimbs = 11
  prime : c.prime = 0xFFFFFFFF00000001000000000000000000000000FFFFFFFFFFFFFFFFFFFFFFFF
  coeff : c.coeff =
    0x5AC635D8AA3A93E7B3EBBD55769886BC651D06B0CC53B0F63BCE3C3E27D2604B
  gx : c.gx =
    0x6B17D1F2E12C4247F8BCE6E563A440F277037D812DEB33A0F4A13945D898C296
  gy : c.gy =
    0x4FE342E2FE1A7F9B8EE7EB4A7C0F9E162BCE33576B315ECECBB6406837BF51F5
  order : c.order =
    0xFFFFFFFF00000000FFFFFFFFFFFFFFFFBCE6FAADA7179E84F3B9CAC2FC632551

/-- The row P384 of R330 and its constants of R332: family, F, Lf, Ln, p, b, G and n. -/
structure HasRomP384 (c : Curve) : Prop where
  family : c.isNist = true
  sizes : c.fieldBytes = 48 ∧ c.fieldLimbs = 16 ∧ c.orderLimbs = 16
  prime : c.prime = 
    0xFFFFFFFFFFFFFFFFFFFFFFFFFFFFFFFFFFFFFFFFFFFFFFFFFFFFFFFFFFFFFFFEFFFFFFFF0000000000000000FFFFFFFF
  coeff : c.coeff =
    0xB3312FA7E23EE7E4988E056BE3F82D19181D9C6EFE8141120314088F5013875AC656398D8A2ED19D2A85C8EDD3EC2AEF
  gx : c.gx =
    0xAA87CA22BE8B05378EB1C71EF320AD746E1D3B628BA79B9859F741E082542A385502F25DBF55296C3A545E3872760AB7
  gy : c.gy =
    0x3617DE4A96262C6F5D9E98BF9292DC29F8F41DBD289A147CE9DA3113B5F0B8C00A60B1CE1D7E819D7A431D7C90EA0E5F
  order : c.order =
    0xFFFFFFFFFFFFFFFFFFFFFFFFFFFFFFFFFFFFFFFFFFFFFFFFC7634D81F4372DDF581A0DB248B0A77AECEC196ACCC52973

/-- The row P521 of R330 and its constants of R332: family, F, Lf, Ln, p, b, G and n. -/
structure HasRomP521 (c : Curve) : Prop where
  family : c.isNist = true
  sizes : c.fieldBytes = 66 ∧ c.fieldLimbs = 22 ∧ c.orderLimbs = 22
  prime : c.prime = 2 ^ 521 - 1
  coeff : c.coeff =
    0x51953EB9618E1C9A1F929A21A0B68540EEA2DA725B99B315F3B8B489918EF109E156193951EC7E937B1652C0BD3BB1BF073573DF883D2C34F1EF451FD46B503F00
  gx : c.gx =
    0xC6858E06B70404E9CD9E3ECB662395B4429C648139053FB521F828AF606B4D3DBAA14B5E77EFE75928FE1DC127A2FFA8DE3348B3C1856A429BF97E7E31C2E5BD66
  gy : c.gy =
    0x11839296A789A3BC0045C8A5FB42C7D1BD998F54449579B446817AFBD17273E662C97EE72995EF42640C550B9013FAD0761353C7086A272C24088BE94769FD16650
  order : c.order =
    0x1FFFFFFFFFFFFFFFFFFFFFFFFFFFFFFFFFFFFFFFFFFFFFFFFFFFFFFFFFFFFFFFFFA51868783BF2F966B7FCC0148F709A5D03BB5C9B8899C47AEBB6FB71E91386409

/-- The rows ED25519 and X25519 of R330 and its constants of R332: family, F, Lf, Ln, p, d, G and n. -/
structure HasRomEd25519 (c : Curve) : Prop where
  family : c.isNist = false
  sizes : c.fieldBytes = 32 ∧ c.fieldLimbs = 11 ∧ c.orderLimbs = 11
  prime : c.prime = 0x7FFFFFFFFFFFFFFFFFFFFFFFFFFFFFFFFFFFFFFFFFFFFFFFFFFFFFFFFFFFFFED
  coeff : c.coeff =
    0x52036CEE2B6FFE738CC740797779E89800700A4D4141D8AB75EB4DCA135978A3
  gx : c.gx =
    0x216936D3CD6E53FEC0A4E231FDD6DC5C692CC7609525A7B2C9562D608F25D51A
  gy : c.gy =
    0x6666666666666666666666666666666666666666666666666666666666666658
  order : c.order =
    0x1000000000000000000000000000000014DEF9DEA2F79CD65812631A5CF5D3ED

/-! ### The host's side -/

/-- The host's event is no fault: an access lies in the window and is accepted there (R83 to R86). -/
def HostEvent.safe : HostEvent → Prop
  | .read addr w => ∃ off, windowOffset addr = some off ∧ accessOk off w = true
  | .write addr w _ => ∃ off, windowOffset addr = some off ∧ accessOk off w = true
  | .reset => True
  | .pause => True

/-- A read of `w` bytes at offset `off` of the window, the host's next event, answers `v` and changes nothing else. -/
def ReadsAs (s : State) (off : Nat) (w : Width) (v : Word) : Prop :=
  ∀ es, s.hostIn = .read (Config.bnecBase + off) w :: es →
    step s = .next { s with hostIn := es, hostOut := s.hostOut ++ [v] }

/-- A write of `w` bytes of `d` at offset `off` of the window, the host's next event, leads to `t`. -/
def WriteLeadsTo (s : State) (off : Nat) (w : Width) (d : Word) (t : State) : Prop :=
  ∀ es, s.hostIn = .write (Config.bnecBase + off) w d :: es → step s = .next { t with hostIn := es }

end Sys2Proof.Machine
end

