-- ==== Sys2Proof/Certificates/Slice0/Obligations.lean ====
section
/-! DEFINITION. The statements for the provers, in the order of OBLIGATIONS.json. Each docstring names the rule of
spec/ it formalises, or says that it is derived and from what. -/

open Sys2Proof Sys2Proof.Machine

/-! ### Encoding -/

/-- Derived from R111, R112, R116 and the examples of the command rules: words written out there decode to the command
they stand for. -/
def Obligations.ExampleWordsDecode : Prop :=
  decode 0x00000000#32 = some .nop ∧ decode 0x01000400#32 = some (.bnLdb 0 0 4) ∧
  decode 0x04200210#32 = some (.bnLdl 2 0x10 2) ∧ decode 0x10201000#32 = some (.bnAdd 2 0 1) ∧
  decode 0x15201300#32 = some (.bnDivmod 2 3 0 1) ∧ decode 0x24010200#32 = some (.bnBetw 1 0 2) ∧
  decode 0x25000FFF#32 = some (.bnBit 0 4095) ∧ decode 0x33301200#32 = some (.bnMexp 3 0 1 2) ∧
  decode 0x42000000#32 = some (.ecGen 0 0) ∧ decode 0x44011020#32 = some (.ecStenc 1 0x20 1) ∧
  decode 0x45400500#32 = some (.ecAff 4 5 0) ∧ decode 0x53040000#32 = some (.ecMktab 4 0)

/-- Derived from R111, R112, R116: every well-formed command, with every operand the encoding admits, is read back from
its word. -/
def Obligations.DecodeOfEncode : Prop := ∀ i : Instr, i.wf = true → decode (encode i) = some i

/-- Derived from R115, R118, R119, R121: a word that decodes is the word of the command it decodes to, and that command
is well formed. So no bit of an accepted word is ignored and no two words stand for one command. -/
def Obligations.EncodeOfDecode : Prop :=
  ∀ (w : Word) (i : Instr), decode w = some i → i.wf = true ∧ encode i = w

/-- R120 with R115: a word selects at most one row (w AND mask = match), and it decodes exactly where it selects one and
passes R118 and R119; every other word raises ILLEGAL_COMMAND. -/
def Obligations.WordsSelectOneRowOrAreIllegal : Prop :=
  ∀ w : Word,
    (∀ r ∈ opcodeTable, ∀ r' ∈ opcodeTable, w &&& r.2 = r.1 → w &&& r'.2 = r'.1 → r = r') ∧
    (decode w ≠ none ↔ ∃ r ∈ opcodeTable, w &&& r.2 = r.1 ∧
      ¬(r.1 ∈ [0x15000000#32, 0x18000000#32, 0x45000000#32] ∧ fieldA w = fieldD w) ∧
      ¬(r.1 = 0x44000000#32 ∧ 1 < (fieldC w).val)) ∧
    (decode w = none → ∀ s : State, s.cmdReg = w → runCommand s = .next (s.errorEntry .illegalCommand))

/-- R117, R118, R119: the undefined opcodes, the two-destination commands with one destination twice, and EC.STENC with a
flag of 2 or more raise ILLEGAL_COMMAND. -/
def Obligations.IllegalWordsRaise : Prop :=
  ∀ s : State,
    ((0x0B ≤ fieldOp s.cmdReg ∧ fieldOp s.cmdReg ≤ 0x0F) ∨ fieldOp s.cmdReg = 0x1F ∨
      (0x2A ≤ fieldOp s.cmdReg ∧ fieldOp s.cmdReg ≤ 0x2F) ∨ (0x34 ≤ fieldOp s.cmdReg ∧ fieldOp s.cmdReg ≤ 0x3F) ∨
      (0x49 ≤ fieldOp s.cmdReg ∧ fieldOp s.cmdReg ≤ 0x4F) ∨ fieldOp s.cmdReg = 0x56 ∨ fieldOp s.cmdReg = 0x57 ∨
      0x5B ≤ fieldOp s.cmdReg ∨
      (fieldOp s.cmdReg ∈ [0x15, 0x18, 0x45] ∧ fieldA s.cmdReg = fieldD s.cmdReg) ∨
      (fieldOp s.cmdReg = 0x44 ∧ 2 ≤ (fieldC s.cmdReg).val)) →
    runCommand s = .next (s.errorEntry .illegalCommand)

/-! ### The step -/

/-- Derived from R470 and R52: a step runs the decoded command, whether no event is pending or the host pauses, and in
the state the host's interface places a command word in (log entries 1 and 4). -/
def Obligations.StepRunsDecodedCommand : Prop :=
  (∀ (s : State) (i : Instr), s.hostIn = [] → s.seq = .busy → decode s.cmdReg = some i → step s = exec i s) ∧
  (∀ (s : State) (i : Instr) (es : List HostEvent), s.hostIn = .pause :: es → s.seq = .busy →
    decode s.cmdReg = some i → step s = exec i { s with hostIn := es }) ∧
  (∀ (s : State) (w : Nat) (i : Instr), decodeTableWord 32 w = some i →
    step (s.withFetchWord 32 w) = exec i (s.accept (BitVec.ofNat 32 w)))

/-- Derived from R93, R470, R520 (log entries 1 and 3): the first pending event takes effect; without one, BUSY runs the
latched word, IDLE waits, and RESETTING becomes IDLE. -/
def Obligations.StepWithoutADecodedCommand : Prop :=
  (∀ (s : State) (e : HostEvent) (es : List HostEvent), s.hostIn = e :: es →
    step s = runEvent e { s with hostIn := es }) ∧
  (∀ s : State, s.hostIn = [] → s.seq = .busy → decode s.cmdReg = none →
    step s = .next (s.errorEntry .illegalCommand)) ∧
  (∀ s : State, s.hostIn = [] → s.seq = .idle → step s = .next s) ∧
  (∀ s : State, s.hostIn = [] → s.seq = .resetting → step s = .next { s with seq := .idle })

/-- R476: the error entry sets ERR and ERRCODE, latches the command word in ERRCMD, returns the sequencer to IDLE, and
changes nothing else; the codes are those of R471. -/
def Obligations.ErrorEntryWrites : Prop :=
  (∀ (s : State) (e : CmdError),
    (s.errorEntry e).status.err = true ∧ (s.errorEntry e).status.errCode = e.code ∧
    (s.errorEntry e).status.done = s.status.done ∧ (s.errorEntry e).status.ovr = s.status.ovr ∧
    (s.errorEntry e).errCmd = s.cmdReg ∧ (s.errorEntry e).seq = .idle ∧
    (∀ i, (s.errorEntry e).b i = s.b i) ∧ (∀ i, (s.errorEntry e).p i = s.p i) ∧
    (∀ j, (s.errorEntry e).slotOwner j = s.slotOwner j) ∧ (s.errorEntry e).flags = s.flags ∧
    (s.errorEntry e).res = s.res ∧ (s.errorEntry e).dbuf = s.dbuf ∧ (s.errorEntry e).cmdCnt = s.cmdCnt ∧
    (s.errorEntry e).cmdReg = s.cmdReg ∧ (s.errorEntry e).ctrl = s.ctrl ∧ (s.errorEntry e).argLo = s.argLo ∧
    (s.errorEntry e).argHi = s.argHi ∧ (s.errorEntry e).hostIn = s.hostIn ∧ (s.errorEntry e).hostOut = s.hostOut ∧
    (s.errorEntry e).draws = s.draws) ∧
  CmdError.illegalCommand.code = 1#8 ∧ CmdError.invalidArgument.code = 2#8 ∧
  CmdError.unsupportedOperation.code = 3#8 ∧ CmdError.capacityExceeded.code = 4#8 ∧
  CmdError.unwrittenOperand.code = 5#8 ∧ CmdError.dbufRange.code = 6#8

/-- R477 with R470: every command ends, in exactly one of two ways: in the state before it plus the writes of the error
entry, or complete, with CMDCNT counted and DONE set. It never ends in a fault or a refusal. -/
def Obligations.ErrorsArePrecise : Prop :=
  ∀ (i : Instr) (s : State), ∃ t, exec i s = .next t ∧
    ((∃ e, t = s.errorEntry e) ∨ (CompletedFrom s t ∧ t.status.err = s.status.err))

/-- R59: CMDCNT grows by 1, modulo 2^32, with each command that completes (NOP too), stays with one that raises an
error, and is 0 after reset. -/
def Obligations.CommandsAreCounted : Prop :=
  (∀ (i : Instr) (s t : State), exec i s = .next t →
    ((∃ e, Raises i s e) ∧ t.cmdCnt = s.cmdCnt) ∨
    ((¬∃ e, Raises i s e) ∧ t.cmdCnt.toNat = (s.cmdCnt.toNat + 1) % 2 ^ 32 ∧ t.status.done = true)) ∧
  (∀ s : State, Completes .nop s fun t => t.cmdCnt.toNat = (s.cmdCnt.toNat + 1) % 2 ^ 32) ∧
  State.reset.cmdCnt = 0

/-! ### BigNum registers and the data commands -/

/-- R9: val is the sum of the limbs by their weights, BN(s, v) has s limbs, limb j being (v div 2^(24 j)) mod 2^24,
bitlen(v) is 0 for 0 and otherwise the k with 2^(k-1) ≤ v < 2^k, and nlimbs(v) = ceil(bitlen(v) / 24). -/
def Obligations.BigNumNotation : Prop :=
  (∀ n : BigNum, n.val = ∑ j ∈ Finset.range n.size, (n.limb j).toNat * 2 ^ (24 * j)) ∧
  (∀ s v : Nat, (BigNum.ofVal s v).size = s ∧
    ∀ j < s, ((BigNum.ofVal s v).limb j).toNat = v / 2 ^ (24 * j) % 2 ^ 24) ∧
  bitlen 0 = 0 ∧ (∀ v k : Nat, 0 < k → 2 ^ (k - 1) ≤ v → v < 2 ^ k → bitlen v = k) ∧
  (∀ v : Nat, nlimbs v = (bitlen v + 23) / 24) ∧
  (∀ (s : State) (i : BnNum) (size v : Nat), v < 2 ^ (24 * size) →
    HoldsBn (s.writeB i (BigNum.ofVal size v)) i size v)

/-- R151 (BN.LDB). -/
def Obligations.LoadBytes : Prop :=
  ∀ (s : State) (rd : BnNum) (off len : Imm8),
    (256 < off.val + len.val → Raises (.bnLdb rd off len) s .dbufRange) ∧
    (off.val + len.val ≤ 256 → 48 < (len.val + 2) / 3 → Raises (.bnLdb rd off len) s .capacityExceeded) ∧
    (off.val + len.val ≤ 256 → (len.val + 2) / 3 ≤ 48 → Completes (.bnLdb rd off len) s fun t =>
      HoldsBn t rd ((len.val + 2) / 3)
        (∑ j ∈ Finset.range len.val, (s.dbuf.read (off.val + j)).toNat * 256 ^ (len.val - 1 - j)) ∧
      OnlyBn s t [rd]) ∧
    Encodes 0x01 rd.val 0 (len.val / 16) (len.val % 16) off.val (.bnLdb rd off len)

/-- R154 (BN.FROMINT). -/
def Obligations.FromInteger : Prop :=
  ∀ (s : State) (rd : BnNum),
    (2 ^ 48 < s.argHi.toNat * 2 ^ 32 + s.argLo.toNat → Raises (.bnFromint rd) s .invalidArgument) ∧
    (s.argHi.toNat * 2 ^ 32 + s.argLo.toNat ≤ 2 ^ 48 → Completes (.bnFromint rd) s fun t =>
      HoldsBn t rd 3 (s.argHi.toNat * 2 ^ 32 + s.argLo.toNat) ∧ OnlyBn s t [rd]) ∧
    Encodes 0x03 rd.val 0 0 0 0 (.bnFromint rd)

/-- R156 (BN.LDL). -/
def Obligations.LoadLimbs : Prop :=
  ∀ (s : State) (rd : BnNum) (off n : Imm8),
    (48 < n.val → Raises (.bnLdl rd off n) s .capacityExceeded) ∧
    (n.val ≤ 48 → 256 < off.val + 3 * n.val → Raises (.bnLdl rd off n) s .dbufRange) ∧
    (n.val ≤ 48 → off.val + 3 * n.val ≤ 256 → Completes (.bnLdl rd off n) s fun t =>
      HoldsBn t rd n.val (∑ j ∈ Finset.range n.val,
        ((s.dbuf.read (off.val + 3 * j)).toNat + 256 * (s.dbuf.read (off.val + 3 * j + 1)).toNat +
          65536 * (s.dbuf.read (off.val + 3 * j + 2)).toNat) * 2 ^ (24 * j)) ∧
      OnlyBn s t [rd]) ∧
    Encodes 0x04 rd.val 0 (n.val / 16) (n.val % 16) off.val (.bnLdl rd off n)

/-- R157 (BN.STB), in states whose DBUF list has its canonical form (an invariant, StepKeepsInvariant). -/
def Obligations.StoreBytes : Prop :=
  ∀ (s : State) (rs : BnNum) (off : Imm8), s.dbuf.wf = true →
    NeedsB (.bnStb rs off) s [rs] ∧
    (s.Written [rs] → 256 < off.val + (bitlen (s.val rs) + 7) / 8 → Raises (.bnStb rs off) s .dbufRange) ∧
    (s.Written [rs] → off.val + (bitlen (s.val rs) + 7) / 8 ≤ 256 → Completes (.bnStb rs off) s fun t =>
      (∀ j < (bitlen (s.val rs) + 7) / 8, (t.dbuf.read (off.val + j)).toNat =
        s.val rs / 256 ^ ((bitlen (s.val rs) + 7) / 8 - 1 - j) % 256) ∧
      t.res.toNat = (bitlen (s.val rs) + 7) / 8 ∧
      OnlyResAndDbuf s t off.val ((bitlen (s.val rs) + 7) / 8)) ∧
    Encodes 0x02 0 rs.val 0 0 off.val (.bnStb rs off)

/-- R160 (BN.STL), in states whose DBUF list has its canonical form and whose registers have at most 48 limbs (both
invariants, StepKeepsInvariant). -/
def Obligations.StoreLimbs : Prop :=
  ∀ (s : State) (rs : BnNum) (off : Imm8), s.dbuf.wf = true → s.BnOk →
    NeedsB (.bnStl rs off) s [rs] ∧
    (s.Written [rs] → 256 < off.val + 3 * s.size rs → Raises (.bnStl rs off) s .dbufRange) ∧
    (s.Written [rs] → off.val + 3 * s.size rs ≤ 256 → Completes (.bnStl rs off) s fun t =>
      (∀ j < s.size rs, ∀ k < 3, (t.dbuf.read (off.val + 3 * j + k)).toNat =
        ((s.b rs).num.limb j).toNat / 256 ^ k % 256) ∧
      t.res.toNat = 3 * s.size rs ∧ OnlyResAndDbuf s t off.val (3 * s.size rs)) ∧
    Encodes 0x05 0 rs.val 0 0 off.val (.bnStl rs off)

/-- R162, R164, R168 (BN.MOV, BN.RESIZE, BN.TRIM). -/
def Obligations.MoveResizeTrim : Prop :=
  ∀ (s : State) (rd rs : BnNum) (n : Imm8),
    NeedsB (.bnMov rd rs) s [rs] ∧ NeedsB (.bnResize rd rs n) s [rs] ∧ NeedsB (.bnTrim rd rs) s [rs] ∧
    (s.Written [rs] → Completes (.bnMov rd rs) s fun t =>
      HoldsBn t rd (s.size rs) (s.val rs) ∧ OnlyBn s t [rd]) ∧
    (s.Written [rs] → 48 < n.val → Raises (.bnResize rd rs n) s .capacityExceeded) ∧
    (s.Written [rs] → n.val ≤ 48 → Completes (.bnResize rd rs n) s fun t =>
      HoldsBn t rd n.val (s.val rs % 2 ^ (24 * n.val)) ∧ OnlyBn s t [rd]) ∧
    (s.Written [rs] → Completes (.bnTrim rd rs) s fun t =>
      HoldsBn t rd (nlimbs (s.val rs)) (s.val rs) ∧ OnlyBn s t [rd]) ∧
    Encodes 0x06 rd.val rs.val 0 0 0 (.bnMov rd rs) ∧ Encodes 0x07 rd.val rs.val 0 0 n.val (.bnResize rd rs n) ∧
    Encodes 0x08 rd.val rs.val 0 0 0 (.bnTrim rd rs)

/-- R172, R174 (BN.BITLEN, BN.SIZE), in states whose registers have at most 48 limbs (an invariant,
StepKeepsInvariant). -/
def Obligations.BitLengthAndSize : Prop :=
  ∀ (s : State) (rs : BnNum), s.BnOk →
    NeedsB (.bnBitlen rs) s [rs] ∧ NeedsB (.bnSize rs) s [rs] ∧
    (s.Written [rs] → Completes (.bnBitlen rs) s fun t =>
      t.res.toNat = bitlen (s.val rs) ∧ OnlyResAndDbuf s t 0 0) ∧
    (s.Written [rs] → Completes (.bnSize rs) s fun t => t.res.toNat = s.size rs ∧ OnlyResAndDbuf s t 0 0) ∧
    Encodes 0x09 0 rs.val 0 0 0 (.bnBitlen rs) ∧ Encodes 0x0A 0 rs.val 0 0 0 (.bnSize rs)

/-! ### Arithmetic, shifts and bitwise commands -/

/-- Derived from R204, R210, R212, R226 (BN.ADD, BN.MUL, BN.SQR, BN.SHL): exact, into a capacity that always holds the
result, or CAPACITY_EXCEEDED. That BN.SHL by more than 23 raises INVALID_ARGUMENT at 48 limbs too is the model's choice
(log entry 13): the order of R226's pseudocode and R478, where R201 puts CAPACITY_EXCEEDED before any value check. -/
def Obligations.GrowingArithmetic : Prop :=
  ∀ (s : State) (rd rs1 rs2 rs : BnNum) (sh : Imm8),
    NeedsB (.bnAdd rd rs1 rs2) s [rs1, rs2] ∧ NeedsB (.bnMul rd rs1 rs2) s [rs1, rs2] ∧
    NeedsB (.bnSqr rd rs) s [rs] ∧ NeedsB (.bnShl rd rs sh) s [rs] ∧
    (s.Written [rs1, rs2] → 48 < max (s.size rs1) (s.size rs2) + 1 → Raises (.bnAdd rd rs1 rs2) s .capacityExceeded) ∧
    (s.Written [rs1, rs2] → max (s.size rs1) (s.size rs2) + 1 ≤ 48 → Completes (.bnAdd rd rs1 rs2) s fun t =>
      HoldsBn t rd (max (s.size rs1) (s.size rs2) + 1) (s.val rs1 + s.val rs2) ∧ OnlyBn s t [rd]) ∧
    (s.Written [rs1, rs2] → 48 < s.size rs1 + s.size rs2 → Raises (.bnMul rd rs1 rs2) s .capacityExceeded) ∧
    (s.Written [rs1, rs2] → s.size rs1 + s.size rs2 ≤ 48 → Completes (.bnMul rd rs1 rs2) s fun t =>
      HoldsBn t rd (s.size rs1 + s.size rs2) (s.val rs1 * s.val rs2) ∧ OnlyBn s t [rd]) ∧
    (s.Written [rs] → 48 < 2 * s.size rs → Raises (.bnSqr rd rs) s .capacityExceeded) ∧
    (s.Written [rs] → 2 * s.size rs ≤ 48 → Completes (.bnSqr rd rs) s fun t =>
      HoldsBn t rd (2 * s.size rs) (s.val rs * s.val rs) ∧ OnlyBn s t [rd]) ∧
    (s.Written [rs] → 23 < sh.val → Raises (.bnShl rd rs sh) s .invalidArgument) ∧
    (s.Written [rs] → sh.val ≤ 23 → 48 < s.size rs + 1 → Raises (.bnShl rd rs sh) s .capacityExceeded) ∧
    (s.Written [rs] → sh.val ≤ 23 → s.size rs + 1 ≤ 48 → Completes (.bnShl rd rs sh) s fun t =>
      HoldsBn t rd (s.size rs + 1) (s.val rs * 2 ^ sh.val) ∧ OnlyBn s t [rd]) ∧
    Encodes 0x10 rd.val rs1.val rs2.val 0 0 (.bnAdd rd rs1 rs2) ∧
    Encodes 0x13 rd.val rs1.val rs2.val 0 0 (.bnMul rd rs1 rs2) ∧ Encodes 0x14 rd.val rs.val 0 0 0 (.bnSqr rd rs) ∧
    Encodes 0x19 rd.val rs.val 0 0 sh.val (.bnShl rd rs sh)

/-- R206, R208 (BN.SUB, BN.SUBGE). -/
def Obligations.Subtraction : Prop :=
  ∀ (s : State) (rd rs1 rs2 : BnNum),
    NeedsB (.bnSub rd rs1 rs2) s [rs1, rs2] ∧ NeedsB (.bnSubge rd rs1 rs2) s [rs1, rs2] ∧
    (s.Written [rs1, rs2] → s.val rs1 < s.val rs2 → Raises (.bnSub rd rs1 rs2) s .invalidArgument) ∧
    (s.Written [rs1, rs2] → s.val rs2 ≤ s.val rs1 → Completes (.bnSub rd rs1 rs2) s fun t =>
      HoldsBn t rd (max (s.size rs1) (s.size rs2)) (s.val rs1 - s.val rs2) ∧ OnlyBn s t [rd]) ∧
    (s.Written [rs1, rs2] → Completes (.bnSubge rd rs1 rs2) s fun t =>
      HoldsBn t rd (max (s.size rs1) (s.size rs2))
        (if s.val rs2 ≤ s.val rs1 then s.val rs1 - s.val rs2 else s.val rs1) ∧ OnlyBn s t [rd]) ∧
    Encodes 0x11 rd.val rs1.val rs2.val 0 0 (.bnSub rd rs1 rs2) ∧
    Encodes 0x12 rd.val rs1.val rs2.val 0 0 (.bnSubge rd rs1 rs2)

/-- R216, R218, R220, R222 (BN.DIVMOD, BN.DIV, BN.MOD, BN.DIVI). The meanings of the two-destination commands are stated
for two different destinations, the only ones that decode (R118). -/
def Obligations.Division : Prop :=
  ∀ (s : State) (rq rr rd rs1 rs2 : BnNum),
    (rq ≠ rr → NeedsB (.bnDivmod rq rr rs1 rs2) s [rs1, rs2] ∧ NeedsB (.bnDivi rq rr rs1 rs2) s [rs1, rs2]) ∧
    NeedsB (.bnDiv rd rs1 rs2) s [rs1, rs2] ∧ NeedsB (.bnMod rd rs1 rs2) s [rs1, rs2] ∧
    (s.Written [rs1, rs2] → s.val rs2 = 0 →
      (rq ≠ rr → Raises (.bnDivmod rq rr rs1 rs2) s .invalidArgument ∧
        Raises (.bnDivi rq rr rs1 rs2) s .invalidArgument) ∧
      Raises (.bnDiv rd rs1 rs2) s .invalidArgument ∧ Raises (.bnMod rd rs1 rs2) s .invalidArgument) ∧
    (rq ≠ rr → s.Written [rs1, rs2] → 2 ^ 24 ≤ s.val rs2 → Raises (.bnDivi rq rr rs1 rs2) s .invalidArgument) ∧
    (rq ≠ rr → s.Written [rs1, rs2] → 0 < s.val rs2 → Completes (.bnDivmod rq rr rs1 rs2) s fun t =>
      HoldsBn t rq (s.size rs1) (s.val rs1 / s.val rs2) ∧ HoldsBn t rr (s.size rs2) (s.val rs1 % s.val rs2) ∧
      OnlyBn s t [rq, rr]) ∧
    (s.Written [rs1, rs2] → 0 < s.val rs2 → Completes (.bnDiv rd rs1 rs2) s fun t =>
      HoldsBn t rd (s.size rs1) (s.val rs1 / s.val rs2) ∧ OnlyBn s t [rd]) ∧
    (s.Written [rs1, rs2] → 0 < s.val rs2 → Completes (.bnMod rd rs1 rs2) s fun t =>
      HoldsBn t rd (s.size rs2) (s.val rs1 % s.val rs2) ∧ OnlyBn s t [rd]) ∧
    (rq ≠ rr → s.Written [rs1, rs2] → 0 < s.val rs2 → s.val rs2 < 2 ^ 24 →
      Completes (.bnDivi rq rr rs1 rs2) s fun t =>
        HoldsBn t rq (s.size rs1) (s.val rs1 / s.val rs2) ∧ HoldsBn t rr 1 (s.val rs1 % s.val rs2) ∧
        OnlyBn s t [rq, rr]) ∧
    (rq ≠ rr → Encodes 0x15 rq.val rs1.val rs2.val rr.val 0 (.bnDivmod rq rr rs1 rs2) ∧
      Encodes 0x18 rq.val rs1.val rs2.val rr.val 0 (.bnDivi rq rr rs1 rs2)) ∧
    decode (packWord 0x15 rq.val rs1.val rs2.val rq.val 0) = none ∧
    decode (packWord 0x18 rq.val rs1.val rs2.val rq.val 0) = none ∧
    Encodes 0x16 rd.val rs1.val rs2.val 0 0 (.bnDiv rd rs1 rs2) ∧
    Encodes 0x17 rd.val rs1.val rs2.val 0 0 (.bnMod rd rs1 rs2)

/-- R228, R236 (BN.SHR, BN.NEG). -/
def Obligations.ShiftRightAndNegate : Prop :=
  ∀ (s : State) (rd rs : BnNum) (sh : Imm8),
    NeedsB (.bnShr rd rs sh) s [rs] ∧ NeedsB (.bnNeg rd rs) s [rs] ∧
    (s.Written [rs] → 23 < sh.val → Raises (.bnShr rd rs sh) s .invalidArgument) ∧
    (s.Written [rs] → sh.val ≤ 23 → Completes (.bnShr rd rs sh) s fun t =>
      HoldsBn t rd (s.size rs) (s.val rs / 2 ^ sh.val) ∧ OnlyBn s t [rd]) ∧
    (s.Written [rs] → Completes (.bnNeg rd rs) s fun t =>
      HoldsBn t rd (s.size rs) ((2 ^ (24 * s.size rs) - s.val rs) % 2 ^ (24 * s.size rs)) ∧ OnlyBn s t [rd]) ∧
    Encodes 0x1A rd.val rs.val 0 0 sh.val (.bnShr rd rs sh) ∧ Encodes 0x1E rd.val rs.val 0 0 0 (.bnNeg rd rs)

/-- R232, R233, R234 (BN.AND, BN.OR, BN.XOR): the value is given bit by bit. -/
def Obligations.Bitwise : Prop :=
  ∀ (s : State) (rd rs1 rs2 : BnNum),
    NeedsB (.bnAnd rd rs1 rs2) s [rs1, rs2] ∧ NeedsB (.bnOr rd rs1 rs2) s [rs1, rs2] ∧
    NeedsB (.bnXor rd rs1 rs2) s [rs1, rs2] ∧
    (s.Written [rs1, rs2] →
      Completes (.bnAnd rd rs1 rs2) s (fun t => (t.b rd).written = true ∧
        t.size rd = max (s.size rs1) (s.size rs2) ∧
        (∀ k, (t.val rd).testBit k = ((s.val rs1).testBit k && (s.val rs2).testBit k)) ∧ OnlyBn s t [rd]) ∧
      Completes (.bnOr rd rs1 rs2) s (fun t => (t.b rd).written = true ∧
        t.size rd = max (s.size rs1) (s.size rs2) ∧
        (∀ k, (t.val rd).testBit k = ((s.val rs1).testBit k || (s.val rs2).testBit k)) ∧ OnlyBn s t [rd]) ∧
      Completes (.bnXor rd rs1 rs2) s (fun t => (t.b rd).written = true ∧
        t.size rd = max (s.size rs1) (s.size rs2) ∧
        (∀ k, (t.val rd).testBit k = ((s.val rs1).testBit k ^^ (s.val rs2).testBit k)) ∧ OnlyBn s t [rd])) ∧
    Encodes 0x1B rd.val rs1.val rs2.val 0 0 (.bnAnd rd rs1 rs2) ∧
    Encodes 0x1C rd.val rs1.val rs2.val 0 0 (.bnOr rd rs1 rs2) ∧
    Encodes 0x1D rd.val rs1.val rs2.val 0 0 (.bnXor rd rs1 rs2)

/-! ### Comparison, select and recoding -/

/-- R260 (BN.CMP) with the codes of R40. -/
def Obligations.CompareSetsSign : Prop :=
  (∀ (s : State) (rs1 rs2 : BnNum),
    NeedsB (.bnCmp rs1 rs2) s [rs1, rs2] ∧
    (s.Written [rs1, rs2] → Completes (.bnCmp rs1 rs2) s fun t =>
      (s.val rs1 = s.val rs2 → t.flags.cmp.code = 0b00#2) ∧ (s.val rs2 < s.val rs1 → t.flags.cmp.code = 0b01#2) ∧
      (s.val rs1 < s.val rs2 → t.flags.cmp.code = 0b11#2) ∧ t.flags.c = s.flags.c ∧ OnlyFlags s t) ∧
    Encodes 0x20 0 rs1.val rs2.val 0 0 (.bnCmp rs1 rs2))

/-- R262, R264, R266, R268 (BN.EQ, BN.LT, BN.GE, BN.BETW). -/
def Obligations.OrderPredicates : Prop :=
  ∀ (s : State) (rs1 rs2 rs ra rb : BnNum),
    NeedsB (.bnEq rs1 rs2) s [rs1, rs2] ∧ NeedsB (.bnLt rs1 rs2) s [rs1, rs2] ∧
    NeedsB (.bnGe rs1 rs2) s [rs1, rs2] ∧ NeedsB (.bnBetw rs ra rb) s [rs, ra, rb] ∧
    (s.Written [rs1, rs2] →
      Completes (.bnEq rs1 rs2) s (fun t =>
        t.flags = { s.flags with c := decide (s.val rs1 = s.val rs2) } ∧ OnlyFlags s t) ∧
      Completes (.bnLt rs1 rs2) s (fun t =>
        t.flags = { s.flags with c := decide (s.val rs1 < s.val rs2) } ∧ OnlyFlags s t) ∧
      Completes (.bnGe rs1 rs2) s (fun t =>
        t.flags = { s.flags with c := decide (s.val rs1 ≥ s.val rs2) } ∧ OnlyFlags s t)) ∧
    (s.Written [rs, ra, rb] → Completes (.bnBetw rs ra rb) s fun t =>
      t.flags = { s.flags with c := decide (s.val ra < s.val rs ∧ s.val rs < s.val rb) } ∧ OnlyFlags s t) ∧
    Encodes 0x21 0 rs1.val rs2.val 0 0 (.bnEq rs1 rs2) ∧ Encodes 0x22 0 rs1.val rs2.val 0 0 (.bnLt rs1 rs2) ∧
    Encodes 0x23 0 rs1.val rs2.val 0 0 (.bnGe rs1 rs2) ∧
    Encodes 0x24 0 rs.val ra.val rb.val 0 (.bnBetw rs ra rb)

/-- R270, R272, R274 (BN.BIT, BN.EVEN, BN.ODD). -/
def Obligations.BitPredicates : Prop :=
  ∀ (s : State) (rs : BnNum) (idx : BitIndex),
    NeedsB (.bnBit rs idx) s [rs] ∧ NeedsB (.bnEven rs) s [rs] ∧ NeedsB (.bnOdd rs) s [rs] ∧
    (s.Written [rs] →
      Completes (.bnBit rs idx) s (fun t =>
        t.flags = { s.flags with c := decide (s.val rs / 2 ^ idx.val % 2 = 1) } ∧
        (24 * s.size rs ≤ idx.val → t.flags.c = false) ∧ OnlyFlags s t) ∧
      Completes (.bnEven rs) s (fun t =>
        t.flags = { s.flags with c := decide (s.val rs % 2 = 0) } ∧ OnlyFlags s t) ∧
      Completes (.bnOdd rs) s (fun t =>
        t.flags = { s.flags with c := decide (s.val rs % 2 = 1) } ∧ OnlyFlags s t)) ∧
    Encodes 0x25 0 rs.val 0 (idx.val / 256) (idx.val % 256) (.bnBit rs idx) ∧
    Encodes 0x26 0 rs.val 0 0 0 (.bnEven rs) ∧ Encodes 0x27 0 rs.val 0 0 0 (.bnOdd rs)

/-- R276 (BN.SEL): the selected value in the longer capacity, limb by limb the masked XOR of the pseudocode. -/
def Obligations.SelectByCondition : Prop :=
  ∀ (s : State) (rd rs1 rs2 : BnNum),
    NeedsB (.bnSel rd rs1 rs2) s [rs1, rs2] ∧
    (s.Written [rs1, rs2] → Completes (.bnSel rd rs1 rs2) s fun t =>
      HoldsBn t rd (max (s.size rs1) (s.size rs2)) (if s.flags.c then s.val rs1 else s.val rs2) ∧
      (∀ j < max (s.size rs1) (s.size rs2), (t.b rd).num.limb j = (s.b rs2).num.limb j ^^^
        (((s.b rs1).num.limb j ^^^ (s.b rs2).num.limb j) &&& (if s.flags.c then 0xFFFFFF#24 else 0#24))) ∧
      OnlyBn s t [rd]) ∧
    Encodes 0x28 rd.val rs1.val rs2.val 0 0 (.bnSel rd rs1 rs2)

/-- R280 (BN.NYB), in states whose DBUF list has its canonical form (an invariant, StepKeepsInvariant). -/
def Obligations.NybbleRecoding : Prop :=
  ∀ (s : State) (rs : BnNum) (off : Imm8), s.dbuf.wf = true →
    NeedsB (.bnNyb rs off) s [rs] ∧
    (s.Written [rs] → 256 < off.val + (6 * s.size rs + 1) → Raises (.bnNyb rs off) s .dbufRange) ∧
    (s.Written [rs] → off.val + (6 * s.size rs + 1) ≤ 256 → Completes (.bnNyb rs off) s fun t =>
      (∀ i < 6 * s.size rs, t.dbuf.read (off.val + i) = BitVec.ofInt 8
        ((((s.val rs + ∑ j ∈ Finset.range (s.size rs), 0x777777 * 2 ^ (24 * j)) / 16 ^ i % 16 : Nat) : Int) - 7)) ∧
      (t.dbuf.read (off.val + 6 * s.size rs)).toNat =
        (s.val rs + ∑ j ∈ Finset.range (s.size rs), 0x777777 * 2 ^ (24 * j)) / 2 ^ (24 * s.size rs) ∧
      t.res.toNat = 6 * s.size rs + 1 ∧ OnlyResAndDbuf s t off.val (6 * s.size rs + 1)) ∧
    Encodes 0x29 0 rs.val 0 0 off.val (.bnNyb rs off)

/-- R281, R282: the digits BN.NYB stores lie in [-7, 8], the last is 0 or 1, and they spell the value in base 16. -/
def Obligations.NybblesSpellTheValue : Prop :=
  ∀ (s t : State) (rs : BnNum) (off : Imm8), s.dbuf.wf = true → s.Written [rs] →
    off.val + (6 * s.size rs + 1) ≤ 256 → exec (.bnNyb rs off) s = .next t →
    (∀ i < 6 * s.size rs, -7 ≤ (t.dbuf.read (off.val + i)).toInt ∧ (t.dbuf.read (off.val + i)).toInt ≤ 8) ∧
    ((t.dbuf.read (off.val + 6 * s.size rs)).toInt = 0 ∨ (t.dbuf.read (off.val + 6 * s.size rs)).toInt = 1) ∧
    ∑ i ∈ Finset.range (6 * s.size rs + 1), (t.dbuf.read (off.val + i)).toInt * 16 ^ i = (s.val rs : Int)

/-! ### Modular arithmetic -/

/-- R302, R304, R306, R308 (BN.MADD, BN.MSUB, BN.MMUL, BN.MEXP): the remainder of the exact result in the capacity of
the modulus register. -/
def Obligations.ModularArithmetic : Prop :=
  ∀ (s : State) (rd rs1 rs2 rm : BnNum),
    NeedsB (.bnMadd rd rs1 rs2 rm) s [rs1, rs2, rm] ∧ NeedsB (.bnMsub rd rs1 rs2 rm) s [rs1, rs2, rm] ∧
    NeedsB (.bnMmul rd rs1 rs2 rm) s [rs1, rs2, rm] ∧ NeedsB (.bnMexp rd rs1 rs2 rm) s [rs1, rs2, rm] ∧
    (s.Written [rs1, rs2, rm] → s.val rm = 0 →
      Raises (.bnMadd rd rs1 rs2 rm) s .invalidArgument ∧ Raises (.bnMsub rd rs1 rs2 rm) s .invalidArgument ∧
      Raises (.bnMmul rd rs1 rs2 rm) s .invalidArgument ∧ Raises (.bnMexp rd rs1 rs2 rm) s .invalidArgument) ∧
    (s.Written [rs1, rs2, rm] → 0 < s.val rm →
      Completes (.bnMadd rd rs1 rs2 rm) s (fun t =>
        HoldsBn t rd (s.size rm) ((s.val rs1 + s.val rs2) % s.val rm) ∧ OnlyBn s t [rd]) ∧
      Completes (.bnMsub rd rs1 rs2 rm) s (fun t =>
        HoldsBn t rd (s.size rm) (((s.val rs1 : Int) - s.val rs2) % s.val rm).toNat ∧ OnlyBn s t [rd]) ∧
      Completes (.bnMmul rd rs1 rs2 rm) s (fun t =>
        HoldsBn t rd (s.size rm) (s.val rs1 * s.val rs2 % s.val rm) ∧ OnlyBn s t [rd]) ∧
      Completes (.bnMexp rd rs1 rs2 rm) s (fun t =>
        HoldsBn t rd (s.size rm) (s.val rs1 ^ s.val rs2 % s.val rm) ∧ OnlyBn s t [rd])) ∧
    Encodes 0x30 rd.val rs1.val rs2.val rm.val 0 (.bnMadd rd rs1 rs2 rm) ∧
    Encodes 0x31 rd.val rs1.val rs2.val rm.val 0 (.bnMsub rd rs1 rs2 rm) ∧
    Encodes 0x32 rd.val rs1.val rs2.val rm.val 0 (.bnMmul rd rs1 rs2 rm) ∧
    Encodes 0x33 rd.val rs1.val rs2.val rm.val 0 (.bnMexp rd rs1 rs2 rm)

/-! ### Points: load, store, move -/

/-- R346, R348, R353, R354 (EC.INF, EC.GEN, EC.ORDER, EC.PRIME), with R331 and R334: the curve field selects one of five
curves or raises INVALID_ARGUMENT. Which curve an identifier names, and the family, sizes and constants of each, are
those of R330 and R332; identifiers 3 and 4 have the same base point, order and prime. -/
def Obligations.CurveConstantCommands : Prop :=
  ∀ (s : State) (pd : PtNum) (rd : BnNum) (cv : CurveField),
    (4 < cv.val → Raises (.ecInf pd cv) s .invalidArgument ∧ Raises (.ecGen pd cv) s .invalidArgument ∧
      Raises (.ecOrder rd cv) s .invalidArgument ∧ Raises (.ecPrime rd cv) s .invalidArgument) ∧
    (cv.val ≤ 4 → ∃ c, curveOf cv = some c) ∧
    (curveOf 0 = some .p256 ∧ curveOf 1 = some .p384 ∧ curveOf 2 = some .p521 ∧ curveOf 3 = some .ed25519 ∧
      curveOf 4 = some .x25519) ∧
    (Curve.ed25519.gx = Curve.x25519.gx ∧ Curve.ed25519.gy = Curve.x25519.gy ∧
      Curve.ed25519.order = Curve.x25519.order ∧ Curve.ed25519.prime = Curve.x25519.prime) ∧
    HasRomP256 .p256 ∧ HasRomP384 .p384 ∧ HasRomP521 .p521 ∧ HasRomEd25519 .ed25519 ∧ HasRomEd25519 .x25519 ∧
    (∀ c, curveOf cv = some c →
      Completes (.ecInf pd cv) s (fun t =>
        HoldsPt t pd c (if c.isNist then .inf else .aff 0 1) ∧ OnlyPoint s t pd ∧ t.draws = s.draws) ∧
      Completes (.ecGen pd cv) s (fun t =>
        HoldsPt t pd c (.aff c.gx c.gy) ∧ OnlyPoint s t pd ∧ t.draws = s.draws) ∧
      Completes (.ecOrder rd cv) s (fun t => HoldsBn t rd c.orderLimbs c.order ∧ OnlyBn s t [rd]) ∧
      Completes (.ecPrime rd cv) s (fun t => HoldsBn t rd c.fieldLimbs c.prime ∧ OnlyBn s t [rd])) ∧
    Encodes 0x40 pd.val 0 0 cv.val 0 (.ecInf pd cv) ∧ Encodes 0x42 pd.val 0 0 cv.val 0 (.ecGen pd cv) ∧
    Encodes 0x47 rd.val 0 0 cv.val 0 (.ecOrder rd cv) ∧ Encodes 0x48 rd.val 0 0 cv.val 0 (.ecPrime rd cv)

/-- R347 (EC.LDAFF). -/
def Obligations.LoadAffine : Prop :=
  ∀ (s : State) (pd : PtNum) (rx ry : BnNum) (cv : CurveField),
    NeedsB (.ecLdaff pd rx ry cv) s [rx, ry] ∧
    (s.Written [rx, ry] → 4 < cv.val → Raises (.ecLdaff pd rx ry cv) s .invalidArgument) ∧
    (∀ c, s.Written [rx, ry] → curveOf cv = some c → Completes (.ecLdaff pd rx ry cv) s fun t =>
      HoldsPt t pd c (.aff (s.val rx % c.prime) (s.val ry % c.prime)) ∧ OnlyPoint s t pd ∧ t.draws = s.draws) ∧
    Encodes 0x41 pd.val rx.val ry.val cv.val 0 (.ecLdaff pd rx ry cv)

/-- R352, R357 (EC.MOV, EC.NEG), with the negations of R392 and R433. -/
def Obligations.MoveAndNegatePoint : Prop :=
  ∀ (s : State) (pd ps : PtNum),
    NeedsP (.ecMov pd ps) s ps ∧ NeedsP (.ecNeg pd ps) s ps ∧
    (∀ c v, s.Holds ps c v →
      Completes (.ecMov pd ps) s (fun t => HoldsPt t pd c v ∧ OnlyPoint s t pd ∧ t.draws = s.draws) ∧
      Completes (.ecNeg pd ps) s (fun t =>
        (c.isNist = true → v = .inf → HoldsPt t pd c .inf) ∧
        (∀ x y, c.isNist = true → v = .aff x y → HoldsPt t pd c (.aff x ((c.prime - y) % c.prime))) ∧
        (∀ x y, c.isNist = false → v = .aff x y → HoldsPt t pd c (.aff ((c.prime - x) % c.prime) y)) ∧
        OnlyPoint s t pd ∧ t.draws = s.draws)) ∧
    Encodes 0x46 pd.val ps.val 0 0 0 (.ecMov pd ps) ∧ Encodes 0x55 pd.val ps.val 0 0 0 (.ecNeg pd ps)

/-- R351 (EC.AFF), for two different destinations, the only ones that decode (R118), and a point in its curve's domain
(an invariant, StepKeepsInvariant). -/
def Obligations.AffineCoordinates : Prop :=
  ∀ (s : State) (rx ry : BnNum) (ps : PtNum), rx ≠ ry → s.PointsOk →
    NeedsP (.ecAff rx ry ps) s ps ∧
    (∀ c, s.Holds ps c .inf → Raises (.ecAff rx ry ps) s .invalidArgument) ∧
    (∀ c x y, s.Holds ps c (.aff x y) → Completes (.ecAff rx ry ps) s fun t =>
      HoldsBn t rx c.fieldLimbs x ∧ HoldsBn t ry c.fieldLimbs y ∧ OnlyBn s t [rx, ry]) ∧
    Encodes 0x45 rx.val ps.val 0 ry.val 0 (.ecAff rx ry ps) ∧
    decode (packWord 0x45 rx.val ps.val 0 rx.val 0) = none

/-- R349 (EC.LDENC), the length and the decoding being those of NistPointDecoding and EdwardsPointDecoding. -/
def Obligations.LoadEncodedPoint : Prop :=
  ∀ (s : State) (pd : PtNum) (off : Imm8) (cv : CurveField),
    (4 < cv.val → Raises (.ecLdenc pd off cv) s .invalidArgument) ∧
    (∀ c, curveOf cv = some c → c.encLen (s.dbuf.read off.val) = none →
      Raises (.ecLdenc pd off cv) s .invalidArgument) ∧
    (∀ c n, curveOf cv = some c → c.encLen (s.dbuf.read off.val) = some n → 256 < off.val + n →
      Raises (.ecLdenc pd off cv) s .dbufRange) ∧
    (∀ c n, curveOf cv = some c → c.encLen (s.dbuf.read off.val) = some n → off.val + n ≤ 256 →
      c.decode (s.dbuf.readBytes off.val n) = none → Raises (.ecLdenc pd off cv) s .invalidArgument) ∧
    (∀ c n v, curveOf cv = some c → c.encLen (s.dbuf.read off.val) = some n → off.val + n ≤ 256 →
      c.decode (s.dbuf.readBytes off.val n) = some v → Completes (.ecLdenc pd off cv) s fun t =>
        HoldsPt t pd c v ∧ OnlyPoint s t pd ∧ t.draws = s.draws) ∧
    Encodes 0x43 pd.val 0 0 cv.val off.val (.ecLdenc pd off cv)

/-- R350 (EC.STENC), the bytes being those of PointEncodings, in states whose DBUF list has its canonical form (an
invariant, StepKeepsInvariant). -/
def Obligations.StoreEncodedPoint : Prop :=
  ∀ (s : State) (ps : PtNum) (off : Imm8) (z : ZField), s.dbuf.wf = true → z.val ≤ 1 →
    NeedsP (.ecStenc ps off z) s ps ∧
    (∀ c v, s.Holds ps c v → c.isNist = false → z.val = 1 → Raises (.ecStenc ps off z) s .unsupportedOperation) ∧
    (∀ c, s.Holds ps c .inf → c.isNist = true ∨ z.val = 0 → Raises (.ecStenc ps off z) s .invalidArgument) ∧
    (∀ c x y, s.Holds ps c (.aff x y) → c.isNist = true ∨ z.val = 0 →
      256 < off.val + (c.encode x y (decide (z.val = 1))).length → Raises (.ecStenc ps off z) s .dbufRange) ∧
    (∀ c x y, s.Holds ps c (.aff x y) → c.isNist = true ∨ z.val = 0 →
      off.val + (c.encode x y (decide (z.val = 1))).length ≤ 256 → Completes (.ecStenc ps off z) s fun t =>
        t.dbuf.readBytes off.val (c.encode x y (decide (z.val = 1))).length = c.encode x y (decide (z.val = 1)) ∧
        t.res.toNat = (c.encode x y (decide (z.val = 1))).length ∧
        OnlyResAndDbuf s t off.val (c.encode x y (decide (z.val = 1))).length) ∧
    Encodes 0x44 0 ps.val z.val 0 off.val (.ecStenc ps off z) ∧
    (∀ z' : ZField, 2 ≤ z'.val → decode (packWord 0x44 0 ps.val z'.val 0 off.val) = none)

/-! ### Group operations -/

/-- R355 (EC.ADD), the sum being that of NistSumOfPoints and EdwardsSumOfPoints; a malformed operand gives a fresh free
value in the curve's domain (R337, log entry 7). -/
def Obligations.PointAddition : Prop :=
  ∀ (s : State) (pd ps1 ps2 : PtNum),
    NeedsP (.ecAdd pd ps1 ps2) s ps1 ∧ NeedsP (.ecAdd pd ps1 ps2) s ps2 ∧
    (∀ c1 v1 c2 v2, s.Holds ps1 c1 v1 → s.Holds ps2 c2 v2 → c1 ≠ c2 →
      Raises (.ecAdd pd ps1 ps2) s .invalidArgument) ∧
    (∀ c v1 v2, s.Holds ps1 c v1 → s.Holds ps2 c v2 → c.wellFormed v1 = true → c.wellFormed v2 = true →
      Completes (.ecAdd pd ps1 ps2) s fun t =>
        HoldsPt t pd c (c.add v1 v2) ∧ OnlyPoint s t pd ∧ t.draws = s.draws) ∧
    (∀ c v1 v2, s.Holds ps1 c v1 → s.Holds ps2 c v2 → c.wellFormed v1 = false ∨ c.wellFormed v2 = false →
      Completes (.ecAdd pd ps1 ps2) s fun t =>
        HoldsPt t pd c (c.draw s.draws) ∧ c.inDomain (c.draw s.draws) = true ∧ t.draws = s.draws + 1 ∧
        OnlyPoint s t pd) ∧
    Encodes 0x50 pd.val ps1.val ps2.val 0 0 (.ecAdd pd ps1 ps2)

/-- R356 (EC.DBL), with R337 as in PointAddition. -/
def Obligations.PointDoubling : Prop :=
  ∀ (s : State) (pd ps : PtNum),
    NeedsP (.ecDbl pd ps) s ps ∧
    (∀ c v, s.Holds ps c v → c.wellFormed v = true → Completes (.ecDbl pd ps) s fun t =>
      HoldsPt t pd c (c.add v v) ∧ OnlyPoint s t pd ∧ t.draws = s.draws) ∧
    (∀ c v, s.Holds ps c v → c.wellFormed v = false → Completes (.ecDbl pd ps) s fun t =>
      HoldsPt t pd c (c.draw s.draws) ∧ c.inDomain (c.draw s.draws) = true ∧ t.draws = s.draws + 1 ∧
      OnlyPoint s t pd) ∧
    Encodes 0x51 pd.val ps.val 0 0 0 (.ecDbl pd ps)

/-- R358 (EC.MUL) with R336: the k-fold sum 0·v = O, (k+1)·v = (k·v) ⊕ v, for every scalar, whatever table the operand
has (R365), for a point in its curve's domain (an invariant, StepKeepsInvariant). A malformed operand gives a fresh free
value in the curve's domain (R337, log entry 7). -/
def Obligations.ScalarMultiplication : Prop :=
  ∀ (s : State) (pd ps : PtNum) (rk : BnNum), s.PointsOk →
    NeedsP (.ecMul pd ps rk) s ps ∧ NeedsB (.ecMul pd ps rk) s [rk] ∧
    (∀ c v, s.Holds ps c v → s.Written [rk] → c.wellFormed v = true → Completes (.ecMul pd ps rk) s fun t =>
      HoldsPt t pd c (c.kFold v (s.val rk)) ∧ OnlyPoint s t pd ∧ t.draws = s.draws) ∧
    (∀ c v, s.Holds ps c v → s.Written [rk] → c.wellFormed v = false → Completes (.ecMul pd ps rk) s fun t =>
      HoldsPt t pd c (c.draw s.draws) ∧ c.inDomain (c.draw s.draws) = true ∧ t.draws = s.draws + 1 ∧
      OnlyPoint s t pd) ∧
    Encodes 0x52 pd.val ps.val rk.val 0 0 (.ecMul pd ps rk)

/-- R393, R394: the group operation of a NIST curve, its slope and coordinates given by the equations of the rule in the
field of p elements. -/
def Obligations.NistSumOfPoints : Prop :=
  ∀ c : Curve, c.isNist = true →
    (∀ v, c.add .inf v = v ∧ c.add v .inf = v) ∧
    (∀ x1 y1 x2 y2, c.inDomain (.aff x1 y1) = true → c.inDomain (.aff x2 y2) = true →
      c.wellFormed (.aff x1 y1) = true → c.wellFormed (.aff x2 y2) = true →
      (x1 = x2 → (y1 + y2) % c.prime = 0 → c.add (.aff x1 y1) (.aff x2 y2) = .inf) ∧
      (¬(x1 = x2 ∧ (y1 + y2) % c.prime = 0) → ∃ l x3 y3 : Nat,
        c.add (.aff x1 y1) (.aff x2 y2) = .aff x3 y3 ∧ x3 < c.prime ∧ y3 < c.prime ∧
        (x1 = x2 → (l : ZMod c.prime) * (2 * y1) = 3 * x1 ^ 2 - 3 ∧ (2 * y1 : ZMod c.prime) ≠ 0) ∧
        (x1 ≠ x2 → (l : ZMod c.prime) * (x2 - x1) = y2 - y1 ∧ (x2 - x1 : ZMod c.prime) ≠ 0) ∧
        (x3 : ZMod c.prime) = l ^ 2 - x1 - x2 ∧ (y3 : ZMod c.prime) = l * (x1 - x3) - y1))

/-- R434, R435: the group operation of edwards25519, its coordinates given by the equations of the rule in the field of
p elements; no well-formed pair makes a denominator 0. -/
def Obligations.EdwardsSumOfPoints : Prop :=
  ∀ c : Curve, c.isNist = false → ∀ x1 y1 x2 y2, c.inDomain (.aff x1 y1) = true → c.inDomain (.aff x2 y2) = true →
    c.wellFormed (.aff x1 y1) = true → c.wellFormed (.aff x2 y2) = true →
    ∃ x3 y3 : Nat, c.add (.aff x1 y1) (.aff x2 y2) = .aff x3 y3 ∧ x3 < c.prime ∧ y3 < c.prime ∧
      (1 + c.coeff * x1 * x2 * y1 * y2 : ZMod c.prime) ≠ 0 ∧ (1 - c.coeff * x1 * x2 * y1 * y2 : ZMod c.prime) ≠ 0 ∧
      (x3 : ZMod c.prime) * (1 + c.coeff * x1 * x2 * y1 * y2) = x1 * y2 + y1 * x2 ∧
      (y3 : ZMod c.prime) * (1 - c.coeff * x1 * x2 * y1 * y2) = y1 * y2 + x1 * x2

/-- Derived from R336, R390, R430: the well-formed values of each curve, in its domain, are closed under ⊕ and Neg and
form a commutative group with identity O_c. -/
def Obligations.WellFormedPointsAreAGroup : Prop :=
  ∀ (c : Curve) (u v w : PointVal), c.inDomain u = true → c.inDomain v = true → c.inDomain w = true →
    c.wellFormed u = true → c.wellFormed v = true → c.wellFormed w = true →
    c.inDomain (c.add u v) = true ∧ c.wellFormed (c.add u v) = true ∧
    c.inDomain (c.neg u) = true ∧ c.wellFormed (c.neg u) = true ∧
    c.inDomain c.identity = true ∧ c.wellFormed c.identity = true ∧
    c.add u c.identity = u ∧ c.add c.identity u = u ∧ c.add u (c.neg u) = c.identity ∧
    c.add u v = c.add v u ∧ c.add (c.add u v) w = c.add u (c.add v w)

/-- R333: each field prime is prime, each base point satisfies its curve equation, and its order times the base point is
the identity. (The rule says the test of primality was probabilistic; that a group order is prime is not stated here.) -/
def Obligations.CurveConstantsAreConsistent : Prop :=
  ∀ c : Curve, c.prime.Prime ∧ c.inDomain (.aff c.gx c.gy) = true ∧ c.wellFormed (.aff c.gx c.gy) = true ∧
    c.kFold (.aff c.gx c.gy) c.order = c.identity

/-! ### Tables and predicates -/

/-- R359, R360 (EC.MKTAB, EC.DETAB), where attachment and ownership agree (an invariant, StepKeepsInvariant). -/
def Obligations.TablesAttachAndDetach : Prop :=
  ∀ (s : State) (ps : PtNum) (slot : Imm8), s.TabsAgree →
    NeedsP (.ecMktab ps slot) s ps ∧ NeedsP (.ecDetab ps) s ps ∧
    (∀ c v, s.Holds ps c v → 4 ≤ slot.val → Raises (.ecMktab ps slot) s .invalidArgument) ∧
    (∀ c v, ∀ t4 : Fin 4, s.Holds ps c v → slot.val = t4.val → Completes (.ecMktab ps slot) s fun t =>
      (t.p ps).tab = some t4 ∧ t.slotOwner t4 = some ps ∧
      (∀ q, q ≠ ps → (t.p q).tab = if s.slotOwner t4 = some q then none else (s.p q).tab) ∧
      (∀ u, u ≠ t4 → t.slotOwner u = if (s.p ps).tab = some u then none else s.slotOwner u) ∧ OnlyTabs s t) ∧
    (∀ c v, s.Holds ps c v → Completes (.ecDetab ps) s fun t =>
      (t.p ps).tab = none ∧ (∀ q, q ≠ ps → (t.p q).tab = (s.p q).tab) ∧
      (∀ u, t.slotOwner u = if (s.p ps).tab = some u then none else s.slotOwner u) ∧ OnlyTabs s t) ∧
    Encodes 0x53 0 ps.val 0 0 slot.val (.ecMktab ps slot) ∧ Encodes 0x54 0 ps.val 0 0 0 (.ecDetab ps)

/-- R344 (with R39): attachment and ownership agree after every command and after reset if they agreed before. -/
def Obligations.AttachmentAndOwnershipAgree : Prop :=
  (∀ (i : Instr) (s t : State), s.TabsAgree → exec i s = .next t → t.TabsAgree) ∧
  (∀ s : State, s.enterReset.TabsAgree ∧ s.enterReset.finishReset.TabsAgree) ∧ State.reset.TabsAgree

/-- R361, R362, R363 (EC.ISON, EC.ISINF, EC.EQ), with the tests of R398 and R439 and the identities of R334. -/
def Obligations.PointPredicates : Prop :=
  ∀ (s : State) (ps ps1 ps2 : PtNum),
    NeedsP (.ecIson ps) s ps ∧ NeedsP (.ecIsinf ps) s ps ∧
    NeedsP (.ecEq ps1 ps2) s ps1 ∧ NeedsP (.ecEq ps1 ps2) s ps2 ∧
    (∀ c, s.Holds ps c .inf → c.isNist = true →
      Completes (.ecIson ps) s (fun t => t.flags = { s.flags with c := true } ∧ OnlyFlags s t) ∧
      Completes (.ecIsinf ps) s (fun t => t.flags = { s.flags with c := true } ∧ OnlyFlags s t)) ∧
    (∀ c x y, s.Holds ps c (.aff x y) →
      (c.isNist = true → Completes (.ecIson ps) s fun t =>
        t.flags = { s.flags with c := decide (((y : Int) ^ 2 - (x ^ 3 - 3 * x + c.coeff)) % c.prime = 0) } ∧
        OnlyFlags s t) ∧
      (c.isNist = false → Completes (.ecIson ps) s fun t =>
        t.flags = { s.flags with
          c := decide ((-(x : Int) ^ 2 + y ^ 2 - 1 - c.coeff * x ^ 2 * y ^ 2) % c.prime = 0) } ∧ OnlyFlags s t) ∧
      Completes (.ecIsinf ps) s (fun t =>
        t.flags = { s.flags with c := decide (c.isNist = false ∧ x = 0 ∧ y = 1) } ∧ OnlyFlags s t)) ∧
    (∀ c1 v1 c2 v2, s.Holds ps1 c1 v1 → s.Holds ps2 c2 v2 → Completes (.ecEq ps1 ps2) s fun t =>
      t.flags = { s.flags with c := decide (c1 = c2 ∧ v1 = v2) } ∧ OnlyFlags s t) ∧
    Encodes 0x58 0 ps.val 0 0 0 (.ecIson ps) ∧ Encodes 0x59 0 ps.val 0 0 0 (.ecIsinf ps) ∧
    Encodes 0x5A 0 ps1.val ps2.val 0 0 (.ecEq ps1 ps2)

/-- R505 (NOP): no effect of its own; it completes like any command, and only the zero word is NOP. -/
def Obligations.NopCompletes : Prop :=
  (∀ s : State, Completes .nop s fun t => NothingElse s t) ∧
  (∀ s : State, s.ctrl.ieDone = true → Completes .nop s fun t => t.irq = true) ∧
  decode 0#32 = some .nop ∧ (∀ w : Word, fieldOp w = 0 → w ≠ 0#32 → decode w = none)

/-! ### Byte encodings -/

/-- R401, R402, R440, R443: the bytes of Encode(c, (x, y), z), for coordinates in the curve's domain. -/
def Obligations.PointEncodings : Prop :=
  (∀ (c : Curve) (x y : Nat), c.isNist = true → c.inDomain (.aff x y) = true →
    (c.encode x y false).length = 2 * c.fieldBytes + 1 ∧ (c.encode x y false).getD 0 0 = 0x04#8 ∧
    (∀ j < c.fieldBytes,
      ((c.encode x y false).getD (1 + j) 0).toNat = x / 256 ^ (c.fieldBytes - 1 - j) % 256 ∧
      ((c.encode x y false).getD (c.fieldBytes + 1 + j) 0).toNat = y / 256 ^ (c.fieldBytes - 1 - j) % 256) ∧
    (c.encode x y true).length = c.fieldBytes + 1 ∧ ((c.encode x y true).getD 0 0).toNat = 2 + y % 2 ∧
    (∀ j < c.fieldBytes,
      ((c.encode x y true).getD (1 + j) 0).toNat = x / 256 ^ (c.fieldBytes - 1 - j) % 256)) ∧
  (∀ x y : Nat, Curve.ed25519.inDomain (.aff x y) = true → (Curve.ed25519.encode x y false).length = 32 ∧
    ∀ j < 32, ((Curve.ed25519.encode x y false).getD j 0).toNat = (y + 2 ^ 255 * (x % 2)) / 256 ^ j % 256) ∧
  (∀ x y : Nat, Curve.x25519.inDomain (.aff x y) = true → ∃ u : Nat, u < Curve.x25519.prime ∧ (y = 1 → u = 0) ∧
    (y ≠ 1 → (u : ZMod Curve.x25519.prime) * (1 - y) = 1 + y) ∧ (Curve.x25519.encode x y false).length = 32 ∧
    ∀ j < 32, ((Curve.x25519.encode x y false).getD j 0).toNat = u / 256 ^ j % 256) ∧
  Curve.p256.fieldBytes = 32 ∧ Curve.p384.fieldBytes = 48 ∧ Curve.p521.fieldBytes = 66

/-- R403, R404, R406 (with R407): the length a NIST encoding has by its first byte, and what its bytes decode to: the
uncompressed form any two coordinates below p, the compressed form the curve point of that abscissa and parity, where
there is one. -/
def Obligations.NistPointDecoding : Prop :=
  ∀ c : Curve, c.isNist = true →
    c.encLen 0x04#8 = some (2 * c.fieldBytes + 1) ∧ c.encLen 0x02#8 = some (c.fieldBytes + 1) ∧
    c.encLen 0x03#8 = some (c.fieldBytes + 1) ∧
    (∀ h : Byte, h ≠ 0x02#8 → h ≠ 0x03#8 → h ≠ 0x04#8 → c.encLen h = none) ∧
    ∀ (e : List Byte) (x : Nat),
      x = ∑ j ∈ Finset.range c.fieldBytes, (e.getD (1 + j) 0).toNat * 256 ^ (c.fieldBytes - 1 - j) →
      (∀ y : Nat, e.length = 2 * c.fieldBytes + 1 → e.getD 0 0 = 0x04#8 →
        y = ∑ j ∈ Finset.range c.fieldBytes,
          (e.getD (c.fieldBytes + 1 + j) 0).toNat * 256 ^ (c.fieldBytes - 1 - j) →
        c.decode e = if x < c.prime ∧ y < c.prime then some (.aff x y) else none) ∧
      (e.length = c.fieldBytes + 1 → e.getD 0 0 = 0x02#8 ∨ e.getD 0 0 = 0x03#8 →
        ∀ v, c.decode e = some v ↔ ∃ y : Nat, v = .aff x y ∧ x < c.prime ∧ y < c.prime ∧
          y % 2 = (e.getD 0 0).toNat - 2 ∧ (y : ZMod c.prime) ^ 2 = x ^ 3 - 3 * x + c.coeff)

/-- R441, R444 (with R442 and the length of R349): what 32 bytes decode to on edwards25519 under each encoding: the point
the rule names, where there is one, and otherwise none. -/
def Obligations.EdwardsPointDecoding : Prop :=
  (∀ (c : Curve) (h : Byte), c.isNist = false → c.encLen h = some 32) ∧
  ∀ (e : List Byte) (n : Nat), e.length = 32 → n = ∑ j ∈ Finset.range 32, (e.getD j 0).toNat * 256 ^ j →
    (∀ v, Curve.ed25519.decode e = some v ↔ ∃ x y : Nat, v = .aff x y ∧ y = n % 2 ^ 255 ∧ y < Curve.ed25519.prime ∧
      x < Curve.ed25519.prime ∧ x % 2 = (e.getD 31 0).toNat / 128 ∧
      (x : ZMod Curve.ed25519.prime) ^ 2 * (Curve.ed25519.coeff * y ^ 2 + 1) = y ^ 2 - 1) ∧
    (∀ v, Curve.x25519.decode e = some v ↔ ∃ u x y : Nat, v = .aff x y ∧ u = n % 2 ^ 255 % Curve.x25519.prime ∧
      (u + 1 : ZMod Curve.x25519.prime) ≠ 0 ∧ y < Curve.x25519.prime ∧
      (y : ZMod Curve.x25519.prime) * (u + 1) = u - 1 ∧ x < Curve.x25519.prime ∧ x % 2 = 0 ∧
      (x : ZMod Curve.x25519.prime) ^ 2 * (Curve.x25519.coeff * y ^ 2 + 1) = y ^ 2 - 1)

/-- R408 and R445 (with R440, R441 for Ed25519): EC.LDENC of the bytes EC.STENC has written, for a point in its curve's
domain and a DBUF list in its canonical form (both invariants, StepKeepsInvariant). -/
def Obligations.EncodingsRoundTrip : Prop :=
  ∀ (s t : State) (ps pd : PtNum) (off : Imm8) (z : ZField) (cv : CurveField) (c : Curve) (x y : Nat),
    s.dbuf.wf = true → c.inDomain (.aff x y) = true → s.Holds ps c (.aff x y) → curveOf cv = some c →
    z.val ≤ 1 → exec (.ecStenc ps off z) s = .next t → t.status.err = false →
    (c.isNist = true → c.wellFormed (.aff x y) = true ∨ z.val = 0 →
      Completes (.ecLdenc pd off cv) t fun u => HoldsPt u pd c (.aff x y)) ∧
    (c.isNist = true → c.wellFormed (.aff x y) = false → z.val = 1 →
      Raises (.ecLdenc pd off cv) t .invalidArgument ∨
      Completes (.ecLdenc pd off cv) t fun u => ∃ v, HoldsPt u pd c v ∧ v ≠ .aff x y ∧ c.wellFormed v = true) ∧
    (c = .ed25519 → c.wellFormed (.aff x y) = true →
      Completes (.ecLdenc pd off cv) t fun u => HoldsPt u pd c (.aff x y)) ∧
    (c = .x25519 → c.wellFormed (.aff x y) = true → ¬(x = 0 ∧ y = 1) →
      Completes (.ecLdenc pd off cv) t fun u => ∃ x', HoldsPt u pd c (.aff x' y) ∧ x' % 2 = 0 ∧
        (PointVal.aff x' y = .aff x y ∨ PointVal.aff x' y = c.neg (.aff x y))) ∧
    (c = .x25519 → x = 0 ∧ y = 1 →
      Completes (.ecLdenc pd off cv) t fun u => HoldsPt u pd c (.aff 0 (c.prime - 1)))

/-! ### The host's side -/

/-- R48 to R59, R85, R87, R94, R522, and the little-endian DBUF of R82, R84: what each read answers in IDLE, BUSY and
RESETTING. A read has no side effect; one that BUSY makes a draw counts the draw (log entry 8), bits 31:3 of FLAGS reading
0 then too (R40, R49, R53; log entry 27), and a narrow read is answered zero-extended (log entry 20). -/
def Obligations.HostReads : Prop :=
  ∀ s : State,
    ReadsAs s 0x000 .word 0x42450007#32 ∧ ReadsAs s 0x028 .word 0x104FF030#32 ∧
    (s.seq ≠ .resetting →
      ReadsAs s 0x004 .word (0#30 ++ BitVec.ofBool s.ctrl.ieErr ++ BitVec.ofBool s.ctrl.ieDone) ∧
      ReadsAs s 0x008 .word (0#16 ++ s.status.errCode ++ 0#4 ++ BitVec.ofBool s.status.ovr ++
        BitVec.ofBool s.status.err ++ BitVec.ofBool s.status.done ++ BitVec.ofBool (s.seq == .busy)) ∧
      ReadsAs s 0x00C .word 0#32 ∧ ReadsAs s 0x018 .word s.argLo ∧ ReadsAs s 0x01C .word (0#15 ++ s.argHi) ∧
      ReadsAs s 0x020 .word s.errCmd ∧ ReadsAs s 0x024 .word s.cmdCnt) ∧
    (∀ off, 0x02C ≤ off → off < 0x100 → off % 4 = 0 → ReadsAs s off .word 0#32) ∧
    (s.seq = .idle →
      ReadsAs s 0x010 .word (0#29 ++ s.flags.cmp.code ++ BitVec.ofBool s.flags.c) ∧ ReadsAs s 0x014 .word s.res ∧
      ∀ (j : Nat) (w : Width) (v : Word), j < 256 → j % w.bytes = 0 →
        v.toNat = ∑ k ∈ Finset.range w.bytes, (s.dbuf.read (j + k)).toNat * 256 ^ k → ReadsAs s (0x100 + j) w v) ∧
    (s.seq = .busy → ∀ (off : Nat) (w : Width) (es : List HostEvent),
      (off = 0x010 ∨ off = 0x014) ∧ w = .word ∨ (0x100 ≤ off ∧ off < 0x200 ∧ off % w.bytes = 0) →
      s.hostIn = .read (Config.bnecBase + off) w :: es →
      ∃ v : Word, v.toNat < 256 ^ w.bytes ∧ (off = 0x010 → v.toNat < 2 ^ 3) ∧
        step s = .next { s with hostIn := es, hostOut := s.hostOut ++ [v], draws := s.draws + 1 }) ∧
    (s.seq = .resetting →
      ReadsAs s 0x008 .word 1#32 ∧
      (∀ off, off < 0x100 → off % 4 = 0 → off ≠ 0x000 → off ≠ 0x008 → off ≠ 0x028 → ReadsAs s off .word 0#32) ∧
      ∀ (j : Nat) (w : Width), j < 256 → j % w.bytes = 0 → ReadsAs s (0x100 + j) w 0#32)

/-- R43, R49, R50, R51, R57, R84, R85, R530: what a write to each register and to DBUF does in IDLE and BUSY (CMD and
SRST are CommandAcceptance and Resets), in states whose DBUF list has its canonical form (an invariant,
StepKeepsInvariant). -/
def Obligations.HostWrites : Prop :=
  ∀ (s : State) (d : Word), s.seq ≠ .resetting → s.dbuf.wf = true →
    (d.getLsbD 31 = false → WriteLeadsTo s 0x004 .word d
      { s with ctrl := { ieDone := d.getLsbD 0, ieErr := d.getLsbD 1 } }) ∧
    WriteLeadsTo s 0x008 .word d { s with status := {
      done := s.status.done && !d.getLsbD 1
      err := s.status.err && !d.getLsbD 2
      ovr := s.status.ovr && !d.getLsbD 3
      errCode := if d.getLsbD 2 then 0 else s.status.errCode } } ∧
    (∀ off ∈ [0x000, 0x014, 0x020, 0x024, 0x028], WriteLeadsTo s off .word d s) ∧
    (∀ off, 0x02C ≤ off → off < 0x100 → off % 4 = 0 → WriteLeadsTo s off .word d s) ∧
    (s.seq = .idle →
      WriteLeadsTo s 0x010 .word d { s with flags := { s.flags with c := d.getLsbD 0 } } ∧
      WriteLeadsTo s 0x018 .word d { s with argLo := d } ∧
      WriteLeadsTo s 0x01C .word d { s with argHi := d.extractLsb' 0 17 } ∧
      ∀ (j : Nat) (w : Width), j < 256 → j % w.bytes = 0 → ∃ m : Memory,
        WriteLeadsTo s (0x100 + j) w d { s with dbuf := m } ∧ m.wf = true ∧
        (∀ k < w.bytes, m.read (j + k) = d.extractLsb' (8 * k) 8) ∧
        ∀ a, a < j ∨ j + w.bytes ≤ a → m.read a = s.dbuf.read a) ∧
    (s.seq = .busy →
      (∀ off ∈ [0x010, 0x018, 0x01C],
        WriteLeadsTo s off .word d { s with status := { s.status with ovr := true } }) ∧
      ∀ (j : Nat) (w : Width), j < 256 → j % w.bytes = 0 →
        WriteLeadsTo s (0x100 + j) w d { s with status := { s.status with ovr := true } })

/-- R52, R480: a CMD write in IDLE with ERR = 0 is accepted, in every other state outside RESETTING it is ignored with
OVR set; and writing bit 2 of STATUS returns from an error, ERRCMD kept, after which a command is accepted. -/
def Obligations.CommandAcceptance : Prop :=
  (∀ (s : State) (w : Word), s.seq = .idle → s.status.err = false →
    WriteLeadsTo s 0x00C .word w { s with cmdReg := w, status := { s.status with done := false }, seq := .busy }) ∧
  (∀ (s : State) (w : Word), s.seq = .busy ∨ (s.seq = .idle ∧ s.status.err = true) →
    WriteLeadsTo s 0x00C .word w { s with status := { s.status with ovr := true } }) ∧
  (∀ (s : State) (d w : Word) (es : List HostEvent), s.seq = .idle → s.status.err = true → d.getLsbD 2 = true →
    s.hostIn = .write (Config.bnecBase + 0x008) .word d :: .write (Config.bnecBase + 0x00C) .word w :: es →
    ∃ t u, step s = .next t ∧ t.status.err = false ∧ t.status.errCode = 0 ∧ t.errCmd = s.errCmd ∧
      step t = .next u ∧ u.seq = .busy ∧ u.cmdReg = w ∧ u.errCmd = s.errCmd)

/-- R520, R521, R522 with R63 (log entries 5 and 6): the reset input in every state, and a CTRL write with bit 31 set
outside RESETTING, put the sequencer in RESETTING with the block zeroized, whatever it was doing, whatever the other
bits written and whatever event comes next. With no event pending, or at a pause, RESETTING ends in the state of R63
(its own state being zeroized, an invariant, StepKeepsInvariant); while it lasts every accepted write is ignored, and
OVR is not set. -/
def Obligations.Resets : Prop :=
  (∀ (s : State) (e : HostEvent) (es : List HostEvent), s.hostIn = e :: es →
    (e = .reset ∨ ∃ d : Word, e = .write (Config.bnecBase + 0x004) .word d ∧ d.getLsbD 31 = true ∧
      s.seq ≠ .resetting) →
    step s = .next { State.reset with seq := .resetting, hostIn := es, hostOut := s.hostOut, draws := s.draws }) ∧
  (∀ (s : State) (es : List HostEvent), s.ResettingOk → s.seq = .resetting →
    (s.hostIn = [] ∧ es = []) ∨ s.hostIn = .pause :: es →
    step s = .next { State.reset with hostIn := es, hostOut := s.hostOut, draws := s.draws }) ∧
  (∀ (s : State) (off : Nat) (w : Width) (d : Word) (es : List HostEvent), s.seq = .resetting → off < 0x200 →
    accessOk off w = true → s.hostIn = .write (Config.bnecBase + off) w d :: es → step s = .next { s with hostIn := es })

/-- R83, R84, R85, R86, R484 (log entry 17): a host access of a wrong width or alignment is a bus error and one outside
the window is not decoded; every other step answers a next state. -/
def Obligations.OnlyHostAccessesFault : Prop :=
  (∀ (off : Nat) (w : Width), off < 0x100 → (accessOk off w = true ↔ w = .word ∧ off % 4 = 0)) ∧
  (∀ (off : Nat) (w : Width), 0x100 ≤ off → off < 0x200 → (accessOk off w = true ↔ w.bytes ∣ off)) ∧
  (∀ (s : State) (es : List HostEvent) (off : Nat) (w : Width) (d : Word), off < 0x200 → accessOk off w = false →
    s.hostIn = .read (Config.bnecBase + off) w :: es ∨ s.hostIn = .write (Config.bnecBase + off) w d :: es →
    step s = .fault .busError) ∧
  (∀ (s : State) (es : List HostEvent) (addr : Nat) (w : Width) (d : Word),
    addr < Config.bnecBase ∨ Config.bnecBase + 0x200 ≤ addr →
    s.hostIn = .read addr w :: es ∨ s.hostIn = .write addr w d :: es → step s = .fault .notDecoded) ∧
  (∀ s : State, (∀ e es, s.hostIn = e :: es → e.safe) → ∃ t, step s = .next t)

/-! ### Rules of the whole machine -/

/-- Derived from R63, R44, R523, R491: the state after reset, its invariant, and its interrupt output. -/
def Obligations.ResetState : Prop :=
  State.reset.Inv ∧
  (∀ i : BnNum, (State.reset.b i).written = false ∧ State.reset.size i = 0) ∧
  (∀ i : PtNum, (State.reset.p i).cell = .empty ∧ (State.reset.p i).tab = none) ∧
  (∀ j : Fin 4, State.reset.slotOwner j = none) ∧ State.reset.flagsWord = 0#32 ∧
  (∀ a, State.reset.dbuf.read a = 0#8) ∧ State.reset.seq = .idle ∧ State.reset.cmdReg = 0#32 ∧
  State.reset.ctrlWord = 0#32 ∧ State.reset.statusWord = 0#32 ∧ State.reset.res = 0#32 ∧
  State.reset.argLo = 0#32 ∧ State.reset.argHi = 0#17 ∧ State.reset.errCmd = 0#32 ∧ State.reset.cmdCnt = 0#32 ∧
  State.reset.irq = false

/-- Derived from R32, R33, R38, R344, R46, R51, R492, R520: from every state that meets the invariant, every step that
answers a next state keeps it: capacities of at most 48 limbs, point values in their curve's domain, attachment and
ownership agreeing, DBUF in its canonical form, STATUS consistent, and RESETTING zeroized (log entry 5). -/
def Obligations.StepKeepsInvariant : Prop := ∀ s t : State, s.Inv → step s = .next t → t.Inv

/-- R490, R491, R492: IRQ by its expression; a command run from a consistent STATUS with the sequencer BUSY sets exactly
one of DONE and ERR, IRQ then being the enable of that one; the reset state raises none, and OVR drives none. -/
def Obligations.InterruptsFollowStatus : Prop :=
  (∀ s : State, s.irq = true ↔
    (s.status.done = true ∧ s.ctrl.ieDone = true) ∨ (s.status.err = true ∧ s.ctrl.ieErr = true)) ∧
  (∀ (i : Instr) (s t : State), s.StatusOk → s.seq = .busy → exec i s = .next t →
    (t.status.done = true ∧ t.status.err = false ∧ t.irq = s.ctrl.ieDone) ∨
    (t.status.done = false ∧ t.status.err = true ∧ t.irq = s.ctrl.ieErr)) ∧
  (∀ s : State, s.overrun.irq = s.irq) ∧ State.reset.irq = false

/-- R41, R42, R56, with R36, R39, R46, R57: which commands, by opcode, may change C, CMP, RES, DBUF, a BigNum register, a
point register and an attachment; and that none changes CTRL, ARG_LO or ARG_HI. -/
def Obligations.WhatCommandsMayWrite : Prop :=
  ∀ (i : Instr) (s t : State), exec i s = .next t →
    (t.flags.c ≠ s.flags.c →
      fieldOp (encode i) ∈ [0x21, 0x22, 0x23, 0x24, 0x25, 0x26, 0x27, 0x58, 0x59, 0x5A]) ∧
    (t.flags.cmp ≠ s.flags.cmp → fieldOp (encode i) = 0x20) ∧
    (t.res ≠ s.res → fieldOp (encode i) ∈ [0x02, 0x05, 0x29, 0x44, 0x09, 0x0A]) ∧
    (t.dbuf ≠ s.dbuf → fieldOp (encode i) ∈ [0x02, 0x05, 0x29, 0x44]) ∧
    (∀ j, t.b j ≠ s.b j → (t.b j).written = true ∧ (fieldA (encode i) = j ∨
      (fieldOp (encode i) ∈ [0x15, 0x18, 0x45] ∧ fieldD (encode i) = j)) ∧
      (fieldOp (encode i) < 0x40 ∨ fieldOp (encode i) ∈ [0x45, 0x47, 0x48])) ∧
    (∀ j, (t.p j).cell ≠ (s.p j).cell → fieldA (encode i) = j ∧
      fieldOp (encode i) ∈ [0x40, 0x41, 0x42, 0x43, 0x46, 0x50, 0x51, 0x52, 0x55]) ∧
    (∀ j, (t.p j).tab ≠ (s.p j).tab → fieldOp (encode i) ∈ [0x53, 0x54] ∨
      (fieldA (encode i) = j ∧ fieldOp (encode i) ∈ [0x40, 0x41, 0x42, 0x43, 0x46, 0x50, 0x51, 0x52, 0x55])) ∧
    t.ctrl = s.ctrl ∧ t.argLo = s.argLo ∧ t.argHi = s.argHi
end

