-- ==== Sys2Proof/Laws/BigNum.lean ====
section
/-! SUPPORT. The laws of BigNum values: BN(s, v) and val are inverse (spec/00_scope.md R9), bit length, and the byte
strings of R11. -/

namespace Sys2Proof.Machine

/-! ### Limbs -/

@[simp] theorem limbsOf_length (s v : Nat) : (limbsOf s v).length = s := by
  induction s generalizing v with
  | zero => rfl
  | succ s ih => simp [limbsOf, ih]

/-- The value of the limbs of `v` is `v` cut to the capacity. -/
theorem limbsVal_limbsOf (s v : Nat) : limbsVal (limbsOf s v) = v % 2 ^ (24 * s) := by
  induction s generalizing v with
  | zero => simp [limbsOf, limbsVal, Nat.mod_one]
  | succ s ih =>
    have h : 2 ^ (24 * (s + 1)) = 2 ^ 24 * 2 ^ (24 * s) := by rw [← pow_add]; ring_nf
    rw [limbsOf, limbsVal, ih, h, Nat.mod_mul]
    simp

/-- A value fits its capacity. -/
theorem limbsVal_lt (ls : List Limb) : limbsVal ls < 2 ^ (24 * ls.length) := by
  induction ls with
  | nil => simp [limbsVal]
  | cons l ls ih =>
    have h : 2 ^ (24 * (ls.length + 1)) = 2 ^ 24 * 2 ^ (24 * ls.length) := by rw [← pow_add]; ring_nf
    have hl := l.isLt
    simp only [limbsVal, List.length_cons, h]
    nlinarith

/-- Limbs are determined by their number and their value. -/
theorem limbsOf_limbsVal (ls : List Limb) : limbsOf ls.length (limbsVal ls) = ls := by
  induction ls with
  | nil => rfl
  | cons l ls ih =>
    have hl := l.isLt
    have h1 : BitVec.ofNat 24 (l.toNat + 2 ^ 24 * limbsVal ls) = l := by
      apply BitVec.eq_of_toNat_eq; simp only [BitVec.toNat_ofNat]; omega
    have h2 : (l.toNat + 2 ^ 24 * limbsVal ls) / 2 ^ 24 = limbsVal ls := by omega
    simp only [limbsVal, List.length_cons, limbsOf, h1, h2, ih]

@[simp] theorem BigNum.size_ofVal (s v : Nat) : (BigNum.ofVal s v).size = s := limbsOf_length s v

theorem BigNum.val_ofVal (s v : Nat) : (BigNum.ofVal s v).val = v % 2 ^ (24 * s) := limbsVal_limbsOf s v

/-- A value that fits is kept whole. -/
theorem BigNum.val_ofVal_of_lt {s v : Nat} (h : v < 2 ^ (24 * s)) : (BigNum.ofVal s v).val = v := by
  rw [BigNum.val_ofVal, Nat.mod_eq_of_lt h]

theorem BigNum.val_lt (b : BigNum) : b.val < 2 ^ (24 * b.size) := limbsVal_lt b.limbs

/-- BN(size(b), val(b)) = b. -/
@[simp] theorem BigNum.ofVal_size_val (b : BigNum) : BigNum.ofVal b.size b.val = b := by
  cases b; simp [BigNum.ofVal, BigNum.size, BigNum.val, limbsOf_limbsVal]

/-- Two BigNums with one size and one value are the same. -/
theorem BigNum.ext_size_val {a b : BigNum} (hs : a.size = b.size) (hv : a.val = b.val) : a = b := by
  rw [← a.ofVal_size_val, ← b.ofVal_size_val, hs, hv]

/-- A value fits every capacity at least its own. -/
theorem BigNum.val_lt_of_le (b : BigNum) {n : Nat} (h : b.size ≤ n) : b.val < 2 ^ (24 * n) :=
  lt_of_lt_of_le b.val_lt (Nat.pow_le_pow_right (by decide) (by omega))

/-! ### Bit length -/

theorem lt_two_pow_bitlen (v : Nat) : v < 2 ^ bitlen v := by
  unfold bitlen
  split
  · next h => simp [h]
  · exact Nat.lt_log2_self

theorem two_pow_le_of_bitlen {v : Nat} (h : v ≠ 0) : 2 ^ (bitlen v - 1) ≤ v := by
  unfold bitlen
  simpa [h] using Nat.log2_self_le h

/-- bitlen(v) is at most k exactly when v fits k bits. -/
theorem bitlen_le_iff (v k : Nat) : bitlen v ≤ k ↔ v < 2 ^ k := by
  constructor
  · intro h
    exact lt_of_lt_of_le (lt_two_pow_bitlen v) (Nat.pow_le_pow_right (by decide) h)
  · intro h
    by_cases hv : v = 0
    · simp [bitlen, hv]
    · by_contra hc
      have h1 := two_pow_le_of_bitlen hv
      have h2 : 2 ^ k ≤ 2 ^ (bitlen v - 1) := Nat.pow_le_pow_right (by decide) (by omega)
      omega

theorem le_mul_ceilDiv (a b : Nat) (hb : 0 < b) : a ≤ b * ceilDiv a b := by
  unfold ceilDiv
  have h := Nat.div_add_mod (a + (b - 1)) b
  have h2 := Nat.mod_lt (a + (b - 1)) hb
  omega

/-- A value fits its own number of limbs. -/
theorem lt_nlimbs (v : Nat) : v < 2 ^ (24 * nlimbs v) :=
  lt_of_lt_of_le (lt_two_pow_bitlen v) (Nat.pow_le_pow_right (by decide) (le_mul_ceilDiv _ 24 (by decide)))

/-- nlimbs(v) ≤ n exactly when v fits n limbs. -/
theorem nlimbs_le_iff (v n : Nat) : nlimbs v ≤ n ↔ v < 2 ^ (24 * n) := by
  rw [← bitlen_le_iff, nlimbs, ceilDiv]
  omega

/-! ### Byte strings -/

@[simp] theorem leBytes_length (n v : Nat) : (leBytes n v).length = n := by
  induction n generalizing v with
  | zero => rfl
  | succ n ih => simp [leBytes, ih]

@[simp] theorem beBytes_length (n v : Nat) : (beBytes n v).length = n := by simp [beBytes]

theorem leVal_leBytes (n v : Nat) : leVal (leBytes n v) = v % 256 ^ n := by
  induction n generalizing v with
  | zero => simp [leBytes, leVal, Nat.mod_one]
  | succ n ih =>
    rw [leBytes, leVal, ih, pow_succ, mul_comm (256 ^ n) 256, Nat.mod_mul]
    simp

theorem leVal_lt (bs : List Byte) : leVal bs < 256 ^ bs.length := by
  induction bs with
  | nil => simp [leVal]
  | cons b bs ih =>
    have hb := b.isLt
    simp only [leVal, List.length_cons, pow_succ]
    omega

theorem beVal_beBytes (n v : Nat) : beVal (beBytes n v) = v % 256 ^ n := by
  simp [beVal, beBytes, leVal_leBytes]

theorem beVal_lt (bs : List Byte) : beVal bs < 256 ^ bs.length := by
  simpa [beVal] using leVal_lt bs.reverse

/-- Byte j of LE_n(v). -/
theorem leBytes_getElem (n v j : Nat) (h : j < (leBytes n v).length) :
    (leBytes n v)[j] = BitVec.ofNat 8 (v / 256 ^ j) := by
  induction n generalizing v j with
  | zero => simp [leBytes] at h
  | succ n ih =>
    cases j with
    | zero => simp [leBytes]
    | succ j =>
      simp only [leBytes, List.getElem_cons_succ]
      rw [ih, Nat.div_div_eq_div_mul, pow_succ, mul_comm]

@[simp] theorem bytesOfLimbs_length (ls : List Limb) : (bytesOfLimbs ls).length = 3 * ls.length := by
  induction ls with
  | nil => rfl
  | cons l ls ih => simp [bytesOfLimbs, ih]; omega

/-- Three bytes make one limb. -/
theorem limbsOfBytes_length (n : Nat) (bs : List Byte) (h : bs.length = 3 * n) : (limbsOfBytes bs).length = n := by
  induction n generalizing bs with
  | zero => simp at h; subst h; rfl
  | succ n ih =>
    match bs, h with
    | b0 :: b1 :: b2 :: bs, h => simp [limbsOfBytes, ih bs (by simp at h; omega)]
    | [], h => simp at h
    | [_], h => simp at h; omega
    | [_, _], h => simp at h; omega

/-- Reading limbs back from their bytes gives the limbs. -/
theorem limbsOfBytes_bytesOfLimbs (ls : List Limb) : limbsOfBytes (bytesOfLimbs ls) = ls := by
  induction ls with
  | nil => rfl
  | cons l ls ih =>
    have hl := l.isLt
    have hv : BitVec.ofNat 24 (leVal (leBytes 3 l.toNat)) = l := by
      rw [leVal_leBytes]; apply BitVec.eq_of_toNat_eq; simp only [BitVec.toNat_ofNat]; omega
    simp only [leBytes] at hv
    simp only [bytesOfLimbs, leBytes, List.cons_append, List.nil_append, limbsOfBytes, ih, hv]

/-! ### Signed nybbles and the select data path -/

@[simp] theorem nybbleDigits_length (s v : Nat) : (nybbleDigits s v).length = 6 * s + 1 := by simp [nybbleDigits]

@[simp] theorem nybbleBytes_length (s v : Nat) : (nybbleBytes s v).length = 6 * s + 1 := by simp [nybbleBytes]

/-- One limb of the data path is the selected limb. -/
theorem selectLimb_eq (c : Bool) (a b : Limb) : selectLimb c a b = if c then a else b := by
  have hall : (0xFFFFFF#24 : Limb) = BitVec.allOnes 24 := by decide
  cases c
  · simp [selectLimb]
  · simp only [selectLimb, if_true, hall, BitVec.and_allOnes]
    rw [BitVec.xor_comm a b, ← BitVec.xor_assoc, BitVec.xor_self, BitVec.zero_xor]

@[simp] theorem selectBig_size (c : Bool) (a b : BigNum) : (selectBig c a b).size = max a.size b.size := by
  simp [selectBig, BigNum.size]

end Sys2Proof.Machine
end

