-- ==== Sys2Proof/Laws/EdwardsField.lean ====
section
/-! SUPPORT. The Edwards addition law over a field (spec/46_ec_edwards.md R434) is the addition of points of a
Weierstrass curve: −x² + y² = 1 + d·x²·y² is carried to Y² = X³ + 2(d − 1)·X² + (1 + d)²·X by
X = −(1 + d)·(1 + y)/(1 − y) and Y = 2·X/x. The law has no exceptional case where −1 is a square and d is not (R435). -/

namespace Sys2Proof.Edwards

variable {F : Type} [Field F]

/-- (x, y) is on the curve (R430). -/
def On (d x y : F) : Prop := -x ^ 2 + y ^ 2 = 1 + d * x ^ 2 * y ^ 2

/-- t = d·x1·x2·y1·y2 (R434). -/
def cross (d x1 y1 x2 y2 : F) : F := d * x1 * x2 * y1 * y2

/-- The abscissa of the sum (R434). -/
def sumX (d x1 y1 x2 y2 : F) : F := (x1 * y2 + y1 * x2) / (1 + cross d x1 y1 x2 y2)

/-- The ordinate of the sum (R434). -/
def sumY (d x1 y1 x2 y2 : F) : F := (y1 * y2 + x1 * x2) / (1 - cross d x1 y1 x2 y2)

/-! ### No exceptional case (R435) -/

/-- d·x1·x2·y1·y2 is neither 1 nor −1, where −1 is a square and d is not. -/
theorem cross_sq_ne_one (two : (2 : F) ≠ 0) {d i : F} (hi : i ^ 2 = -1) (hd : ¬IsSquare d) {x1 y1 x2 y2 : F}
    (h1 : On d x1 y1) (h2 : On d x2 y2) : cross d x1 y1 x2 y2 ^ 2 ≠ 1 := by
  intro ht
  have htne : cross d x1 y1 x2 y2 ≠ 0 := by intro h0; rw [h0] at ht; simp at ht
  unfold On at h1 h2
  unfold cross at ht htne
  have hx1 : x1 ≠ 0 := by rintro rfl; simp at htne
  have hy1 : y1 ≠ 0 := by rintro rfl; simp at htne
  have hy2 : y2 ≠ 0 := by rintro rfl; simp at htne
  have key : ∀ ε : F, ε = 1 ∨ ε = -1 →
      (i * x1 + ε * (d * x1 * x2 * y1 * y2) * y1) ^ 2 = d * (x1 * y1) ^ 2 * (i * x2 + ε * y2) ^ 2 := by
    intro ε hε
    have hε2 : ε ^ 2 = 1 := by rcases hε with rfl | rfl <;> ring
    linear_combination (x1 ^ 2 - d * x1 ^ 2 * y1 ^ 2 * x2 ^ 2) * hi + y1 ^ 2 * ht +
      (d ^ 2 * x1 ^ 2 * x2 ^ 2 * y1 ^ 4 * y2 ^ 2 - d * x1 ^ 2 * y1 ^ 2 * y2 ^ 2) * hε2 + h1 -
      d * x1 ^ 2 * y1 ^ 2 * h2 - ht
  have hsq : ∀ ε : F, ε = 1 ∨ ε = -1 → i * x2 + ε * y2 = 0 := by
    intro ε hε
    by_contra hne
    have hden : x1 * y1 * (i * x2 + ε * y2) ≠ 0 := mul_ne_zero (mul_ne_zero hx1 hy1) hne
    refine hd ⟨(i * x1 + ε * (d * x1 * x2 * y1 * y2) * y1) / (x1 * y1 * (i * x2 + ε * y2)), ?_⟩
    rw [div_mul_div_comm, eq_div_iff (mul_ne_zero hden hden)]
    linear_combination -key ε hε
  have ha := hsq 1 (.inl rfl)
  have hb := hsq (-1) (.inr rfl)
  have : 2 * y2 = 0 := by linear_combination ha - hb
  exact (mul_ne_zero two hy2) this

theorem one_add_cross_ne_zero (two : (2 : F) ≠ 0) {d i : F} (hi : i ^ 2 = -1) (hd : ¬IsSquare d) {x1 y1 x2 y2 : F}
    (h1 : On d x1 y1) (h2 : On d x2 y2) : 1 + cross d x1 y1 x2 y2 ≠ 0 := fun h =>
  cross_sq_ne_one two hi hd h1 h2 (by linear_combination (cross d x1 y1 x2 y2 - 1) * h)

theorem one_sub_cross_ne_zero (two : (2 : F) ≠ 0) {d i : F} (hi : i ^ 2 = -1) (hd : ¬IsSquare d) {x1 y1 x2 y2 : F}
    (h1 : On d x1 y1) (h2 : On d x2 y2) : 1 - cross d x1 y1 x2 y2 ≠ 0 := fun h =>
  cross_sq_ne_one two hi hd h1 h2 (by linear_combination -(cross d x1 y1 x2 y2 + 1) * h)

/-! ### The correspondence with a Weierstrass curve -/

/-- Y² = X³ + 2(d − 1)·X² + (1 + d)²·X. -/
def curve (d : F) : WeierstrassCurve.Affine F := { a₁ := 0, a₂ := 2 * (d - 1), a₃ := 0, a₄ := (1 + d) ^ 2, a₆ := 0 }

/-- The point of the Weierstrass curve a pair stands for: (0, 1) for the zero, else X·(1 − y) = −(1 + d)·(1 + y) and
Y·x = 2·X, with x = 0 at X = 0. -/
inductive Corr (d : F) : F → F → (curve d).Point → Prop
  | zero : Corr d 0 1 0
  | some {x y X Y : F} (h : (curve d).Nonsingular X Y) (hy : y ≠ 1) (hX : X * (1 - y) = -(1 + d) * (1 + y))
      (hY : Y * x = 2 * X) (h0 : X = 0 → x = 0) : Corr d x y (.some X Y h)

theorem equation_iff (d X Y : F) :
    (curve d).Equation X Y ↔ Y ^ 2 = X ^ 3 + 2 * (d - 1) * X ^ 2 + (1 + d) ^ 2 * X := by
  rw [WeierstrassCurve.Affine.equation_iff]
  simp only [curve]
  constructor <;> intro h <;> linear_combination h

/-- The polynomial identities behind the chord: the abscissa. -/
theorem chord_x_identity (e X1 X2 Y1 Y2 : F) (h1 : Y1 ^ 2 = X1 ^ 3 + 2 * (-1 - e - 1) * X1 ^ 2 + e ^ 2 * X1)
    (h2 : Y2 ^ 2 = X2 ^ 3 + 2 * (-1 - e - 1) * X2 ^ 2 + e ^ 2 * X2) :
    ((Y1 - Y2) ^ 2 - (2 * (-1 - e - 1) + X1 + X2) * (X1 - X2) ^ 2) *
        (Y1 * Y2 * (X1 + e) * (X2 + e) - (-1 - e) * 4 * X1 * X2 * (X1 - e) * (X2 - e) -
          ((X1 - e) * (X2 - e) * Y1 * Y2 + 4 * X1 * X2 * (X1 + e) * (X2 + e))) =
      e * (X1 - X2) ^ 2 *
        (Y1 * Y2 * (X1 + e) * (X2 + e) - (-1 - e) * 4 * X1 * X2 * (X1 - e) * (X2 - e) +
          ((X1 - e) * (X2 - e) * Y1 * Y2 + 4 * X1 * X2 * (X1 + e) * (X2 + e))) := by
  linear_combination
    (4 * X1 * X2 * e ^ 3 - 8 * X1 * X2 ^ 2 * e - 4 * X1 * X2 ^ 2 * e ^ 2 + 2 * X1 * Y1 * Y2 * e - 4 * X1 * Y2 ^ 2 * e
      - 8 * X1 ^ 2 * X2 * e - 4 * X1 ^ 2 * X2 * e ^ 2 + 4 * X1 ^ 2 * X2 ^ 2 * e + 2 * X2 * Y1 * Y2 * e - 4 * X2 * Y2 ^
      2 * e) * h1 +
    (-8 * X1 * X2 ^ 2 * e - 4 * X1 * X2 ^ 2 * e ^ 2 + 2 * X1 * Y1 * Y2 * e + 8 * X1 ^ 2 * X2 * e + 4 * X1 ^ 2 * X2 *
      e ^ 2 + 4 * X1 ^ 2 * X2 ^ 2 * e - 4 * X1 ^ 2 * e ^ 3 - 4 * X1 ^ 3 * X2 * e + 16 * X1 ^ 3 * e + 8 * X1 ^ 3 * e ^
      2 - 4 * X1 ^ 4 * e + 2 * X2 * Y1 * Y2 * e) * h2

/-- The polynomial identities behind the chord: the ordinate. -/
theorem chord_y_identity (e X1 X2 Y1 Y2 : F) (h1 : Y1 ^ 2 = X1 ^ 3 + 2 * (-1 - e - 1) * X1 ^ 2 + e ^ 2 * X1)
    (h2 : Y2 ^ 2 = X2 ^ 3 + 2 * (-1 - e - 1) * X2 ^ 2 + e ^ 2 * X2) :
    -((Y1 - Y2) * ((Y1 - Y2) ^ 2 - (2 * (-1 - e - 1) + X1 + X2) * (X1 - X2) ^ 2 - X1 * (X1 - X2) ^ 2) +
          Y1 * (X1 - X2) ^ 3) *
        (2 * X1 * (X2 - e) * Y2 * (X1 + e) + 2 * X2 * (X1 - e) * Y1 * (X2 + e)) =
      2 * ((Y1 - Y2) ^ 2 - (2 * (-1 - e - 1) + X1 + X2) * (X1 - X2) ^ 2) * (X1 - X2) *
        (Y1 * Y2 * (X1 + e) * (X2 + e) + (-1 - e) * 4 * X1 * X2 * (X1 - e) * (X2 - e)) := by
  linear_combination
    (4 * X1 * X2 * Y1 * Y2 * e - 2 * X1 * X2 * Y1 ^ 2 * e + 2 * X1 * X2 * e ^ 4 + 8 * X1 * X2 ^ 2 * Y1 * Y2 - 2 * X1
      * X2 ^ 2 * Y1 ^ 2 - 10 * X1 * X2 ^ 2 * Y2 ^ 2 - 24 * X1 * X2 ^ 2 * e ^ 2 - 14 * X1 * X2 ^ 2 * e ^ 3 - 16 * X1 *
      X2 ^ 3 * e + 2 * X1 * X2 ^ 3 * e ^ 2 - 8 * X1 * X2 ^ 4 + 6 * X1 * X2 ^ 4 * e + 4 * X1 * X2 ^ 5 - 2 * X1 * Y2 ^ 2
      * e ^ 2 - 4 * X1 ^ 2 * X2 * Y1 * Y2 + 10 * X1 ^ 2 * X2 * Y2 ^ 2 + 8 * X1 ^ 2 * X2 * e ^ 2 + 6 * X1 ^ 2 * X2 * e
      ^ 3 + 16 * X1 ^ 2 * X2 ^ 2 * e + 6 * X1 ^ 2 * X2 ^ 2 * e ^ 2 + 8 * X1 ^ 2 * X2 ^ 3 - 6 * X1 ^ 2 * X2 ^ 3 * e - 6
      * X1 ^ 2 * X2 ^ 4 - 2 * X1 ^ 2 * Y2 ^ 2 * e - 8 * X1 ^ 3 * X2 * e - 8 * X1 ^ 3 * X2 * e ^ 2 + 8 * X1 ^ 3 * X2 ^
      2 + 8 * X1 ^ 3 * X2 ^ 2 * e - 4 * X2 * Y1 * Y2 * e ^ 2 + 2 * X2 * Y1 ^ 2 * e ^ 2 + 2 * X2 * Y2 ^ 2 * e ^ 2 - 4 *
      X2 ^ 2 * Y1 * Y2 * e + 2 * X2 ^ 2 * Y1 ^ 2 * e + 2 * X2 ^ 2 * Y2 ^ 2 * e + 8 * X2 ^ 3 * e ^ 2 + 4 * X2 ^ 3 * e ^
      3 + 8 * X2 ^ 4 * e - 4 * X2 ^ 5 * e) * h1 +
    (-4 * X1 * X2 * Y1 * Y2 * e + 2 * X1 * X2 * Y2 ^ 2 * e + 4 * X1 * X2 ^ 2 * Y1 * Y2 - 8 * X1 * X2 ^ 2 * e ^ 2 - 4
      * X1 * X2 ^ 2 * e ^ 3 + 8 * X1 * X2 ^ 3 * e + 8 * X1 * X2 ^ 3 * e ^ 2 + 4 * X1 * Y1 * Y2 * e ^ 2 - 2 * X1 * Y2 ^
      2 * e ^ 2 - 8 * X1 ^ 2 * X2 * Y1 * Y2 + 2 * X1 ^ 2 * X2 * Y2 ^ 2 + 16 * X1 ^ 2 * X2 * e ^ 2 + 10 * X1 ^ 2 * X2 *
      e ^ 3 - 24 * X1 ^ 2 * X2 ^ 2 * e - 20 * X1 ^ 2 * X2 ^ 2 * e ^ 2 - 8 * X1 ^ 2 * X2 ^ 3 - 8 * X1 ^ 2 * X2 ^ 3 * e
      + 4 * X1 ^ 2 * Y1 * Y2 * e - 2 * X1 ^ 2 * Y2 ^ 2 * e - 2 * X1 ^ 2 * e ^ 4 + 16 * X1 ^ 3 * X2 * e + 10 * X1 ^ 3 *
      X2 * e ^ 2 + 32 * X1 ^ 3 * X2 ^ 2 + 28 * X1 ^ 3 * X2 ^ 2 * e - 2 * X1 ^ 3 * e ^ 3 - 32 * X1 ^ 4 * X2 - 26 * X1 ^
      4 * X2 * e - 4 * X1 ^ 4 * X2 ^ 2 + 2 * X1 ^ 4 * e ^ 2 + 6 * X1 ^ 5 * X2 + 2 * X1 ^ 5 * e) * h2

/-- The polynomial identities behind the tangent: the abscissa. -/
theorem tangent_x_identity (e X1 Y1 : F) (h1 : Y1 ^ 2 = X1 ^ 3 + 2 * (-1 - e - 1) * X1 ^ 2 + e ^ 2 * X1) :
    ((3 * X1 ^ 2 + 2 * (2 * (-1 - e - 1)) * X1 + e ^ 2) ^ 2 - (2 * (-1 - e - 1) + 2 * X1) * 4 * Y1 ^ 2) *
        (Y1 ^ 2 * (X1 + e) ^ 2 - (-1 - e) * 4 * X1 ^ 2 * (X1 - e) ^ 2 -
          ((X1 - e) ^ 2 * Y1 ^ 2 + 4 * X1 ^ 2 * (X1 + e) ^ 2)) =
      e * 4 * Y1 ^ 2 *
        (Y1 ^ 2 * (X1 + e) ^ 2 - (-1 - e) * 4 * X1 ^ 2 * (X1 - e) ^ 2 +
          ((X1 - e) ^ 2 * Y1 ^ 2 + 4 * X1 ^ 2 * (X1 + e) ^ 2)) := by
  linear_combination
    (64 * X1 * Y1 ^ 2 * e + 32 * X1 * Y1 ^ 2 * e ^ 2 - 4 * X1 * e ^ 5 - 40 * X1 ^ 2 * Y1 ^ 2 * e + 64 * X1 ^ 2 * e ^
      3 + 32 * X1 ^ 2 * e ^ 4 - 256 * X1 ^ 3 * e - 256 * X1 ^ 3 * e ^ 2 - 88 * X1 ^ 3 * e ^ 3 + 192 * X1 ^ 4 * e + 96
      * X1 ^ 4 * e ^ 2 - 36 * X1 ^ 5 * e - 8 * Y1 ^ 2 * e ^ 3) * h1

/-- The polynomial identities behind the tangent: the ordinate. -/
theorem tangent_y_identity (e X1 Y1 : F) (h1 : Y1 ^ 2 = X1 ^ 3 + 2 * (-1 - e - 1) * X1 ^ 2 + e ^ 2 * X1) :
    -((3 * X1 ^ 2 + 2 * (2 * (-1 - e - 1)) * X1 + e ^ 2) *
            ((3 * X1 ^ 2 + 2 * (2 * (-1 - e - 1)) * X1 + e ^ 2) ^ 2 - (2 * (-1 - e - 1) + 2 * X1) * 4 * Y1 ^ 2 -
              X1 * 4 * Y1 ^ 2) + 8 * Y1 ^ 4) *
        (4 * X1 * (X1 - e) * (X1 + e) * Y1) =
      2 * ((3 * X1 ^ 2 + 2 * (2 * (-1 - e - 1)) * X1 + e ^ 2) ^ 2 - (2 * (-1 - e - 1) + 2 * X1) * 4 * Y1 ^ 2) *
        (2 * Y1) * (Y1 ^ 2 * (X1 + e) ^ 2 + (-1 - e) * 4 * X1 ^ 2 * (X1 - e) ^ 2) := by
  linear_combination
    (64 * X1 * Y1 * e ^ 4 + 24 * X1 * Y1 * e ^ 5 - 128 * X1 * Y1 ^ 3 * e - 256 * X1 ^ 2 * Y1 * e ^ 2 - 128 * X1 ^ 2 *
      Y1 * e ^ 3 - 12 * X1 ^ 2 * Y1 * e ^ 4 - 64 * X1 ^ 2 * Y1 ^ 3 + 32 * X1 ^ 2 * Y1 ^ 3 * e - 512 * X1 ^ 3 * Y1 * e
      - 512 * X1 ^ 3 * Y1 * e ^ 2 - 176 * X1 ^ 3 * Y1 * e ^ 3 + 768 * X1 ^ 4 * Y1 + 1152 * X1 ^ 4 * Y1 * e + 420 * X1
      ^ 4 * Y1 * e ^ 2 - 576 * X1 ^ 5 * Y1 - 360 * X1 ^ 5 * Y1 * e + 108 * X1 ^ 6 * Y1 - 4 * Y1 * e ^ 6 - 64 * Y1 ^ 3
      * e ^ 2 - 32 * Y1 ^ 3 * e ^ 3) * h1

/-! ### The correspondence is one to one and carries the sum to the sum -/

section Correspondence

variable {e : F}

/-- What a pair standing for an affine point satisfies, with d = −1 − e. -/
theorem some_facts {x y X Y : F} (h : (curve (-1 - e)).Nonsingular X Y) (hX : X * (1 - y) = -(1 + (-1 - e)) * (1 + y))
    (hY : Y * x = 2 * X) (h0 : X = 0 → x = 0) (two : (2 : F) ≠ 0) (he : e ≠ 0) :
    X + e ≠ 0 ∧ y = (X - e) / (X + e) ∧ (Y ≠ 0 → x = 2 * X / Y) ∧ (Y = 0 → X = 0 ∧ x = 0 ∧ y = -1) ∧
      Y ^ 2 = X ^ 3 + 2 * (-1 - e - 1) * X ^ 2 + e ^ 2 * X := by
  have hk : X + e ≠ 0 := by
    intro hk
    have hXe : X = -e := by linear_combination hk
    have : 2 * e = 0 := by rw [hXe] at hX; linear_combination -hX
    exact mul_ne_zero two he this
  have hy : y = (X - e) / (X + e) := by rw [eq_div_iff hk]; linear_combination -hX
  refine ⟨hk, hy, fun hYn => by rw [eq_div_iff hYn]; linear_combination hY, fun hYz => ?_, ?_⟩
  · have hXz : X = 0 := by
      have : 2 * X = 0 := by rw [← hY, hYz, zero_mul]
      exact (mul_eq_zero.1 this).resolve_left two
    refine ⟨hXz, h0 hXz, ?_⟩
    rw [hy, hXz, zero_sub, zero_add, neg_div, div_self he]
  · have := (equation_iff _ _ _).1 h.1
    linear_combination this

/-- A pair that stands for a point is on the curve. -/
theorem Corr.on {x y : F} {P : (curve (-1 - e)).Point} (h : Corr (-1 - e) x y P) (two : (2 : F) ≠ 0) (he : e ≠ 0) :
    On (-1 - e) x y := by
  cases h with
  | zero => unfold On; ring
  | @some x y X Y h hy hX hY h0 =>
    obtain ⟨hk, hyk, hx, hz, hE⟩ := some_facts h hX hY h0 two he
    unfold On
    by_cases hYz : Y = 0
    · obtain ⟨-, rfl, rfl⟩ := hz hYz; ring
    · rw [hx hYz, hyk]
      field_simp
      have hX0 : X ≠ 0 := by
        rintro rfl
        apply hYz
        have : Y ^ 2 = 0 := by rw [hE]; ring
        exact pow_eq_zero_iff (two_ne_zero) |>.1 this
      linear_combination (-(4 * e) * X) * hE

/-- A point is stood for by one pair. -/
theorem Corr.unique {x y x' y' : F} {P : (curve (-1 - e)).Point} (h : Corr (-1 - e) x y P)
    (h' : Corr (-1 - e) x' y' P) (two : (2 : F) ≠ 0) (he : e ≠ 0) : x = x' ∧ y = y' := by
  generalize hQ : P = Q at h'
  cases h with
  | zero =>
    cases h' with
    | zero => exact ⟨rfl, rfl⟩
    | some h => exact absurd hQ (by simp [WeierstrassCurve.Affine.Point.zero_def])
  | some h hy hX hY h0 =>
    cases h' with
    | zero => exact absurd hQ (by simp [WeierstrassCurve.Affine.Point.zero_def])
    | some h' hy' hX' hY' h0' =>
      simp only [WeierstrassCurve.Affine.Point.some.injEq] at hQ
      obtain ⟨rfl, rfl⟩ := hQ
      obtain ⟨hk, hyk, hx, hz, -⟩ := some_facts h hX hY h0 two he
      obtain ⟨-, hyk', hx', hz', -⟩ := some_facts h' hX' hY' h0' two he
      refine ⟨?_, by rw [hyk, hyk']⟩
      rename_i Y
      by_cases hYz : Y = 0
      · rw [(hz hYz).2.1, (hz' hYz).2.1]
      · rw [hx hYz, hx' hYz]

/-- The curve is not singular. -/
theorem curve_disc (two : (2 : F) ≠ 0) (he : e ≠ 0) (hd : (-1 - e : F) ≠ 0) : (curve (-1 - e)).Δ ≠ 0 := by
  have : (curve (-1 - e)).Δ = -(2 ^ 8 * (-1 - e) * e ^ 4) := by
    simp only [curve, WeierstrassCurve.Δ, WeierstrassCurve.b₂, WeierstrassCurve.b₄, WeierstrassCurve.b₆,
      WeierstrassCurve.b₈]
    ring
  rw [this]
  exact neg_ne_zero.2 (mul_ne_zero (mul_ne_zero (pow_ne_zero _ two) hd) (pow_ne_zero _ he))

/-- Every pair on the curve stands for a point. -/
theorem Corr.exists (two : (2 : F) ≠ 0) (he : e ≠ 0) (hd : (-1 - e : F) ≠ 0) {x y : F} (h : On (-1 - e) x y) :
    ∃ P, Corr (-1 - e) x y P := by
  unfold On at h
  have hns : ∀ {X Y : F}, Y ^ 2 = X ^ 3 + 2 * (-1 - e - 1) * X ^ 2 + e ^ 2 * X → (curve (-1 - e)).Nonsingular X Y := by
    intro X Y hE
    refine (WeierstrassCurve.Affine.equation_iff_nonsingular_of_Δ_ne_zero (curve_disc two he hd)).1
      ((equation_iff _ _ _).2 ?_)
    linear_combination hE
  by_cases hy : y = 1
  · subst hy
    have hx : x ^ 2 * e = 0 := by linear_combination h
    have hx0 : x = 0 := by
      rcases mul_eq_zero.1 hx with h0 | h0
      · exact pow_eq_zero_iff (two_ne_zero) |>.1 h0
      · exact absurd h0 he
    subst hx0
    exact ⟨0, .zero⟩
  · have hy1 : 1 - y ≠ 0 := sub_ne_zero.2 (Ne.symm hy)
    by_cases hx : x = 0
    · subst hx
      have hy2 : (1 - y) * (1 + y) = 0 := by linear_combination -h
      have hym : 1 + y = 0 := (mul_eq_zero.1 hy2).resolve_left hy1
      refine ⟨.some 0 0 (hns (by ring)), .some _ hy ?_ (by ring) (fun _ => rfl)⟩
      rw [hym]; ring
    · have hX : e * (1 + y) / (1 - y) * (1 - y) = -(1 + (-1 - e)) * (1 + y) := by
        rw [div_mul_cancel₀ _ hy1]; ring
      refine ⟨.some (e * (1 + y) / (1 - y)) (2 * (e * (1 + y) / (1 - y)) / x) (hns ?_), .some _ hy hX ?_ ?_⟩
      · field_simp
        linear_combination (-4 * (1 + y)) * h
      · rw [div_mul_cancel₀ _ hx]
      · intro h0
        exfalso
        have hym : 1 + y = 0 := by
          rcases div_eq_zero_iff.1 h0 with h1 | h1
          · exact (mul_eq_zero.1 h1).resolve_left he
          · exact absurd h1 hy1
        have hyv : y = -1 := by linear_combination hym
        rw [hyv] at h
        have hx2 : x ^ 2 * e = 0 := by linear_combination h
        rcases mul_eq_zero.1 hx2 with h1 | h1
        · exact hx (pow_eq_zero_iff (two_ne_zero) |>.1 h1)
        · exact he h1

/-- The pair of −P is (−x, y). -/
theorem Corr.neg {x y : F} {P : (curve (-1 - e)).Point} (h : Corr (-1 - e) x y P) : Corr (-1 - e) (-x) y (-P) := by
  cases h with
  | zero => simpa using Corr.zero
  | some h hy hX hY h0 =>
    rw [WeierstrassCurve.Affine.Point.neg_some]
    refine .some _ hy hX ?_ (fun h => by rw [h0 h, neg_zero])
    simp only [WeierstrassCurve.Affine.negY, curve]
    linear_combination hY

/-- The chord or the tangent, once the two polynomial identities are known: the sum stands for the sum. -/
theorem Corr.of_identities {D E N M X3 Y3 : F} (two : (2 : F) ≠ 0) (he : e ≠ 0)
    (h3 : (curve (-1 - e)).Nonsingular X3 Y3) (hD : D ≠ 0) (hE : E ≠ 0) (hx : X3 * (D - N) = e * (D + N))
    (hy : Y3 * M = 2 * X3 * E) (h0 : X3 = 0 → M = 0) : Corr (-1 - e) (M / E) (N / D) (.some X3 Y3 h3) := by
  refine .some _ ?_ ?_ ?_ ?_
  · intro hc
    rw [div_eq_one_iff_eq hD] at hc
    have : 2 * e * D = 0 := by rw [hc] at hx; linear_combination -hx
    exact mul_ne_zero (mul_ne_zero two he) hD this
  · field_simp
    linear_combination hx
  · rw [← mul_div_assoc, div_eq_iff hE, hy]
  · intro h; rw [h0 h, zero_div]

/-- Denominators cleared. -/
theorem cleared {a b l t u x : F} (hl : l ≠ 0) (ht : t ≠ 0) (h : a * b = 2 * x * l * u) :
    a / l ^ 3 * (b / t) = 2 * (x / l ^ 2) * (u / t) := by
  field_simp
  linear_combination h

variable [DecidableEq F]

/-- Adding the point of order 2. -/
theorem Corr.add_order_two {x y : F} {P : (curve (-1 - e)).Point} (h : Corr (-1 - e) x y P) (two : (2 : F) ≠ 0)
    (he : e ≠ 0) (hT : (curve (-1 - e)).Nonsingular 0 0) : Corr (-1 - e) (-x) (-y) (.some 0 0 hT + P) := by
  cases h with
  | zero =>
    rw [add_zero, neg_zero]
    refine .some _ (fun h => two ?_) (by ring) (by ring) (fun _ => rfl)
    linear_combination -h
  | @some x y X Y h hy hX hY h0 =>
    obtain ⟨hk, hyk, hx, hz, hE⟩ := some_facts h hX hY h0 two he
    by_cases hX0 : X = 0
    · have hY0 : Y = 0 := by
        have : Y ^ 2 = 0 := by rw [hE, hX0]; ring
        exact pow_eq_zero_iff (two_ne_zero) |>.1 this
      obtain ⟨-, rfl, rfl⟩ := hz hY0
      rw [WeierstrassCurve.Affine.Point.add_of_Y_eq hX0.symm (by simp [curve, hY0])]
      simpa using Corr.zero
    · have hne : (0 : F) ≠ X := Ne.symm hX0
      have hY0 : Y ≠ 0 := fun h => hX0 (hz h).1
      have hX3 : (curve (-1 - e)).addX 0 X ((curve (-1 - e)).slope 0 X 0 Y) = e ^ 2 / X := by
        rw [WeierstrassCurve.Affine.slope_of_X_ne hne]
        simp only [WeierstrassCurve.Affine.addX, curve]
        field_simp
        linear_combination X * hE
      have hY3 : (curve (-1 - e)).addY 0 X 0 ((curve (-1 - e)).slope 0 X 0 Y) = -(Y / X * (e ^ 2 / X)) := by
        rw [WeierstrassCurve.Affine.addY, WeierstrassCurve.Affine.negAddY, hX3,
          WeierstrassCurve.Affine.slope_of_X_ne hne]
        simp only [WeierstrassCurve.Affine.negY, curve]
        field_simp
        ring
      rw [WeierstrassCurve.Affine.Point.add_of_X_ne hne]
      refine .some _ ?_ ?_ ?_ ?_
      · rw [hyk]
        intro hc
        rw [← neg_div, div_eq_iff hk] at hc
        have : 2 * X = 0 := by linear_combination -hc
        exact mul_ne_zero two hX0 this
      · rw [hX3, hyk]; field_simp; ring
      · rw [hX3, hY3, hx hY0]; field_simp
      · rw [hX3]
        intro hc
        exact absurd hc (div_ne_zero (pow_ne_zero _ he) hX0)

/-- Where a sum of points is the point of order 2, the abscissa of the sum of the pairs is 0. -/
theorem num_eq_zero_of_order_two {x1 y1 x2 y2 : F} {P Q : (curve (-1 - e)).Point} (h1 : Corr (-1 - e) x1 y1 P)
    (h2 : Corr (-1 - e) x2 y2 Q) (two : (2 : F) ≠ 0) (he : e ≠ 0) (hT : (curve (-1 - e)).Nonsingular 0 0)
    (h : P + Q = .some 0 0 hT) : x1 * y2 + y1 * x2 = 0 := by
  have hQ : Q = .some 0 0 hT + -P := by rw [← h]; abel
  have h3 := h1.neg.add_order_two two he hT
  rw [← hQ] at h3
  obtain ⟨hx, hy⟩ := h2.unique h3 two he
  rw [hx, hy]; ring

/-- The sum of two pairs stands for the sum of their points (R434). -/
theorem Corr.add {x1 y1 x2 y2 : F} {P Q : (curve (-1 - e)).Point} (h1 : Corr (-1 - e) x1 y1 P)
    (h2 : Corr (-1 - e) x2 y2 Q) (two : (2 : F) ≠ 0) (he : e ≠ 0) {i : F} (hi : i ^ 2 = -1)
    (hd : ¬IsSquare (-1 - e : F)) :
    Corr (-1 - e) (sumX (-1 - e) x1 y1 x2 y2) (sumY (-1 - e) x1 y1 x2 y2) (P + Q) := by
  have hE := one_add_cross_ne_zero two hi hd (h1.on two he) (h2.on two he)
  have hD := one_sub_cross_ne_zero two hi hd (h1.on two he) (h2.on two he)
  have ho1 := h1.on two he
  have g1 := h1
  have g2 := h2
  unfold sumX sumY
  cases h1 with
  | zero => simpa [cross] using h2
  | @some x1 y1 X1 Y1 n1 hy1 hX1 hY1 h01 =>
    cases h2 with
    | zero => simpa [cross] using g1
    | @some x2 y2 X2 Y2 n2 hy2 hX2 hY2 h02 =>
      obtain ⟨hk1, hyk1, hx1, hz1, hE1⟩ := some_facts n1 hX1 hY1 h01 two he
      obtain ⟨hk2, hyk2, hx2, hz2, hE2⟩ := some_facts n2 hX2 hY2 h02 two he
      have hneg : (curve (-1 - e)).negY X2 Y2 = -Y2 := by simp [curve]
      by_cases hxy : X1 = X2 ∧ Y1 = (curve (-1 - e)).negY X2 Y2
      · rw [WeierstrassCurve.Affine.Point.add_of_Y_eq hxy.1 hxy.2]
        rw [hneg] at hxy
        obtain ⟨rfl, rfl⟩ := hxy
        have hyy : y1 = y2 := by rw [hyk1, hyk2]
        have hxx : x1 = -x2 := by
          by_cases hY : Y2 = 0
          · rw [(hz1 (by rw [hY, neg_zero])).2.1, (hz2 hY).2.1, neg_zero]
          · rw [hx1 (neg_ne_zero.2 hY), hx2 hY, div_neg]
        have hM : x1 * y2 + y1 * x2 = 0 := by rw [hyy, hxx]; ring
        have hN : y1 * y2 + x1 * x2 = 1 - cross (-1 - e) x1 y1 x2 y2 := by
          unfold On at ho1; unfold cross
          rw [← hyy]; rw [show x2 = -x1 by rw [hxx, neg_neg]]
          linear_combination ho1
        rw [hM, hN, zero_div, div_self hD]
        exact .zero
      · by_cases hYz1 : Y1 = 0
        · obtain ⟨hX1z, hx1z, hy1z⟩ := hz1 hYz1
          subst hYz1 hX1z hx1z hy1z
          simpa [cross] using g2.add_order_two two he n1
        · by_cases hYz2 : Y2 = 0
          · obtain ⟨hX2z, hx2z, hy2z⟩ := hz2 hYz2
            subst hYz2 hX2z hx2z hy2z
            rw [add_comm (WeierstrassCurve.Affine.Point.some X1 Y1 n1)]
            simpa [cross] using g1.add_order_two two he n2
          · have hsum := WeierstrassCurve.Affine.Point.add_some hxy (h₁ := n1) (h₂ := n2)
            rw [hsum]
            have hn3 := WeierstrassCurve.Affine.nonsingular_add n1 n2 hxy
            have hzero : (curve (-1 - e)).addX X1 X2 ((curve (-1 - e)).slope X1 X2 Y1 Y2) = 0 →
                x1 * y2 + y1 * x2 = 0 := by
              intro hX3
              have hY3 : (curve (-1 - e)).addY X1 X2 Y1 ((curve (-1 - e)).slope X1 X2 Y1 Y2) = 0 := by
                have h3 := (equation_iff _ _ _).1 hn3.1
                rw [hX3] at h3
                exact pow_eq_zero_iff (two_ne_zero) |>.1 (by rw [h3]; ring)
              refine num_eq_zero_of_order_two g1 g2 two he (by rw [hX3, hY3] at hn3; exact hn3) ?_
              rw [hsum]
              simp only [hX3, hY3]
            have htd : Y1 * Y2 * (X1 + e) * (X2 + e) ≠ 0 :=
              mul_ne_zero (mul_ne_zero (mul_ne_zero hYz1 hYz2) hk1) hk2
            have hDv : 1 - cross (-1 - e) x1 y1 x2 y2 = (Y1 * Y2 * (X1 + e) * (X2 + e) -
                (-1 - e) * 4 * X1 * X2 * (X1 - e) * (X2 - e)) / (Y1 * Y2 * (X1 + e) * (X2 + e)) := by
              unfold cross; rw [hx1 hYz1, hx2 hYz2, hyk1, hyk2]; field_simp; ring
            have hEv : 1 + cross (-1 - e) x1 y1 x2 y2 = (Y1 * Y2 * (X1 + e) * (X2 + e) +
                (-1 - e) * 4 * X1 * X2 * (X1 - e) * (X2 - e)) / (Y1 * Y2 * (X1 + e) * (X2 + e)) := by
              unfold cross; rw [hx1 hYz1, hx2 hYz2, hyk1, hyk2]; field_simp; ring
            have hNv : y1 * y2 + x1 * x2 = ((X1 - e) * (X2 - e) * Y1 * Y2 + 4 * X1 * X2 * (X1 + e) * (X2 + e)) /
                (Y1 * Y2 * (X1 + e) * (X2 + e)) := by
              rw [hx1 hYz1, hx2 hYz2, hyk1, hyk2]; field_simp; ring
            have hMv : x1 * y2 + y1 * x2 = (2 * X1 * (X2 - e) * Y2 * (X1 + e) + 2 * X2 * (X1 - e) * Y1 * (X2 + e)) /
                (Y1 * Y2 * (X1 + e) * (X2 + e)) := by
              rw [hx1 hYz1, hx2 hYz2, hyk1, hyk2]; field_simp
            have h2X : (curve (-1 - e)).a₁ = 0 ∧ (curve (-1 - e)).a₂ = 2 * (-1 - e - 1) ∧ (curve (-1 - e)).a₃ = 0 ∧
                (curve (-1 - e)).a₄ = e ^ 2 := ⟨rfl, rfl, rfl, by simp only [curve]; ring⟩
            by_cases hXX : X1 = X2
            · subst hXX
              have hyne : Y1 ≠ (curve (-1 - e)).negY X1 Y2 := fun h => hxy ⟨rfl, h⟩
              have hYY := WeierstrassCurve.Affine.Y_eq_of_Y_ne n1.1 n2.1 rfl hyne
              subst hYY
              have hl : (curve (-1 - e)).slope X1 X1 Y1 Y1 =
                  (3 * X1 ^ 2 + 2 * (2 * (-1 - e - 1)) * X1 + e ^ 2) / (2 * Y1) := by
                rw [WeierstrassCurve.Affine.slope_of_Y_ne rfl hyne, hneg, h2X.1, h2X.2.1, h2X.2.2.2]
                congr 1 <;> ring
              have h2Y : 2 * Y1 ≠ 0 := mul_ne_zero two hYz1
              have hXv : (curve (-1 - e)).addX X1 X1 ((curve (-1 - e)).slope X1 X1 Y1 Y1) =
                  ((3 * X1 ^ 2 + 2 * (2 * (-1 - e - 1)) * X1 + e ^ 2) ^ 2 - (2 * (-1 - e - 1) + 2 * X1) * 4 * Y1 ^ 2) /
                    (2 * Y1) ^ 2 := by
                rw [hl, WeierstrassCurve.Affine.addX, h2X.1, h2X.2.1, eq_div_iff (pow_ne_zero _ h2Y), sub_mul, sub_mul,
                  sub_mul, add_mul, div_pow, div_mul_cancel₀ _ (pow_ne_zero _ h2Y)]
                ring
              have hYv : (curve (-1 - e)).addY X1 X1 Y1 ((curve (-1 - e)).slope X1 X1 Y1 Y1) =
                  -((3 * X1 ^ 2 + 2 * (2 * (-1 - e - 1)) * X1 + e ^ 2) *
                    ((3 * X1 ^ 2 + 2 * (2 * (-1 - e - 1)) * X1 + e ^ 2) ^ 2 -
                      (2 * (-1 - e - 1) + 2 * X1) * 4 * Y1 ^ 2 - X1 * 4 * Y1 ^ 2) + 8 * Y1 ^ 4) / (2 * Y1) ^ 3 := by
                rw [WeierstrassCurve.Affine.addY, WeierstrassCurve.Affine.negAddY, hXv, hl,
                  WeierstrassCurve.Affine.negY, h2X.1, h2X.2.2.1]
                field_simp
                ring
              refine Corr.of_identities two he _ hD hE ?_ ?_ hzero
              · rw [hXv, hDv, hNv, ← sub_div, ← add_div, div_mul_div_comm, ← mul_div_assoc,
                  div_eq_div_iff (mul_ne_zero (pow_ne_zero _ h2Y) htd) htd]
                linear_combination (Y1 * Y1 * (X1 + e) * (X1 + e)) * tangent_x_identity e X1 Y1 hE1
              · rw [hXv, hYv, hEv, hMv]
                refine cleared h2Y htd ?_
                linear_combination tangent_y_identity e X1 Y1 hE1
            · have hL : X1 - X2 ≠ 0 := sub_ne_zero.2 hXX
              have hl : (curve (-1 - e)).slope X1 X2 Y1 Y2 = (Y1 - Y2) / (X1 - X2) :=
                WeierstrassCurve.Affine.slope_of_X_ne hXX
              have hXv : (curve (-1 - e)).addX X1 X2 ((curve (-1 - e)).slope X1 X2 Y1 Y2) =
                  ((Y1 - Y2) ^ 2 - (2 * (-1 - e - 1) + X1 + X2) * (X1 - X2) ^ 2) / (X1 - X2) ^ 2 := by
                rw [hl, WeierstrassCurve.Affine.addX, h2X.1, h2X.2.1, eq_div_iff (pow_ne_zero _ hL), sub_mul, sub_mul,
                  sub_mul, add_mul, div_pow, div_mul_cancel₀ _ (pow_ne_zero _ hL)]
                ring
              have hYv : (curve (-1 - e)).addY X1 X2 Y1 ((curve (-1 - e)).slope X1 X2 Y1 Y2) =
                  -((Y1 - Y2) * ((Y1 - Y2) ^ 2 - (2 * (-1 - e - 1) + X1 + X2) * (X1 - X2) ^ 2 - X1 * (X1 - X2) ^ 2) +
                    Y1 * (X1 - X2) ^ 3) / (X1 - X2) ^ 3 := by
                rw [WeierstrassCurve.Affine.addY, WeierstrassCurve.Affine.negAddY, hXv, hl,
                  WeierstrassCurve.Affine.negY, h2X.1, h2X.2.2.1]
                field_simp
                ring
              refine Corr.of_identities two he _ hD hE ?_ ?_ hzero
              · rw [hXv, hDv, hNv, ← sub_div, ← add_div, div_mul_div_comm, ← mul_div_assoc,
                  div_eq_div_iff (mul_ne_zero (pow_ne_zero _ hL) htd) htd]
                linear_combination (Y1 * Y2 * (X1 + e) * (X2 + e)) * chord_x_identity e X1 X2 Y1 Y2 hE1 hE2
              · rw [hXv, hYv, hEv, hMv]
                refine cleared hL htd ?_
                linear_combination chord_y_identity e X1 X2 Y1 Y2 hE1 hE2

end Correspondence

/-! ### The same for any coefficient with 1 + d ≠ 0 -/

section AnyCoefficient

variable {d : F}

theorem ne_zero_of_shift {e : F} (he : 1 + (-1 - e) ≠ 0) : e ≠ 0 := fun h => he (by rw [h]; ring)

theorem corr_on (two : (2 : F) ≠ 0) (he : 1 + d ≠ 0) {x y : F} {P : (curve d).Point} (h : Corr d x y P) : On d x y := by
  obtain ⟨e, rfl⟩ : ∃ e : F, d = -1 - e := ⟨-1 - d, by ring⟩
  exact h.on two (ne_zero_of_shift he)

theorem corr_unique (two : (2 : F) ≠ 0) (he : 1 + d ≠ 0) {x y x' y' : F} {P : (curve d).Point} (h : Corr d x y P)
    (h' : Corr d x' y' P) : x = x' ∧ y = y' := by
  obtain ⟨e, rfl⟩ : ∃ e : F, d = -1 - e := ⟨-1 - d, by ring⟩
  exact h.unique h' two (ne_zero_of_shift he)

theorem corr_exists (two : (2 : F) ≠ 0) (he : 1 + d ≠ 0) (hd : d ≠ 0) {x y : F} (h : On d x y) :
    ∃ P, Corr d x y P := by
  obtain ⟨e, rfl⟩ : ∃ e : F, d = -1 - e := ⟨-1 - d, by ring⟩
  exact Corr.exists two (ne_zero_of_shift he) hd h

theorem corr_neg {x y : F} {P : (curve d).Point} (h : Corr d x y P) : Corr d (-x) y (-P) := by
  obtain ⟨e, rfl⟩ : ∃ e : F, d = -1 - e := ⟨-1 - d, by ring⟩
  exact h.neg

theorem corr_add [DecidableEq F] (two : (2 : F) ≠ 0) (he : 1 + d ≠ 0) {i : F} (hi : i ^ 2 = -1) (hd : ¬IsSquare d)
    {x1 y1 x2 y2 : F} {P Q : (curve d).Point} (h1 : Corr d x1 y1 P) (h2 : Corr d x2 y2 Q) :
    Corr d (sumX d x1 y1 x2 y2) (sumY d x1 y1 x2 y2) (P + Q) := by
  obtain ⟨e, rfl⟩ : ∃ e : F, d = -1 - e := ⟨-1 - d, by ring⟩
  exact h1.add h2 two (ne_zero_of_shift he) hi hd

end AnyCoefficient

end Sys2Proof.Edwards
end

