-- ==== Sys2Proof/Laws/ModArith.lean ====
section
/-! SUPPORT. The laws of arithmetic modulo m: the difference, the power and the inverse are those the spec's formulas
write (spec/43_modular.md R304, R308; spec/45_ec_nist.md R393). -/

namespace Sys2Proof.Machine

/-- The difference mod m is the non-negative remainder of the integer difference (R8, R304). -/
theorem subMod_eq_emod {m : Nat} (hm : 0 < m) (a b : Nat) : (subMod m a b : ℤ) = ((a : ℤ) - b) % m := by
  have hb := Nat.mod_lt b hm
  have h1 : ((a + (m - b % m) : Nat) : ℤ) = (a : ℤ) - b + m * (1 + (b : ℤ) / m) := by
    have := Int.emod_add_mul_ediv (b : ℤ) m
    push_cast [Nat.cast_sub hb.le]
    linarith
  rw [subMod, Int.natCast_mod, h1, Int.add_mul_emod_self_left]

theorem subMod_lt {m : Nat} (hm : 0 < m) (a b : Nat) : subMod m a b < m := Nat.mod_lt _ hm

/-- In the ring of remainders the difference is the difference. -/
theorem subMod_cast {m : Nat} (hm : 0 < m) (a b : Nat) : (subMod m a b : ZMod m) = (a : ZMod m) - b := by
  have h := congrArg (Int.cast : ℤ → ZMod m) (subMod_eq_emod hm a b)
  simpa using h

/-- The sum adds back. -/
theorem subMod_add {m : Nat} (hm : 0 < m) (a b : Nat) : (subMod m a b + b) % m = a % m := by
  have := Nat.mod_lt b hm
  have h := Nat.mod_add_div b m
  rw [subMod, Nat.mod_add_mod]
  have : a + (m - b % m) + b = a + m * (1 + b / m) := by rw [mul_add, mul_one]; omega
  rw [this, Nat.add_mul_mod_self_left]

/-! ### The power -/

theorem powModBits_eq (m a : Nat) (f e : Nat) (h : e < 2 ^ f) : powModBits m a f e = a ^ e % m := by
  induction f generalizing e with
  | zero => have : e = 0 := by simpa using h
            subst this; simp [powModBits]
  | succ f ih =>
    have he : e / 2 < 2 ^ f := by rw [pow_succ] at h; omega
    simp only [powModBits, ih _ he]
    have hsq : a ^ (e / 2) % m * (a ^ (e / 2) % m) % m = a ^ (2 * (e / 2)) % m := by
      rw [← Nat.mul_mod, ← pow_add, two_mul]
    split
    · next ho =>
      rw [hsq, Nat.mod_mul_mod, ← pow_succ]
      congr 2; omega
    · next ho => rw [hsq]; congr 2; omega

/-- The power by squaring is the power (R308). -/
theorem powMod_eq (m a e : Nat) : powMod m a e = a ^ e % m := by
  rw [powMod, powModBits_eq _ _ _ _ (lt_two_pow_bitlen e), Nat.pow_mod, Nat.mod_mod, ← Nat.pow_mod]

/-! ### The inverse -/

/-- Euclid's loop keeps t·a ≡ r and ends at the greatest common divisor. -/
theorem invLoop_spec {m : Nat} (hm : 0 < m) (a : Nat) (f r0 r1 t0 t1 : Nat) (hf : r1 < f)
    (h0 : (t0 : ZMod m) * a = r0) (h1 : (t1 : ZMod m) * a = r1) :
    (invLoop m f r0 r1 t0 t1 : ZMod m) * a = (Nat.gcd r0 r1 : Nat) := by
  induction f generalizing r0 r1 t0 t1 with
  | zero => omega
  | succ f ih =>
    simp only [invLoop]
    split
    · next hz => subst hz; simpa using h0
    · next hz =>
      have hlt := Nat.mod_lt r0 (Nat.pos_of_ne_zero hz)
      have hstep : (subMod m t0 (r0 / r1 * t1) : ZMod m) * a = ((r0 % r1 : Nat) : ZMod m) := by
        have hd : (r0 : ZMod m) = ((r0 % r1 + r1 * (r0 / r1) : Nat) : ZMod m) := by rw [Nat.mod_add_div]
        rw [subMod_cast hm, sub_mul, h0, hd]
        push_cast
        rw [mul_assoc, h1]; ring
      rw [ih r1 (r0 % r1) t1 _ (by omega) h1 hstep, Nat.gcd_comm r1, ← Nat.gcd_rec, Nat.gcd_comm]

theorem invMod_cast {m : Nat} (hm : 0 < m) {a : Nat} (h : Nat.Coprime a m) : (a : ZMod m) * invMod m a = 1 := by
  have h1 := invLoop_spec hm a (a % m + 1) m (a % m) 0 1 (by omega) (by simp) (by simp)
  have hg : Nat.gcd m (a % m) = 1 := by
    rw [Nat.gcd_comm, ← Nat.gcd_rec, Nat.gcd_comm]; exact h
  rw [hg] at h1
  rw [invMod, ZMod.natCast_mod, mul_comm, h1, Nat.cast_one]

/-- The inverse is an inverse wherever one exists (log entry 11). -/
theorem invMod_spec {m : Nat} (hm : 0 < m) {a : Nat} (h : Nat.Coprime a m) : a * invMod m a % m = 1 % m := by
  have h1 := invMod_cast hm h
  have h2 : ((a * invMod m a : Nat) : ZMod m) = ((1 : Nat) : ZMod m) := by push_cast; exact h1
  exact (ZMod.natCast_eq_natCast_iff' _ _ _).1 h2

theorem invMod_lt {m : Nat} (hm : 0 < m) (a : Nat) : invMod m a < m := Nat.mod_lt _ hm

end Sys2Proof.Machine
end

