-- ==== Sys2Proof/Laws/NistGroup.lean ====
section
/-! SUPPORT. The group operation of a NIST curve (spec/45_ec_nist.md R393) is the addition of points of Mathlib's
Weierstrass curve y² = x³ − 3x + b over the field of p elements, wherever p is prime and the curve is not singular.
From it follow the group laws, and that doubling and adding computes the k-fold sum (spec/44_ec_common.md R336). -/

namespace Sys2Proof.Machine

/-- The Weierstrass curve y² = x³ − 3x + b over GF(p) (R390). -/
def nistCurve (p b : Nat) : WeierstrassCurve.Affine (ZMod p) := { a₁ := 0, a₂ := 0, a₃ := 0, a₄ := -3, a₆ := (b : ZMod p) }

/-- A point value and the point of the curve it stands for. -/
inductive NistRep (p b : Nat) [Fact p.Prime] : PointVal → (nistCurve p b).Point → Prop
  | inf : NistRep p b .inf 0
  | aff {x y : Nat} (hx : x < p) (hy : y < p) (h : (nistCurve p b).Nonsingular (x : ZMod p) (y : ZMod p)) :
      NistRep p b (.aff x y) (.some _ _ h)

section Nist

variable {p b : Nat} [hp : Fact p.Prime]

theorem natCast_inj_of_lt {x y : Nat} (hx : x < p) (hy : y < p) (h : (x : ZMod p) = y) : x = y := by
  have := (ZMod.natCast_eq_natCast_iff' x y p).1 h
  rwa [Nat.mod_eq_of_lt hx, Nat.mod_eq_of_lt hy] at this

theorem NistRep.unique {v w : PointVal} {P : (nistCurve p b).Point} (hv : NistRep p b v P) (hw : NistRep p b w P) :
    v = w := by
  generalize hQ : P = Q at hw
  cases hv with
  | inf =>
    cases hw with
    | inf => rfl
    | aff hx hy h => exact absurd hQ (by simp [WeierstrassCurve.Affine.Point.zero_def])
  | aff hx hy h =>
    cases hw with
    | inf => exact absurd hQ (by simp [WeierstrassCurve.Affine.Point.zero_def])
    | aff hx' hy' h' =>
      simp only [WeierstrassCurve.Affine.Point.some.injEq] at hQ
      rw [natCast_inj_of_lt hx hx' hQ.1, natCast_inj_of_lt hy hy' hQ.2]

theorem NistRep.of_eq {x y : Nat} {X Y : ZMod p} (hx : x < p) (hy : y < p) (hX : (x : ZMod p) = X) (hY : (y : ZMod p) = Y)
    (h : (nistCurve p b).Nonsingular X Y) : NistRep p b (.aff x y) (.some X Y h) := by
  subst hX hY; exact .aff hx hy h

/-- The inverse mod a prime is the inverse of the field. -/
theorem invMod_eq_inv (a : Nat) : (invMod p a : ZMod p) * a = if (a : ZMod p) = 0 then 0 else 1 := by
  split
  · next h => rw [h, mul_zero]
  · next h =>
    rw [mul_comm]
    refine invMod_cast hp.out.pos ?_
    rw [Nat.coprime_comm]
    exact (Nat.Prime.coprime_iff_not_dvd hp.out).2 fun hd => h ((ZMod.natCast_eq_zero_iff a p).2 hd)

theorem invMod_cast_eq {a : Nat} (h : (a : ZMod p) ≠ 0) : (invMod p a : ZMod p) = (a : ZMod p)⁻¹ := by
  have := invMod_eq_inv (p := p) a
  rw [if_neg h] at this
  exact eq_inv_of_mul_eq_one_left this

theorem nistOnCurve_aff_iff (x y : Nat) :
    nistOnCurve p b (.aff x y) = true ↔ (nistCurve p b).Equation (x : ZMod p) (y : ZMod p) := by
  have hpos := hp.out.pos
  rw [WeierstrassCurve.Affine.equation_iff', nistOnCurve, beq_iff_eq, nistRhs]
  have h1 : (subMod p (y * y) (subMod p (x * x * x + b) (3 * x)) : ZMod p) = y * y - ((x * x * x + b) - 3 * x) := by
    rw [subMod_cast hpos, subMod_cast hpos]; push_cast; ring
  have h2 : (subMod p (y * y) (subMod p (x * x * x + b) (3 * x)) = 0) ↔
      ((subMod p (y * y) (subMod p (x * x * x + b) (3 * x)) : Nat) : ZMod p) = 0 := by
    constructor
    · intro h; rw [h]; simp
    · intro h
      exact natCast_inj_of_lt (subMod_lt hpos _ _) hpos (by simpa using h)
  rw [h2, h1]
  simp only [nistCurve]
  constructor <;> intro h <;> linear_combination h

/-- On a curve that is not singular, every value of the domain that passes the on-curve test stands for a point. -/
theorem NistRep.exists (hD : (nistCurve p b).Δ ≠ 0) {v : PointVal}
    (hdom : v = .inf ∨ ∃ x y, v = .aff x y ∧ x < p ∧ y < p) (h : nistOnCurve p b v = true) :
    ∃ P, NistRep p b v P := by
  rcases hdom with rfl | ⟨x, y, rfl, hx, hy⟩
  · exact ⟨0, .inf⟩
  · exact ⟨_, .aff hx hy ((WeierstrassCurve.Affine.equation_iff_nonsingular_of_Δ_ne_zero hD).1 ((nistOnCurve_aff_iff x y).1 h))⟩

theorem NistRep.onCurve {v : PointVal} {P : (nistCurve p b).Point} (h : NistRep p b v P) : nistOnCurve p b v = true := by
  cases h with
  | inf => rfl
  | aff hx hy h => exact (nistOnCurve_aff_iff _ _).2 h.1

theorem NistRep.domain {v : PointVal} {P : (nistCurve p b).Point} (h : NistRep p b v P) :
    v = .inf ∨ ∃ x y, v = .aff x y ∧ x < p ∧ y < p := by
  cases h with
  | inf => exact .inl rfl
  | aff hx hy h => exact .inr ⟨_, _, rfl, hx, hy⟩

theorem add_mod_eq_zero_iff {y1 y2 : Nat} : (y1 + y2) % p = 0 ↔ (y1 : ZMod p) = -y2 := by
  rw [← Nat.dvd_iff_mod_eq_zero, ← ZMod.natCast_eq_zero_iff, Nat.cast_add, eq_neg_iff_add_eq_zero]

/-- The sum of R393 stands for the sum of the points. -/
theorem NistRep.add (h2 : (2 : ZMod p) ≠ 0) {v w : PointVal} {P Q : (nistCurve p b).Point}
    (hv : NistRep p b v P) (hw : NistRep p b w Q) : NistRep p b (nistAdd p v w) (P + Q) := by
  have hpos := hp.out.pos
  cases hv with
  | inf => simpa [nistAdd] using hw
  | @aff x1 y1 hx1 hy1 hn1 =>
    cases hw with
    | inf => simpa [nistAdd] using NistRep.aff hx1 hy1 hn1
    | @aff x2 y2 hx2 hy2 hn2 =>
      have hxx : x1 = x2 ↔ (x1 : ZMod p) = x2 := ⟨fun h => by rw [h], fun h => natCast_inj_of_lt hx1 hx2 h⟩
      have hneg : ((x1 = x2 ∧ (y1 + y2) % p = 0) ↔ ((x1 : ZMod p) = x2 ∧ (y1 : ZMod p) = (nistCurve p b).negY x2 y2)) := by
        rw [hxx, add_mod_eq_zero_iff]; simp [nistCurve]
      by_cases hxy : x1 = x2 ∧ (y1 + y2) % p = 0
      · have hs : nistAdd p (.aff x1 y1) (.aff x2 y2) = .inf := by simp only [nistAdd]; rw [if_pos hxy]
        rw [hs, WeierstrassCurve.Affine.Point.add_of_Y_eq (hneg.1 hxy).1 (hneg.1 hxy).2]
        exact .inf
      · have hs : nistAdd p (.aff x1 y1) (.aff x2 y2) = nistChord p (nistSlope p x1 y1 x2 y2) x1 y1 x2 := by
          simp only [nistAdd]; rw [if_neg hxy]
        have hxy' := mt hneg.2 hxy
        have hslope : (nistSlope p x1 y1 x2 y2 : ZMod p) = (nistCurve p b).slope x1 x2 y1 y2 := by
          by_cases hx : x1 = x2
          · subst hx
            have hyne : (y1 : ZMod p) ≠ (nistCurve p b).negY x1 y2 := fun h => hxy' ⟨rfl, h⟩
            have hyy := WeierstrassCurve.Affine.Y_eq_of_Y_ne hn1.1 hn2.1 rfl hyne
            have hy0 : ((2 * y1 : Nat) : ZMod p) ≠ 0 := by
              push_cast
              intro h0
              apply hyne
              have : (y1 : ZMod p) = 0 := (mul_eq_zero.1 h0).resolve_left h2
              simp only [nistCurve, WeierstrassCurve.Affine.negY]
              rw [← hyy, this]; ring
            rw [WeierstrassCurve.Affine.slope_of_Y_ne rfl hyne, nistSlope, if_pos rfl, ZMod.natCast_mod, Nat.cast_mul,
              invMod_cast_eq hy0, subMod_cast hpos]
            simp only [nistCurve, WeierstrassCurve.Affine.negY]
            rw [div_eq_mul_inv]
            push_cast
            ring_nf
          · have hxne : (x1 : ZMod p) ≠ x2 := fun h => hx (hxx.2 h)
            have hd : ((subMod p x2 x1 : Nat) : ZMod p) ≠ 0 := by
              rw [subMod_cast hpos]; exact sub_ne_zero.2 (Ne.symm hxne)
            rw [WeierstrassCurve.Affine.slope_of_X_ne hxne, nistSlope, if_neg hx, ZMod.natCast_mod, Nat.cast_mul,
              invMod_cast_eq hd, subMod_cast hpos, subMod_cast hpos, ← div_eq_mul_inv, ← neg_sub (y1 : ZMod p),
              ← neg_sub (x1 : ZMod p), neg_div_neg_eq]
        rw [hs, WeierstrassCurve.Affine.Point.add_some hxy']
        simp only [nistChord]
        have hX : ((subMod p (subMod p (nistSlope p x1 y1 x2 y2 * nistSlope p x1 y1 x2 y2) x1) x2 : Nat) : ZMod p) =
            (nistCurve p b).addX x1 x2 ((nistCurve p b).slope x1 x2 y1 y2) := by
          rw [subMod_cast hpos, subMod_cast hpos, Nat.cast_mul, hslope]
          simp [nistCurve]; ring
        have hY : ((subMod p (nistSlope p x1 y1 x2 y2 * subMod p x1
              (subMod p (subMod p (nistSlope p x1 y1 x2 y2 * nistSlope p x1 y1 x2 y2) x1) x2)) y1 : Nat) : ZMod p) =
            (nistCurve p b).addY x1 x2 y1 ((nistCurve p b).slope x1 x2 y1 y2) := by
          rw [subMod_cast hpos, Nat.cast_mul, subMod_cast hpos, hX, hslope]
          simp [nistCurve, WeierstrassCurve.Affine.addY]; ring
        exact NistRep.of_eq (subMod_lt hpos _ _) (subMod_lt hpos _ _) hX hY _

end Nist

end Sys2Proof.Machine
end

