-- ==== Sys2Proof/Laws/Primes.lean ====
section
/-! SUPPORT. The field primes of the curve ROM are prime (spec/44_ec_common.md R333 reports a probabilistic test), by
Lucas's test along a chain of certificates: a primitive root of each number, and the prime factors of the number less
one. -/

namespace Sys2Proof.Machine

set_option Elab.async false

/-- Lucas's test from a list of the prime factors of n − 1. -/
theorem prime_of_certificate {n : Nat} (a : Nat) (qs : List Nat) (hn : 1 < n) (hq : ∀ q ∈ qs, q.Prime)
    (hprod : qs.prod = n - 1) (h1 : powMod n a (n - 1) = 1)
    (h2 : (qs.all fun q => powMod n a ((n - 1) / q) != 1) = true) : n.Prime := by
  have cast : ∀ e, ((powMod n a e : Nat) : ZMod n) = (a : ZMod n) ^ e := by
    intro e; rw [powMod_eq, ZMod.natCast_mod, Nat.cast_pow]
  refine lucas_primality n (a : ZMod n) ?_ fun q hqp hqd => ?_
  · rw [← cast, h1, Nat.cast_one]
  · rw [← hprod] at hqd
    obtain ⟨r, hr, hqr⟩ := (Prime.dvd_prod_iff hqp.prime).1 hqd
    have hqe : q = r := (Nat.prime_dvd_prime_iff_eq hqp (hq r hr)).1 hqr
    subst hqe
    intro hc
    rw [← cast] at hc
    have h3 : powMod n a ((n - 1) / q) ≠ 1 := by
      have := List.all_eq_true.1 h2 q hr
      simpa using this
    apply h3
    have h4 : powMod n a ((n - 1) / q) < n := by rw [powMod_eq]; exact Nat.mod_lt _ (by omega)
    have h5 := (ZMod.natCast_eq_natCast_iff' (powMod n a ((n - 1) / q)) 1 n).1 (by rw [hc, Nat.cast_one])
    rwa [Nat.mod_eq_of_lt h4, Nat.mod_eq_of_lt hn] at h5

theorem prime_65147 : Nat.Prime 65147 := by norm_num

theorem prime_353 : Nat.Prime 353 := by norm_num

theorem prime_57467 : Nat.Prime 57467 := by norm_num

theorem prime_132049 : Nat.Prime 132049 := by norm_num

theorem prime_43 : Nat.Prime 43 := by norm_num

theorem prime_3727 : Nat.Prime 3727 := by norm_num

theorem prime_1923133 :
    Nat.Prime (1923133) := by
  refine prime_of_certificate 2 [2, 2, 3, 43, 3727]
    (by decide +kernel) ?_ (by decide +kernel) (by decide +kernel) (by decide +kernel)
  intro q hq
  simp only [List.mem_cons, List.not_mem_nil, or_false] at hq
  rcases hq with rfl | rfl | rfl | rfl | rfl
  · exact Nat.prime_two
  · exact Nat.prime_two
  · exact Nat.prime_three
  · exact prime_43
  · exact prime_3727

theorem prime_31 : Nat.Prime 31 := by norm_num

theorem prime_107 : Nat.Prime 107 := by norm_num

theorem prime_223 : Nat.Prime 223 := by norm_num

theorem prime_4153 : Nat.Prime 4153 := by norm_num

theorem prime_430751 : Nat.Prime 430751 := by norm_num

theorem prime_31757755_17 :
    Nat.Prime (31757755568855353) := by
  refine prime_of_certificate 10 [2, 2, 2, 3, 31, 107, 223, 4153, 430751]
    (by decide +kernel) ?_ (by decide +kernel) (by decide +kernel) (by decide +kernel)
  intro q hq
  simp only [List.mem_cons, List.not_mem_nil, or_false] at hq
  rcases hq with rfl | rfl | rfl | rfl | rfl | rfl | rfl | rfl | rfl
  · exact Nat.prime_two
  · exact Nat.prime_two
  · exact Nat.prime_two
  · exact Nat.prime_three
  · exact prime_31
  · exact prime_107
  · exact prime_223
  · exact prime_4153
  · exact prime_430751

theorem prime_75707 : Nat.Prime 75707 := by norm_num

theorem prime_13 : Nat.Prime 13 := by norm_num

theorem prime_2437 : Nat.Prime 2437 := by norm_num

theorem prime_569003 : Nat.Prime 569003 := by norm_num

theorem prime_2773320623 :
    Nat.Prime (2773320623) := by
  refine prime_of_certificate 5 [2, 2437, 569003]
    (by decide +kernel) ?_ (by decide +kernel) (by decide +kernel) (by decide +kernel)
  intro q hq
  simp only [List.mem_cons, List.not_mem_nil, or_false] at hq
  rcases hq with rfl | rfl | rfl
  · exact Nat.prime_two
  · exact prime_2437
  · exact prime_569003

theorem prime_72106336199 :
    Nat.Prime (72106336199) := by
  refine prime_of_certificate 7 [2, 13, 2773320623]
    (by decide +kernel) ?_ (by decide +kernel) (by decide +kernel) (by decide +kernel)
  intro q hq
  simp only [List.mem_cons, List.not_mem_nil, or_false] at hq
  rcases hq with rfl | rfl | rfl
  · exact Nat.prime_two
  · exact prime_13
  · exact prime_2773320623

theorem prime_19 : Nat.Prime 19 := by norm_num

theorem prime_47 : Nat.Prime 47 := by norm_num

theorem prime_127 : Nat.Prime 127 := by norm_num

theorem prime_103 : Nat.Prime 103 := by norm_num

theorem prime_991 : Nat.Prime 991 := by norm_num

theorem prime_8574133 :
    Nat.Prime (8574133) := by
  refine prime_of_certificate 2 [2, 2, 3, 7, 103, 991]
    (by decide +kernel) ?_ (by decide +kernel) (by decide +kernel) (by decide +kernel)
  intro q hq
  simp only [List.mem_cons, List.not_mem_nil, or_false] at hq
  rcases hq with rfl | rfl | rfl | rfl | rfl | rfl
  · exact Nat.prime_two
  · exact Nat.prime_two
  · exact Nat.prime_three
  · exact Nat.prime_seven
  · exact prime_103
  · exact prime_991

theorem prime_19195195_16 :
    Nat.Prime (1919519569386763) := by
  refine prime_of_certificate 2 [2, 3, 7, 19, 47, 47, 127, 8574133]
    (by decide +kernel) ?_ (by decide +kernel) (by decide +kernel) (by decide +kernel)
  intro q hq
  simp only [List.mem_cons, List.not_mem_nil, or_false] at hq
  rcases hq with rfl | rfl | rfl | rfl | rfl | rfl | rfl | rfl
  · exact Nat.prime_two
  · exact Nat.prime_three
  · exact Nat.prime_seven
  · exact prime_19
  · exact prime_47
  · exact prime_47
  · exact prime_127
  · exact prime_8574133

theorem prime_75445702_35 :
    Nat.Prime (75445702479781427272750846543864801) := by
  refine prime_of_certificate 7 [2, 2, 2, 2, 2, 3, 3, 5, 5, 75707, 72106336199, 1919519569386763]
    (by decide +kernel) ?_ (by decide +kernel) (by decide +kernel) (by decide +kernel)
  intro q hq
  simp only [List.mem_cons, List.not_mem_nil, or_false] at hq
  rcases hq with rfl | rfl | rfl | rfl | rfl | rfl | rfl | rfl | rfl | rfl | rfl | rfl
  · exact Nat.prime_two
  · exact Nat.prime_two
  · exact Nat.prime_two
  · exact Nat.prime_two
  · exact Nat.prime_two
  · exact Nat.prime_three
  · exact Nat.prime_three
  · exact Nat.prime_five
  · exact Nat.prime_five
  · exact prime_75707
  · exact prime_72106336199
  · exact prime_19195195_16

theorem prime_74058212_71 :
    Nat.Prime (74058212732561358302231226437062788676166966415465897661863160754340907) := by
  refine prime_of_certificate 2 [2, 3, 353, 57467, 132049, 1923133, 31757755568855353, 75445702479781427272750846543864801]
    (by decide +kernel) ?_ (by decide +kernel) (by decide +kernel) (by decide +kernel)
  intro q hq
  simp only [List.mem_cons, List.not_mem_nil, or_false] at hq
  rcases hq with rfl | rfl | rfl | rfl | rfl | rfl | rfl | rfl
  · exact Nat.prime_two
  · exact Nat.prime_three
  · exact prime_353
  · exact prime_57467
  · exact prime_132049
  · exact prime_1923133
  · exact prime_31757755_17
  · exact prime_75445702_35

theorem prime_ed25519 :
    Nat.Prime Curve.ed25519.prime := by
  refine prime_of_certificate 2 [2, 2, 3, 65147, 74058212732561358302231226437062788676166966415465897661863160754340907]
    (by decide +kernel) ?_ (by decide +kernel) (by decide +kernel) (by decide +kernel)
  intro q hq
  simp only [List.mem_cons, List.not_mem_nil, or_false] at hq
  rcases hq with rfl | rfl | rfl | rfl | rfl
  · exact Nat.prime_two
  · exact Nat.prime_two
  · exact Nat.prime_three
  · exact prime_65147
  · exact prime_74058212_71

theorem prime_17 : Nat.Prime 17 := by norm_num

theorem prime_257 : Nat.Prime 257 := by norm_num

theorem prime_641 : Nat.Prime 641 := by norm_num

theorem prime_1531 : Nat.Prime 1531 := by norm_num

theorem prime_65537 : Nat.Prime 65537 := by norm_num

theorem prime_490463 : Nat.Prime 490463 := by norm_num

theorem prime_17449 : Nat.Prime 17449 := by norm_num

theorem prime_6700417 :
    Nat.Prime (6700417) := by
  refine prime_of_certificate 5 [2, 2, 2, 2, 2, 2, 2, 3, 17449]
    (by decide +kernel) ?_ (by decide +kernel) (by decide +kernel) (by decide +kernel)
  intro q hq
  simp only [List.mem_cons, List.not_mem_nil, or_false] at hq
  rcases hq with rfl | rfl | rfl | rfl | rfl | rfl | rfl | rfl | rfl
  · exact Nat.prime_two
  · exact Nat.prime_two
  · exact Nat.prime_two
  · exact Nat.prime_two
  · exact Nat.prime_two
  · exact Nat.prime_two
  · exact Nat.prime_two
  · exact Nat.prime_three
  · exact prime_17449

theorem prime_2411 : Nat.Prime 2411 := by norm_num

theorem prime_11 : Nat.Prime 11 := by norm_num

theorem prime_23 : Nat.Prime 23 := by norm_num

theorem prime_3769 : Nat.Prime 3769 := by norm_num

theorem prime_204061199 :
    Nat.Prime (204061199) := by
  refine prime_of_certificate 11 [2, 11, 23, 107, 3769]
    (by decide +kernel) ?_ (by decide +kernel) (by decide +kernel) (by decide +kernel)
  intro q hq
  simp only [List.mem_cons, List.not_mem_nil, or_false] at hq
  rcases hq with rfl | rfl | rfl | rfl | rfl
  · exact Nat.prime_two
  · exact prime_11
  · exact prime_23
  · exact prime_107
  · exact prime_3769

theorem prime_34282281433 :
    Nat.Prime (34282281433) := by
  refine prime_of_certificate 17 [2, 2, 2, 3, 7, 204061199]
    (by decide +kernel) ?_ (by decide +kernel) (by decide +kernel) (by decide +kernel)
  intro q hq
  simp only [List.mem_cons, List.not_mem_nil, or_false] at hq
  rcases hq with rfl | rfl | rfl | rfl | rfl | rfl
  · exact Nat.prime_two
  · exact Nat.prime_two
  · exact Nat.prime_two
  · exact Nat.prime_three
  · exact Nat.prime_seven
  · exact prime_204061199

theorem prime_53 : Nat.Prime 53 := by norm_num

theorem prime_173 : Nat.Prime 173 := by norm_num

theorem prime_197 : Nat.Prime 197 := by norm_num

theorem prime_3677 : Nat.Prime 3677 := by norm_num

theorem prime_66417393611 :
    Nat.Prime (66417393611) := by
  refine prime_of_certificate 6 [2, 5, 53, 173, 197, 3677]
    (by decide +kernel) ?_ (by decide +kernel) (by decide +kernel) (by decide +kernel)
  intro q hq
  simp only [List.mem_cons, List.not_mem_nil, or_false] at hq
  rcases hq with rfl | rfl | rfl | rfl | rfl | rfl
  · exact Nat.prime_two
  · exact Nat.prime_five
  · exact prime_53
  · exact prime_173
  · exact prime_197
  · exact prime_3677

theorem prime_11290956_14 :
    Nat.Prime (11290956913871) := by
  refine prime_of_certificate 13 [2, 5, 17, 66417393611]
    (by decide +kernel) ?_ (by decide +kernel) (by decide +kernel) (by decide +kernel)
  intro q hq
  simp only [List.mem_cons, List.not_mem_nil, or_false] at hq
  rcases hq with rfl | rfl | rfl | rfl
  · exact Nat.prime_two
  · exact Nat.prime_five
  · exact prime_17
  · exact prime_66417393611

theorem prime_18169 : Nat.Prime 18169 := by norm_num

theorem prime_78283 : Nat.Prime 78283 := by norm_num

theorem prime_704251 : Nat.Prime 704251 := by norm_num

theorem prime_46076956_17 :
    Nat.Prime (46076956964474543) := by
  refine prime_of_certificate 5 [2, 23, 18169, 78283, 704251]
    (by decide +kernel) ?_ (by decide +kernel) (by decide +kernel) (by decide +kernel)
  intro q hq
  simp only [List.mem_cons, List.not_mem_nil, or_false] at hq
  rcases hq with rfl | rfl | rfl | rfl | rfl
  · exact Nat.prime_two
  · exact prime_23
  · exact prime_18169
  · exact prime_78283
  · exact prime_704251

theorem prime_77402318_45 :
    Nat.Prime (774023187263532362759620327192479577272145303) := by
  refine prime_of_certificate 3 [2, 3, 3, 2411, 34282281433, 11290956913871, 46076956964474543]
    (by decide +kernel) ?_ (by decide +kernel) (by decide +kernel) (by decide +kernel)
  intro q hq
  simp only [List.mem_cons, List.not_mem_nil, or_false] at hq
  rcases hq with rfl | rfl | rfl | rfl | rfl | rfl | rfl
  · exact Nat.prime_two
  · exact Nat.prime_three
  · exact Nat.prime_three
  · exact prime_2411
  · exact prime_34282281433
  · exact prime_11290956_14
  · exact prime_46076956_17

theorem prime_83594504_48 :
    Nat.Prime (835945042244614951780389953367877943453916927241) := by
  refine prime_of_certificate 11 [2, 2, 2, 3, 3, 3, 5, 774023187263532362759620327192479577272145303]
    (by decide +kernel) ?_ (by decide +kernel) (by decide +kernel) (by decide +kernel)
  intro q hq
  simp only [List.mem_cons, List.not_mem_nil, or_false] at hq
  rcases hq with rfl | rfl | rfl | rfl | rfl | rfl | rfl | rfl
  · exact Nat.prime_two
  · exact Nat.prime_two
  · exact Nat.prime_two
  · exact Nat.prime_three
  · exact Nat.prime_three
  · exact Nat.prime_three
  · exact Nat.prime_five
  · exact prime_77402318_45

theorem prime_p256 :
    Nat.Prime Curve.p256.prime := by
  refine prime_of_certificate 6 [2, 3, 5, 5, 17, 257, 641, 1531, 65537, 490463, 6700417, 835945042244614951780389953367877943453916927241]
    (by decide +kernel) ?_ (by decide +kernel) (by decide +kernel) (by decide +kernel)
  intro q hq
  simp only [List.mem_cons, List.not_mem_nil, or_false] at hq
  rcases hq with rfl | rfl | rfl | rfl | rfl | rfl | rfl | rfl | rfl | rfl | rfl | rfl
  · exact Nat.prime_two
  · exact Nat.prime_three
  · exact Nat.prime_five
  · exact Nat.prime_five
  · exact prime_17
  · exact prime_257
  · exact prime_641
  · exact prime_1531
  · exact prime_65537
  · exact prime_490463
  · exact prime_6700417
  · exact prime_83594504_48

theorem prime_67 : Nat.Prime 67 := by norm_num

theorem prime_157 : Nat.Prime 157 := by norm_num

theorem prime_1373 : Nat.Prime 1373 := by norm_num

theorem prime_2213 : Nat.Prime 2213 := by norm_num

theorem prime_2862218959 :
    Nat.Prime (2862218959) := by
  refine prime_of_certificate 3 [2, 3, 157, 1373, 2213]
    (by decide +kernel) ?_ (by decide +kernel) (by decide +kernel) (by decide +kernel)
  intro q hq
  simp only [List.mem_cons, List.not_mem_nil, or_false] at hq
  rcases hq with rfl | rfl | rfl | rfl | rfl
  · exact Nat.prime_two
  · exact Nat.prime_three
  · exact prime_157
  · exact prime_1373
  · exact prime_2213

theorem prime_807145746439 :
    Nat.Prime (807145746439) := by
  refine prime_of_certificate 3 [2, 3, 47, 2862218959]
    (by decide +kernel) ?_ (by decide +kernel) (by decide +kernel) (by decide +kernel)
  intro q hq
  simp only [List.mem_cons, List.not_mem_nil, or_false] at hq
  rcases hq with rfl | rfl | rfl | rfl
  · exact Nat.prime_two
  · exact Nat.prime_three
  · exact prime_47
  · exact prime_2862218959

theorem prime_8389 : Nat.Prime 8389 := by norm_num

theorem prime_38557 : Nat.Prime 38557 := by norm_num

theorem prime_312289 : Nat.Prime 312289 := by norm_num

theorem prime_6317 : Nat.Prime 6317 := by norm_num

theorem prime_59 : Nat.Prime 59 := by norm_num

theorem prime_599 : Nat.Prime 599 := by norm_num

theorem prime_661 : Nat.Prime 661 := by norm_num

theorem prime_513928823 :
    Nat.Prime (513928823) := by
  refine prime_of_certificate 5 [2, 11, 59, 599, 661]
    (by decide +kernel) ?_ (by decide +kernel) (by decide +kernel) (by decide +kernel)
  intro q hq
  simp only [List.mem_cons, List.not_mem_nil, or_false] at hq
  rcases hq with rfl | rfl | rfl | rfl | rfl
  · exact Nat.prime_two
  · exact prime_11
  · exact prime_59
  · exact prime_599
  · exact prime_661

theorem prime_53448597593 :
    Nat.Prime (53448597593) := by
  refine prime_of_certificate 3 [2, 2, 2, 13, 513928823]
    (by decide +kernel) ?_ (by decide +kernel) (by decide +kernel) (by decide +kernel)
  intro q hq
  simp only [List.mem_cons, List.not_mem_nil, or_false] at hq
  rcases hq with rfl | rfl | rfl | rfl | rfl
  · exact Nat.prime_two
  · exact Nat.prime_two
  · exact Nat.prime_two
  · exact prime_13
  · exact prime_513928823

theorem prime_13572918_19 :
    Nat.Prime (1357291859799823621) := by
  refine prime_of_certificate 2 [2, 2, 3, 5, 67, 6317, 53448597593]
    (by decide +kernel) ?_ (by decide +kernel) (by decide +kernel) (by decide +kernel)
  intro q hq
  simp only [List.mem_cons, List.not_mem_nil, or_false] at hq
  rcases hq with rfl | rfl | rfl | rfl | rfl | rfl | rfl
  · exact Nat.prime_two
  · exact Nat.prime_two
  · exact Nat.prime_three
  · exact Nat.prime_five
  · exact prime_67
  · exact prime_6317
  · exact prime_53448597593

theorem prime_181 : Nat.Prime 181 := by norm_num

theorem prime_211 : Nat.Prime 211 := by norm_num

theorem prime_881 : Nat.Prime 881 := by norm_num

theorem prime_105957871 :
    Nat.Prime (105957871) := by
  refine prime_of_certificate 3 [2, 3, 5, 19, 211, 881]
    (by decide +kernel) ?_ (by decide +kernel) (by decide +kernel) (by decide +kernel)
  intro q hq
  simp only [List.mem_cons, List.not_mem_nil, or_false] at hq
  rcases hq with rfl | rfl | rfl | rfl | rfl | rfl
  · exact Nat.prime_two
  · exact Nat.prime_three
  · exact Nat.prime_five
  · exact prime_19
  · exact prime_211
  · exact prime_881

theorem prime_21407 : Nat.Prime 21407 := by norm_num

theorem prime_246608641 :
    Nat.Prime (246608641) := by
  refine prime_of_certificate 19 [2, 2, 2, 2, 2, 2, 2, 2, 3, 3, 5, 21407]
    (by decide +kernel) ?_ (by decide +kernel) (by decide +kernel) (by decide +kernel)
  intro q hq
  simp only [List.mem_cons, List.not_mem_nil, or_false] at hq
  rcases hq with rfl | rfl | rfl | rfl | rfl | rfl | rfl | rfl | rfl | rfl | rfl | rfl
  · exact Nat.prime_two
  · exact Nat.prime_two
  · exact Nat.prime_two
  · exact Nat.prime_two
  · exact Nat.prime_two
  · exact Nat.prime_two
  · exact Nat.prime_two
  · exact Nat.prime_two
  · exact Nat.prime_three
  · exact Nat.prime_three
  · exact Nat.prime_five
  · exact prime_21407

theorem prime_52970992_21 :
    Nat.Prime (529709925838459440593) := by
  refine prime_of_certificate 3 [2, 2, 2, 2, 7, 181, 105957871, 246608641]
    (by decide +kernel) ?_ (by decide +kernel) (by decide +kernel) (by decide +kernel)
  intro q hq
  simp only [List.mem_cons, List.not_mem_nil, or_false] at hq
  rcases hq with rfl | rfl | rfl | rfl | rfl | rfl | rfl | rfl
  · exact Nat.prime_two
  · exact Nat.prime_two
  · exact Nat.prime_two
  · exact Nat.prime_two
  · exact Nat.prime_seven
  · exact prime_181
  · exact prime_105957871
  · exact prime_246608641

theorem prime_97 : Nat.Prime 97 := by norm_num

theorem prime_263 : Nat.Prime 263 := by norm_num

theorem prime_6051631 :
    Nat.Prime (6051631) := by
  refine prime_of_certificate 6 [2, 3, 5, 13, 59, 263]
    (by decide +kernel) ?_ (by decide +kernel) (by decide +kernel) (by decide +kernel)
  intro q hq
  simp only [List.mem_cons, List.not_mem_nil, or_false] at hq
  rcases hq with rfl | rfl | rfl | rfl | rfl | rfl
  · exact Nat.prime_two
  · exact Nat.prime_three
  · exact Nat.prime_five
  · exact prime_13
  · exact prime_59
  · exact prime_263

theorem prime_336757 : Nat.Prime 336757 := by norm_num

theorem prime_41 : Nat.Prime 41 := by norm_num

theorem prime_568151 : Nat.Prime 568151 := by norm_num

theorem prime_3517 : Nat.Prime 3517 := by norm_num

theorem prime_61 : Nat.Prime 61 := by norm_num

theorem prime_363557 : Nat.Prime 363557 := by norm_num

theorem prime_532247449 :
    Nat.Prime (532247449) := by
  refine prime_of_certificate 7 [2, 2, 2, 3, 61, 363557]
    (by decide +kernel) ?_ (by decide +kernel) (by decide +kernel) (by decide +kernel)
  intro q hq
  simp only [List.mem_cons, List.not_mem_nil, or_false] at hq
  rcases hq with rfl | rfl | rfl | rfl | rfl | rfl
  · exact Nat.prime_two
  · exact Nat.prime_two
  · exact Nat.prime_two
  · exact Nat.prime_three
  · exact prime_61
  · exact prime_363557

theorem prime_44925942_14 :
    Nat.Prime (44925942675193) := by
  refine prime_of_certificate 5 [2, 2, 2, 3, 3517, 532247449]
    (by decide +kernel) ?_ (by decide +kernel) (by decide +kernel) (by decide +kernel)
  intro q hq
  simp only [List.mem_cons, List.not_mem_nil, or_false] at hq
  rcases hq with rfl | rfl | rfl | rfl | rfl | rfl
  · exact Nat.prime_two
  · exact Nat.prime_two
  · exact Nat.prime_two
  · exact Nat.prime_three
  · exact prime_3517
  · exact prime_532247449

theorem prime_35581458_23 :
    Nat.Prime (35581458644053887931343) := by
  refine prime_of_certificate 5 [2, 17, 41, 568151, 44925942675193]
    (by decide +kernel) ?_ (by decide +kernel) (by decide +kernel) (by decide +kernel)
  intro q hq
  simp only [List.mem_cons, List.not_mem_nil, or_false] at hq
  rcases hq with rfl | rfl | rfl | rfl | rfl
  · exact Nat.prime_two
  · exact prime_17
  · exact prime_41
  · exact prime_568151
  · exact prime_44925942_14

theorem prime_23964610_29 :
    Nat.Prime (23964610537191310276190549303) := by
  refine prime_of_certificate 5 [2, 336757, 35581458644053887931343]
    (by decide +kernel) ?_ (by decide +kernel) (by decide +kernel) (by decide +kernel)
  intro q hq
  simp only [List.mem_cons, List.not_mem_nil, or_false] at hq
  rcases hq with rfl | rfl | rfl
  · exact Nat.prime_two
  · exact prime_336757
  · exact prime_35581458_23

theorem prime_86272597_30 :
    Nat.Prime (862725979338887169942859774909) := by
  refine prime_of_certificate 2 [2, 2, 3, 3, 23964610537191310276190549303]
    (by decide +kernel) ?_ (by decide +kernel) (by decide +kernel) (by decide +kernel)
  intro q hq
  simp only [List.mem_cons, List.not_mem_nil, or_false] at hq
  rcases hq with rfl | rfl | rfl | rfl | rfl
  · exact Nat.prime_two
  · exact Nat.prime_two
  · exact Nat.prime_three
  · exact Nat.prime_three
  · exact prime_23964610_29

theorem prime_20705423_32 :
    Nat.Prime (20705423504133292078628634597817) := by
  refine prime_of_certificate 5 [2, 2, 2, 3, 862725979338887169942859774909]
    (by decide +kernel) ?_ (by decide +kernel) (by decide +kernel) (by decide +kernel)
  intro q hq
  simp only [List.mem_cons, List.not_mem_nil, or_false] at hq
  rcases hq with rfl | rfl | rfl | rfl | rfl
  · exact Nat.prime_two
  · exact Nat.prime_two
  · exact Nat.prime_two
  · exact Nat.prime_three
  · exact prime_86272597_30

theorem prime_41324461_42 :
    Nat.Prime (413244619895455989650825325680172591660047) := by
  refine prime_of_certificate 5 [2, 17, 97, 6051631, 20705423504133292078628634597817]
    (by decide +kernel) ?_ (by decide +kernel) (by decide +kernel) (by decide +kernel)
  intro q hq
  simp only [List.mem_cons, List.not_mem_nil, or_false] at hq
  rcases hq with rfl | rfl | rfl | rfl | rfl
  · exact Nat.prime_two
  · exact prime_17
  · exact prime_97
  · exact prime_6051631
  · exact prime_20705423_32

theorem prime_12397338_44 :
    Nat.Prime (12397338596863679689524759770405177749801411) := by
  refine prime_of_certificate 2 [2, 3, 5, 413244619895455989650825325680172591660047]
    (by decide +kernel) ?_ (by decide +kernel) (by decide +kernel) (by decide +kernel)
  intro q hq
  simp only [List.mem_cons, List.not_mem_nil, or_false] at hq
  rcases hq with rfl | rfl | rfl | rfl
  · exact Nat.prime_two
  · exact Nat.prime_three
  · exact Nat.prime_five
  · exact prime_41324461_42

theorem prime_19173790_101 :
    Nat.Prime (19173790298027098165721053155794528970226934547887232785722672956982046098136719667167519737147526097) := by
  refine prime_of_certificate 3 [2, 2, 2, 2, 11, 11, 11, 8389, 38557, 312289, 1357291859799823621, 529709925838459440593, 12397338596863679689524759770405177749801411]
    (by decide +kernel) ?_ (by decide +kernel) (by decide +kernel) (by decide +kernel)
  intro q hq
  simp only [List.mem_cons, List.not_mem_nil, or_false] at hq
  rcases hq with rfl | rfl | rfl | rfl | rfl | rfl | rfl | rfl | rfl | rfl | rfl | rfl | rfl
  · exact Nat.prime_two
  · exact Nat.prime_two
  · exact Nat.prime_two
  · exact Nat.prime_two
  · exact prime_11
  · exact prime_11
  · exact prime_11
  · exact prime_8389
  · exact prime_38557
  · exact prime_312289
  · exact prime_13572918_19
  · exact prime_52970992_21
  · exact prime_12397338_44

theorem prime_p384 :
    Nat.Prime Curve.p384.prime := by
  refine prime_of_certificate 19 [2, 19, 67, 807145746439, 19173790298027098165721053155794528970226934547887232785722672956982046098136719667167519737147526097]
    (by decide +kernel) ?_ (by decide +kernel) (by decide +kernel) (by decide +kernel)
  intro q hq
  simp only [List.mem_cons, List.not_mem_nil, or_false] at hq
  rcases hq with rfl | rfl | rfl | rfl | rfl
  · exact Nat.prime_two
  · exact prime_19
  · exact prime_67
  · exact prime_807145746439
  · exact prime_19173790_101

theorem prime_131 : Nat.Prime 131 := by norm_num

theorem prime_521 : Nat.Prime 521 := by norm_num

theorem prime_1613 : Nat.Prime 1613 := by norm_num

theorem prime_2731 : Nat.Prime 2731 := by norm_num

theorem prime_8191 : Nat.Prime 8191 := by norm_num

theorem prime_42641 : Nat.Prime 42641 := by norm_num

theorem prime_51481 : Nat.Prime 51481 := by norm_num

theorem prime_61681 : Nat.Prime 61681 := by norm_num

theorem prime_409891 : Nat.Prime 409891 := by norm_num

theorem prime_858001 : Nat.Prime 858001 := by norm_num

theorem prime_5746001 :
    Nat.Prime (5746001) := by
  refine prime_of_certificate 15 [2, 2, 2, 2, 5, 5, 5, 13, 13, 17]
    (by decide +kernel) ?_ (by decide +kernel) (by decide +kernel) (by decide +kernel)
  intro q hq
  simp only [List.mem_cons, List.not_mem_nil, or_false] at hq
  rcases hq with rfl | rfl | rfl | rfl | rfl | rfl | rfl | rfl | rfl | rfl
  · exact Nat.prime_two
  · exact Nat.prime_two
  · exact Nat.prime_two
  · exact Nat.prime_two
  · exact Nat.prime_five
  · exact Nat.prime_five
  · exact Nat.prime_five
  · exact prime_13
  · exact prime_13
  · exact prime_17

theorem prime_37 : Nat.Prime 37 := by norm_num

theorem prime_317 : Nat.Prime 317 := by norm_num

theorem prime_7623851 :
    Nat.Prime (7623851) := by
  refine prime_of_certificate 6 [2, 5, 5, 13, 37, 317]
    (by decide +kernel) ?_ (by decide +kernel) (by decide +kernel) (by decide +kernel)
  intro q hq
  simp only [List.mem_cons, List.not_mem_nil, or_false] at hq
  rcases hq with rfl | rfl | rfl | rfl | rfl | rfl
  · exact Nat.prime_two
  · exact Nat.prime_five
  · exact Nat.prime_five
  · exact prime_13
  · exact prime_37
  · exact prime_317

theorem prime_1381 : Nat.Prime 1381 := by norm_num

theorem prime_34110701 :
    Nat.Prime (34110701) := by
  refine prime_of_certificate 15 [2, 2, 5, 5, 13, 19, 1381]
    (by decide +kernel) ?_ (by decide +kernel) (by decide +kernel) (by decide +kernel)
  intro q hq
  simp only [List.mem_cons, List.not_mem_nil, or_false] at hq
  rcases hq with rfl | rfl | rfl | rfl | rfl | rfl | rfl
  · exact Nat.prime_two
  · exact Nat.prime_two
  · exact Nat.prime_five
  · exact Nat.prime_five
  · exact prime_13
  · exact prime_19
  · exact prime_1381

theorem prime_49481 : Nat.Prime 49481 := by norm_num

theorem prime_308761441 :
    Nat.Prime (308761441) := by
  refine prime_of_certificate 17 [2, 2, 2, 2, 2, 3, 5, 13, 49481]
    (by decide +kernel) ?_ (by decide +kernel) (by decide +kernel) (by decide +kernel)
  intro q hq
  simp only [List.mem_cons, List.not_mem_nil, or_false] at hq
  rcases hq with rfl | rfl | rfl | rfl | rfl | rfl | rfl | rfl | rfl
  · exact Nat.prime_two
  · exact Nat.prime_two
  · exact Nat.prime_two
  · exact Nat.prime_two
  · exact Nat.prime_two
  · exact Nat.prime_three
  · exact Nat.prime_five
  · exact prime_13
  · exact prime_49481

theorem prime_347 : Nat.Prime 347 := by norm_num

theorem prime_1663 : Nat.Prime 1663 := by norm_num

theorem prime_2400573761 :
    Nat.Prime (2400573761) := by
  refine prime_of_certificate 3 [2, 2, 2, 2, 2, 2, 5, 13, 347, 1663]
    (by decide +kernel) ?_ (by decide +kernel) (by decide +kernel) (by decide +kernel)
  intro q hq
  simp only [List.mem_cons, List.not_mem_nil, or_false] at hq
  rcases hq with rfl | rfl | rfl | rfl | rfl | rfl | rfl | rfl | rfl | rfl
  · exact Nat.prime_two
  · exact Nat.prime_two
  · exact Nat.prime_two
  · exact Nat.prime_two
  · exact Nat.prime_two
  · exact Nat.prime_two
  · exact Nat.prime_five
  · exact prime_13
  · exact prime_347
  · exact prime_1663

theorem prime_397 : Nat.Prime 397 := by norm_num

theorem prime_2995763 :
    Nat.Prime (2995763) := by
  refine prime_of_certificate 2 [2, 7, 7, 7, 11, 397]
    (by decide +kernel) ?_ (by decide +kernel) (by decide +kernel) (by decide +kernel)
  intro q hq
  simp only [List.mem_cons, List.not_mem_nil, or_false] at hq
  rcases hq with rfl | rfl | rfl | rfl | rfl | rfl
  · exact Nat.prime_two
  · exact Nat.prime_seven
  · exact Nat.prime_seven
  · exact Nat.prime_seven
  · exact prime_11
  · exact prime_397

theorem prime_65427463921 :
    Nat.Prime (65427463921) := by
  refine prime_of_certificate 17 [2, 2, 2, 2, 3, 5, 7, 13, 2995763]
    (by decide +kernel) ?_ (by decide +kernel) (by decide +kernel) (by decide +kernel)
  intro q hq
  simp only [List.mem_cons, List.not_mem_nil, or_false] at hq
  rcases hq with rfl | rfl | rfl | rfl | rfl | rfl | rfl | rfl | rfl
  · exact Nat.prime_two
  · exact Nat.prime_two
  · exact Nat.prime_two
  · exact Nat.prime_two
  · exact Nat.prime_three
  · exact Nat.prime_five
  · exact Nat.prime_seven
  · exact prime_13
  · exact prime_2995763

theorem prime_683 : Nat.Prime 683 := by norm_num

theorem prime_1433 : Nat.Prime 1433 := by norm_num

theorem prime_23609 : Nat.Prime 23609 := by norm_num

theorem prime_10814098_15 :
    Nat.Prime (108140989558681) := by
  refine prime_of_certificate 17 [2, 2, 2, 3, 3, 5, 13, 683, 1433, 23609]
    (by decide +kernel) ?_ (by decide +kernel) (by decide +kernel) (by decide +kernel)
  intro q hq
  simp only [List.mem_cons, List.not_mem_nil, or_false] at hq
  rcases hq with rfl | rfl | rfl | rfl | rfl | rfl | rfl | rfl | rfl | rfl
  · exact Nat.prime_two
  · exact Nat.prime_two
  · exact Nat.prime_two
  · exact Nat.prime_three
  · exact Nat.prime_three
  · exact Nat.prime_five
  · exact prime_13
  · exact prime_683
  · exact prime_1433
  · exact prime_23609

theorem prime_151 : Nat.Prime 151 := by norm_num

theorem prime_8620289 :
    Nat.Prime (8620289) := by
  refine prime_of_certificate 3 [2, 2, 2, 2, 2, 2, 2, 2, 151, 223]
    (by decide +kernel) ?_ (by decide +kernel) (by decide +kernel) (by decide +kernel)
  intro q hq
  simp only [List.mem_cons, List.not_mem_nil, or_false] at hq
  rcases hq with rfl | rfl | rfl | rfl | rfl | rfl | rfl | rfl | rfl | rfl
  · exact Nat.prime_two
  · exact Nat.prime_two
  · exact Nat.prime_two
  · exact Nat.prime_two
  · exact Nat.prime_two
  · exact Nat.prime_two
  · exact Nat.prime_two
  · exact Nat.prime_two
  · exact prime_151
  · exact prime_223

theorem prime_2534364967 :
    Nat.Prime (2534364967) := by
  refine prime_of_certificate 3 [2, 3, 7, 7, 8620289]
    (by decide +kernel) ?_ (by decide +kernel) (by decide +kernel) (by decide +kernel)
  intro q hq
  simp only [List.mem_cons, List.not_mem_nil, or_false] at hq
  rcases hq with rfl | rfl | rfl | rfl | rfl
  · exact Nat.prime_two
  · exact Nat.prime_three
  · exact Nat.prime_seven
  · exact Nat.prime_seven
  · exact prime_8620289

theorem prime_14529514_15 :
    Nat.Prime (145295143558111) := by
  refine prime_of_certificate 7 [2, 3, 3, 5, 7, 7, 13, 2534364967]
    (by decide +kernel) ?_ (by decide +kernel) (by decide +kernel) (by decide +kernel)
  intro q hq
  simp only [List.mem_cons, List.not_mem_nil, or_false] at hq
  rcases hq with rfl | rfl | rfl | rfl | rfl | rfl | rfl | rfl
  · exact Nat.prime_two
  · exact Nat.prime_three
  · exact Nat.prime_three
  · exact Nat.prime_five
  · exact Nat.prime_seven
  · exact Nat.prime_seven
  · exact prime_13
  · exact prime_2534364967

theorem prime_28793 : Nat.Prime 28793 := by norm_num

theorem prime_3191 : Nat.Prime 3191 := by norm_num

theorem prime_109 : Nat.Prime 109 := by norm_num

theorem prime_9211861 :
    Nat.Prime (9211861) := by
  refine prime_of_certificate 2 [2, 2, 3, 3, 3, 5, 7, 2437]
    (by decide +kernel) ?_ (by decide +kernel) (by decide +kernel) (by decide +kernel)
  intro q hq
  simp only [List.mem_cons, List.not_mem_nil, or_false] at hq
  rcases hq with rfl | rfl | rfl | rfl | rfl | rfl | rfl | rfl
  · exact Nat.prime_two
  · exact Nat.prime_two
  · exact Nat.prime_three
  · exact Nat.prime_three
  · exact Nat.prime_three
  · exact Nat.prime_five
  · exact Nat.prime_seven
  · exact prime_2437

theorem prime_24098228377 :
    Nat.Prime (24098228377) := by
  refine prime_of_certificate 7 [2, 2, 2, 3, 109, 9211861]
    (by decide +kernel) ?_ (by decide +kernel) (by decide +kernel) (by decide +kernel)
  intro q hq
  simp only [List.mem_cons, List.not_mem_nil, or_false] at hq
  rcases hq with rfl | rfl | rfl | rfl | rfl | rfl
  · exact Nat.prime_two
  · exact Nat.prime_two
  · exact Nat.prime_two
  · exact Nat.prime_three
  · exact prime_109
  · exact prime_9211861

theorem prime_674750394557 :
    Nat.Prime (674750394557) := by
  refine prime_of_certificate 2 [2, 2, 7, 24098228377]
    (by decide +kernel) ?_ (by decide +kernel) (by decide +kernel) (by decide +kernel)
  intro q hq
  simp only [List.mem_cons, List.not_mem_nil, or_false] at hq
  rcases hq with rfl | rfl | rfl | rfl
  · exact Nat.prime_two
  · exact Nat.prime_two
  · exact Nat.prime_seven
  · exact prime_24098228377

theorem prime_36172558_18 :
    Nat.Prime (361725589517273017) := by
  refine prime_of_certificate 17 [2, 2, 2, 3, 7, 3191, 674750394557]
    (by decide +kernel) ?_ (by decide +kernel) (by decide +kernel) (by decide +kernel)
  intro q hq
  simp only [List.mem_cons, List.not_mem_nil, or_false] at hq
  rcases hq with rfl | rfl | rfl | rfl | rfl | rfl | rfl
  · exact Nat.prime_two
  · exact Nat.prime_two
  · exact Nat.prime_two
  · exact Nat.prime_three
  · exact Nat.prime_seven
  · exact prime_3191
  · exact prime_674750394557

theorem prime_17330834_27 :
    Nat.Prime (173308343918874810521923841) := by
  refine prime_of_certificate 3 [2, 2, 2, 2, 2, 2, 2, 2, 5, 13, 28793, 361725589517273017]
    (by decide +kernel) ?_ (by decide +kernel) (by decide +kernel) (by decide +kernel)
  intro q hq
  simp only [List.mem_cons, List.not_mem_nil, or_false] at hq
  rcases hq with rfl | rfl | rfl | rfl | rfl | rfl | rfl | rfl | rfl | rfl | rfl | rfl
  · exact Nat.prime_two
  · exact Nat.prime_two
  · exact Nat.prime_two
  · exact Nat.prime_two
  · exact Nat.prime_two
  · exact Nat.prime_two
  · exact Nat.prime_two
  · exact Nat.prime_two
  · exact Nat.prime_five
  · exact prime_13
  · exact prime_28793
  · exact prime_36172558_18

theorem prime_p521 :
    Nat.Prime Curve.p521.prime := by
  refine prime_of_certificate 3 [2, 3, 5, 5, 11, 17, 31, 41, 53, 131, 157, 521, 1613, 2731, 8191, 42641, 51481, 61681, 409891, 858001, 5746001, 7623851, 34110701, 308761441, 2400573761, 65427463921, 108140989558681, 145295143558111, 173308343918874810521923841]
    (by decide +kernel) ?_ (by decide +kernel) (by decide +kernel) (by decide +kernel)
  intro q hq
  simp only [List.mem_cons, List.not_mem_nil, or_false] at hq
  rcases hq with rfl | rfl | rfl | rfl | rfl | rfl | rfl | rfl | rfl | rfl | rfl | rfl | rfl | rfl | rfl | rfl | rfl | rfl | rfl | rfl | rfl | rfl | rfl | rfl | rfl | rfl | rfl | rfl | rfl
  · exact Nat.prime_two
  · exact Nat.prime_three
  · exact Nat.prime_five
  · exact Nat.prime_five
  · exact prime_11
  · exact prime_17
  · exact prime_31
  · exact prime_41
  · exact prime_53
  · exact prime_131
  · exact prime_157
  · exact prime_521
  · exact prime_1613
  · exact prime_2731
  · exact prime_8191
  · exact prime_42641
  · exact prime_51481
  · exact prime_61681
  · exact prime_409891
  · exact prime_858001
  · exact prime_5746001
  · exact prime_7623851
  · exact prime_34110701
  · exact prime_308761441
  · exact prime_2400573761
  · exact prime_65427463921
  · exact prime_10814098_15
  · exact prime_14529514_15
  · exact prime_17330834_27

/-- Every field prime of the curve ROM is prime (R333). -/
theorem Curve.prime_prime (c : Curve) : c.prime.Prime := by
  cases c
  · exact prime_p256
  · exact prime_p384
  · exact prime_p521
  · exact prime_ed25519
  · exact prime_ed25519

end Sys2Proof.Machine
end

