-- ==== Sys2Proof/Laws/CurveGroup.lean ====
section
/-! SUPPORT. The well-formed values of each of the five curves are a commutative group under ⊕ (spec/44_ec_common.md
R336). Hence ⊕ is associative and commutative, and
doubling and adding is the k-fold sum. -/

namespace Sys2Proof.Machine

/-- A group whose elements the point values stand for, one to one, ⊕ for + and Neg for −. -/
structure GroupModel (c : Curve) (G : Type) [AddCommGroup G] (R : PointVal → G → Prop) : Prop where
  unique : ∀ {v w P}, R v P → R w P → v = w
  exists_of_wellFormed : ∀ {v}, c.wellFormed v = true → c.inDomain v = true → ∃ P, R v P
  wellFormed : ∀ {v P}, R v P → c.wellFormed v = true
  inDomain : ∀ {v P}, R v P → c.inDomain v = true
  identity : R c.identity 0
  add : ∀ {v w P Q}, R v P → R w Q → R (c.add v w) (P + Q)
  neg : ∀ {v P}, R v P → R (c.neg v) (-P)

/-! ### The NIST curves -/

theorem NistRep.neg {p b : Nat} [hp : Fact p.Prime] {v : PointVal} {P : (nistCurve p b).Point} (h : NistRep p b v P) :
    NistRep p b (nistNeg p v) (-P) := by
  cases h with
  | inf => simpa [nistNeg] using NistRep.inf
  | @aff x y hx hy h =>
    rw [WeierstrassCurve.Affine.Point.neg_some]
    refine NistRep.of_eq hx (Nat.mod_lt _ hp.out.pos) rfl ?_ _
    rw [ZMod.natCast_mod, Nat.cast_sub hy.le]
    simp [nistCurve, WeierstrassCurve.Affine.negY]

theorem Curve.inDomain_iff (c : Curve) (v : PointVal) :
    c.inDomain v = true ↔ (v = .inf ∧ c.isNist = true) ∨ ∃ x y, v = .aff x y ∧ x < c.prime ∧ y < c.prime := by
  cases v with
  | inf => simp [Curve.inDomain]
  | aff x y => simp [Curve.inDomain]

theorem nist_groupModel {c : Curve} (hc : c.isNist = true) [hp : Fact c.prime.Prime]
    (hD : (nistCurve c.prime c.coeff).Δ ≠ 0) (h2 : (2 : ZMod c.prime) ≠ 0) :
    GroupModel c (nistCurve c.prime c.coeff).Point (NistRep c.prime c.coeff) where
  unique := NistRep.unique
  exists_of_wellFormed := by
    intro v hw hd
    simp only [Curve.wellFormed, hc, if_true] at hw
    refine NistRep.exists hD ?_ hw
    rcases (c.inDomain_iff v).1 hd with h | h
    · exact .inl h.1
    · exact .inr h
  wellFormed := by intro v P h; simpa only [Curve.wellFormed, hc, if_true] using h.onCurve
  inDomain := by
    intro v P h
    rw [Curve.inDomain_iff]
    rcases h.domain with h | h
    · exact .inl ⟨h, hc⟩
    · exact .inr h
  identity := by simpa only [Curve.identity, hc, if_true] using NistRep.inf
  add := by intro v w P Q hv hw; simpa only [Curve.add, hc, if_true] using hv.add h2 hw
  neg := by intro v P hv; simpa only [Curve.neg, hc, if_true] using hv.neg

/-- The discriminant of y² = x³ − 3x + b is −16·27·(b² − 4). -/
theorem nistCurve_disc (p b : Nat) (h : (16 * 27 * (b * b + 4 * (p - 1))) % p ≠ 0) (hp : 0 < p) :
    (nistCurve p b).Δ ≠ 0 := by
  intro h0
  apply h
  rw [← Nat.dvd_iff_mod_eq_zero, ← ZMod.natCast_eq_zero_iff]
  simp only [nistCurve, WeierstrassCurve.Δ, WeierstrassCurve.b₂, WeierstrassCurve.b₄, WeierstrassCurve.b₆,
    WeierstrassCurve.b₈] at h0
  push_cast [Nat.cast_sub (show 1 ≤ p from hp)]
  rw [ZMod.natCast_self]
  linear_combination -h0

theorem two_ne_zero_of_odd {p : Nat} (hp : 2 < p) : (2 : ZMod p) ≠ 0 := by
  intro h
  have : ((2 : Nat) : ZMod p) = 0 := by exact_mod_cast h
  have := Nat.le_of_dvd (by decide) ((ZMod.natCast_eq_zero_iff 2 p).1 this)
  omega

/-! ### The Edwards curves -/

/-- A point value of edwards25519 and the point of the Weierstrass curve it stands for. -/
inductive EdRep (p d : Nat) [Fact p.Prime] : PointVal → (Edwards.curve (d : ZMod p)).Point → Prop
  | aff {x y : Nat} {P : (Edwards.curve (d : ZMod p)).Point} (hx : x < p) (hy : y < p)
      (h : Edwards.Corr (d : ZMod p) (x : ZMod p) (y : ZMod p) P) : EdRep p d (.aff x y) P

section Edwards

variable {p d : Nat} [hp : Fact p.Prime]

theorem edOnCurve_aff_iff (x y : Nat) :
    edOnCurve p d (.aff x y) = true ↔ Edwards.On (d : ZMod p) (x : ZMod p) (y : ZMod p) := by
  have hpos := hp.out.pos
  have h1 := subMod_cast hpos (y * y) (x * x + 1 + d * (x * x) * (y * y))
  have h2 : (subMod p (y * y) (x * x + 1 + d * (x * x) * (y * y)) = 0) ↔
      ((subMod p (y * y) (x * x + 1 + d * (x * x) * (y * y)) : Nat) : ZMod p) = 0 := by
    constructor
    · intro h; rw [h]; simp
    · intro h
      exact natCast_inj_of_lt (subMod_lt hpos _ _) hpos (by simpa using h)
  rw [edOnCurve, beq_iff_eq, h2, h1, Edwards.On]
  push_cast
  constructor <;> intro h <;> linear_combination h

/-- Doubling, adding and the identity by the one law of R434. -/
theorem EdRep.add (two : (2 : ZMod p) ≠ 0) (he : (1 + d : ZMod p) ≠ 0) {i : ZMod p} (hi : i ^ 2 = -1)
    (hd : ¬IsSquare (d : ZMod p)) {v w : PointVal} {P Q : (Edwards.curve (d : ZMod p)).Point}
    (hv : EdRep p d v P) (hw : EdRep p d w Q) : EdRep p d (edAdd p d v w) (P + Q) := by
  have hpos := hp.out.pos
  cases hv with
  | @aff x1 y1 _ hx1 hy1 h1 =>
    cases hw with
    | @aff x2 y2 _ hx2 hy2 h2 =>
      have hsum := Edwards.corr_add two he hi hd h1 h2
      have ho1 := Edwards.corr_on two he h1
      have ho2 := Edwards.corr_on two he h2
      have hE := Edwards.one_add_cross_ne_zero two hi hd ho1 ho2
      have hDn := Edwards.one_sub_cross_ne_zero two hi hd ho1 ho2
      have hcross : (edCross p d x1 y1 x2 y2 : ZMod p) = Edwards.cross (d : ZMod p) x1 y1 x2 y2 := by
        rw [edCross, ZMod.natCast_mod, Edwards.cross]; push_cast; ring
      have hE' : ((1 + edCross p d x1 y1 x2 y2 : Nat) : ZMod p) ≠ 0 := by push_cast; rwa [hcross]
      have hD' : ((subMod p 1 (edCross p d x1 y1 x2 y2) : Nat) : ZMod p) ≠ 0 := by
        rw [subMod_cast hpos, hcross]; push_cast; exact hDn
      have hX : (((x1 * y2 + y1 * x2) * invMod p (1 + edCross p d x1 y1 x2 y2) % p : Nat) : ZMod p) =
          Edwards.sumX (d : ZMod p) x1 y1 x2 y2 := by
        rw [ZMod.natCast_mod, Nat.cast_mul, invMod_cast_eq hE', Edwards.sumX, div_eq_mul_inv]
        push_cast; rw [hcross]
      have hY : (((y1 * y2 + x1 * x2) * invMod p (subMod p 1 (edCross p d x1 y1 x2 y2)) % p : Nat) : ZMod p) =
          Edwards.sumY (d : ZMod p) x1 y1 x2 y2 := by
        rw [ZMod.natCast_mod, Nat.cast_mul, invMod_cast_eq hD', Edwards.sumY, div_eq_mul_inv, subMod_cast hpos, hcross]
        push_cast; rfl
      rw [← hX, ← hY] at hsum
      exact .aff (Nat.mod_lt _ hpos) (Nat.mod_lt _ hpos) hsum

theorem EdRep.neg {v : PointVal} {P : (Edwards.curve (d : ZMod p)).Point} (h : EdRep p d v P) :
    EdRep p d (edNeg p v) (-P) := by
  cases h with
  | @aff x y _ hx hy h =>
    refine .aff (Nat.mod_lt _ hp.out.pos) hy ?_
    have hc : (((p - x) % p : Nat) : ZMod p) = -(x : ZMod p) := by
      rw [ZMod.natCast_mod, Nat.cast_sub hx.le]; simp
    rw [hc]
    exact Edwards.corr_neg h

theorem EdRep.unique (two : (2 : ZMod p) ≠ 0) (he : (1 + d : ZMod p) ≠ 0) {v w : PointVal}
    {P : (Edwards.curve (d : ZMod p)).Point} (hv : EdRep p d v P) (hw : EdRep p d w P) : v = w := by
  cases hv with
  | @aff x1 y1 _ hx1 hy1 h1 =>
    cases hw with
    | @aff x2 y2 _ hx2 hy2 h2 =>
      have := Edwards.corr_unique two he h1 h2
      rw [natCast_inj_of_lt hx1 hx2 this.1, natCast_inj_of_lt hy1 hy2 this.2]

theorem EdRep.exists (two : (2 : ZMod p) ≠ 0) (he : (1 + d : ZMod p) ≠ 0) (hd : (d : ZMod p) ≠ 0) {x y : Nat}
    (hx : x < p) (hy : y < p) (h : edOnCurve p d (.aff x y) = true) : ∃ P, EdRep p d (.aff x y) P := by
  obtain ⟨P, hP⟩ := Edwards.corr_exists two he hd ((edOnCurve_aff_iff x y).1 h)
  exact ⟨P, .aff hx hy hP⟩

theorem EdRep.onCurve (two : (2 : ZMod p) ≠ 0) (he : (1 + d : ZMod p) ≠ 0) {v : PointVal}
    {P : (Edwards.curve (d : ZMod p)).Point} (hv : EdRep p d v P) : edOnCurve p d v = true := by
  cases hv with
  | @aff x1 y1 _ hx1 hy1 h1 =>
    exact (edOnCurve_aff_iff _ _).2 (Edwards.corr_on two he h1)

end Edwards

theorem ed_groupModel {c : Curve} (hc : c.isNist = false) [hp : Fact c.prime.Prime] (h1 : 1 < c.prime)
    (two : (2 : ZMod c.prime) ≠ 0) (he : (1 + c.coeff : ZMod c.prime) ≠ 0) {i : ZMod c.prime} (hi : i ^ 2 = -1)
    (hd : ¬IsSquare (c.coeff : ZMod c.prime)) :
    GroupModel c (Edwards.curve (c.coeff : ZMod c.prime)).Point (EdRep c.prime c.coeff) where
  unique := EdRep.unique two he
  exists_of_wellFormed := by
    intro v hw hdom
    simp only [Curve.wellFormed, hc] at hw
    rcases (c.inDomain_iff v).1 hdom with h | ⟨x, y, rfl, hx, hy⟩
    · simp [hc] at h
    · exact EdRep.exists two he (fun h => hd (by rw [h]; exact ⟨0, by ring⟩)) hx hy hw
  wellFormed := by
    intro v P h
    simp only [Curve.wellFormed, hc]
    exact h.onCurve two he
  inDomain := by
    intro v P h
    rw [Curve.inDomain_iff]
    cases h with
    | aff hx hy h => exact .inr ⟨_, _, rfl, hx, hy⟩
  identity := by
    simp only [Curve.identity, hc]
    refine .aff (by omega) h1 ?_
    simpa using Edwards.Corr.zero
  add := by
    intro v w P Q hv hw
    simp only [Curve.add, hc]
    exact hv.add two he hi hd hw
  neg := by
    intro v P hv
    simp only [Curve.neg, hc]
    exact hv.neg

/-! ### Every curve -/

theorem Curve.two_lt_prime (c : Curve) : 2 < c.prime := by cases c <;> decide

/-- The curve of each NIST identifier is not singular (R332). -/
theorem nist_disc_ne_zero (c : Curve) (hc : c.isNist = true) : (nistCurve c.prime c.coeff).Δ ≠ 0 := by
  refine nistCurve_disc _ _ ?_ (by have := c.two_lt_prime; omega)
  cases c
  · decide +kernel
  · decide +kernel
  · decide +kernel
  · simp [Curve.isNist] at hc
  · simp [Curve.isNist] at hc

/-- 2 is not a square mod 2^255 − 19: 2^((p−1)/2) = −1, so 2^((p−1)/4) is a root of −1. -/
theorem ed_two_pow_half : powMod (2 ^ 255 - 19) 2 ((2 ^ 255 - 19 - 1) / 2) = 2 ^ 255 - 19 - 1 := by decide +kernel

/-- d is not a square mod 2^255 − 19, by Euler's criterion (R435). -/
theorem ed_coeff_pow_half :
    powMod (2 ^ 255 - 19) 0x52036CEE2B6FFE738CC740797779E89800700A4D4141D8AB75EB4DCA135978A3 ((2 ^ 255 - 19) / 2) =
      2 ^ 255 - 19 - 1 := by decide +kernel

theorem cast_pow_of_powMod {m a e r : Nat} (h : powMod m a e = r) : (a : ZMod m) ^ e = r := by
  have h1 : ((a ^ e % m : Nat) : ZMod m) = r := by rw [← powMod_eq, h]
  rwa [ZMod.natCast_mod, Nat.cast_pow] at h1

theorem cast_pred {m : Nat} (hm : 0 < m) : ((m - 1 : Nat) : ZMod m) = -1 := by
  rw [Nat.cast_sub (show 1 ≤ m from hm)]; simp

/-- The well-formed values of each curve are a commutative group (R336). -/
theorem Curve.exists_groupModel (c : Curve) :
    ∃ (G : Type) (_ : AddCommGroup G) (R : PointVal → G → Prop), GroupModel c G R := by
  have hp := c.prime_prime
  have : Fact c.prime.Prime := ⟨hp⟩
  have two := two_ne_zero_of_odd c.two_lt_prime
  have ed : c.isNist = false → c.prime = 2 ^ 255 - 19 →
      c.coeff = 0x52036CEE2B6FFE738CC740797779E89800700A4D4141D8AB75EB4DCA135978A3 →
      ∃ (G : Type) (_ : AddCommGroup G) (R : PointVal → G → Prop), GroupModel c G R := by
    intro hc hprime hcoeff
    have hpos : 0 < c.prime := hp.pos
    have hroot : (((2 : Nat) : ZMod c.prime) ^ ((c.prime - 1) / 4)) ^ 2 = -1 := by
      rw [← pow_mul, ← cast_pred hpos]
      apply cast_pow_of_powMod
      rw [hprime]
      exact ed_two_pow_half
    have hne : (1 + c.coeff : ZMod c.prime) ≠ 0 := by
      intro h
      have h1 : ((1 + c.coeff : Nat) : ZMod c.prime) = 0 := by push_cast; exact h
      rw [ZMod.natCast_eq_zero_iff, hprime, hcoeff] at h1
      exact absurd h1 (by decide +kernel)
    have hd0 : (c.coeff : ZMod c.prime) ≠ 0 := by
      intro h
      rw [ZMod.natCast_eq_zero_iff, hprime, hcoeff] at h
      exact absurd h (by decide +kernel)
    have hsq : ¬IsSquare (c.coeff : ZMod c.prime) := by
      rw [ZMod.euler_criterion _ hd0]
      have h1 : (c.coeff : ZMod c.prime) ^ (c.prime / 2) = -1 := by
        rw [← cast_pred hpos]
        apply cast_pow_of_powMod
        rw [hprime, hcoeff]
        exact ed_coeff_pow_half
      rw [h1]
      intro h2
      apply two
      linear_combination -h2
    exact ⟨_, _, _, ed_groupModel hc (by have := c.two_lt_prime; omega) two hne hroot hsq⟩
  cases hcn : c.isNist
  · cases c
    · simp [Curve.isNist] at hcn
    · simp [Curve.isNist] at hcn
    · simp [Curve.isNist] at hcn
    · exact ed hcn rfl rfl
    · exact ed hcn rfl rfl
  · exact ⟨_, _, _, nist_groupModel hcn (nist_disc_ne_zero c hcn) two⟩

namespace GroupModel

variable {c : Curve} {G : Type} [AddCommGroup G] {R : PointVal → G → Prop}

/-- Doubling and adding over the low bits of the scalar stands for that multiple of the point. -/
theorem mulBits (h : GroupModel c G R) {v : PointVal} {P : G} (hv : R v P) (f k : Nat) (hk : k < 2 ^ f) :
    R (c.mulBits v f k) (k • P) := by
  induction f generalizing k with
  | zero =>
    have : k = 0 := by simpa using hk
    subst this
    rw [zero_smul]
    exact h.identity
  | succ f ih =>
    have hq := ih (k / 2) (by rw [pow_succ] at hk; omega)
    have h2 := h.add hq hq
    simp only [Curve.mulBits]
    split
    · next ho =>
      have h3 := h.add h2 hv
      have : (k / 2) • P + (k / 2) • P + P = k • P := by
        rw [← two_nsmul, ← mul_nsmul', ← succ_nsmul]
        congr 1; omega
      rwa [this] at h3
    · next ho =>
      have : (k / 2) • P + (k / 2) • P = k • P := by
        rw [← two_nsmul, ← mul_nsmul']
        congr 1; omega
      rwa [this] at h2

/-- The k-fold sum of R336 stands for the multiple of the point. -/
theorem kFold (h : GroupModel c G R) {v : PointVal} {P : G} (hv : R v P) (k : Nat) : R (c.kFold v k) (k • P) := by
  induction k with
  | zero => rw [zero_smul]; exact h.identity
  | succ k ih => rw [succ_nsmul]; exact h.add ih hv

end GroupModel

section Group

variable {c : Curve}

/-- Doubling and adding computes the k-fold sum of a well-formed value (R336, log entry 10). -/
theorem Curve.mul_eq_kFold {v : PointVal} (hw : c.wellFormed v = true) (hd : c.inDomain v = true) (k : Nat) :
    c.mul k v = c.kFold v k := by
  obtain ⟨G, _, R, h⟩ := c.exists_groupModel
  obtain ⟨P, hP⟩ := h.exists_of_wellFormed hw hd
  exact h.unique (h.mulBits hP _ _ (lt_two_pow_bitlen k)) (h.kFold hP k)

/-- The sum of well-formed values is well formed. -/
theorem Curve.wellFormed_add {v w : PointVal} (hv : c.wellFormed v = true) (hvd : c.inDomain v = true)
    (hw : c.wellFormed w = true) (hwd : c.inDomain w = true) :
    c.wellFormed (c.add v w) = true ∧ c.inDomain (c.add v w) = true := by
  obtain ⟨G, _, R, h⟩ := c.exists_groupModel
  obtain ⟨P, hP⟩ := h.exists_of_wellFormed hv hvd
  obtain ⟨Q, hQ⟩ := h.exists_of_wellFormed hw hwd
  exact ⟨h.wellFormed (h.add hP hQ), h.inDomain (h.add hP hQ)⟩

theorem Curve.sum_comm {v w : PointVal} (hv : c.wellFormed v = true) (hvd : c.inDomain v = true)
    (hw : c.wellFormed w = true) (hwd : c.inDomain w = true) : c.add v w = c.add w v := by
  obtain ⟨G, _, R, h⟩ := c.exists_groupModel
  obtain ⟨P, hP⟩ := h.exists_of_wellFormed hv hvd
  obtain ⟨Q, hQ⟩ := h.exists_of_wellFormed hw hwd
  have h1 := h.add hP hQ
  rw [add_comm] at h1
  exact h.unique h1 (h.add hQ hP)

theorem Curve.sum_assoc {u v w : PointVal} (hu : c.wellFormed u = true) (hud : c.inDomain u = true)
    (hv : c.wellFormed v = true) (hvd : c.inDomain v = true) (hw : c.wellFormed w = true)
    (hwd : c.inDomain w = true) : c.add (c.add u v) w = c.add u (c.add v w) := by
  obtain ⟨G, _, R, h⟩ := c.exists_groupModel
  obtain ⟨O, hO⟩ := h.exists_of_wellFormed hu hud
  obtain ⟨P, hP⟩ := h.exists_of_wellFormed hv hvd
  obtain ⟨Q, hQ⟩ := h.exists_of_wellFormed hw hwd
  have h1 := h.add (h.add hO hP) hQ
  rw [add_assoc] at h1
  exact h.unique h1 (h.add hO (h.add hP hQ))

/-- A value and its negation sum to the identity. -/
theorem Curve.sum_neg {v : PointVal} (hv : c.wellFormed v = true) (hvd : c.inDomain v = true) :
    c.add v (c.neg v) = c.identity := by
  obtain ⟨G, _, R, h⟩ := c.exists_groupModel
  obtain ⟨P, hP⟩ := h.exists_of_wellFormed hv hvd
  have h1 := h.add hP (h.neg hP)
  rw [add_neg_cancel] at h1
  exact h.unique h1 h.identity

end Group

end Sys2Proof.Machine
end

