-- ==== Sys2Proof/Laws/Decode.lean ====
section
/-! SUPPORT. The fields of a word built from its fields (spec/30_encoding.md R111), one lemma a field. -/

namespace Sys2Proof

theorem packWord_toNat {op a b c d i : Nat} (ho : op < 256) (ha : a < 16) (hb : b < 16) (hc : c < 16) (hd : d < 16)
    (hi : i < 256) :
    (packWord op a b c d i).toNat = op * 2 ^ 24 + a * 2 ^ 20 + b * 2 ^ 16 + c * 2 ^ 12 + d * 2 ^ 8 + i := by
  simp only [packWord, BitVec.toNat_ofNat]; omega

section Fields

variable {op a b c d i : Nat} (ho : op < 256) (ha : a < 16) (hb : b < 16) (hc : c < 16) (hd : d < 16) (hi : i < 256)

include ho ha hb hc hd hi

theorem fieldOp_packWord : fieldOp (packWord op a b c d i) = op := by
  simp only [fieldOp, packWord_toNat ho ha hb hc hd hi]; omega

theorem fieldA_packWord : (fieldA (packWord op a b c d i)).val = a := by
  simp only [fieldA, packWord_toNat ho ha hb hc hd hi]; omega

theorem fieldB_packWord : (fieldB (packWord op a b c d i)).val = b := by
  simp only [fieldB, packWord_toNat ho ha hb hc hd hi]; omega

theorem fieldC_packWord : (fieldC (packWord op a b c d i)).val = c := by
  simp only [fieldC, packWord_toNat ho ha hb hc hd hi]; omega

theorem fieldD_packWord : (fieldD (packWord op a b c d i)).val = d := by
  simp only [fieldD, packWord_toNat ho ha hb hc hd hi]; omega

theorem fieldI_packWord : (fieldI (packWord op a b c d i)).val = i := by
  simp only [fieldI, packWord_toNat ho ha hb hc hd hi]; omega

theorem fieldL_packWord : (fieldL (packWord op a b c d i)).val = 16 * c + d := by
  simp only [fieldL, packWord_toNat ho ha hb hc hd hi]; omega

theorem fieldX_packWord : (fieldX (packWord op a b c d i)).val = 256 * d + i := by
  simp only [fieldX, packWord_toNat ho ha hb hc hd hi]; omega

end Fields

/-- A word is its fields put together: no bit is outside them (R111). -/
theorem packWord_fields (w : Word) :
    packWord (fieldOp w) (fieldA w) (fieldB w) (fieldC w) (fieldD w) (fieldI w) = w := by
  apply BitVec.eq_of_toNat_eq
  have := w.isLt
  simp only [packWord, fieldOp, fieldA, fieldB, fieldC, fieldD, fieldI, BitVec.toNat_ofNat]
  omega

end Sys2Proof
end

