-- ==== Sys2Proof/Laws/Memory.lean ====
section
/-! SUPPORT. The laws of DBUF: a read after a write, and that every operation keeps the canonical form. -/

namespace Sys2Proof.Machine

@[simp] theorem Memory.read_nil (k : Nat) : Memory.read [] k = Memory.unlisted := rfl

/-- Below the first listed address every byte is unlisted. -/
theorem Memory.read_of_wfFrom {lo : Nat} {m : Memory} (h : Memory.wfFrom lo m = true) {k : Nat} (hk : k < lo) :
    Memory.read m k = Memory.unlisted := by
  induction m generalizing lo with
  | nil => rfl
  | cons e m ih =>
    obtain ⟨a, v⟩ := e
    simp [Memory.wfFrom] at h
    have hne : a ≠ k := by omega
    simp only [Memory.read, hne, if_false]
    exact ih h.2 (by omega)

theorem Memory.wfFrom_mono {lo lo' : Nat} {m : Memory} (h : Memory.wfFrom lo m = true) (hl : lo' ≤ lo) :
    Memory.wfFrom lo' m = true := by
  cases m with
  | nil => rfl
  | cons e m => simp [Memory.wfFrom] at h ⊢; exact ⟨⟨by omega, h.1.2⟩, h.2⟩

/-- A byte reads as the last byte written to it, and as before elsewhere. -/
theorem Memory.read_write {lo : Nat} {m : Memory} (h : Memory.wfFrom lo m = true) (k a : Nat) (b : Byte) :
    Memory.read (Memory.write m k b) a = if a = k then b else Memory.read m a := by
  induction m generalizing lo with
  | nil =>
    by_cases hak : a = k
    · subst hak; by_cases hb : b = Memory.unlisted <;> simp [Memory.write, Memory.read, hb]
    · by_cases hb : b = Memory.unlisted <;> simp [Memory.write, Memory.read, hb, hak, Ne.symm hak]
  | cons e m ih =>
    obtain ⟨x, v⟩ := e
    simp [Memory.wfFrom] at h
    have hbelow : ∀ z, z ≤ x → Memory.read m z = Memory.unlisted := fun z hz => Memory.read_of_wfFrom h.2 (by omega)
    simp only [Memory.write]
    by_cases hkx : k < x
    · rw [if_pos hkx]
      by_cases hak : a = k
      · subst hak
        have hne : x ≠ a := by omega
        by_cases hb : b = Memory.unlisted
        · simp [Memory.read, hne, hb, hbelow a (by omega)]
        · simp [Memory.read, hb]
      · by_cases hb : b = Memory.unlisted <;> simp [Memory.read, hb, hak, Ne.symm hak]
    · rw [if_neg hkx]
      by_cases hxe : k = x
      · subst hxe
        by_cases hak : a = k
        · subst hak
          by_cases hb : b = Memory.unlisted
          · simp [hb, hbelow a le_rfl]
          · simp [Memory.read, hb]
        · by_cases hb : b = Memory.unlisted <;> simp [Memory.read, hb, hak, Ne.symm hak]
      · rw [if_neg hxe]
        simp only [Memory.read, ih h.2]
        by_cases hxa : x = a
        · have hne : a ≠ k := by omega
          simp [hxa, hne]
        · simp [hxa]

/-- A write keeps the order and lists no unlisted byte. -/
theorem Memory.wfFrom_write {lo : Nat} {m : Memory} (h : Memory.wfFrom lo m = true) {k : Nat} (hk : lo ≤ k) (b : Byte) :
    Memory.wfFrom lo (Memory.write m k b) = true := by
  induction m generalizing lo with
  | nil => by_cases hb : b = Memory.unlisted <;> simp [Memory.write, Memory.wfFrom, hb, hk]
  | cons e m ih =>
    obtain ⟨x, v⟩ := e
    simp [Memory.wfFrom] at h
    obtain ⟨⟨hx, hv⟩, hm⟩ := h
    simp only [Memory.write]
    by_cases hkx : k < x
    · by_cases hb : b = Memory.unlisted
      · simp [hkx, hb, Memory.wfFrom, hx, hv, hm]
      · have hkx' : k + 1 ≤ x := hkx
        simp [hkx, hb, Memory.wfFrom, hv, hm, hk, hkx']
    · by_cases hxe : k = x
      · subst hxe
        by_cases hb : b = Memory.unlisted
        · simp [hb]; exact Memory.wfFrom_mono hm (by omega)
        · simp [hb, Memory.wfFrom, hk, hm]
      · have := ih hm (show x + 1 ≤ k by omega)
        simp [hkx, hxe, Memory.wfFrom, hx, hv, this]

/-- A write inside a bound keeps every address inside it. -/
theorem Memory.all_lt_write {n : Nat} {m : Memory} (h : m.all (fun e => decide (e.1 < n)) = true) {k : Nat} (hk : k < n)
    (b : Byte) : (Memory.write m k b).all (fun e => decide (e.1 < n)) = true := by
  induction m with
  | nil => by_cases hb : b = Memory.unlisted <;> simp [Memory.write, hb, hk]
  | cons e m ih =>
    obtain ⟨x, v⟩ := e
    simp only [List.all_cons, Bool.and_eq_true, decide_eq_true_eq] at h
    simp only [Memory.write]
    split_ifs <;> (try simp only [List.all_cons, Bool.and_eq_true, decide_eq_true_eq]) <;>
      first
      | exact h
      | exact h.2
      | exact ⟨hk, h⟩
      | exact ⟨hk, h.2⟩
      | exact ⟨h.1, ih h.2⟩

theorem Memory.wf_nil : Memory.wf [] = true := rfl

/-- A write inside DBUF keeps the canonical form. -/
theorem Memory.wf_write {m : Memory} (h : m.wf = true) {k : Nat} (hk : k < Config.dbufSize) (b : Byte) :
    (m.write k b).wf = true := by
  simp only [Memory.wf, Bool.and_eq_true] at h ⊢
  exact ⟨Memory.wfFrom_write h.1 (Nat.zero_le k) b, Memory.all_lt_write h.2 hk b⟩

/-- Bytes written inside DBUF keep the canonical form. -/
theorem Memory.wf_writeBytes {m : Memory} (h : m.wf = true) (off : Nat) (bs : List Byte)
    (hb : off + bs.length ≤ Config.dbufSize) : (m.writeBytes off bs).wf = true := by
  induction bs generalizing m off with
  | nil => exact h
  | cons b bs ih =>
    simp only [List.length_cons] at hb
    exact ih (Memory.wf_write h (by omega) b) _ (by omega)

/-- A byte after a write of bytes: the byte written, or the byte as before. -/
theorem Memory.read_writeBytes {m : Memory} (h : Memory.wfFrom 0 m = true) (off : Nat) (bs : List Byte) (a : Nat) :
    (m.writeBytes off bs).read a =
      if h' : off ≤ a ∧ a < off + bs.length then bs[a - off] else m.read a := by
  induction bs generalizing m off with
  | nil => simp [Memory.writeBytes]
  | cons b bs ih =>
    simp only [Memory.writeBytes]
    rw [ih (Memory.wfFrom_write h (Nat.zero_le off) b), Memory.read_write h]
    by_cases h1 : a = off
    · subst h1; simp
    · by_cases h2 : off + 1 ≤ a ∧ a < off + 1 + bs.length
      · have h3 : off ≤ a ∧ a < off + (b :: bs).length := by simp; omega
        rw [dif_pos h2, dif_pos h3]
        have h4 : a - off = (a - (off + 1)) + 1 := by omega
        simp [h4]
      · have h3 : ¬(off ≤ a ∧ a < off + (b :: bs).length) := by simp; omega
        rw [dif_neg h2, dif_neg h3, if_neg h1]

/-- Outside the bytes written every byte reads as before. -/
theorem Memory.read_writeBytes_outside {m : Memory} (h : Memory.wfFrom 0 m = true) {off : Nat} {bs : List Byte} {a : Nat}
    (ha : a < off ∨ off + bs.length ≤ a) : (m.writeBytes off bs).read a = m.read a := by
  rw [Memory.read_writeBytes h, dif_neg (by omega)]

theorem Memory.wfFrom_of_wf {m : Memory} (h : m.wf = true) : Memory.wfFrom 0 m = true := by
  simp [Memory.wf] at h; exact h.1

@[simp] theorem Memory.readBytes_length (m : Memory) (off n : Nat) : (m.readBytes off n).length = n := by
  induction n generalizing off with
  | zero => rfl
  | succ n ih => simp [Memory.readBytes, ih]

theorem Memory.readBytes_getElem (m : Memory) (off n j : Nat) (h : j < (m.readBytes off n).length) :
    (m.readBytes off n)[j] = m.read (off + j) := by
  induction n generalizing off j with
  | zero => simp [Memory.readBytes] at h
  | succ n ih =>
    cases j with
    | zero => simp [Memory.readBytes]
    | succ j => simp only [Memory.readBytes, List.getElem_cons_succ]; rw [ih]; congr 1; omega

/-- Bytes read back where they were written. -/
theorem Memory.readBytes_writeBytes {m : Memory} (h : Memory.wfFrom 0 m = true) (off : Nat) (bs : List Byte) :
    (m.writeBytes off bs).readBytes off bs.length = bs := by
  apply List.ext_getElem
  · simp
  · intro j h1 h2
    rw [Memory.readBytes_getElem, Memory.read_writeBytes h, dif_pos (by omega)]
    simp

/-- Equal memories are equal data: two canonical lists that read alike are the same. -/
theorem Memory.ext_of_wfFrom {lo : Nat} {m n : Memory} (hm : Memory.wfFrom lo m = true) (hn : Memory.wfFrom lo n = true)
    (h : ∀ a, Memory.read m a = Memory.read n a) : m = n := by
  induction m generalizing lo n with
  | nil =>
    cases n with
    | nil => rfl
    | cons e n =>
      obtain ⟨x, v⟩ := e
      simp [Memory.wfFrom] at hn
      exact absurd (by simpa [Memory.read] using (h x).symm) hn.1.2
  | cons e m ih =>
    obtain ⟨x, v⟩ := e
    cases n with
    | nil =>
      simp [Memory.wfFrom] at hm
      exact absurd (by simpa [Memory.read] using h x) hm.1.2
    | cons e' n =>
      obtain ⟨y, w⟩ := e'
      simp [Memory.wfFrom] at hm hn
      have hx := h x
      have hy := h y
      have hxy : x = y := by
        rcases Nat.lt_trichotomy x y with hlt | heq | hgt
        · exfalso
          have : Memory.read n x = Memory.unlisted := Memory.read_of_wfFrom hn.2 (by omega)
          simp [Memory.read, show y ≠ x by omega, this] at hx
          exact hm.1.2 hx
        · exact heq
        · exfalso
          have : Memory.read m y = Memory.unlisted := Memory.read_of_wfFrom hm.2 (by omega)
          simp [Memory.read, show x ≠ y by omega, this] at hy
          exact hn.1.2 hy.symm
      subst hxy
      have hv : v = w := by simpa [Memory.read] using hx
      subst hv
      congr 1
      refine ih hm.2 hn.2 (fun a => ?_)
      by_cases ha : a = x
      · subst ha
        rw [Memory.read_of_wfFrom hm.2 (by omega), Memory.read_of_wfFrom hn.2 (by omega)]
      · have := h a
        simpa [Memory.read, Ne.symm ha] using this

end Sys2Proof.Machine
end

