-- ==== Sys2Proof/Laws/State.lean ====
section
/-! SUPPORT. One lemma per field and named update of the state, and the registers read back after each update. No
later proof unfolds a record update. -/

namespace Sys2Proof.Machine

/-! ### Fields after an update (each by `rfl`) -/

section Fields

variable (s : State)

@[simp] theorem State.writeB_bn (i : BnNum) (n : BigNum) : (s.writeB i n).bn = s.bn.set i { written := true, num := n } := rfl
@[simp] theorem State.writeB_pt (i : BnNum) (n : BigNum) : (s.writeB i n).pt = s.pt := rfl
@[simp] theorem State.writeB_owner (i : BnNum) (n : BigNum) : (s.writeB i n).owner = s.owner := rfl
@[simp] theorem State.writeB_flags (i : BnNum) (n : BigNum) : (s.writeB i n).flags = s.flags := rfl
@[simp] theorem State.writeB_dbuf (i : BnNum) (n : BigNum) : (s.writeB i n).dbuf = s.dbuf := rfl
@[simp] theorem State.writeB_seq (i : BnNum) (n : BigNum) : (s.writeB i n).seq = s.seq := rfl
@[simp] theorem State.writeB_cmdReg (i : BnNum) (n : BigNum) : (s.writeB i n).cmdReg = s.cmdReg := rfl
@[simp] theorem State.writeB_ctrl (i : BnNum) (n : BigNum) : (s.writeB i n).ctrl = s.ctrl := rfl
@[simp] theorem State.writeB_status (i : BnNum) (n : BigNum) : (s.writeB i n).status = s.status := rfl
@[simp] theorem State.writeB_res (i : BnNum) (n : BigNum) : (s.writeB i n).res = s.res := rfl
@[simp] theorem State.writeB_argLo (i : BnNum) (n : BigNum) : (s.writeB i n).argLo = s.argLo := rfl
@[simp] theorem State.writeB_argHi (i : BnNum) (n : BigNum) : (s.writeB i n).argHi = s.argHi := rfl
@[simp] theorem State.writeB_errCmd (i : BnNum) (n : BigNum) : (s.writeB i n).errCmd = s.errCmd := rfl
@[simp] theorem State.writeB_cmdCnt (i : BnNum) (n : BigNum) : (s.writeB i n).cmdCnt = s.cmdCnt := rfl
@[simp] theorem State.writeB_hostIn (i : BnNum) (n : BigNum) : (s.writeB i n).hostIn = s.hostIn := rfl
@[simp] theorem State.writeB_hostOut (i : BnNum) (n : BigNum) : (s.writeB i n).hostOut = s.hostOut := rfl
@[simp] theorem State.writeB_draws (i : BnNum) (n : BigNum) : (s.writeB i n).draws = s.draws := rfl

@[simp] theorem State.setTab_bn (i : PtNum) (t : Option (Fin 4)) : (s.setTab i t).bn = s.bn := rfl
@[simp] theorem State.setTab_pt (i : PtNum) (t : Option (Fin 4)) : (s.setTab i t).pt = s.pt.set i { s.p i with tab := t } := rfl
@[simp] theorem State.setTab_owner (i : PtNum) (t : Option (Fin 4)) : (s.setTab i t).owner = s.owner := rfl
@[simp] theorem State.setTab_flags (i : PtNum) (t : Option (Fin 4)) : (s.setTab i t).flags = s.flags := rfl
@[simp] theorem State.setTab_dbuf (i : PtNum) (t : Option (Fin 4)) : (s.setTab i t).dbuf = s.dbuf := rfl
@[simp] theorem State.setTab_seq (i : PtNum) (t : Option (Fin 4)) : (s.setTab i t).seq = s.seq := rfl
@[simp] theorem State.setTab_cmdReg (i : PtNum) (t : Option (Fin 4)) : (s.setTab i t).cmdReg = s.cmdReg := rfl
@[simp] theorem State.setTab_ctrl (i : PtNum) (t : Option (Fin 4)) : (s.setTab i t).ctrl = s.ctrl := rfl
@[simp] theorem State.setTab_status (i : PtNum) (t : Option (Fin 4)) : (s.setTab i t).status = s.status := rfl
@[simp] theorem State.setTab_res (i : PtNum) (t : Option (Fin 4)) : (s.setTab i t).res = s.res := rfl
@[simp] theorem State.setTab_argLo (i : PtNum) (t : Option (Fin 4)) : (s.setTab i t).argLo = s.argLo := rfl
@[simp] theorem State.setTab_argHi (i : PtNum) (t : Option (Fin 4)) : (s.setTab i t).argHi = s.argHi := rfl
@[simp] theorem State.setTab_errCmd (i : PtNum) (t : Option (Fin 4)) : (s.setTab i t).errCmd = s.errCmd := rfl
@[simp] theorem State.setTab_cmdCnt (i : PtNum) (t : Option (Fin 4)) : (s.setTab i t).cmdCnt = s.cmdCnt := rfl
@[simp] theorem State.setTab_hostIn (i : PtNum) (t : Option (Fin 4)) : (s.setTab i t).hostIn = s.hostIn := rfl
@[simp] theorem State.setTab_hostOut (i : PtNum) (t : Option (Fin 4)) : (s.setTab i t).hostOut = s.hostOut := rfl
@[simp] theorem State.setTab_draws (i : PtNum) (t : Option (Fin 4)) : (s.setTab i t).draws = s.draws := rfl

@[simp] theorem State.setOwner_bn (t : Fin 4) (q : Option PtNum) : (s.setOwner t q).bn = s.bn := rfl
@[simp] theorem State.setOwner_pt (t : Fin 4) (q : Option PtNum) : (s.setOwner t q).pt = s.pt := rfl
@[simp] theorem State.setOwner_owner (t : Fin 4) (q : Option PtNum) : (s.setOwner t q).owner = s.owner.set t q := rfl
@[simp] theorem State.setOwner_flags (t : Fin 4) (q : Option PtNum) : (s.setOwner t q).flags = s.flags := rfl
@[simp] theorem State.setOwner_dbuf (t : Fin 4) (q : Option PtNum) : (s.setOwner t q).dbuf = s.dbuf := rfl
@[simp] theorem State.setOwner_seq (t : Fin 4) (q : Option PtNum) : (s.setOwner t q).seq = s.seq := rfl
@[simp] theorem State.setOwner_cmdReg (t : Fin 4) (q : Option PtNum) : (s.setOwner t q).cmdReg = s.cmdReg := rfl
@[simp] theorem State.setOwner_ctrl (t : Fin 4) (q : Option PtNum) : (s.setOwner t q).ctrl = s.ctrl := rfl
@[simp] theorem State.setOwner_status (t : Fin 4) (q : Option PtNum) : (s.setOwner t q).status = s.status := rfl
@[simp] theorem State.setOwner_res (t : Fin 4) (q : Option PtNum) : (s.setOwner t q).res = s.res := rfl
@[simp] theorem State.setOwner_argLo (t : Fin 4) (q : Option PtNum) : (s.setOwner t q).argLo = s.argLo := rfl
@[simp] theorem State.setOwner_argHi (t : Fin 4) (q : Option PtNum) : (s.setOwner t q).argHi = s.argHi := rfl
@[simp] theorem State.setOwner_errCmd (t : Fin 4) (q : Option PtNum) : (s.setOwner t q).errCmd = s.errCmd := rfl
@[simp] theorem State.setOwner_cmdCnt (t : Fin 4) (q : Option PtNum) : (s.setOwner t q).cmdCnt = s.cmdCnt := rfl
@[simp] theorem State.setOwner_hostIn (t : Fin 4) (q : Option PtNum) : (s.setOwner t q).hostIn = s.hostIn := rfl
@[simp] theorem State.setOwner_hostOut (t : Fin 4) (q : Option PtNum) : (s.setOwner t q).hostOut = s.hostOut := rfl
@[simp] theorem State.setOwner_draws (t : Fin 4) (q : Option PtNum) : (s.setOwner t q).draws = s.draws := rfl

@[simp] theorem State.setC_bn (c : Bool) : (s.setC c).bn = s.bn := rfl
@[simp] theorem State.setC_pt (c : Bool) : (s.setC c).pt = s.pt := rfl
@[simp] theorem State.setC_owner (c : Bool) : (s.setC c).owner = s.owner := rfl
@[simp] theorem State.setC_flags (c : Bool) : (s.setC c).flags = { s.flags with c := c } := rfl
@[simp] theorem State.setC_dbuf (c : Bool) : (s.setC c).dbuf = s.dbuf := rfl
@[simp] theorem State.setC_seq (c : Bool) : (s.setC c).seq = s.seq := rfl
@[simp] theorem State.setC_cmdReg (c : Bool) : (s.setC c).cmdReg = s.cmdReg := rfl
@[simp] theorem State.setC_ctrl (c : Bool) : (s.setC c).ctrl = s.ctrl := rfl
@[simp] theorem State.setC_status (c : Bool) : (s.setC c).status = s.status := rfl
@[simp] theorem State.setC_res (c : Bool) : (s.setC c).res = s.res := rfl
@[simp] theorem State.setC_argLo (c : Bool) : (s.setC c).argLo = s.argLo := rfl
@[simp] theorem State.setC_argHi (c : Bool) : (s.setC c).argHi = s.argHi := rfl
@[simp] theorem State.setC_errCmd (c : Bool) : (s.setC c).errCmd = s.errCmd := rfl
@[simp] theorem State.setC_cmdCnt (c : Bool) : (s.setC c).cmdCnt = s.cmdCnt := rfl
@[simp] theorem State.setC_hostIn (c : Bool) : (s.setC c).hostIn = s.hostIn := rfl
@[simp] theorem State.setC_hostOut (c : Bool) : (s.setC c).hostOut = s.hostOut := rfl
@[simp] theorem State.setC_draws (c : Bool) : (s.setC c).draws = s.draws := rfl

@[simp] theorem State.setCmp_bn (r : CmpSign) : (s.setCmp r).bn = s.bn := rfl
@[simp] theorem State.setCmp_pt (r : CmpSign) : (s.setCmp r).pt = s.pt := rfl
@[simp] theorem State.setCmp_owner (r : CmpSign) : (s.setCmp r).owner = s.owner := rfl
@[simp] theorem State.setCmp_flags (r : CmpSign) : (s.setCmp r).flags = { s.flags with cmp := r } := rfl
@[simp] theorem State.setCmp_dbuf (r : CmpSign) : (s.setCmp r).dbuf = s.dbuf := rfl
@[simp] theorem State.setCmp_seq (r : CmpSign) : (s.setCmp r).seq = s.seq := rfl
@[simp] theorem State.setCmp_cmdReg (r : CmpSign) : (s.setCmp r).cmdReg = s.cmdReg := rfl
@[simp] theorem State.setCmp_ctrl (r : CmpSign) : (s.setCmp r).ctrl = s.ctrl := rfl
@[simp] theorem State.setCmp_status (r : CmpSign) : (s.setCmp r).status = s.status := rfl
@[simp] theorem State.setCmp_res (r : CmpSign) : (s.setCmp r).res = s.res := rfl
@[simp] theorem State.setCmp_argLo (r : CmpSign) : (s.setCmp r).argLo = s.argLo := rfl
@[simp] theorem State.setCmp_argHi (r : CmpSign) : (s.setCmp r).argHi = s.argHi := rfl
@[simp] theorem State.setCmp_errCmd (r : CmpSign) : (s.setCmp r).errCmd = s.errCmd := rfl
@[simp] theorem State.setCmp_cmdCnt (r : CmpSign) : (s.setCmp r).cmdCnt = s.cmdCnt := rfl
@[simp] theorem State.setCmp_hostIn (r : CmpSign) : (s.setCmp r).hostIn = s.hostIn := rfl
@[simp] theorem State.setCmp_hostOut (r : CmpSign) : (s.setCmp r).hostOut = s.hostOut := rfl
@[simp] theorem State.setCmp_draws (r : CmpSign) : (s.setCmp r).draws = s.draws := rfl

@[simp] theorem State.setRes_bn (n : Nat) : (s.setRes n).bn = s.bn := rfl
@[simp] theorem State.setRes_pt (n : Nat) : (s.setRes n).pt = s.pt := rfl
@[simp] theorem State.setRes_owner (n : Nat) : (s.setRes n).owner = s.owner := rfl
@[simp] theorem State.setRes_flags (n : Nat) : (s.setRes n).flags = s.flags := rfl
@[simp] theorem State.setRes_dbuf (n : Nat) : (s.setRes n).dbuf = s.dbuf := rfl
@[simp] theorem State.setRes_seq (n : Nat) : (s.setRes n).seq = s.seq := rfl
@[simp] theorem State.setRes_cmdReg (n : Nat) : (s.setRes n).cmdReg = s.cmdReg := rfl
@[simp] theorem State.setRes_ctrl (n : Nat) : (s.setRes n).ctrl = s.ctrl := rfl
@[simp] theorem State.setRes_status (n : Nat) : (s.setRes n).status = s.status := rfl
@[simp] theorem State.setRes_res (n : Nat) : (s.setRes n).res = BitVec.ofNat 32 n := rfl
@[simp] theorem State.setRes_argLo (n : Nat) : (s.setRes n).argLo = s.argLo := rfl
@[simp] theorem State.setRes_argHi (n : Nat) : (s.setRes n).argHi = s.argHi := rfl
@[simp] theorem State.setRes_errCmd (n : Nat) : (s.setRes n).errCmd = s.errCmd := rfl
@[simp] theorem State.setRes_cmdCnt (n : Nat) : (s.setRes n).cmdCnt = s.cmdCnt := rfl
@[simp] theorem State.setRes_hostIn (n : Nat) : (s.setRes n).hostIn = s.hostIn := rfl
@[simp] theorem State.setRes_hostOut (n : Nat) : (s.setRes n).hostOut = s.hostOut := rfl
@[simp] theorem State.setRes_draws (n : Nat) : (s.setRes n).draws = s.draws := rfl

@[simp] theorem State.errorEntry_bn (e : CmdError) : (s.errorEntry e).bn = s.bn := rfl
@[simp] theorem State.errorEntry_pt (e : CmdError) : (s.errorEntry e).pt = s.pt := rfl
@[simp] theorem State.errorEntry_owner (e : CmdError) : (s.errorEntry e).owner = s.owner := rfl
@[simp] theorem State.errorEntry_flags (e : CmdError) : (s.errorEntry e).flags = s.flags := rfl
@[simp] theorem State.errorEntry_dbuf (e : CmdError) : (s.errorEntry e).dbuf = s.dbuf := rfl
@[simp] theorem State.errorEntry_seq (e : CmdError) : (s.errorEntry e).seq = .idle := rfl
@[simp] theorem State.errorEntry_cmdReg (e : CmdError) : (s.errorEntry e).cmdReg = s.cmdReg := rfl
@[simp] theorem State.errorEntry_ctrl (e : CmdError) : (s.errorEntry e).ctrl = s.ctrl := rfl
@[simp] theorem State.errorEntry_status (e : CmdError) : (s.errorEntry e).status = { s.status with err := true, errCode := e.code } := rfl
@[simp] theorem State.errorEntry_res (e : CmdError) : (s.errorEntry e).res = s.res := rfl
@[simp] theorem State.errorEntry_argLo (e : CmdError) : (s.errorEntry e).argLo = s.argLo := rfl
@[simp] theorem State.errorEntry_argHi (e : CmdError) : (s.errorEntry e).argHi = s.argHi := rfl
@[simp] theorem State.errorEntry_errCmd (e : CmdError) : (s.errorEntry e).errCmd = s.cmdReg := rfl
@[simp] theorem State.errorEntry_cmdCnt (e : CmdError) : (s.errorEntry e).cmdCnt = s.cmdCnt := rfl
@[simp] theorem State.errorEntry_hostIn (e : CmdError) : (s.errorEntry e).hostIn = s.hostIn := rfl
@[simp] theorem State.errorEntry_hostOut (e : CmdError) : (s.errorEntry e).hostOut = s.hostOut := rfl
@[simp] theorem State.errorEntry_draws (e : CmdError) : (s.errorEntry e).draws = s.draws := rfl

@[simp] theorem State.completed_bn : (s.completed).bn = s.bn := rfl
@[simp] theorem State.completed_pt : (s.completed).pt = s.pt := rfl
@[simp] theorem State.completed_owner : (s.completed).owner = s.owner := rfl
@[simp] theorem State.completed_flags : (s.completed).flags = s.flags := rfl
@[simp] theorem State.completed_dbuf : (s.completed).dbuf = s.dbuf := rfl
@[simp] theorem State.completed_seq : (s.completed).seq = .idle := rfl
@[simp] theorem State.completed_cmdReg : (s.completed).cmdReg = s.cmdReg := rfl
@[simp] theorem State.completed_ctrl : (s.completed).ctrl = s.ctrl := rfl
@[simp] theorem State.completed_status : (s.completed).status = { s.status with done := true } := rfl
@[simp] theorem State.completed_res : (s.completed).res = s.res := rfl
@[simp] theorem State.completed_argLo : (s.completed).argLo = s.argLo := rfl
@[simp] theorem State.completed_argHi : (s.completed).argHi = s.argHi := rfl
@[simp] theorem State.completed_errCmd : (s.completed).errCmd = s.errCmd := rfl
@[simp] theorem State.completed_cmdCnt : (s.completed).cmdCnt = s.cmdCnt + 1 := rfl
@[simp] theorem State.completed_hostIn : (s.completed).hostIn = s.hostIn := rfl
@[simp] theorem State.completed_hostOut : (s.completed).hostOut = s.hostOut := rfl
@[simp] theorem State.completed_draws : (s.completed).draws = s.draws := rfl

@[simp] theorem State.clearError_bn : (s.clearError).bn = s.bn := rfl
@[simp] theorem State.clearError_pt : (s.clearError).pt = s.pt := rfl
@[simp] theorem State.clearError_owner : (s.clearError).owner = s.owner := rfl
@[simp] theorem State.clearError_flags : (s.clearError).flags = s.flags := rfl
@[simp] theorem State.clearError_dbuf : (s.clearError).dbuf = s.dbuf := rfl
@[simp] theorem State.clearError_seq : (s.clearError).seq = s.seq := rfl
@[simp] theorem State.clearError_cmdReg : (s.clearError).cmdReg = s.cmdReg := rfl
@[simp] theorem State.clearError_ctrl : (s.clearError).ctrl = s.ctrl := rfl
@[simp] theorem State.clearError_status : (s.clearError).status = { s.status with err := false, errCode := 0 } := rfl
@[simp] theorem State.clearError_res : (s.clearError).res = s.res := rfl
@[simp] theorem State.clearError_argLo : (s.clearError).argLo = s.argLo := rfl
@[simp] theorem State.clearError_argHi : (s.clearError).argHi = s.argHi := rfl
@[simp] theorem State.clearError_errCmd : (s.clearError).errCmd = s.errCmd := rfl
@[simp] theorem State.clearError_cmdCnt : (s.clearError).cmdCnt = s.cmdCnt := rfl
@[simp] theorem State.clearError_hostIn : (s.clearError).hostIn = s.hostIn := rfl
@[simp] theorem State.clearError_hostOut : (s.clearError).hostOut = s.hostOut := rfl
@[simp] theorem State.clearError_draws : (s.clearError).draws = s.draws := rfl

@[simp] theorem State.accept_bn (w : Word) : (s.accept w).bn = s.bn := rfl
@[simp] theorem State.accept_pt (w : Word) : (s.accept w).pt = s.pt := rfl
@[simp] theorem State.accept_owner (w : Word) : (s.accept w).owner = s.owner := rfl
@[simp] theorem State.accept_flags (w : Word) : (s.accept w).flags = s.flags := rfl
@[simp] theorem State.accept_dbuf (w : Word) : (s.accept w).dbuf = s.dbuf := rfl
@[simp] theorem State.accept_seq (w : Word) : (s.accept w).seq = .busy := rfl
@[simp] theorem State.accept_cmdReg (w : Word) : (s.accept w).cmdReg = w := rfl
@[simp] theorem State.accept_ctrl (w : Word) : (s.accept w).ctrl = s.ctrl := rfl
@[simp] theorem State.accept_status (w : Word) : (s.accept w).status = { s.status with done := false } := rfl
@[simp] theorem State.accept_res (w : Word) : (s.accept w).res = s.res := rfl
@[simp] theorem State.accept_argLo (w : Word) : (s.accept w).argLo = s.argLo := rfl
@[simp] theorem State.accept_argHi (w : Word) : (s.accept w).argHi = s.argHi := rfl
@[simp] theorem State.accept_errCmd (w : Word) : (s.accept w).errCmd = s.errCmd := rfl
@[simp] theorem State.accept_cmdCnt (w : Word) : (s.accept w).cmdCnt = s.cmdCnt := rfl
@[simp] theorem State.accept_hostIn (w : Word) : (s.accept w).hostIn = s.hostIn := rfl
@[simp] theorem State.accept_hostOut (w : Word) : (s.accept w).hostOut = s.hostOut := rfl
@[simp] theorem State.accept_draws (w : Word) : (s.accept w).draws = s.draws := rfl

@[simp] theorem State.overrun_bn : (s.overrun).bn = s.bn := rfl
@[simp] theorem State.overrun_pt : (s.overrun).pt = s.pt := rfl
@[simp] theorem State.overrun_owner : (s.overrun).owner = s.owner := rfl
@[simp] theorem State.overrun_flags : (s.overrun).flags = s.flags := rfl
@[simp] theorem State.overrun_dbuf : (s.overrun).dbuf = s.dbuf := rfl
@[simp] theorem State.overrun_seq : (s.overrun).seq = s.seq := rfl
@[simp] theorem State.overrun_cmdReg : (s.overrun).cmdReg = s.cmdReg := rfl
@[simp] theorem State.overrun_ctrl : (s.overrun).ctrl = s.ctrl := rfl
@[simp] theorem State.overrun_status : (s.overrun).status = { s.status with ovr := true } := rfl
@[simp] theorem State.overrun_res : (s.overrun).res = s.res := rfl
@[simp] theorem State.overrun_argLo : (s.overrun).argLo = s.argLo := rfl
@[simp] theorem State.overrun_argHi : (s.overrun).argHi = s.argHi := rfl
@[simp] theorem State.overrun_errCmd : (s.overrun).errCmd = s.errCmd := rfl
@[simp] theorem State.overrun_cmdCnt : (s.overrun).cmdCnt = s.cmdCnt := rfl
@[simp] theorem State.overrun_hostIn : (s.overrun).hostIn = s.hostIn := rfl
@[simp] theorem State.overrun_hostOut : (s.overrun).hostOut = s.hostOut := rfl
@[simp] theorem State.overrun_draws : (s.overrun).draws = s.draws := rfl

@[simp] theorem State.reply_bn (v : Word) : (s.reply v).bn = s.bn := rfl
@[simp] theorem State.reply_pt (v : Word) : (s.reply v).pt = s.pt := rfl
@[simp] theorem State.reply_owner (v : Word) : (s.reply v).owner = s.owner := rfl
@[simp] theorem State.reply_flags (v : Word) : (s.reply v).flags = s.flags := rfl
@[simp] theorem State.reply_dbuf (v : Word) : (s.reply v).dbuf = s.dbuf := rfl
@[simp] theorem State.reply_seq (v : Word) : (s.reply v).seq = s.seq := rfl
@[simp] theorem State.reply_cmdReg (v : Word) : (s.reply v).cmdReg = s.cmdReg := rfl
@[simp] theorem State.reply_ctrl (v : Word) : (s.reply v).ctrl = s.ctrl := rfl
@[simp] theorem State.reply_status (v : Word) : (s.reply v).status = s.status := rfl
@[simp] theorem State.reply_res (v : Word) : (s.reply v).res = s.res := rfl
@[simp] theorem State.reply_argLo (v : Word) : (s.reply v).argLo = s.argLo := rfl
@[simp] theorem State.reply_argHi (v : Word) : (s.reply v).argHi = s.argHi := rfl
@[simp] theorem State.reply_errCmd (v : Word) : (s.reply v).errCmd = s.errCmd := rfl
@[simp] theorem State.reply_cmdCnt (v : Word) : (s.reply v).cmdCnt = s.cmdCnt := rfl
@[simp] theorem State.reply_hostIn (v : Word) : (s.reply v).hostIn = s.hostIn := rfl
@[simp] theorem State.reply_hostOut (v : Word) : (s.reply v).hostOut = s.hostOut ++ [v] := rfl
@[simp] theorem State.reply_draws (v : Word) : (s.reply v).draws = s.draws := rfl

@[simp] theorem State.finishReset_bn : (s.finishReset).bn = s.bn := rfl
@[simp] theorem State.finishReset_pt : (s.finishReset).pt = s.pt := rfl
@[simp] theorem State.finishReset_owner : (s.finishReset).owner = s.owner := rfl
@[simp] theorem State.finishReset_flags : (s.finishReset).flags = s.flags := rfl
@[simp] theorem State.finishReset_dbuf : (s.finishReset).dbuf = s.dbuf := rfl
@[simp] theorem State.finishReset_seq : (s.finishReset).seq = .idle := rfl
@[simp] theorem State.finishReset_cmdReg : (s.finishReset).cmdReg = s.cmdReg := rfl
@[simp] theorem State.finishReset_ctrl : (s.finishReset).ctrl = s.ctrl := rfl
@[simp] theorem State.finishReset_status : (s.finishReset).status = s.status := rfl
@[simp] theorem State.finishReset_res : (s.finishReset).res = s.res := rfl
@[simp] theorem State.finishReset_argLo : (s.finishReset).argLo = s.argLo := rfl
@[simp] theorem State.finishReset_argHi : (s.finishReset).argHi = s.argHi := rfl
@[simp] theorem State.finishReset_errCmd : (s.finishReset).errCmd = s.errCmd := rfl
@[simp] theorem State.finishReset_cmdCnt : (s.finishReset).cmdCnt = s.cmdCnt := rfl
@[simp] theorem State.finishReset_hostIn : (s.finishReset).hostIn = s.hostIn := rfl
@[simp] theorem State.finishReset_hostOut : (s.finishReset).hostOut = s.hostOut := rfl
@[simp] theorem State.finishReset_draws : (s.finishReset).draws = s.draws := rfl

end Fields

/-! ### Fields after the updates of points and attachments -/

section PointFields

variable (s : State)

@[simp] theorem State.detach_bn (i : PtNum) : (s.detach i).bn = s.bn := by unfold State.detach; split <;> rfl
@[simp] theorem State.detach_flags (i : PtNum) : (s.detach i).flags = s.flags := by unfold State.detach; split <;> rfl
@[simp] theorem State.detach_dbuf (i : PtNum) : (s.detach i).dbuf = s.dbuf := by unfold State.detach; split <;> rfl
@[simp] theorem State.detach_seq (i : PtNum) : (s.detach i).seq = s.seq := by unfold State.detach; split <;> rfl
@[simp] theorem State.detach_cmdReg (i : PtNum) : (s.detach i).cmdReg = s.cmdReg := by unfold State.detach; split <;> rfl
@[simp] theorem State.detach_ctrl (i : PtNum) : (s.detach i).ctrl = s.ctrl := by unfold State.detach; split <;> rfl
@[simp] theorem State.detach_status (i : PtNum) : (s.detach i).status = s.status := by unfold State.detach; split <;> rfl
@[simp] theorem State.detach_res (i : PtNum) : (s.detach i).res = s.res := by unfold State.detach; split <;> rfl
@[simp] theorem State.detach_argLo (i : PtNum) : (s.detach i).argLo = s.argLo := by unfold State.detach; split <;> rfl
@[simp] theorem State.detach_argHi (i : PtNum) : (s.detach i).argHi = s.argHi := by unfold State.detach; split <;> rfl
@[simp] theorem State.detach_errCmd (i : PtNum) : (s.detach i).errCmd = s.errCmd := by unfold State.detach; split <;> rfl
@[simp] theorem State.detach_cmdCnt (i : PtNum) : (s.detach i).cmdCnt = s.cmdCnt := by unfold State.detach; split <;> rfl
@[simp] theorem State.detach_hostIn (i : PtNum) : (s.detach i).hostIn = s.hostIn := by unfold State.detach; split <;> rfl
@[simp] theorem State.detach_hostOut (i : PtNum) : (s.detach i).hostOut = s.hostOut := by unfold State.detach; split <;> rfl
@[simp] theorem State.detach_draws (i : PtNum) : (s.detach i).draws = s.draws := by unfold State.detach; split <;> rfl

@[simp] theorem State.writeP_bn (i : PtNum) (c : Curve) (v : PointVal) : (s.writeP i c v).bn = s.bn := by simp [State.writeP]
@[simp] theorem State.writeP_flags (i : PtNum) (c : Curve) (v : PointVal) : (s.writeP i c v).flags = s.flags := by simp [State.writeP]
@[simp] theorem State.writeP_dbuf (i : PtNum) (c : Curve) (v : PointVal) : (s.writeP i c v).dbuf = s.dbuf := by simp [State.writeP]
@[simp] theorem State.writeP_seq (i : PtNum) (c : Curve) (v : PointVal) : (s.writeP i c v).seq = s.seq := by simp [State.writeP]
@[simp] theorem State.writeP_cmdReg (i : PtNum) (c : Curve) (v : PointVal) : (s.writeP i c v).cmdReg = s.cmdReg := by simp [State.writeP]
@[simp] theorem State.writeP_ctrl (i : PtNum) (c : Curve) (v : PointVal) : (s.writeP i c v).ctrl = s.ctrl := by simp [State.writeP]
@[simp] theorem State.writeP_status (i : PtNum) (c : Curve) (v : PointVal) : (s.writeP i c v).status = s.status := by simp [State.writeP]
@[simp] theorem State.writeP_res (i : PtNum) (c : Curve) (v : PointVal) : (s.writeP i c v).res = s.res := by simp [State.writeP]
@[simp] theorem State.writeP_argLo (i : PtNum) (c : Curve) (v : PointVal) : (s.writeP i c v).argLo = s.argLo := by simp [State.writeP]
@[simp] theorem State.writeP_argHi (i : PtNum) (c : Curve) (v : PointVal) : (s.writeP i c v).argHi = s.argHi := by simp [State.writeP]
@[simp] theorem State.writeP_errCmd (i : PtNum) (c : Curve) (v : PointVal) : (s.writeP i c v).errCmd = s.errCmd := by simp [State.writeP]
@[simp] theorem State.writeP_cmdCnt (i : PtNum) (c : Curve) (v : PointVal) : (s.writeP i c v).cmdCnt = s.cmdCnt := by simp [State.writeP]
@[simp] theorem State.writeP_hostIn (i : PtNum) (c : Curve) (v : PointVal) : (s.writeP i c v).hostIn = s.hostIn := by simp [State.writeP]
@[simp] theorem State.writeP_hostOut (i : PtNum) (c : Curve) (v : PointVal) : (s.writeP i c v).hostOut = s.hostOut := by simp [State.writeP]
@[simp] theorem State.writeP_draws (i : PtNum) (c : Curve) (v : PointVal) : (s.writeP i c v).draws = s.draws := by simp [State.writeP]

@[simp] theorem State.releaseSlot_bn (i : PtNum) (t : Fin 4) : (s.releaseSlot i t).bn = s.bn := by unfold State.releaseSlot; split <;> [split; skip] <;> rfl
@[simp] theorem State.releaseSlot_owner (i : PtNum) (t : Fin 4) : (s.releaseSlot i t).owner = s.owner := by unfold State.releaseSlot; split <;> [split; skip] <;> rfl
@[simp] theorem State.releaseSlot_flags (i : PtNum) (t : Fin 4) : (s.releaseSlot i t).flags = s.flags := by unfold State.releaseSlot; split <;> [split; skip] <;> rfl
@[simp] theorem State.releaseSlot_dbuf (i : PtNum) (t : Fin 4) : (s.releaseSlot i t).dbuf = s.dbuf := by unfold State.releaseSlot; split <;> [split; skip] <;> rfl
@[simp] theorem State.releaseSlot_seq (i : PtNum) (t : Fin 4) : (s.releaseSlot i t).seq = s.seq := by unfold State.releaseSlot; split <;> [split; skip] <;> rfl
@[simp] theorem State.releaseSlot_cmdReg (i : PtNum) (t : Fin 4) : (s.releaseSlot i t).cmdReg = s.cmdReg := by unfold State.releaseSlot; split <;> [split; skip] <;> rfl
@[simp] theorem State.releaseSlot_ctrl (i : PtNum) (t : Fin 4) : (s.releaseSlot i t).ctrl = s.ctrl := by unfold State.releaseSlot; split <;> [split; skip] <;> rfl
@[simp] theorem State.releaseSlot_status (i : PtNum) (t : Fin 4) : (s.releaseSlot i t).status = s.status := by unfold State.releaseSlot; split <;> [split; skip] <;> rfl
@[simp] theorem State.releaseSlot_res (i : PtNum) (t : Fin 4) : (s.releaseSlot i t).res = s.res := by unfold State.releaseSlot; split <;> [split; skip] <;> rfl
@[simp] theorem State.releaseSlot_argLo (i : PtNum) (t : Fin 4) : (s.releaseSlot i t).argLo = s.argLo := by unfold State.releaseSlot; split <;> [split; skip] <;> rfl
@[simp] theorem State.releaseSlot_argHi (i : PtNum) (t : Fin 4) : (s.releaseSlot i t).argHi = s.argHi := by unfold State.releaseSlot; split <;> [split; skip] <;> rfl
@[simp] theorem State.releaseSlot_errCmd (i : PtNum) (t : Fin 4) : (s.releaseSlot i t).errCmd = s.errCmd := by unfold State.releaseSlot; split <;> [split; skip] <;> rfl
@[simp] theorem State.releaseSlot_cmdCnt (i : PtNum) (t : Fin 4) : (s.releaseSlot i t).cmdCnt = s.cmdCnt := by unfold State.releaseSlot; split <;> [split; skip] <;> rfl
@[simp] theorem State.releaseSlot_hostIn (i : PtNum) (t : Fin 4) : (s.releaseSlot i t).hostIn = s.hostIn := by unfold State.releaseSlot; split <;> [split; skip] <;> rfl
@[simp] theorem State.releaseSlot_hostOut (i : PtNum) (t : Fin 4) : (s.releaseSlot i t).hostOut = s.hostOut := by unfold State.releaseSlot; split <;> [split; skip] <;> rfl
@[simp] theorem State.releaseSlot_draws (i : PtNum) (t : Fin 4) : (s.releaseSlot i t).draws = s.draws := by unfold State.releaseSlot; split <;> [split; skip] <;> rfl

@[simp] theorem State.releaseTab_bn (i : PtNum) (t : Fin 4) : (s.releaseTab i t).bn = s.bn := by unfold State.releaseTab; split <;> [split; skip] <;> rfl
@[simp] theorem State.releaseTab_pt (i : PtNum) (t : Fin 4) : (s.releaseTab i t).pt = s.pt := by unfold State.releaseTab; split <;> [split; skip] <;> rfl
@[simp] theorem State.releaseTab_flags (i : PtNum) (t : Fin 4) : (s.releaseTab i t).flags = s.flags := by unfold State.releaseTab; split <;> [split; skip] <;> rfl
@[simp] theorem State.releaseTab_dbuf (i : PtNum) (t : Fin 4) : (s.releaseTab i t).dbuf = s.dbuf := by unfold State.releaseTab; split <;> [split; skip] <;> rfl
@[simp] theorem State.releaseTab_seq (i : PtNum) (t : Fin 4) : (s.releaseTab i t).seq = s.seq := by unfold State.releaseTab; split <;> [split; skip] <;> rfl
@[simp] theorem State.releaseTab_cmdReg (i : PtNum) (t : Fin 4) : (s.releaseTab i t).cmdReg = s.cmdReg := by unfold State.releaseTab; split <;> [split; skip] <;> rfl
@[simp] theorem State.releaseTab_ctrl (i : PtNum) (t : Fin 4) : (s.releaseTab i t).ctrl = s.ctrl := by unfold State.releaseTab; split <;> [split; skip] <;> rfl
@[simp] theorem State.releaseTab_status (i : PtNum) (t : Fin 4) : (s.releaseTab i t).status = s.status := by unfold State.releaseTab; split <;> [split; skip] <;> rfl
@[simp] theorem State.releaseTab_res (i : PtNum) (t : Fin 4) : (s.releaseTab i t).res = s.res := by unfold State.releaseTab; split <;> [split; skip] <;> rfl
@[simp] theorem State.releaseTab_argLo (i : PtNum) (t : Fin 4) : (s.releaseTab i t).argLo = s.argLo := by unfold State.releaseTab; split <;> [split; skip] <;> rfl
@[simp] theorem State.releaseTab_argHi (i : PtNum) (t : Fin 4) : (s.releaseTab i t).argHi = s.argHi := by unfold State.releaseTab; split <;> [split; skip] <;> rfl
@[simp] theorem State.releaseTab_errCmd (i : PtNum) (t : Fin 4) : (s.releaseTab i t).errCmd = s.errCmd := by unfold State.releaseTab; split <;> [split; skip] <;> rfl
@[simp] theorem State.releaseTab_cmdCnt (i : PtNum) (t : Fin 4) : (s.releaseTab i t).cmdCnt = s.cmdCnt := by unfold State.releaseTab; split <;> [split; skip] <;> rfl
@[simp] theorem State.releaseTab_hostIn (i : PtNum) (t : Fin 4) : (s.releaseTab i t).hostIn = s.hostIn := by unfold State.releaseTab; split <;> [split; skip] <;> rfl
@[simp] theorem State.releaseTab_hostOut (i : PtNum) (t : Fin 4) : (s.releaseTab i t).hostOut = s.hostOut := by unfold State.releaseTab; split <;> [split; skip] <;> rfl
@[simp] theorem State.releaseTab_draws (i : PtNum) (t : Fin 4) : (s.releaseTab i t).draws = s.draws := by unfold State.releaseTab; split <;> [split; skip] <;> rfl

@[simp] theorem State.attach_bn (i : PtNum) (t : Fin 4) : (s.attach i t).bn = s.bn := by simp [State.attach]
@[simp] theorem State.attach_flags (i : PtNum) (t : Fin 4) : (s.attach i t).flags = s.flags := by simp [State.attach]
@[simp] theorem State.attach_dbuf (i : PtNum) (t : Fin 4) : (s.attach i t).dbuf = s.dbuf := by simp [State.attach]
@[simp] theorem State.attach_seq (i : PtNum) (t : Fin 4) : (s.attach i t).seq = s.seq := by simp [State.attach]
@[simp] theorem State.attach_cmdReg (i : PtNum) (t : Fin 4) : (s.attach i t).cmdReg = s.cmdReg := by simp [State.attach]
@[simp] theorem State.attach_ctrl (i : PtNum) (t : Fin 4) : (s.attach i t).ctrl = s.ctrl := by simp [State.attach]
@[simp] theorem State.attach_status (i : PtNum) (t : Fin 4) : (s.attach i t).status = s.status := by simp [State.attach]
@[simp] theorem State.attach_res (i : PtNum) (t : Fin 4) : (s.attach i t).res = s.res := by simp [State.attach]
@[simp] theorem State.attach_argLo (i : PtNum) (t : Fin 4) : (s.attach i t).argLo = s.argLo := by simp [State.attach]
@[simp] theorem State.attach_argHi (i : PtNum) (t : Fin 4) : (s.attach i t).argHi = s.argHi := by simp [State.attach]
@[simp] theorem State.attach_errCmd (i : PtNum) (t : Fin 4) : (s.attach i t).errCmd = s.errCmd := by simp [State.attach]
@[simp] theorem State.attach_cmdCnt (i : PtNum) (t : Fin 4) : (s.attach i t).cmdCnt = s.cmdCnt := by simp [State.attach]
@[simp] theorem State.attach_hostIn (i : PtNum) (t : Fin 4) : (s.attach i t).hostIn = s.hostIn := by simp [State.attach]
@[simp] theorem State.attach_hostOut (i : PtNum) (t : Fin 4) : (s.attach i t).hostOut = s.hostOut := by simp [State.attach]
@[simp] theorem State.attach_draws (i : PtNum) (t : Fin 4) : (s.attach i t).draws = s.draws := by simp [State.attach]

end PointFields

/-! ### Registers read back -/

section Registers

variable (s : State)

theorem State.b_eq {s t : State} (h : t.bn = s.bn) (i : BnNum) : t.b i = s.b i := by simp [State.b, h]

theorem State.p_eq {s t : State} (h : t.pt = s.pt) (i : PtNum) : t.p i = s.p i := by simp [State.p, h]

theorem State.slotOwner_eq {s t : State} (h : t.owner = s.owner) (j : Fin 4) : t.slotOwner j = s.slotOwner j := by
  simp [State.slotOwner, h]

@[simp] theorem State.b_writeB (i j : BnNum) (n : BigNum) :
    (s.writeB i n).b j = if i = j then { written := true, num := n } else s.b j := by
  simp [State.b, Vector.getElem_set, Fin.ext_iff]

@[simp] theorem State.p_setTab (i j : PtNum) (t : Option (Fin 4)) :
    (s.setTab i t).p j = if i = j then { s.p i with tab := t } else s.p j := by
  simp [State.p, Vector.getElem_set, Fin.ext_iff]

@[simp] theorem State.slotOwner_setOwner (t u : Fin 4) (q : Option PtNum) :
    (s.setOwner t q).slotOwner u = if t = u then q else s.slotOwner u := by
  simp [State.slotOwner, Vector.getElem_set, Fin.ext_iff]

@[simp] theorem State.p_writeB (i : BnNum) (n : BigNum) (j : PtNum) : (s.writeB i n).p j = s.p j := rfl
@[simp] theorem State.slotOwner_writeB (i : BnNum) (n : BigNum) (j : Fin 4) : (s.writeB i n).slotOwner j = s.slotOwner j := rfl

@[simp] theorem State.b_setTab (i : PtNum) (t : Option (Fin 4)) (j : BnNum) : (s.setTab i t).b j = s.b j := rfl
@[simp] theorem State.slotOwner_setTab (i : PtNum) (t : Option (Fin 4)) (j : Fin 4) : (s.setTab i t).slotOwner j = s.slotOwner j := rfl

@[simp] theorem State.b_setOwner (t : Fin 4) (q : Option PtNum) (j : BnNum) : (s.setOwner t q).b j = s.b j := rfl
@[simp] theorem State.p_setOwner (t : Fin 4) (q : Option PtNum) (j : PtNum) : (s.setOwner t q).p j = s.p j := rfl

@[simp] theorem State.b_setC (c : Bool) (j : BnNum) : (s.setC c).b j = s.b j := rfl
@[simp] theorem State.p_setC (c : Bool) (j : PtNum) : (s.setC c).p j = s.p j := rfl
@[simp] theorem State.slotOwner_setC (c : Bool) (j : Fin 4) : (s.setC c).slotOwner j = s.slotOwner j := rfl

@[simp] theorem State.b_setCmp (r : CmpSign) (j : BnNum) : (s.setCmp r).b j = s.b j := rfl
@[simp] theorem State.p_setCmp (r : CmpSign) (j : PtNum) : (s.setCmp r).p j = s.p j := rfl
@[simp] theorem State.slotOwner_setCmp (r : CmpSign) (j : Fin 4) : (s.setCmp r).slotOwner j = s.slotOwner j := rfl

@[simp] theorem State.b_setRes (n : Nat) (j : BnNum) : (s.setRes n).b j = s.b j := rfl
@[simp] theorem State.p_setRes (n : Nat) (j : PtNum) : (s.setRes n).p j = s.p j := rfl
@[simp] theorem State.slotOwner_setRes (n : Nat) (j : Fin 4) : (s.setRes n).slotOwner j = s.slotOwner j := rfl

@[simp] theorem State.b_errorEntry (e : CmdError) (j : BnNum) : (s.errorEntry e).b j = s.b j := rfl
@[simp] theorem State.p_errorEntry (e : CmdError) (j : PtNum) : (s.errorEntry e).p j = s.p j := rfl
@[simp] theorem State.slotOwner_errorEntry (e : CmdError) (j : Fin 4) : (s.errorEntry e).slotOwner j = s.slotOwner j := rfl

@[simp] theorem State.b_completed (j : BnNum) : (s.completed).b j = s.b j := rfl
@[simp] theorem State.p_completed (j : PtNum) : (s.completed).p j = s.p j := rfl
@[simp] theorem State.slotOwner_completed (j : Fin 4) : (s.completed).slotOwner j = s.slotOwner j := rfl

@[simp] theorem State.b_clearError (j : BnNum) : (s.clearError).b j = s.b j := rfl
@[simp] theorem State.p_clearError (j : PtNum) : (s.clearError).p j = s.p j := rfl
@[simp] theorem State.slotOwner_clearError (j : Fin 4) : (s.clearError).slotOwner j = s.slotOwner j := rfl

@[simp] theorem State.b_accept (w : Word) (j : BnNum) : (s.accept w).b j = s.b j := rfl
@[simp] theorem State.p_accept (w : Word) (j : PtNum) : (s.accept w).p j = s.p j := rfl
@[simp] theorem State.slotOwner_accept (w : Word) (j : Fin 4) : (s.accept w).slotOwner j = s.slotOwner j := rfl

@[simp] theorem State.b_overrun (j : BnNum) : (s.overrun).b j = s.b j := rfl
@[simp] theorem State.p_overrun (j : PtNum) : (s.overrun).p j = s.p j := rfl
@[simp] theorem State.slotOwner_overrun (j : Fin 4) : (s.overrun).slotOwner j = s.slotOwner j := rfl

@[simp] theorem State.b_reply (v : Word) (j : BnNum) : (s.reply v).b j = s.b j := rfl
@[simp] theorem State.p_reply (v : Word) (j : PtNum) : (s.reply v).p j = s.p j := rfl
@[simp] theorem State.slotOwner_reply (v : Word) (j : Fin 4) : (s.reply v).slotOwner j = s.slotOwner j := rfl

@[simp] theorem State.b_finishReset (j : BnNum) : (s.finishReset).b j = s.b j := rfl
@[simp] theorem State.p_finishReset (j : PtNum) : (s.finishReset).p j = s.p j := rfl
@[simp] theorem State.slotOwner_finishReset (j : Fin 4) : (s.finishReset).slotOwner j = s.slotOwner j := rfl

@[simp] theorem State.b_detach (i : PtNum) (j : BnNum) : (s.detach i).b j = s.b j := State.b_eq (by simp) j

@[simp] theorem State.b_writeP (i : PtNum) (c : Curve) (v : PointVal) (j : BnNum) : (s.writeP i c v).b j = s.b j := State.b_eq (by simp) j

@[simp] theorem State.b_releaseSlot (i : PtNum) (t : Fin 4) (j : BnNum) : (s.releaseSlot i t).b j = s.b j := State.b_eq (by simp) j
@[simp] theorem State.slotOwner_releaseSlot (i : PtNum) (t : Fin 4) (j : Fin 4) : (s.releaseSlot i t).slotOwner j = s.slotOwner j := State.slotOwner_eq (by simp) j

@[simp] theorem State.b_releaseTab (i : PtNum) (t : Fin 4) (j : BnNum) : (s.releaseTab i t).b j = s.b j := State.b_eq (by simp) j
@[simp] theorem State.p_releaseTab (i : PtNum) (t : Fin 4) (j : PtNum) : (s.releaseTab i t).p j = s.p j := State.p_eq (by simp) j

@[simp] theorem State.b_attach (i : PtNum) (t : Fin 4) (j : BnNum) : (s.attach i t).b j = s.b j := State.b_eq (by simp) j

/-- Detach(i): the register has no table (R345). -/
@[simp] theorem State.p_detach (i j : PtNum) :
    (s.detach i).p j = if i = j then { s.p i with tab := none } else s.p j := by
  unfold State.detach
  split
  · simp
  · next h =>
    split
    · next hij => subst hij; cases hp : s.p i; simp_all
    · rfl

/-- Detach(i): the slot the register had is free, the others keep their owners (R345). -/
@[simp] theorem State.slotOwner_detach (i : PtNum) (u : Fin 4) :
    (s.detach i).slotOwner u = if (s.p i).tab = some u then none else s.slotOwner u := by
  unfold State.detach
  split <;> simp_all

/-- The point register written holds the value and no table; the others are as before (R345). -/
@[simp] theorem State.p_writeP (i j : PtNum) (c : Curve) (v : PointVal) :
    (s.writeP i c v).p j = if i = j then { cell := .pt c v, tab := none } else s.p j := by
  unfold State.writeP
  by_cases h : i = j
  · subst h; simp [State.p]; exact congrArg PointReg.tab (by simpa [State.p] using s.p_detach i i)
  · have := s.p_detach i j
    simp [State.p, Vector.getElem_set, h] at this ⊢
    simp_all [Fin.ext_iff]

@[simp] theorem State.slotOwner_writeP (i : PtNum) (c : Curve) (v : PointVal) (u : Fin 4) :
    (s.writeP i c v).slotOwner u = if (s.p i).tab = some u then none else s.slotOwner u :=
  s.slotOwner_detach i u

/-- The old owner of the slot, if another register, has no table (R359, first step). -/
theorem State.p_releaseSlot (i j : PtNum) (t : Fin 4) :
    (s.releaseSlot i t).p j =
      { s.p j with tab := if j ≠ i ∧ s.slotOwner t = some j then none else (s.p j).tab } := by
  unfold State.releaseSlot
  split
  · next q hq =>
    split
    · next h => subst h; split <;> simp_all
    · by_cases hj : q = j
      · subst hj; simp_all
      · simp [hj, hq]
  · next h => simp [h]

/-- The register's old slot, if another slot, is free (R359, second step). -/
theorem State.slotOwner_releaseTab (i : PtNum) (t u : Fin 4) :
    (s.releaseTab i t).slotOwner u =
      if u ≠ t ∧ (s.p i).tab = some u then none else s.slotOwner u := by
  unfold State.releaseTab
  split
  · next q hq =>
    split
    · next h => subst h; split <;> simp_all
    · by_cases hj : q = u
      · subst hj; simp_all
      · simp [hj, hq]
  · next h => simp [h]

/-- The attachments after EC.MKTAB (R359): the register has the slot, the slot's old owner has none. -/
theorem State.p_attach (i j : PtNum) (t : Fin 4) :
    (s.attach i t).p j =
      { s.p j with tab := if j = i then some t else if s.slotOwner t = some j then none else (s.p j).tab } := by
  unfold State.attach
  by_cases hj : i = j
  · subst hj; simp [State.p_releaseSlot]
  · simp [State.p_releaseSlot, hj, Ne.symm hj]

/-- The owners after EC.MKTAB (R359): the register owns the slot, its old slot is free. -/
theorem State.slotOwner_attach (i : PtNum) (t u : Fin 4) :
    (s.attach i t).slotOwner u =
      if u = t then some i else if (s.p i).tab = some u then none else s.slotOwner u := by
  unfold State.attach
  by_cases hu : t = u
  · subst hu; simp
  · simp [State.slotOwner_releaseTab, State.p_releaseSlot, hu, Ne.symm hu]

/-! ### Reset entered (R520) -/

@[simp] theorem State.enterReset_bn : s.enterReset.bn = State.reset.bn := rfl
@[simp] theorem State.enterReset_pt : s.enterReset.pt = State.reset.pt := rfl
@[simp] theorem State.enterReset_owner : s.enterReset.owner = State.reset.owner := rfl
@[simp] theorem State.enterReset_flags : s.enterReset.flags = State.reset.flags := rfl
@[simp] theorem State.enterReset_dbuf : s.enterReset.dbuf = State.reset.dbuf := rfl
@[simp] theorem State.enterReset_seq : s.enterReset.seq = .resetting := rfl
@[simp] theorem State.enterReset_cmdReg : s.enterReset.cmdReg = State.reset.cmdReg := rfl
@[simp] theorem State.enterReset_ctrl : s.enterReset.ctrl = State.reset.ctrl := rfl
@[simp] theorem State.enterReset_status : s.enterReset.status = State.reset.status := rfl
@[simp] theorem State.enterReset_res : s.enterReset.res = State.reset.res := rfl
@[simp] theorem State.enterReset_argLo : s.enterReset.argLo = State.reset.argLo := rfl
@[simp] theorem State.enterReset_argHi : s.enterReset.argHi = State.reset.argHi := rfl
@[simp] theorem State.enterReset_errCmd : s.enterReset.errCmd = State.reset.errCmd := rfl
@[simp] theorem State.enterReset_cmdCnt : s.enterReset.cmdCnt = State.reset.cmdCnt := rfl
@[simp] theorem State.enterReset_hostIn : s.enterReset.hostIn = s.hostIn := rfl
@[simp] theorem State.enterReset_hostOut : s.enterReset.hostOut = s.hostOut := rfl
@[simp] theorem State.enterReset_draws : s.enterReset.draws = s.draws := rfl

end Registers

end Sys2Proof.Machine
end

