-- ==== Sys2Proof/Laws/Ops.lean ====
section
/-! SUPPORT. One lemma for each shared operation, saying once everything it can do: the operand forms, and the frames
of the writes a command makes before it completes. Proofs about a command cite these and unfold no operation. -/

namespace Sys2Proof.Machine

/-! ### Operand forms -/

/-- A source BigNum register: either it is unwritten and the command ends in the error entry, or its number is used. -/
theorem withB_cases {s : State} {i : BnNum} {k : BigNum → Result} {r : Result} (h : withB s i k = r) :
    ((s.b i).written = false ∧ r = .next (s.errorEntry .unwrittenOperand)) ∨
    ((s.b i).written = true ∧ r = k (s.b i).num) := by
  unfold withB at h
  split at h
  · next hw => exact .inr ⟨hw, h.symm⟩
  · next hw => exact .inl ⟨Bool.eq_false_iff.2 hw, h.symm⟩

theorem withB_of_written {s : State} {i : BnNum} {k : BigNum → Result} (h : (s.b i).written = true) :
    withB s i k = k (s.b i).num := if_pos h

theorem withB_of_unwritten {s : State} {i : BnNum} {k : BigNum → Result} (h : (s.b i).written = false) :
    withB s i k = .next (s.errorEntry .unwrittenOperand) := by simp [withB, h, raise]

/-- A source point register: either it is EMPTY and the command ends in the error entry, or its value is used. -/
theorem withP_cases {s : State} {i : PtNum} {k : Curve → PointVal → Result} {r : Result} (h : withP s i k = r) :
    ((s.p i).cell = .empty ∧ r = .next (s.errorEntry .unwrittenOperand)) ∨
    (∃ c v, (s.p i).cell = .pt c v ∧ r = k c v) := by
  unfold withP at h
  split at h
  · next c v hc => exact .inr ⟨c, v, hc, h.symm⟩
  · next hc => exact .inl ⟨hc, h.symm⟩

theorem withP_of_pt {s : State} {i : PtNum} {k : Curve → PointVal → Result} {c : Curve} {v : PointVal}
    (h : (s.p i).cell = .pt c v) : withP s i k = k c v := by simp [withP, h]

theorem withP_of_empty {s : State} {i : PtNum} {k : Curve → PointVal → Result} (h : (s.p i).cell = .empty) :
    withP s i k = .next (s.errorEntry .unwrittenOperand) := by simp [withP, h, raise]

/-- A curve field: either it names no curve and the command ends in the error entry, or its curve is used. -/
theorem withCurve_cases {s : State} {cv : CurveField} {k : Curve → Result} {r : Result} (h : withCurve s cv k = r) :
    (curveOf cv = none ∧ r = .next (s.errorEntry .invalidArgument)) ∨ (∃ c, curveOf cv = some c ∧ r = k c) := by
  unfold withCurve at h
  split at h
  · next c hc => exact .inr ⟨c, hc, h.symm⟩
  · next hc => exact .inl ⟨hc, h.symm⟩

/-- The curve fields that name a curve are 0..4 (R330). -/
theorem curveOf_isSome_iff (cv : CurveField) : (curveOf cv).isSome = true ↔ cv.val ≤ 4 := by
  revert cv; decide

theorem curveOf_eq_none_iff (cv : CurveField) : curveOf cv = none ↔ 4 < cv.val := by
  revert cv; decide

/-- The immediates that name a table slot are 0..3 (R114). -/
theorem slotOf_eq_none_iff (slot : Imm8) : slotOf slot = none ↔ 4 ≤ slot.val := by
  unfold slotOf; split <;> simp <;> omega

theorem slotOf_eq_some_iff (slot : Imm8) (t : Fin 4) : slotOf slot = some t ↔ slot.val = t.val := by
  unfold slotOf
  split
  · simp [Fin.ext_iff]
  · have := t.isLt; simp; omega

/-! ### How a command ends -/

/-- The end of a command writes CMDCNT, DONE and the sequencer alone (R470). -/
theorem completedFrom_completed {s u : State} (h0 : u.cmdCnt = s.cmdCnt) (h1 : u.status = s.status)
    (h2 : u.cmdReg = s.cmdReg) (h3 : u.ctrl = s.ctrl) (h4 : u.argLo = s.argLo) (h5 : u.argHi = s.argHi)
    (h6 : u.errCmd = s.errCmd) (h7 : u.hostIn = s.hostIn) (h8 : u.hostOut = s.hostOut) :
    CompletedFrom s u.completed :=
  ⟨by simp [h0], by simp [h1], rfl, h2, h3, h4, h5, h6, h7, h8⟩

theorem nothingElse_completed (s : State) : NothingElse s s.completed :=
  ⟨by apply completedFrom_completed <;> rfl, fun _ _ => rfl, ⟨fun _ => rfl, fun _ => rfl⟩, fun _ => rfl, rfl, rfl, rfl⟩

/-- The frame of one BigNum write. -/
theorem onlyBn_writeB (s : State) (i : BnNum) (n : BigNum) : OnlyBn s (s.writeB i n).completed [i] := by
  refine ⟨by apply completedFrom_completed <;> rfl, fun j hj => ?_, ⟨fun _ => rfl, fun _ => rfl⟩, fun _ => rfl, rfl,
    rfl, rfl⟩
  have : i ≠ j := fun h => hj (by simp [h])
  simp [this]

/-- The frame of two BigNum writes. -/
theorem onlyBn_writeB_writeB (s : State) (i j : BnNum) (n m : BigNum) :
    OnlyBn s ((s.writeB i n).writeB j m).completed [i, j] := by
  refine ⟨by apply completedFrom_completed <;> rfl, fun l hl => ?_, ⟨fun _ => rfl, fun _ => rfl⟩, fun _ => rfl, rfl,
    rfl, rfl⟩
  have h1 : i ≠ l := fun h => hl (by simp [h])
  have h2 : j ≠ l := fun h => hl (by simp [h])
  simp [h1, h2]

theorem onlyFlags_setC (s : State) (c : Bool) : OnlyFlags s (s.setC c).completed :=
  ⟨by apply completedFrom_completed <;> rfl, fun _ _ => rfl, ⟨fun _ => rfl, fun _ => rfl⟩, fun _ => rfl, rfl, rfl⟩

theorem onlyFlags_setCmp (s : State) (r : CmpSign) : OnlyFlags s (s.setCmp r).completed :=
  ⟨by apply completedFrom_completed <;> rfl, fun _ _ => rfl, ⟨fun _ => rfl, fun _ => rfl⟩, fun _ => rfl, rfl, rfl⟩

/-- The frame of a write to RES alone. -/
theorem onlyRes_setRes (s : State) (n : Nat) : OnlyResAndDbuf s (s.setRes n).completed 0 0 :=
  ⟨by apply completedFrom_completed <;> rfl, fun _ _ => rfl, ⟨fun _ => rfl, fun _ => rfl⟩, fun _ _ => rfl, rfl, rfl⟩

/-- The frame of a store to DBUF that reports its length in RES. -/
theorem onlyResAndDbuf_writeBytes (s : State) (hw : Memory.wfFrom 0 s.dbuf = true) (off n : Nat) (bs : List Byte) :
    OnlyResAndDbuf s (({ s with dbuf := s.dbuf.writeBytes off bs }.setRes n).completed) off bs.length :=
  ⟨by apply completedFrom_completed <;> rfl, fun _ _ => rfl, ⟨fun _ => rfl, fun _ => rfl⟩,
    fun _ ha => Memory.read_writeBytes_outside hw ha, rfl, rfl⟩

/-- The frame of one point write (R345). -/
theorem onlyPoint_writeP (s : State) (i : PtNum) (c : Curve) (v : PointVal) :
    OnlyPoint s (s.writeP i c v).completed i := by
  refine ⟨by apply completedFrom_completed <;> simp, fun _ _ => by simp, fun j hj => ?_, by simp, fun j => by simp,
    fun a => by simp, by simp, by simp⟩
  simp [Ne.symm hj]

/-- The frame of a new attachment (R359). -/
theorem onlyTabs_attach (s : State) (i : PtNum) (t : Fin 4) : OnlyTabs s (s.attach i t).completed := by
  refine ⟨by apply completedFrom_completed <;> simp, fun _ _ => by simp, fun j => ?_, fun a => by simp, by simp,
    by simp, by simp⟩
  simp [State.p_attach]

/-- The frame of a detachment (R360). -/
theorem onlyTabs_detach (s : State) (i : PtNum) : OnlyTabs s (s.detach i).completed := by
  refine ⟨by apply completedFrom_completed <;> simp, fun _ _ => by simp, fun j => ?_, fun a => by simp, by simp,
    by simp, by simp⟩
  by_cases h : i = j
  · subst h; simp
  · simp [h]

/-! ### Results -/

/-- A register written with a value that fits its capacity holds it (R9). -/
theorem holdsBn_writeB (s : State) (i : BnNum) {size v : Nat} (h : v < 2 ^ (24 * size)) :
    HoldsBn (s.writeB i (BigNum.ofVal size v)).completed i size v := by
  simp [HoldsBn, BigNum.val_ofVal_of_lt h]

theorem holdsPt_writeP (s : State) (i : PtNum) (c : Curve) (v : PointVal) :
    HoldsPt (s.writeP i c v).completed i c v := by simp [HoldsPt]

/-! ### Drawn reads -/

/-- A drawn read holds nothing above its drawn bits (R49, R94): 3 for FLAGS, the access width elsewhere. -/
theorem drawRead_lt (n off : Nat) (w : Width) : (drawRead n off w).toNat < 2 ^ drawnBits off w :=
  Nat.lt_of_le_of_lt (by rw [drawRead, BitVec.toNat_ofNat]; exact Nat.mod_le _ _) (Nat.mod_lt _ (Nat.two_pow_pos _))

end Sys2Proof.Machine
end

