-- ==== Sys2Proof/Laws/Exec.lean ====
section
/-! SUPPORT. What a command can do, said once: every command answers a next state, which is the error entry or one of
eleven kinds of write followed by completion. Proofs about all commands cite these and unfold no meaning. -/

namespace Sys2Proof.Machine

set_option Elab.async false

/-! ### Values stay in their curve's domain (R38) -/

theorem Curve.prime_pos (c : Curve) : 0 < c.prime := by cases c <;> decide

theorem Curve.inDomain_identity (c : Curve) : c.inDomain c.identity = true := by cases c <;> decide

theorem Curve.inDomain_base (c : Curve) : c.inDomain c.base = true := by cases c <;> decide

theorem Curve.inDomain_draw (c : Curve) (n : Nat) : c.inDomain (c.draw n) = true := by
  unfold Curve.draw
  split
  · next h => simp only [Bool.and_eq_true] at h; exact h.1
  · simp [Curve.inDomain, Nat.mod_lt _ c.prime_pos]

theorem Curve.inDomain_neg {c : Curve} {v : PointVal} (h : c.inDomain v = true) : c.inDomain (c.neg v) = true := by
  have := c.prime_pos
  unfold Curve.neg
  split <;> cases v <;>
    simp_all [nistNeg, edNeg, Curve.inDomain, Nat.mod_lt _ this]

theorem Curve.inDomain_add {c : Curve} {v w : PointVal} (hv : c.inDomain v = true) (hw : c.inDomain w = true) :
    c.inDomain (c.add v w) = true := by
  have := c.prime_pos
  unfold Curve.add
  split
  · next hn =>
    cases v with
    | inf => exact hw
    | aff x1 y1 =>
      cases w with
      | inf => exact hv
      | aff x2 y2 =>
        simp only [nistAdd]
        split
        · exact hn
        · simp [nistChord, Curve.inDomain, subMod_lt this]
  · next hn =>
    cases v with
    | inf => exact hv
    | aff x1 y1 =>
      cases w with
      | inf => exact hw
      | aff x2 y2 => simp [edAdd, Curve.inDomain, Nat.mod_lt _ this]

theorem Curve.inDomain_mulBits {c : Curve} {v : PointVal} (hv : c.inDomain v = true) (f k : Nat) :
    c.inDomain (c.mulBits v f k) = true := by
  induction f generalizing k with
  | zero => exact c.inDomain_identity
  | succ f ih =>
    simp only [Curve.mulBits]
    split
    · exact Curve.inDomain_add (Curve.inDomain_add (ih _) (ih _)) hv
    · exact Curve.inDomain_add (ih _) (ih _)

theorem powMod_lt {m : Nat} (hm : 0 < m) (a e : Nat) : powMod m a e < m := by
  rw [powMod_eq]; exact Nat.mod_lt _ hm

theorem edRecoverX_lt {p d y s x : Nat} (hp : 0 < p) (hs : s < 2) (h : edRecoverX p d y s = some x) : x < p := by
  have hr : ∀ u w x, edSqrtRatio p u w = some x → x < p := by
    intro u w x hx
    simp only [edSqrtRatio] at hx
    split at hx
    · cases hx; exact Nat.mod_lt _ hp
    · split at hx
      · cases hx; exact Nat.mod_lt _ hp
      · cases hx
  unfold edRecoverX at h
  split at h
  · cases h
  · next x0 h0 =>
    have := hr _ _ _ h0
    split at h
    · cases h
    · split at h <;> (cases h; omega)

theorem Curve.inDomain_decode {c : Curve} {e : List Byte} {v : PointVal} (h : c.decode e = some v) :
    c.inDomain v = true := by
  have hp := c.prime_pos
  have hn : ∀ b F, nistDecode c.prime b F e = some v → c.inDomain v = true := by
    intro b F h
    unfold nistDecode at h
    split at h
    · simp only [nistDecodeLong] at h
      split at h
      · cases h
      · cases h; simp only [Curve.inDomain, Bool.and_eq_true, decide_eq_true_eq]; omega
    · simp only [nistDecodeShort, Option.ite_none_left_eq_some, Option.some.injEq] at h
      obtain ⟨h1, -, -, rfl⟩ := h
      simp only [Curve.inDomain, Bool.and_eq_true, decide_eq_true_eq]
      refine ⟨by omega, ?_⟩
      split
      · exact powMod_lt hp _ _
      · exact Nat.mod_lt _ hp
  have hm : ∀ d, edDecode c.prime d e = some v → c.inDomain v = true := by
    intro d h
    simp only [edDecode] at h
    split at h
    · cases h
    · simp only [Option.map_eq_some_iff] at h
      obtain ⟨x, hx, rfl⟩ := h
      have := edRecoverX_lt hp (by omega) hx
      simp only [Curve.inDomain, Bool.and_eq_true, decide_eq_true_eq]; omega
  have hx : ∀ d, montDecode c.prime d e = some v → c.inDomain v = true := by
    intro d h
    simp only [montDecode] at h
    split at h
    · cases h
    · simp only [Option.map_eq_some_iff] at h
      obtain ⟨x, hx, rfl⟩ := h
      have := edRecoverX_lt hp (by omega) hx
      simp only [Curve.inDomain, Bool.and_eq_true, decide_eq_true_eq]
      exact ⟨this, Nat.mod_lt _ hp⟩
  cases c
  · exact hn _ _ h
  · exact hn _ _ h
  · exact hn _ _ h
  · exact hm _ h
  · exact hx _ h

/-! ### The kinds of write -/

/-- What a command writes before it completes, by its opcode and its destination fields. -/
inductive Effect (i : Instr) (s : State) : State → Prop where
  | nothing (ho : fieldOp (encode i) = 0x00) : Effect i s s
  | bn (rd : BnNum) (n : BigNum) (ha : fieldA (encode i) = rd)
      (ho : fieldOp (encode i) < 0x40 ∨ fieldOp (encode i) ∈ [0x47, 0x48]) (hn : s.BnOk → n.size ≤ 48) :
      Effect i s (s.writeB rd n)
  | bnTwo (rd rd' : BnNum) (n n' : BigNum) (ha : fieldA (encode i) = rd) (hd : fieldD (encode i) = rd')
      (ho : fieldOp (encode i) ∈ [0x15, 0x18, 0x45]) (hn : s.BnOk → n.size ≤ 48) (hn' : s.BnOk → n'.size ≤ 48) :
      Effect i s ((s.writeB rd n).writeB rd' n')
  | cond (c : Bool) (ho : fieldOp (encode i) ∈ [0x21, 0x22, 0x23, 0x24, 0x25, 0x26, 0x27, 0x58, 0x59, 0x5A]) :
      Effect i s (s.setC c)
  | cmp (r : CmpSign) (ho : fieldOp (encode i) = 0x20) : Effect i s (s.setCmp r)
  | res (n : Nat) (ho : fieldOp (encode i) ∈ [0x09, 0x0A]) : Effect i s (s.setRes n)
  | store (off : Nat) (bs : List Byte) (ho : fieldOp (encode i) ∈ [0x02, 0x05, 0x29, 0x44])
      (hl : off + bs.length ≤ 256) :
      Effect i s ({ s with dbuf := s.dbuf.writeBytes off bs }.setRes bs.length)
  | point (pd : PtNum) (c : Curve) (v : PointVal) (ha : fieldA (encode i) = pd)
      (ho : fieldOp (encode i) ∈ [0x40, 0x41, 0x42, 0x43, 0x46, 0x50, 0x51, 0x52, 0x55])
      (hv : s.PointsOk → c.inDomain v = true) : Effect i s (s.writeP pd c v)
  | draw (pd : PtNum) (c : Curve) (ha : fieldA (encode i) = pd) (ho : fieldOp (encode i) ∈ [0x50, 0x51, 0x52]) :
      Effect i s (s.writeDraw pd c)
  | attach (q : PtNum) (t : Fin 4) (ho : fieldOp (encode i) = 0x53) : Effect i s (s.attach q t)
  | detach (q : PtNum) (ho : fieldOp (encode i) = 0x54) : Effect i s (s.detach q)

/-- How a command ends: in the error entry, or complete after its writes. -/
def EndsWell (i : Instr) (s : State) (r : Result) : Prop :=
  (∃ e, r = .next (s.errorEntry e)) ∨ ∃ u, Effect i s u ∧ r = .next u.completed

theorem EndsWell.raise {i : Instr} {s : State} (e : CmdError) : EndsWell i s (raise e s) := .inl ⟨e, rfl⟩

theorem EndsWell.complete {i : Instr} {s u : State} (h : Effect i s u) : EndsWell i s (complete u) :=
  .inr ⟨u, h, rfl⟩

theorem EndsWell.ite {i : Instr} {s : State} {p : Prop} [Decidable p] {r r' : Result} (h : p → EndsWell i s r)
    (h' : ¬p → EndsWell i s r') : EndsWell i s (if p then r else r') := by
  split
  · exact h ‹_›
  · exact h' ‹_›

theorem EndsWell.withB {i : Instr} {s : State} {r : BnNum} {k : BigNum → Result}
    (h : (s.BnOk → (s.b r).num.size ≤ 48) → EndsWell i s (k (s.b r).num)) : EndsWell i s (withB s r k) := by
  unfold Machine.withB
  exact .ite (fun _ => h fun hs => (hs r).1) fun _ => .raise _

theorem EndsWell.withP {i : Instr} {s : State} {r : PtNum} {k : Curve → PointVal → Result}
    (h : ∀ c v, (s.PointsOk → c.inDomain v = true) → EndsWell i s (k c v)) : EndsWell i s (withP s r k) := by
  unfold Machine.withP
  split
  · next c v hc => exact h c v fun hs => by simpa [PointCell.ok, hc] using hs r
  · exact .raise _

theorem EndsWell.withCurve {i : Instr} {s : State} {cv : CurveField} {k : Curve → Result}
    (h : ∀ c, EndsWell i s (k c)) : EndsWell i s (withCurve s cv k) := by
  unfold Machine.withCurve
  split
  · exact h _
  · exact .raise _

/-! The kinds of write as endings, the opcode and field facts found by computation. -/

theorem EndsWell.writeB {i : Instr} {s : State} {rd : BnNum} {n : BigNum} (hn : s.BnOk → n.size ≤ 48)
    (ha : fieldA (encode i) = rd := by
      apply Fin.ext; simp only [encode, fieldA, packWord, BitVec.toNat_ofNat]; omega)
    (ho : fieldOp (encode i) < 0x40 ∨ fieldOp (encode i) ∈ [0x47, 0x48] := by
      simp only [encode, fieldOp, packWord, BitVec.toNat_ofNat, List.mem_cons, List.mem_nil_iff]; omega) :
    EndsWell i s (Machine.complete (s.writeB rd n)) := .complete (.bn rd n ha ho hn)

theorem EndsWell.writeTwo {i : Instr} {s : State} {rd rd' : BnNum} {n n' : BigNum} (hn : s.BnOk → n.size ≤ 48)
    (hn' : s.BnOk → n'.size ≤ 48)
    (ha : fieldA (encode i) = rd := by
      apply Fin.ext; simp only [encode, fieldA, packWord, BitVec.toNat_ofNat]; omega)
    (hd : fieldD (encode i) = rd' := by
      apply Fin.ext; simp only [encode, fieldD, packWord, BitVec.toNat_ofNat]; omega)
    (ho : fieldOp (encode i) ∈ [0x15, 0x18, 0x45] := by
      simp only [encode, fieldOp, packWord, BitVec.toNat_ofNat, List.mem_cons, List.mem_nil_iff]; omega) :
    EndsWell i s (Machine.complete ((s.writeB rd n).writeB rd' n')) := .complete (.bnTwo rd rd' n n' ha hd ho hn hn')

theorem EndsWell.cond {i : Instr} {s : State} {c : Bool}
    (ho : fieldOp (encode i) ∈ [0x21, 0x22, 0x23, 0x24, 0x25, 0x26, 0x27, 0x58, 0x59, 0x5A] := by
      simp only [encode, fieldOp, packWord, BitVec.toNat_ofNat, List.mem_cons, List.mem_nil_iff]; omega) :
    EndsWell i s (Machine.complete (s.setC c)) := .complete (.cond c ho)

theorem EndsWell.res {i : Instr} {s : State} {n : Nat}
    (ho : fieldOp (encode i) ∈ [0x09, 0x0A] := by
      simp only [encode, fieldOp, packWord, BitVec.toNat_ofNat, List.mem_cons, List.mem_nil_iff]; omega) :
    EndsWell i s (Machine.complete (s.setRes n)) := .complete (.res n ho)

theorem EndsWell.store {i : Instr} {s : State} {off n : Nat} {bs : List Byte} (hn : n = bs.length)
    (hl : ¬256 < off + n)
    (ho : fieldOp (encode i) ∈ [0x02, 0x05, 0x29, 0x44] := by
      simp only [encode, fieldOp, packWord, BitVec.toNat_ofNat, List.mem_cons, List.mem_nil_iff]; omega) :
    EndsWell i s (Machine.complete ({ s with dbuf := s.dbuf.writeBytes off bs }.setRes n)) := by
  subst hn; exact .complete (.store off bs ho (by omega))

theorem EndsWell.point {i : Instr} {s : State} {pd : PtNum} {c : Curve} {v : PointVal}
    (hv : s.PointsOk → c.inDomain v = true)
    (ha : fieldA (encode i) = pd := by
      apply Fin.ext; simp only [encode, fieldA, packWord, BitVec.toNat_ofNat]; omega)
    (ho : fieldOp (encode i) ∈ [0x40, 0x41, 0x42, 0x43, 0x46, 0x50, 0x51, 0x52, 0x55] := by
      simp only [encode, fieldOp, packWord, BitVec.toNat_ofNat, List.mem_cons, List.mem_nil_iff]; omega) :
    EndsWell i s (Machine.complete (s.writeP pd c v)) := .complete (.point pd c v ha ho hv)

theorem EndsWell.draw {i : Instr} {s : State} {pd : PtNum} {c : Curve}
    (ha : fieldA (encode i) = pd := by
      apply Fin.ext; simp only [encode, fieldA, packWord, BitVec.toNat_ofNat]; omega)
    (ho : fieldOp (encode i) ∈ [0x50, 0x51, 0x52] := by
      simp only [encode, fieldOp, packWord, BitVec.toNat_ofNat, List.mem_cons, List.mem_nil_iff]; omega) :
    EndsWell i s (Machine.complete (s.writeDraw pd c)) := .complete (.draw pd c ha ho)

/-! One lemma a command. -/

section Commands

variable (s : State) (rd rs rs1 rs2 rm rq rr ra rb rx ry rk : BnNum) (pd ps ps1 ps2 : PtNum) (off n : Imm8)
  (cv : CurveField)

theorem ends_nop : EndsWell .nop s (execNop s) := .complete (.nothing (by decide))

theorem ends_bnLdb : EndsWell (.bnLdb rd off n) s (execBnLdb rd off n s) :=
  .ite (fun _ => .raise _) fun _ => .ite (fun _ => .raise _) fun h => .writeB fun _ => by simpa using h

theorem ends_bnStb : EndsWell (.bnStb rs off) s (execBnStb rs off s) :=
  .withB fun h1 => .ite (fun _ => .raise _) fun h => .store (by simp) h

theorem ends_bnFromint : EndsWell (.bnFromint rd) s (execBnFromint rd s) :=
  .ite (fun _ => .raise _) fun _ => .writeB fun _ => by simp

theorem ends_bnLdl : EndsWell (.bnLdl rd off n) s (execBnLdl rd off n s) :=
  .ite (fun _ => .raise _) fun h => .ite (fun _ => .raise _) fun _ => .writeB fun _ => by
    have := limbsOfBytes_length n.val (s.dbuf.readBytes off.val (3 * n.val)) (by simp); have : ¬48 < n.val := h
    simp only [BigNum.size]; omega

theorem ends_bnStl : EndsWell (.bnStl rs off) s (execBnStl rs off s) :=
  .withB fun h1 => .ite (fun _ => .raise _) fun h => .store (by simp [BigNum.size]) h

theorem ends_bnMov : EndsWell (.bnMov rd rs) s (execBnMov rd rs s) :=
  .withB fun h1 => .writeB fun hs => by simpa using h1 hs

theorem ends_bnResize : EndsWell (.bnResize rd rs n) s (execBnResize rd rs n s) :=
  .withB fun h1 => .ite (fun _ => .raise _) fun h => .writeB fun _ => by simpa using h

theorem ends_bnTrim : EndsWell (.bnTrim rd rs) s (execBnTrim rd rs s) :=
  .withB fun h1 => .writeB fun hs => by
    have := h1 hs
    have := (nlimbs_le_iff (s.b rs).num.val (s.b rs).num.size).2 (BigNum.val_lt _)
    simp; omega

theorem ends_bnBitlen : EndsWell (.bnBitlen rs) s (execBnBitlen rs s) :=
  .withB fun h1 => .res

theorem ends_bnSize : EndsWell (.bnSize rs) s (execBnSize rs s) :=
  .withB fun h1 => .res

theorem ends_bnAdd : EndsWell (.bnAdd rd rs1 rs2) s (execBnAdd rd rs1 rs2 s) :=
  .withB fun h1 => .withB fun h2 => .ite (fun _ => .raise _) fun h => .writeB fun _ => by simpa using h

theorem ends_bnSub : EndsWell (.bnSub rd rs1 rs2) s (execBnSub rd rs1 rs2 s) :=
  .withB fun h1 => .withB fun h2 => .ite (fun _ => .raise _) fun _ => .writeB fun hs => by have := h1 hs; have := h2 hs; simp; omega

theorem ends_bnSubge : EndsWell (.bnSubge rd rs1 rs2) s (execBnSubge rd rs1 rs2 s) :=
  .withB fun h1 => .withB fun h2 => .writeB fun hs => by have := h1 hs; have := h2 hs; simp; omega

theorem ends_bnMul : EndsWell (.bnMul rd rs1 rs2) s (execBnMul rd rs1 rs2 s) :=
  .withB fun h1 => .withB fun h2 => .ite (fun _ => .raise _) fun h => .writeB fun _ => by simpa using h

theorem ends_bnSqr : EndsWell (.bnSqr rd rs) s (execBnSqr rd rs s) :=
  .withB fun h1 => .ite (fun _ => .raise _) fun h => .writeB fun _ => by simpa using h

theorem ends_bnDivmod : EndsWell (.bnDivmod rq rr rs1 rs2) s (execBnDivmod rq rr rs1 rs2 s) :=
  .withB fun h1 => .withB fun h2 => .ite (fun _ => .raise _) fun _ => .writeTwo (fun hs => by simpa using h1 hs) fun hs => by simpa using h2 hs

theorem ends_bnDiv : EndsWell (.bnDiv rd rs1 rs2) s (execBnDiv rd rs1 rs2 s) :=
  .withB fun h1 => .withB fun h2 => .ite (fun _ => .raise _) fun _ => .writeB fun hs => by simpa using h1 hs

theorem ends_bnMod : EndsWell (.bnMod rd rs1 rs2) s (execBnMod rd rs1 rs2 s) :=
  .withB fun h1 => .withB fun h2 => .ite (fun _ => .raise _) fun _ => .writeB fun hs => by simpa using h2 hs

theorem ends_bnDivi : EndsWell (.bnDivi rq rr rs1 rs2) s (execBnDivi rq rr rs1 rs2 s) :=
  .withB fun h1 => .withB fun h2 => .ite (fun _ => .raise _) fun _ => .ite (fun _ => .raise _) fun _ => .writeTwo (fun hs => by simpa using h1 hs) fun _ => by simp

theorem ends_bnShl : EndsWell (.bnShl rd rs n) s (execBnShl rd rs n s) :=
  .withB fun h1 => .ite (fun _ => .raise _) fun _ => .ite (fun _ => .raise _) fun h => .writeB fun _ => by simpa using h

theorem ends_bnShr : EndsWell (.bnShr rd rs n) s (execBnShr rd rs n s) :=
  .withB fun h1 => .ite (fun _ => .raise _) fun _ => .writeB fun hs => by simpa using h1 hs

theorem ends_bnAnd : EndsWell (.bnAnd rd rs1 rs2) s (execBnAnd rd rs1 rs2 s) :=
  .withB fun h1 => .withB fun h2 => .writeB fun hs => by have := h1 hs; have := h2 hs; simp; omega

theorem ends_bnOr : EndsWell (.bnOr rd rs1 rs2) s (execBnOr rd rs1 rs2 s) :=
  .withB fun h1 => .withB fun h2 => .writeB fun hs => by have := h1 hs; have := h2 hs; simp; omega

theorem ends_bnXor : EndsWell (.bnXor rd rs1 rs2) s (execBnXor rd rs1 rs2 s) :=
  .withB fun h1 => .withB fun h2 => .writeB fun hs => by have := h1 hs; have := h2 hs; simp; omega

theorem ends_bnNeg : EndsWell (.bnNeg rd rs) s (execBnNeg rd rs s) :=
  .withB fun h1 => .writeB fun hs => by simpa using h1 hs

theorem ends_bnCmp : EndsWell (.bnCmp rs1 rs2) s (execBnCmp rs1 rs2 s) :=
  .withB fun h1 => .withB fun h2 => .complete (.cmp _ (by
    simp only [encode, fieldOp, packWord, BitVec.toNat_ofNat]; omega))

theorem ends_bnEq : EndsWell (.bnEq rs1 rs2) s (execBnEq rs1 rs2 s) :=
  .withB fun h1 => .withB fun h2 => .cond

theorem ends_bnLt : EndsWell (.bnLt rs1 rs2) s (execBnLt rs1 rs2 s) :=
  .withB fun h1 => .withB fun h2 => .cond

theorem ends_bnGe : EndsWell (.bnGe rs1 rs2) s (execBnGe rs1 rs2 s) :=
  .withB fun h1 => .withB fun h2 => .cond

theorem ends_bnBetw : EndsWell (.bnBetw rs ra rb) s (execBnBetw rs ra rb s) :=
  .withB fun h1 => .withB fun h2 => .withB fun h3 => .cond

theorem ends_bnBit (idx : BitIndex) : EndsWell (.bnBit rs idx) s (execBnBit rs idx s) :=
  .withB fun _ => .cond

theorem ends_bnEven : EndsWell (.bnEven rs) s (execBnEven rs s) :=
  .withB fun h1 => .cond

theorem ends_bnOdd : EndsWell (.bnOdd rs) s (execBnOdd rs s) :=
  .withB fun h1 => .cond

theorem ends_bnSel : EndsWell (.bnSel rd rs1 rs2) s (execBnSel rd rs1 rs2 s) :=
  .withB fun h1 => .withB fun h2 => .writeB fun hs => by have := h1 hs; have := h2 hs; simp; omega

theorem ends_bnNyb : EndsWell (.bnNyb rs off) s (execBnNyb rs off s) :=
  .withB fun h1 => .ite (fun _ => .raise _) fun h => .store (by simp) h

theorem ends_bnMadd : EndsWell (.bnMadd rd rs1 rs2 rm) s (execBnMadd rd rs1 rs2 rm s) :=
  .withB fun h1 => .withB fun h2 => .withB fun h3 => .ite (fun _ => .raise _) fun _ => .writeB fun hs => by simpa using h3 hs

theorem ends_bnMsub : EndsWell (.bnMsub rd rs1 rs2 rm) s (execBnMsub rd rs1 rs2 rm s) :=
  .withB fun h1 => .withB fun h2 => .withB fun h3 => .ite (fun _ => .raise _) fun _ => .writeB fun hs => by simpa using h3 hs

theorem ends_bnMmul : EndsWell (.bnMmul rd rs1 rs2 rm) s (execBnMmul rd rs1 rs2 rm s) :=
  .withB fun h1 => .withB fun h2 => .withB fun h3 => .ite (fun _ => .raise _) fun _ => .writeB fun hs => by simpa using h3 hs

theorem ends_bnMexp : EndsWell (.bnMexp rd rs1 rs2 rm) s (execBnMexp rd rs1 rs2 rm s) :=
  .withB fun h1 => .withB fun h2 => .withB fun h3 => .ite (fun _ => .raise _) fun _ => .writeB fun hs => by simpa using h3 hs

theorem ends_ecInf : EndsWell (.ecInf pd cv) s (execEcInf pd cv s) :=
  .withCurve fun c => .point fun _ => c.inDomain_identity

theorem ends_ecLdaff : EndsWell (.ecLdaff pd rx ry cv) s (execEcLdaff pd rx ry cv s) :=
  .withB fun h1 => .withB fun h2 => .withCurve fun c => .point fun _ => by simp [Curve.inDomain, Nat.mod_lt _ c.prime_pos]

theorem ends_ecGen : EndsWell (.ecGen pd cv) s (execEcGen pd cv s) :=
  .withCurve fun c => .point fun _ => c.inDomain_base

theorem ends_ecLdenc : EndsWell (.ecLdenc pd off cv) s (execEcLdenc pd off cv s) :=
  .withCurve fun c => by
    split
    · exact .raise _
    · refine .ite (fun _ => .raise _) fun _ => ?_
      split
      · exact .raise _
      · next h => exact .point fun _ => Curve.inDomain_decode h

theorem ends_ecStenc (z : ZField) : EndsWell (.ecStenc ps off z) s (execEcStenc ps off z s) :=
  .withP fun c v hv => .ite (fun _ => .raise _) fun _ => by
    split
    · exact .raise _
    · exact .ite (fun _ => .raise _) fun h => .store rfl h

theorem ends_ecAff : EndsWell (.ecAff rx ry ps) s (execEcAff rx ry ps s) :=
  .withP fun c v hv => by
    have hl : c.fieldLimbs ≤ 48 := by cases c <;> decide
    split
    · exact .raise _
    · exact .writeTwo (fun _ => by simpa using hl) fun _ => by simpa using hl

theorem ends_ecMov : EndsWell (.ecMov pd ps) s (execEcMov pd ps s) :=
  .withP fun c v hv => .point hv

theorem ends_ecOrder : EndsWell (.ecOrder rd cv) s (execEcOrder rd cv s) :=
  .withCurve fun c => .writeB fun _ => by cases c <;> decide

theorem ends_ecPrime : EndsWell (.ecPrime rd cv) s (execEcPrime rd cv s) :=
  .withCurve fun c => .writeB fun _ => by cases c <;> decide

theorem ends_ecAdd : EndsWell (.ecAdd pd ps1 ps2) s (execEcAdd pd ps1 ps2 s) :=
  .withP fun c v hv => .withP fun c' w hw => .ite (fun _ => .raise _) fun h =>
    .ite (fun _ => .point fun hs => Curve.inDomain_add (hv hs) (by rw [not_not.1 h]; exact hw hs)) fun _ => .draw

theorem ends_ecDbl : EndsWell (.ecDbl pd ps) s (execEcDbl pd ps s) :=
  .withP fun c v hv => .ite (fun _ => .point fun hs => Curve.inDomain_add (hv hs) (hv hs)) fun _ => .draw

theorem ends_ecMul : EndsWell (.ecMul pd ps rk) s (execEcMul pd ps rk s) :=
  .withP fun c v hv => .withB fun _ =>
    .ite (fun _ => .point fun hs => Curve.inDomain_mulBits (hv hs) _ _) fun _ => .draw

theorem ends_ecMktab : EndsWell (.ecMktab ps n) s (execEcMktab ps n s) :=
  .withP fun c v hv => by
    split
    · exact .raise _
    · exact .complete (.attach _ _ (by simp only [encode, fieldOp, packWord, BitVec.toNat_ofNat]; omega))

theorem ends_ecDetab : EndsWell (.ecDetab ps) s (execEcDetab ps s) :=
  .withP fun c v hv => .complete (.detach _ (by
    simp only [encode, fieldOp, packWord, BitVec.toNat_ofNat]; omega))

theorem ends_ecNeg : EndsWell (.ecNeg pd ps) s (execEcNeg pd ps s) :=
  .withP fun c v hv => .point fun hs => Curve.inDomain_neg (hv hs)

theorem ends_ecIson : EndsWell (.ecIson ps) s (execEcIson ps s) :=
  .withP fun c v hv => .cond

theorem ends_ecIsinf : EndsWell (.ecIsinf ps) s (execEcIsinf ps s) :=
  .withP fun c v hv => .cond

theorem ends_ecEq : EndsWell (.ecEq ps1 ps2) s (execEcEq ps1 ps2 s) :=
  .withP fun _ _ _ => .withP fun _ _ _ => .cond

end Commands

/-- Every command ends in the error entry, or complete after one kind of write. -/
theorem exec_endsWell (i : Instr) (s : State) : EndsWell i s (exec i s) := by
  cases i
  · apply ends_nop
  · apply ends_bnLdb
  · apply ends_bnStb
  · apply ends_bnFromint
  · apply ends_bnLdl
  · apply ends_bnStl
  · apply ends_bnMov
  · apply ends_bnResize
  · apply ends_bnTrim
  · apply ends_bnBitlen
  · apply ends_bnSize
  · apply ends_bnAdd
  · apply ends_bnSub
  · apply ends_bnSubge
  · apply ends_bnMul
  · apply ends_bnSqr
  · apply ends_bnDivmod
  · apply ends_bnDiv
  · apply ends_bnMod
  · apply ends_bnDivi
  · apply ends_bnShl
  · apply ends_bnShr
  · apply ends_bnAnd
  · apply ends_bnOr
  · apply ends_bnXor
  · apply ends_bnNeg
  · apply ends_bnCmp
  · apply ends_bnEq
  · apply ends_bnLt
  · apply ends_bnGe
  · apply ends_bnBetw
  · apply ends_bnBit
  · apply ends_bnEven
  · apply ends_bnOdd
  · apply ends_bnSel
  · apply ends_bnNyb
  · apply ends_bnMadd
  · apply ends_bnMsub
  · apply ends_bnMmul
  · apply ends_bnMexp
  · apply ends_ecInf
  · apply ends_ecLdaff
  · apply ends_ecGen
  · apply ends_ecLdenc
  · apply ends_ecStenc
  · apply ends_ecAff
  · apply ends_ecMov
  · apply ends_ecOrder
  · apply ends_ecPrime
  · apply ends_ecAdd
  · apply ends_ecDbl
  · apply ends_ecMul
  · apply ends_ecMktab
  · apply ends_ecDetab
  · apply ends_ecNeg
  · apply ends_ecIson
  · apply ends_ecIsinf
  · apply ends_ecEq

/-- Every command answers a next state: the error entry, or its writes completed. -/
theorem exec_cases {i : Instr} {s t : State} (h : exec i s = .next t) :
    (∃ e, t = s.errorEntry e) ∨ ∃ u, Effect i s u ∧ t = u.completed := by
  rcases exec_endsWell i s with ⟨e, he⟩ | ⟨u, hu, he⟩ <;> rw [he] at h <;> cases h
  · exact .inl ⟨e, rfl⟩
  · exact .inr ⟨u, hu, rfl⟩

theorem exec_next (i : Instr) (s : State) : ∃ t, exec i s = .next t := by
  rcases exec_endsWell i s with ⟨e, he⟩ | ⟨u, -, he⟩
  · exact ⟨_, he⟩
  · exact ⟨_, he⟩

end Sys2Proof.Machine
end

