-- ==== Sys2Proof/Machine/MulPaths.lean ====
section
/-! DEFINITION. The scalar multiplication procedures (spec/44_ec_common.md R364 to R371) and the internal forms of a
point (spec/45_ec_nist.md R391, spec/46_ec_edwards.md R431, R437). No result depends on them (R60, R365): EC.MUL's
meaning is the k-fold sum of R358, and Laws/MulPaths.lean proves that both procedures compute it. -/

namespace Sys2Proof.Machine

/-! ### Tables -/

/-- T[j] = j ·_c v for j = 0 .. 8: the small-multiply table (R342, R366), and one row of the fast-multiply table. -/
def Curve.smallTable (c : Curve) (v : PointVal) : List PointVal := (List.range 9).map (fun j => c.mul j v)

/-- The fast-multiply table of a point: row i holds j ·_c (16^i ·_c v), for i = 0 .. 6·Ln_c (R340, R367). -/
def Curve.fastTable (c : Curve) (v : PointVal) : List (List PointVal) :=
  (List.range (6 * c.orderLimbs + 1)).map (fun i => c.smallTable (c.mul (16 ^ i) v))

/-- The selection by a full scan: every entry is touched, the one of index `j` is kept; `i` is the index of the first
entry (R366, R368). -/
def scanTable (j : Nat) : Nat → List PointVal → PointVal → PointVal
  | _, [], kept => kept
  | i, e :: es, kept => scanTable j (i + 1) es (if i = j then e else kept)

/-- One digit: the entry of |d| negated for a negative digit and added to the accumulator; a zero digit takes index 1
and its sum is masked out (R366, R369). -/
def Curve.addDigit (c : Curve) (table : List PointVal) (q : PointVal) (d : Int) : PointVal :=
  let e := scanTable (if d = 0 then 1 else d.natAbs) 0 table c.identity
  let sum := c.add q (if d < 0 then c.neg e else e)
  if d = 0 then q else sum

/-! ### The two paths -/

/-- Q ← 16 ·_c Q, by four doublings (R366). -/
def Curve.times16 (c : Curve) (q : PointVal) : PointVal :=
  let q2 := c.add q q
  let q4 := c.add q2 q2
  let q8 := c.add q4 q4
  c.add q8 q8

/-- The small-table path over the digits, digit 0 first: from the last down, Q ← 16 ·_c Q and the digit (R366). -/
def Curve.mulSmall (c : Curve) (v : PointVal) : List Int → PointVal
  | [] => c.identity
  | d :: ds => c.addDigit (c.smallTable v) (c.times16 (c.mulSmall v ds)) d

/-- The fast-table path over the digits and the rows, both from position 0: no doublings (R367). -/
def Curve.mulRows (c : Curve) (q : PointVal) : List Int → List (List PointVal) → PointVal
  | d :: ds, row :: rows => c.mulRows (c.addDigit row q d) ds rows
  | [], _ => q
  | _ :: _, [] => q

/-- The fast-table path (R367). -/
def Curve.mulFast (c : Curve) (v : PointVal) (digits : List Int) : PointVal :=
  c.mulRows c.identity digits (c.fastTable v)

/-- How EC.MUL computes k ·_c v for a scalar of capacity `sk`: the digits of BN.NYB (R364); the rows of an attached
table where it has enough of them, else the small table (R366, R367). -/
def Curve.mulPath (c : Curve) (attached : Bool) (sk k : Nat) (v : PointVal) : PointVal :=
  if attached && decide (sk ≤ c.orderLimbs) then c.mulFast v (nybbleDigits sk k)
  else c.mulSmall v (nybbleDigits sk k)

/-! ### The internal forms -/

/-- The affine value of a Jacobian triple (R391): INF where z = 0. -/
def jacobianValue (p x y z : Nat) : PointVal :=
  if z % p = 0 then .inf else .aff (x * invMod p (z ^ 2) % p) (y * invMod p (z ^ 3) % p)

/-- Whether a quadruple is one of extended coordinates: X·Y = Z·T (R431). -/
def isExtended (p x y t z : Nat) : Bool := x * y % p == z * t % p

/-- The affine value of extended coordinates (X, Y, T, Z) (R431). -/
def extendedValue (p x y z : Nat) : PointVal := .aff (x * invMod p z % p) (y * invMod p z % p)

/-- The precomputed form (y − x, y + x, 2·d·x·y) of a table entry (R437). -/
def precomputedForm (p d x y : Nat) : Nat × Nat × Nat := (subMod p y x, (y + x) % p, 2 * d * x * y % p)

end Sys2Proof.Machine
end

