-- ==== Sys2Proof/Laws/MulPaths.lean ====
section
/-! SUPPORT. The signed digits spell the scalar (spec/42_bignum_compare.md R282), and with or without a table the
scalar multiplication procedures compute the k-fold sum (spec/44_ec_common.md R364 to R367). -/

namespace Sys2Proof.Machine

/-! ### The digits -/

/-- sum d_i · 16^i, digit 0 first. -/
def digitSum : List Int → Int
  | [] => 0
  | d :: ds => d + 16 * digitSum ds

theorem digitSum_append (l m : List Int) : digitSum (l ++ m) = digitSum l + 16 ^ l.length * digitSum m := by
  induction l with
  | nil => simp [digitSum]
  | cons d l ih => simp only [List.cons_append, digitSum, ih, List.length_cons, pow_succ]; ring

/-- Fifteen times the bias is 7·(16^(6s) − 1): seven in each of the 6s nybbles (R280). -/
theorem nybbleBias_eq (s : Nat) : 15 * nybbleBias s + 7 = 7 * 16 ^ (6 * s) := by
  induction s with
  | zero => rfl
  | succ s ih =>
    have h : nybbleBias (s + 1) = 0x777777 + 2 ^ 24 * nybbleBias s := rfl
    rw [h, show 6 * (s + 1) = 6 * s + 6 from rfl, pow_add]
    omega

theorem digitSum_range (w n : Nat) :
    15 * digitSum ((List.range n).map (fun i => ((w / 16 ^ i % 16 : Nat) : Int) - 7)) =
      15 * ((w % 16 ^ n : Nat) : Int) - 7 * (16 ^ n - 1) := by
  induction n with
  | zero => simp [digitSum, Nat.mod_one]
  | succ n ih =>
    have h : w % 16 ^ (n + 1) = w % 16 ^ n + 16 ^ n * (w / 16 ^ n % 16) := by rw [pow_succ, Nat.mod_mul]
    rw [List.range_succ, List.map_append, digitSum_append, mul_add, ih, h]
    simp only [List.length_map, List.length_range, List.map_cons, List.map_nil, digitSum]
    push_cast
    ring

/-- The digits spell the value (R282). -/
theorem digitSum_nybbleDigits (s v : Nat) : digitSum (nybbleDigits s v) = v := by
  have h1 := digitSum_range (v + nybbleBias s) (6 * s)
  have h2 := nybbleBias_eq s
  have h3 := Nat.mod_add_div (v + nybbleBias s) (16 ^ (6 * s))
  have h4 : (2 : Nat) ^ (24 * s) = 16 ^ (6 * s) := by
    rw [show (16 : Nat) = 2 ^ 4 from rfl, ← pow_mul]; congr 1; omega
  rw [nybbleDigits, digitSum_append, h4]
  simp only [List.length_map, List.length_range, digitSum]
  have h2' : 15 * (nybbleBias s : Int) + 7 = 7 * 16 ^ (6 * s) := by exact_mod_cast h2
  have h3' : (((v + nybbleBias s) % 16 ^ (6 * s) : Nat) : Int) +
      16 ^ (6 * s) * (((v + nybbleBias s) / 16 ^ (6 * s) : Nat) : Int) = v + nybbleBias s := by exact_mod_cast h3
  linarith

/-- Every digit of a value of that capacity is at most 8 in size (R281). -/
theorem natAbs_nybbleDigits {s v : Nat} (h : v < 2 ^ (24 * s)) : ∀ d ∈ nybbleDigits s v, d.natAbs ≤ 8 := by
  intro d hd
  simp only [nybbleDigits, List.mem_append, List.mem_map, List.mem_range, List.mem_singleton] at hd
  rcases hd with ⟨i, -, rfl⟩ | rfl
  · have := Nat.mod_lt ((v + nybbleBias s) / 16 ^ i) (show 0 < 16 by decide)
    omega
  · have h2 := nybbleBias_eq s
    have h4 : (2 : Nat) ^ (24 * s) = 16 ^ (6 * s) := by
      rw [show (16 : Nat) = 2 ^ 4 from rfl, ← pow_mul]; congr 1; omega
    rw [h4] at h ⊢
    have : (v + nybbleBias s) / 16 ^ (6 * s) < 2 := by
      rw [Nat.div_lt_iff_lt_mul (by positivity)]
      generalize 16 ^ (6 * s) = t at h h2 ⊢
      omega
    rw [Int.natAbs_natCast]
    omega

/-! ### Table entries -/

/-- The scan keeps the entry of that index (R368). -/
theorem scanTable_eq (j i : Nat) (t : List PointVal) (kept : PointVal) (hi : i ≤ j) :
    scanTable j i t kept = t.getD (j - i) kept := by
  induction t generalizing i kept with
  | nil => rfl
  | cons e es ih =>
    rw [scanTable]
    rcases Nat.eq_or_lt_of_le hi with rfl | hlt
    · rw [Nat.sub_self, if_pos rfl]
      have skip : ∀ (l : List PointVal) (n : Nat) (x : PointVal), i < n → scanTable i n l x = x := by
        intro l
        induction l with
        | nil => intros; rfl
        | cons a l ihl => intro n x hn; rw [scanTable, if_neg (by omega)]; exact ihl _ _ (by omega)
      exact skip es _ _ (Nat.lt_succ_self i)
    · rw [if_neg (by omega), ih _ _ (by omega), show j - i = j - (i + 1) + 1 from by omega]
      simp

namespace GroupModel

variable {c : Curve} {G : Type} [AddCommGroup G] {R : PointVal → G → Prop}

theorem mul (h : GroupModel c G R) {v : PointVal} {P : G} (hv : R v P) (k : Nat) : R (c.mul k v) (k • P) :=
  h.mulBits hv _ _ (lt_two_pow_bitlen k)

theorem smallTable (h : GroupModel c G R) {v : PointVal} {P : G} (hv : R v P) {j : Nat} (hj : j ≤ 8) (x : PointVal) :
    R (scanTable j 0 (c.smallTable v) x) (j • P) := by
  rw [scanTable_eq _ _ _ _ (Nat.zero_le j), Nat.sub_zero, Curve.smallTable,
    List.getD_eq_getElem _ _ (by simp; omega)]
  simpa using h.mul hv j

/-- One digit adds that multiple of the row's point, the zero digit adding nothing (R366, R369). -/
theorem addDigit (h : GroupModel c G R) {v q : PointVal} {P Q : G} (hv : R v P) (hq : R q Q) {d : Int}
    (hd : d.natAbs ≤ 8) : R (c.addDigit (c.smallTable v) q d) (Q + d • P) := by
  rw [Curve.addDigit]
  by_cases h0 : d = 0
  · subst h0; simpa using hq
  · have he := h.smallTable hv hd c.identity
    rw [← natCast_zsmul] at he
    simp only [if_neg h0]
    split
    · next hn =>
      have := h.add hq (h.neg he)
      rwa [← neg_zsmul, show -((d.natAbs : Nat) : Int) = d from by omega] at this
    · next hn =>
      have := h.add hq he
      rwa [show ((d.natAbs : Nat) : Int) = d from by omega] at this

/-- Four doublings multiply by 16 (R366, 90_conflicts.md C4). -/
theorem times16 (h : GroupModel c G R) {q : PointVal} {Q : G} (hq : R q Q) : R (c.times16 q) ((16 : Int) • Q) := by
  have h2 := h.add hq hq
  have h4 := h.add h2 h2
  have h8 := h.add h4 h4
  have h16 := h.add h8 h8
  have e : (16 : Int) • Q = Q + Q + (Q + Q) + (Q + Q + (Q + Q)) + (Q + Q + (Q + Q) + (Q + Q + (Q + Q))) := by
    simp only [← two_zsmul, ← mul_zsmul]; rfl
  rw [e]
  exact h16

theorem mulSmall (h : GroupModel c G R) {v : PointVal} {P : G} (hv : R v P) (ds : List Int)
    (hd : ∀ d ∈ ds, d.natAbs ≤ 8) : R (c.mulSmall v ds) (digitSum ds • P) := by
  induction ds with
  | nil => simpa [digitSum, Curve.mulSmall] using h.identity
  | cons d ds ih =>
    have h1 := h.addDigit hv (h.times16 (ih fun x hx => hd x (List.mem_cons_of_mem _ hx))) (hd d List.mem_cons_self)
    rw [Curve.mulSmall, digitSum, add_comm, add_zsmul, mul_zsmul]
    exact h1

theorem mulRows (h : GroupModel c G R) {v : PointVal} {P : G} (hv : R v P) (ds : List Int)
    (hd : ∀ d ∈ ds, d.natAbs ≤ 8) (i n : Nat) (hn : ds.length ≤ n) {q : PointVal} {Q : G} (hq : R q Q) :
    R (c.mulRows q ds ((List.range' i n).map fun i => c.smallTable (c.mul (16 ^ i) v)))
      (Q + (16 ^ i * digitSum ds) • P) := by
  induction ds generalizing i n q Q with
  | nil => simpa [digitSum, Curve.mulRows] using hq
  | cons d ds ih =>
    obtain ⟨n, rfl⟩ : ∃ m, n = m + 1 := ⟨n - 1, by simp at hn; omega⟩
    rw [List.range'_succ, List.map_cons, Curve.mulRows]
    have h1 := h.addDigit (h.mul hv (16 ^ i)) hq (hd d List.mem_cons_self)
    have h2 := ih (fun x hx => hd x (List.mem_cons_of_mem _ hx)) (i + 1) n (by simpa using hn) h1
    have e : Q + (16 ^ i * digitSum (d :: ds)) • P =
        Q + d • ((16 ^ i : Nat) • P) + (16 ^ (i + 1) * digitSum ds) • P := by
      rw [add_assoc, ← natCast_zsmul, ← mul_zsmul, ← add_zsmul, digitSum]
      congr 2
      push_cast
      ring
    rw [e]
    exact h2

end GroupModel

/-- With or without a table, the procedure of R364 to R367 computes the k-fold sum of a well-formed value (R365). -/
theorem Curve.mulPath_eq_kFold {c : Curve} {v : PointVal} (hw : c.wellFormed v = true) (hd : c.inDomain v = true)
    (attached : Bool) {sk k : Nat} (hk : k < 2 ^ (24 * sk)) : c.mulPath attached sk k v = c.kFold v k := by
  obtain ⟨G, _, R, h⟩ := c.exists_groupModel
  obtain ⟨P, hP⟩ := h.exists_of_wellFormed hw hd
  have hdig := natAbs_nybbleDigits hk
  refine h.unique (P := k • P) ?_ (h.kFold hP k)
  rw [← natCast_zsmul, ← digitSum_nybbleDigits sk k, Curve.mulPath]
  split
  · next hs =>
    have hs' : sk ≤ c.orderLimbs := by simp at hs; exact hs.2
    have := h.mulRows hP _ hdig 0 (6 * c.orderLimbs + 1) (by rw [nybbleDigits_length]; omega) h.identity
    rw [zero_add, pow_zero, one_mul, ← List.range_eq_range'] at this
    exact this
  · exact h.mulSmall hP _ hdig

/-! ### The internal forms -/

/-- A Jacobian triple (X·z², Y·z³, z) with z ≠ 0 has the value (X, Y) (R391). -/
theorem jacobianValue_scaled {p x y z : Nat} [hp : Fact p.Prime] (hx : x < p) (hy : y < p) (hz : (z : ZMod p) ≠ 0) :
    jacobianValue p (x * z ^ 2) (y * z ^ 3) z = .aff x y := by
  have hz0 : z % p ≠ 0 := fun h => hz ((ZMod.natCast_eq_zero_iff z p).2 (Nat.dvd_of_mod_eq_zero h))
  have key : ∀ (a e : Nat), a < p → a * z ^ e * invMod p (z ^ e) % p = a := by
    intro a e ha
    apply natCast_inj_of_lt (Nat.mod_lt _ hp.out.pos) ha
    have he : ((z ^ e : Nat) : ZMod p) ≠ 0 := by push_cast; exact pow_ne_zero _ hz
    rw [ZMod.natCast_mod, Nat.cast_mul, Nat.cast_mul, invMod_cast_eq he, mul_assoc, mul_inv_cancel₀ he, mul_one]
  rw [jacobianValue, if_neg hz0, key x 2 hx, key y 3 hy]

/-- Extended coordinates (X·z, Y·z, X·Y·z, z) with z ≠ 0 are extended coordinates of (X, Y) (R431). -/
theorem extendedValue_scaled {p x y z : Nat} [hp : Fact p.Prime] (hx : x < p) (hy : y < p) (hz : (z : ZMod p) ≠ 0) :
    isExtended p (x * z) (y * z) (x * y * z) z = true ∧ extendedValue p (x * z) (y * z) z = .aff x y := by
  have key : ∀ a : Nat, a < p → a * z * invMod p z % p = a := by
    intro a ha
    apply natCast_inj_of_lt (Nat.mod_lt _ hp.out.pos) ha
    rw [ZMod.natCast_mod, Nat.cast_mul, Nat.cast_mul, invMod_cast_eq hz, mul_assoc, mul_inv_cancel₀ hz, mul_one]
  refine ⟨?_, by rw [extendedValue, key x hx, key y hy]⟩
  rw [isExtended, beq_iff_eq]
  congr 1; ring

end Sys2Proof.Machine
end

