-- ==== Sys2Proof/Laws/PerInstr.lean ====
section
/-! SUPPORT. Statements made of every command, one lemma a constructor. `OpcodeInMap`: the opcode field of a command's
word is the opcode of a row of the map (spec/30_encoding.md R116). -/

namespace Sys2Proof.Laws.OpcodeInMap

/-- The opcode field of the command's word is an opcode of the map. -/
def Statement (i : Instr) : Prop := (opcodeTable.any fun r => r.1.toNat / 2 ^ 24 == fieldOp (encode i)) = true

/-- A word packed from fields in range with an opcode of the map. -/
theorem of_packWord {op a b c d i : Nat} (h : (opcodeTable.any fun r => r.1.toNat / 2 ^ 24 == op) = true)
    (ho : op < 256) (ha : a < 16) (hb : b < 16) (hc : c < 16) (hd : d < 16) (hi : i < 256) :
    (opcodeTable.any fun r => r.1.toNat / 2 ^ 24 == fieldOp (packWord op a b c d i)) = true := by
  rw [fieldOp_packWord ho ha hb hc hd hi]; exact h

theorem nop : Statement .nop := by
  exact of_packWord (by decide) (by omega) (by omega) (by omega) (by omega) (by omega) (by omega)

theorem bnLdb (rd : BnNum) (off : Imm8) (len : Imm8) : Statement (.bnLdb rd off len) := by
  have h0 := rd.isLt; have h1 := off.isLt; have h2 := len.isLt; exact of_packWord (by decide) (by omega) (by omega) (by omega) (by omega) (by omega) (by omega)

theorem bnStb (rs : BnNum) (off : Imm8) : Statement (.bnStb rs off) := by
  have h0 := rs.isLt; have h1 := off.isLt; exact of_packWord (by decide) (by omega) (by omega) (by omega) (by omega) (by omega) (by omega)

theorem bnFromint (rd : BnNum) : Statement (.bnFromint rd) := by
  have h0 := rd.isLt; exact of_packWord (by decide) (by omega) (by omega) (by omega) (by omega) (by omega) (by omega)

theorem bnLdl (rd : BnNum) (off : Imm8) (n : Imm8) : Statement (.bnLdl rd off n) := by
  have h0 := rd.isLt; have h1 := off.isLt; have h2 := n.isLt; exact of_packWord (by decide) (by omega) (by omega) (by omega) (by omega) (by omega) (by omega)

theorem bnStl (rs : BnNum) (off : Imm8) : Statement (.bnStl rs off) := by
  have h0 := rs.isLt; have h1 := off.isLt; exact of_packWord (by decide) (by omega) (by omega) (by omega) (by omega) (by omega) (by omega)

theorem bnMov (rd : BnNum) (rs : BnNum) : Statement (.bnMov rd rs) := by
  have h0 := rd.isLt; have h1 := rs.isLt; exact of_packWord (by decide) (by omega) (by omega) (by omega) (by omega) (by omega) (by omega)

theorem bnResize (rd : BnNum) (rs : BnNum) (n : Imm8) : Statement (.bnResize rd rs n) := by
  have h0 := rd.isLt; have h1 := rs.isLt; have h2 := n.isLt; exact of_packWord (by decide) (by omega) (by omega) (by omega) (by omega) (by omega) (by omega)

theorem bnTrim (rd : BnNum) (rs : BnNum) : Statement (.bnTrim rd rs) := by
  have h0 := rd.isLt; have h1 := rs.isLt; exact of_packWord (by decide) (by omega) (by omega) (by omega) (by omega) (by omega) (by omega)

theorem bnBitlen (rs : BnNum) : Statement (.bnBitlen rs) := by
  have h0 := rs.isLt; exact of_packWord (by decide) (by omega) (by omega) (by omega) (by omega) (by omega) (by omega)

theorem bnSize (rs : BnNum) : Statement (.bnSize rs) := by
  have h0 := rs.isLt; exact of_packWord (by decide) (by omega) (by omega) (by omega) (by omega) (by omega) (by omega)

theorem bnAdd (rd : BnNum) (rs1 : BnNum) (rs2 : BnNum) : Statement (.bnAdd rd rs1 rs2) := by
  have h0 := rd.isLt; have h1 := rs1.isLt; have h2 := rs2.isLt; exact of_packWord (by decide) (by omega) (by omega) (by omega) (by omega) (by omega) (by omega)

theorem bnSub (rd : BnNum) (rs1 : BnNum) (rs2 : BnNum) : Statement (.bnSub rd rs1 rs2) := by
  have h0 := rd.isLt; have h1 := rs1.isLt; have h2 := rs2.isLt; exact of_packWord (by decide) (by omega) (by omega) (by omega) (by omega) (by omega) (by omega)

theorem bnSubge (rd : BnNum) (rs1 : BnNum) (rs2 : BnNum) : Statement (.bnSubge rd rs1 rs2) := by
  have h0 := rd.isLt; have h1 := rs1.isLt; have h2 := rs2.isLt; exact of_packWord (by decide) (by omega) (by omega) (by omega) (by omega) (by omega) (by omega)

theorem bnMul (rd : BnNum) (rs1 : BnNum) (rs2 : BnNum) : Statement (.bnMul rd rs1 rs2) := by
  have h0 := rd.isLt; have h1 := rs1.isLt; have h2 := rs2.isLt; exact of_packWord (by decide) (by omega) (by omega) (by omega) (by omega) (by omega) (by omega)

theorem bnSqr (rd : BnNum) (rs : BnNum) : Statement (.bnSqr rd rs) := by
  have h0 := rd.isLt; have h1 := rs.isLt; exact of_packWord (by decide) (by omega) (by omega) (by omega) (by omega) (by omega) (by omega)

theorem bnDivmod (rq : BnNum) (rr : BnNum) (rs1 : BnNum) (rs2 : BnNum) : Statement (.bnDivmod rq rr rs1 rs2) := by
  have h0 := rq.isLt; have h1 := rr.isLt; have h2 := rs1.isLt; have h3 := rs2.isLt; exact of_packWord (by decide) (by omega) (by omega) (by omega) (by omega) (by omega) (by omega)

theorem bnDiv (rd : BnNum) (rs1 : BnNum) (rs2 : BnNum) : Statement (.bnDiv rd rs1 rs2) := by
  have h0 := rd.isLt; have h1 := rs1.isLt; have h2 := rs2.isLt; exact of_packWord (by decide) (by omega) (by omega) (by omega) (by omega) (by omega) (by omega)

theorem bnMod (rd : BnNum) (rs1 : BnNum) (rs2 : BnNum) : Statement (.bnMod rd rs1 rs2) := by
  have h0 := rd.isLt; have h1 := rs1.isLt; have h2 := rs2.isLt; exact of_packWord (by decide) (by omega) (by omega) (by omega) (by omega) (by omega) (by omega)

theorem bnDivi (rq : BnNum) (rr : BnNum) (rs1 : BnNum) (rs2 : BnNum) : Statement (.bnDivi rq rr rs1 rs2) := by
  have h0 := rq.isLt; have h1 := rr.isLt; have h2 := rs1.isLt; have h3 := rs2.isLt; exact of_packWord (by decide) (by omega) (by omega) (by omega) (by omega) (by omega) (by omega)

theorem bnShl (rd : BnNum) (rs : BnNum) (sh : Imm8) : Statement (.bnShl rd rs sh) := by
  have h0 := rd.isLt; have h1 := rs.isLt; have h2 := sh.isLt; exact of_packWord (by decide) (by omega) (by omega) (by omega) (by omega) (by omega) (by omega)

theorem bnShr (rd : BnNum) (rs : BnNum) (sh : Imm8) : Statement (.bnShr rd rs sh) := by
  have h0 := rd.isLt; have h1 := rs.isLt; have h2 := sh.isLt; exact of_packWord (by decide) (by omega) (by omega) (by omega) (by omega) (by omega) (by omega)

theorem bnAnd (rd : BnNum) (rs1 : BnNum) (rs2 : BnNum) : Statement (.bnAnd rd rs1 rs2) := by
  have h0 := rd.isLt; have h1 := rs1.isLt; have h2 := rs2.isLt; exact of_packWord (by decide) (by omega) (by omega) (by omega) (by omega) (by omega) (by omega)

theorem bnOr (rd : BnNum) (rs1 : BnNum) (rs2 : BnNum) : Statement (.bnOr rd rs1 rs2) := by
  have h0 := rd.isLt; have h1 := rs1.isLt; have h2 := rs2.isLt; exact of_packWord (by decide) (by omega) (by omega) (by omega) (by omega) (by omega) (by omega)

theorem bnXor (rd : BnNum) (rs1 : BnNum) (rs2 : BnNum) : Statement (.bnXor rd rs1 rs2) := by
  have h0 := rd.isLt; have h1 := rs1.isLt; have h2 := rs2.isLt; exact of_packWord (by decide) (by omega) (by omega) (by omega) (by omega) (by omega) (by omega)

theorem bnNeg (rd : BnNum) (rs : BnNum) : Statement (.bnNeg rd rs) := by
  have h0 := rd.isLt; have h1 := rs.isLt; exact of_packWord (by decide) (by omega) (by omega) (by omega) (by omega) (by omega) (by omega)

theorem bnCmp (rs1 : BnNum) (rs2 : BnNum) : Statement (.bnCmp rs1 rs2) := by
  have h0 := rs1.isLt; have h1 := rs2.isLt; exact of_packWord (by decide) (by omega) (by omega) (by omega) (by omega) (by omega) (by omega)

theorem bnEq (rs1 : BnNum) (rs2 : BnNum) : Statement (.bnEq rs1 rs2) := by
  have h0 := rs1.isLt; have h1 := rs2.isLt; exact of_packWord (by decide) (by omega) (by omega) (by omega) (by omega) (by omega) (by omega)

theorem bnLt (rs1 : BnNum) (rs2 : BnNum) : Statement (.bnLt rs1 rs2) := by
  have h0 := rs1.isLt; have h1 := rs2.isLt; exact of_packWord (by decide) (by omega) (by omega) (by omega) (by omega) (by omega) (by omega)

theorem bnGe (rs1 : BnNum) (rs2 : BnNum) : Statement (.bnGe rs1 rs2) := by
  have h0 := rs1.isLt; have h1 := rs2.isLt; exact of_packWord (by decide) (by omega) (by omega) (by omega) (by omega) (by omega) (by omega)

theorem bnBetw (rs : BnNum) (ra : BnNum) (rb : BnNum) : Statement (.bnBetw rs ra rb) := by
  have h0 := rs.isLt; have h1 := ra.isLt; have h2 := rb.isLt; exact of_packWord (by decide) (by omega) (by omega) (by omega) (by omega) (by omega) (by omega)

theorem bnBit (rs : BnNum) (idx : BitIndex) : Statement (.bnBit rs idx) := by
  have h0 := rs.isLt; have h1 := idx.isLt; exact of_packWord (by decide) (by omega) (by omega) (by omega) (by omega) (by omega) (by omega)

theorem bnEven (rs : BnNum) : Statement (.bnEven rs) := by
  have h0 := rs.isLt; exact of_packWord (by decide) (by omega) (by omega) (by omega) (by omega) (by omega) (by omega)

theorem bnOdd (rs : BnNum) : Statement (.bnOdd rs) := by
  have h0 := rs.isLt; exact of_packWord (by decide) (by omega) (by omega) (by omega) (by omega) (by omega) (by omega)

theorem bnSel (rd : BnNum) (rs1 : BnNum) (rs2 : BnNum) : Statement (.bnSel rd rs1 rs2) := by
  have h0 := rd.isLt; have h1 := rs1.isLt; have h2 := rs2.isLt; exact of_packWord (by decide) (by omega) (by omega) (by omega) (by omega) (by omega) (by omega)

theorem bnNyb (rs : BnNum) (off : Imm8) : Statement (.bnNyb rs off) := by
  have h0 := rs.isLt; have h1 := off.isLt; exact of_packWord (by decide) (by omega) (by omega) (by omega) (by omega) (by omega) (by omega)

theorem bnMadd (rd : BnNum) (rs1 : BnNum) (rs2 : BnNum) (rm : BnNum) : Statement (.bnMadd rd rs1 rs2 rm) := by
  have h0 := rd.isLt; have h1 := rs1.isLt; have h2 := rs2.isLt; have h3 := rm.isLt; exact of_packWord (by decide) (by omega) (by omega) (by omega) (by omega) (by omega) (by omega)

theorem bnMsub (rd : BnNum) (rs1 : BnNum) (rs2 : BnNum) (rm : BnNum) : Statement (.bnMsub rd rs1 rs2 rm) := by
  have h0 := rd.isLt; have h1 := rs1.isLt; have h2 := rs2.isLt; have h3 := rm.isLt; exact of_packWord (by decide) (by omega) (by omega) (by omega) (by omega) (by omega) (by omega)

theorem bnMmul (rd : BnNum) (rs1 : BnNum) (rs2 : BnNum) (rm : BnNum) : Statement (.bnMmul rd rs1 rs2 rm) := by
  have h0 := rd.isLt; have h1 := rs1.isLt; have h2 := rs2.isLt; have h3 := rm.isLt; exact of_packWord (by decide) (by omega) (by omega) (by omega) (by omega) (by omega) (by omega)

theorem bnMexp (rd : BnNum) (rs1 : BnNum) (rs2 : BnNum) (rm : BnNum) : Statement (.bnMexp rd rs1 rs2 rm) := by
  have h0 := rd.isLt; have h1 := rs1.isLt; have h2 := rs2.isLt; have h3 := rm.isLt; exact of_packWord (by decide) (by omega) (by omega) (by omega) (by omega) (by omega) (by omega)

theorem ecInf (pd : PtNum) (cv : CurveField) : Statement (.ecInf pd cv) := by
  have h0 := pd.isLt; have h1 := cv.isLt; exact of_packWord (by decide) (by omega) (by omega) (by omega) (by omega) (by omega) (by omega)

theorem ecLdaff (pd : PtNum) (rx : BnNum) (ry : BnNum) (cv : CurveField) : Statement (.ecLdaff pd rx ry cv) := by
  have h0 := pd.isLt; have h1 := rx.isLt; have h2 := ry.isLt; have h3 := cv.isLt; exact of_packWord (by decide) (by omega) (by omega) (by omega) (by omega) (by omega) (by omega)

theorem ecGen (pd : PtNum) (cv : CurveField) : Statement (.ecGen pd cv) := by
  have h0 := pd.isLt; have h1 := cv.isLt; exact of_packWord (by decide) (by omega) (by omega) (by omega) (by omega) (by omega) (by omega)

theorem ecLdenc (pd : PtNum) (off : Imm8) (cv : CurveField) : Statement (.ecLdenc pd off cv) := by
  have h0 := pd.isLt; have h1 := off.isLt; have h2 := cv.isLt; exact of_packWord (by decide) (by omega) (by omega) (by omega) (by omega) (by omega) (by omega)

theorem ecStenc (ps : PtNum) (off : Imm8) (z : ZField) : Statement (.ecStenc ps off z) := by
  have h0 := ps.isLt; have h1 := off.isLt; have h2 := z.isLt; exact of_packWord (by decide) (by omega) (by omega) (by omega) (by omega) (by omega) (by omega)

theorem ecAff (rx : BnNum) (ry : BnNum) (ps : PtNum) : Statement (.ecAff rx ry ps) := by
  have h0 := rx.isLt; have h1 := ry.isLt; have h2 := ps.isLt; exact of_packWord (by decide) (by omega) (by omega) (by omega) (by omega) (by omega) (by omega)

theorem ecMov (pd : PtNum) (ps : PtNum) : Statement (.ecMov pd ps) := by
  have h0 := pd.isLt; have h1 := ps.isLt; exact of_packWord (by decide) (by omega) (by omega) (by omega) (by omega) (by omega) (by omega)

theorem ecOrder (rd : BnNum) (cv : CurveField) : Statement (.ecOrder rd cv) := by
  have h0 := rd.isLt; have h1 := cv.isLt; exact of_packWord (by decide) (by omega) (by omega) (by omega) (by omega) (by omega) (by omega)

theorem ecPrime (rd : BnNum) (cv : CurveField) : Statement (.ecPrime rd cv) := by
  have h0 := rd.isLt; have h1 := cv.isLt; exact of_packWord (by decide) (by omega) (by omega) (by omega) (by omega) (by omega) (by omega)

theorem ecAdd (pd : PtNum) (ps1 : PtNum) (ps2 : PtNum) : Statement (.ecAdd pd ps1 ps2) := by
  have h0 := pd.isLt; have h1 := ps1.isLt; have h2 := ps2.isLt; exact of_packWord (by decide) (by omega) (by omega) (by omega) (by omega) (by omega) (by omega)

theorem ecDbl (pd : PtNum) (ps : PtNum) : Statement (.ecDbl pd ps) := by
  have h0 := pd.isLt; have h1 := ps.isLt; exact of_packWord (by decide) (by omega) (by omega) (by omega) (by omega) (by omega) (by omega)

theorem ecMul (pd : PtNum) (ps : PtNum) (rk : BnNum) : Statement (.ecMul pd ps rk) := by
  have h0 := pd.isLt; have h1 := ps.isLt; have h2 := rk.isLt; exact of_packWord (by decide) (by omega) (by omega) (by omega) (by omega) (by omega) (by omega)

theorem ecMktab (ps : PtNum) (slot : Imm8) : Statement (.ecMktab ps slot) := by
  have h0 := ps.isLt; have h1 := slot.isLt; exact of_packWord (by decide) (by omega) (by omega) (by omega) (by omega) (by omega) (by omega)

theorem ecDetab (ps : PtNum) : Statement (.ecDetab ps) := by
  have h0 := ps.isLt; exact of_packWord (by decide) (by omega) (by omega) (by omega) (by omega) (by omega) (by omega)

theorem ecNeg (pd : PtNum) (ps : PtNum) : Statement (.ecNeg pd ps) := by
  have h0 := pd.isLt; have h1 := ps.isLt; exact of_packWord (by decide) (by omega) (by omega) (by omega) (by omega) (by omega) (by omega)

theorem ecIson (ps : PtNum) : Statement (.ecIson ps) := by
  have h0 := ps.isLt; exact of_packWord (by decide) (by omega) (by omega) (by omega) (by omega) (by omega) (by omega)

theorem ecIsinf (ps : PtNum) : Statement (.ecIsinf ps) := by
  have h0 := ps.isLt; exact of_packWord (by decide) (by omega) (by omega) (by omega) (by omega) (by omega) (by omega)

theorem ecEq (ps1 : PtNum) (ps2 : PtNum) : Statement (.ecEq ps1 ps2) := by
  have h0 := ps1.isLt; have h1 := ps2.isLt; exact of_packWord (by decide) (by omega) (by omega) (by omega) (by omega) (by omega) (by omega)

end Sys2Proof.Laws.OpcodeInMap
end

