-- ==== Sys2Proof/Machine/HostProgram.lean ====
section
/-! DEFINITION. The host's program notation (spec/30_encoding.md R122 to R124): the assembler text of a command, the
pseudo-instructions and their expansions, and a host program as the events the step reads. The machine does not depend
on this file: a pseudo-instruction is only its expansion, and what a program does is what its events do. -/

namespace Sys2Proof.Machine

/-! ### Assembler text (R122) -/

/-- An immediate, in decimal. -/
def immText (n : Nat) : String := String.ofList (Nat.toDigits 10 n)

/-- A register's name: b0..b15 or p0..p15. -/
def regName (letter : String) (r : Fin 16) : String := letter ++ immText r.val

/-- A curve's name, or its number where it has none. -/
def curveText (cv : CurveField) : String :=
  match cv.val with
  | 0 => "P256"
  | 1 => "P384"
  | 2 => "P521"
  | 3 => "ED25519"
  | 4 => "X25519"
  | n => immText n

/-- The operands after the mnemonic, separated by commas. -/
def operandText : List String → String
  | [] => ""
  | [o] => " " ++ o
  | o :: os => " " ++ o ++ "," ++ operandText os

/-- The line of assembler that assembles to the command, its operands in the order of R112. -/
def asmText : Instr → String
  | .nop => "NOP" ++ operandText []
  | .bnLdb rd off len => "BN.LDB" ++ operandText [regName "b" rd, immText off.val, immText len.val]
  | .bnStb rs off => "BN.STB" ++ operandText [regName "b" rs, immText off.val]
  | .bnFromint rd => "BN.FROMINT" ++ operandText [regName "b" rd]
  | .bnLdl rd off n => "BN.LDL" ++ operandText [regName "b" rd, immText off.val, immText n.val]
  | .bnStl rs off => "BN.STL" ++ operandText [regName "b" rs, immText off.val]
  | .bnMov rd rs => "BN.MOV" ++ operandText [regName "b" rd, regName "b" rs]
  | .bnResize rd rs n => "BN.RESIZE" ++ operandText [regName "b" rd, regName "b" rs, immText n.val]
  | .bnTrim rd rs => "BN.TRIM" ++ operandText [regName "b" rd, regName "b" rs]
  | .bnBitlen rs => "BN.BITLEN" ++ operandText [regName "b" rs]
  | .bnSize rs => "BN.SIZE" ++ operandText [regName "b" rs]
  | .bnAdd rd rs1 rs2 => "BN.ADD" ++ operandText [regName "b" rd, regName "b" rs1, regName "b" rs2]
  | .bnSub rd rs1 rs2 => "BN.SUB" ++ operandText [regName "b" rd, regName "b" rs1, regName "b" rs2]
  | .bnSubge rd rs1 rs2 => "BN.SUBGE" ++ operandText [regName "b" rd, regName "b" rs1, regName "b" rs2]
  | .bnMul rd rs1 rs2 => "BN.MUL" ++ operandText [regName "b" rd, regName "b" rs1, regName "b" rs2]
  | .bnSqr rd rs => "BN.SQR" ++ operandText [regName "b" rd, regName "b" rs]
  | .bnDivmod rq rr rs1 rs2 => "BN.DIVMOD" ++ operandText [regName "b" rq, regName "b" rr, regName "b" rs1, regName "b" rs2]
  | .bnDiv rd rs1 rs2 => "BN.DIV" ++ operandText [regName "b" rd, regName "b" rs1, regName "b" rs2]
  | .bnMod rd rs1 rs2 => "BN.MOD" ++ operandText [regName "b" rd, regName "b" rs1, regName "b" rs2]
  | .bnDivi rq rr rs1 rs2 => "BN.DIVI" ++ operandText [regName "b" rq, regName "b" rr, regName "b" rs1, regName "b" rs2]
  | .bnShl rd rs sh => "BN.SHL" ++ operandText [regName "b" rd, regName "b" rs, immText sh.val]
  | .bnShr rd rs sh => "BN.SHR" ++ operandText [regName "b" rd, regName "b" rs, immText sh.val]
  | .bnAnd rd rs1 rs2 => "BN.AND" ++ operandText [regName "b" rd, regName "b" rs1, regName "b" rs2]
  | .bnOr rd rs1 rs2 => "BN.OR" ++ operandText [regName "b" rd, regName "b" rs1, regName "b" rs2]
  | .bnXor rd rs1 rs2 => "BN.XOR" ++ operandText [regName "b" rd, regName "b" rs1, regName "b" rs2]
  | .bnNeg rd rs => "BN.NEG" ++ operandText [regName "b" rd, regName "b" rs]
  | .bnCmp rs1 rs2 => "BN.CMP" ++ operandText [regName "b" rs1, regName "b" rs2]
  | .bnEq rs1 rs2 => "BN.EQ" ++ operandText [regName "b" rs1, regName "b" rs2]
  | .bnLt rs1 rs2 => "BN.LT" ++ operandText [regName "b" rs1, regName "b" rs2]
  | .bnGe rs1 rs2 => "BN.GE" ++ operandText [regName "b" rs1, regName "b" rs2]
  | .bnBetw rs ra rb => "BN.BETW" ++ operandText [regName "b" rs, regName "b" ra, regName "b" rb]
  | .bnBit rs idx => "BN.BIT" ++ operandText [regName "b" rs, immText idx.val]
  | .bnEven rs => "BN.EVEN" ++ operandText [regName "b" rs]
  | .bnOdd rs => "BN.ODD" ++ operandText [regName "b" rs]
  | .bnSel rd rs1 rs2 => "BN.SEL" ++ operandText [regName "b" rd, regName "b" rs1, regName "b" rs2]
  | .bnNyb rs off => "BN.NYB" ++ operandText [regName "b" rs, immText off.val]
  | .bnMadd rd rs1 rs2 rm => "BN.MADD" ++ operandText [regName "b" rd, regName "b" rs1, regName "b" rs2, regName "b" rm]
  | .bnMsub rd rs1 rs2 rm => "BN.MSUB" ++ operandText [regName "b" rd, regName "b" rs1, regName "b" rs2, regName "b" rm]
  | .bnMmul rd rs1 rs2 rm => "BN.MMUL" ++ operandText [regName "b" rd, regName "b" rs1, regName "b" rs2, regName "b" rm]
  | .bnMexp rd rs1 rs2 rm => "BN.MEXP" ++ operandText [regName "b" rd, regName "b" rs1, regName "b" rs2, regName "b" rm]
  | .ecInf pd cv => "EC.INF" ++ operandText [regName "p" pd, curveText cv]
  | .ecLdaff pd rx ry cv => "EC.LDAFF" ++ operandText [regName "p" pd, regName "b" rx, regName "b" ry, curveText cv]
  | .ecGen pd cv => "EC.GEN" ++ operandText [regName "p" pd, curveText cv]
  | .ecLdenc pd off cv => "EC.LDENC" ++ operandText [regName "p" pd, immText off.val, curveText cv]
  | .ecStenc ps off z => "EC.STENC" ++ operandText [regName "p" ps, immText off.val, immText z.val]
  | .ecAff rx ry ps => "EC.AFF" ++ operandText [regName "b" rx, regName "b" ry, regName "p" ps]
  | .ecMov pd ps => "EC.MOV" ++ operandText [regName "p" pd, regName "p" ps]
  | .ecOrder rd cv => "EC.ORDER" ++ operandText [regName "b" rd, curveText cv]
  | .ecPrime rd cv => "EC.PRIME" ++ operandText [regName "b" rd, curveText cv]
  | .ecAdd pd ps1 ps2 => "EC.ADD" ++ operandText [regName "p" pd, regName "p" ps1, regName "p" ps2]
  | .ecDbl pd ps => "EC.DBL" ++ operandText [regName "p" pd, regName "p" ps]
  | .ecMul pd ps rk => "EC.MUL" ++ operandText [regName "p" pd, regName "p" ps, regName "b" rk]
  | .ecMktab ps slot => "EC.MKTAB" ++ operandText [regName "p" ps, immText slot.val]
  | .ecDetab ps => "EC.DETAB" ++ operandText [regName "p" ps]
  | .ecNeg pd ps => "EC.NEG" ++ operandText [regName "p" pd, regName "p" ps]
  | .ecIson ps => "EC.ISON" ++ operandText [regName "p" ps]
  | .ecIsinf ps => "EC.ISINF" ++ operandText [regName "p" ps]
  | .ecEq ps1 ps2 => "EC.EQ" ++ operandText [regName "p" ps1, regName "p" ps2]

/-! ### Host programs (R124) -/

/-- One line of a host program. -/
inductive HostLine where
  /-- `W NAME, v`: a 32-bit write of the register at an offset. -/
  | writeReg (off : Nat) (v : Word)
  /-- `W DBUF+j, bytes`: byte writes from DBUF[j] on. -/
  | writeDbuf (j : Nat) (bytes : List Byte)
  /-- `R NAME`: a 32-bit read. -/
  | readReg (off : Nat)
  /-- A mnemonic: the CMD write of its word, and WAIT. -/
  | command (i : Instr)
deriving DecidableEq, Repr

/-- The byte writes of `W DBUF+j, bytes`. -/
def dbufWrites : Nat → List Byte → List HostEvent
  | _, [] => []
  | j, b :: bs => .write (Config.bnecBase + 0x100 + j) .byte (b.setWidth 32) :: dbufWrites (j + 1) bs

/-- The events of a line. WAIT, the polling of STATUS until BUSY = 0, is one pause: a command takes one step (R470). -/
def HostLine.events : HostLine → List HostEvent
  | .writeReg off v => [.write (Config.bnecBase + off) .word v]
  | .writeDbuf j bytes => dbufWrites j bytes
  | .readReg off => [.read (Config.bnecBase + off) .word]
  | .command i => [.write (Config.bnecBase + 0x00C) .word (encode i), .pause]

/-- A program as the events the step reads, in the host's order (R93). -/
def hostProgram (ls : List HostLine) : List HostEvent := ls.flatMap HostLine.events

/-! ### Pseudo-instructions (R123) -/

/-- BN.CLR rd, rs: 0 in the capacity of rs. -/
def pseudoClr (rd rs : BnNum) : List HostLine := [.command (.bnXor rd rs rs)]

/-- BN.LDI rd, v, for v up to 2^48. -/
def pseudoLdi (rd : BnNum) (v : Nat) : List HostLine :=
  [.writeReg 0x018 (BitVec.ofNat 32 v), .writeReg 0x01C (BitVec.ofNat 32 (v / 2 ^ 32)), .command (.bnFromint rd)]

/-- The shift amount k mod 23, a field value. -/
def shiftRest (k : Nat) : Imm8 := ⟨k % 23, Nat.lt_of_lt_of_le (Nat.mod_lt _ (by decide)) (by decide)⟩

/-- A shift by k composed of shifts by at most 23, `shift` being BN.SHL or BN.SHR. -/
def composedShift (shift : BnNum → BnNum → Imm8 → Instr) (rd rs : BnNum) (k : Nat) : List HostLine :=
  if k / 23 = 0 then [.command (shift rd rs (shiftRest k))]
  else .command (shift rd rs 23) ::
    (List.replicate (k / 23 - 1) (.command (shift rd rd 23)) ++
      if k % 23 = 0 then [] else [.command (shift rd rd (shiftRest k))])

/-- BN.SHLK rd, rs, k. -/
def pseudoShlk (rd rs : BnNum) (k : Nat) : List HostLine := composedShift .bnShl rd rs k

/-- BN.SHRK rd, rs, k. -/
def pseudoShrk (rd rs : BnNum) (k : Nat) : List HostLine := composedShift .bnShr rd rs k

/-- BN.MSQR rd, rs, rm. -/
def pseudoMsqr (rd rs rm : BnNum) : List HostLine := [.command (.bnMmul rd rs rs rm)]

/-- BN.MINV rd, rs, rm, bt: the inverse by Fermat, rm a prime. It is its expansion and nothing else: for rs ≡ 0 and
rm = 2 the exponent is 0 and BN.MEXP gives 1 (R308), where R123 and R310 say 0 (DESIGN CHOICE, log entry 26). -/
def pseudoMinv (rd rs rm bt : BnNum) : List HostLine :=
  [.writeReg 0x018 2#32, .writeReg 0x01C 0#32, .command (.bnFromint bt), .command (.bnSub bt rm bt),
    .command (.bnMexp rd rs bt rm)]

/-- EC.MULG pd, rk, cv. -/
def pseudoMulg (pd : PtNum) (rk : BnNum) (cv : CurveField) : List HostLine :=
  [.command (.ecGen pd cv), .command (.ecMul pd pd rk)]

/-- EC.SUB pd, ps1, ps2, pt. -/
def pseudoEcSub (pd ps1 ps2 pt : PtNum) : List HostLine :=
  [.command (.ecNeg pt ps2), .command (.ecAdd pd ps1 pt)]

end Sys2Proof.Machine
end

