-- ==== Sys2Proof/Tests/Slice0.lean ====
section
/-! SUPPORT. The model's own tests. Expected results come from the examples of the command rules and the vectors of
spec/95_test_vectors.md (the id of each is in its comment). After them, for every obligation with hypotheses, a witness:
a state and operands that meet them, clause by clause at the edge of its range. -/

namespace Sys2Proof.Tests

open Sys2Proof.Machine

set_option Elab.async false

/-! ### Helpers -/

/-- BigNum registers written on top of a state. -/
def bns (l : List (BnNum × Nat × Nat)) (s : State) : State :=
  l.foldl (fun s e => s.writeB e.1 (BigNum.ofVal e.2.1 e.2.2)) s

/-- Points written on top of a state. -/
def pts (l : List (PtNum × Curve × PointVal)) (s : State) : State :=
  l.foldl (fun s e => s.writeP e.1 e.2.1 e.2.2) s

/-- DBUF bytes written on top of a state. -/
def bytes (off : Nat) (l : List Byte) (s : State) : State := { s with dbuf := s.dbuf.writeBytes off l }

/-- The state one step after the command word is accepted. -/
def run (s : State) (w : Word) : State :=
  match step (s.accept w) with
  | .next t => t
  | _ => s

/-- The register holds BN(size, v), and the command completed. -/
def isBn (t : State) (i : BnNum) (size v : Nat) : Bool :=
  decide (t.b i = { written := true, num := BigNum.ofVal size v }) && t.status.done && t.cmdCnt == 1

/-- The point register holds PT(c, v), and the command completed. -/
def isPt (t : State) (i : PtNum) (c : Curve) (v : PointVal) : Bool :=
  decide ((t.p i).cell = .pt c v) && t.status.done && t.cmdCnt == 1

/-- The bytes of DBUF from `off`, the value of RES, and the command completed. -/
def isOut (t : State) (off : Nat) (l : List Byte) : Bool :=
  decide (t.dbuf.readBytes off l.length = l) && t.res == BitVec.ofNat 32 l.length && t.status.done

/-- FLAGS read as a word, and the command completed. -/
def isFlags (t : State) (w : Word) : Bool := t.flagsWord == w && t.status.done

/-- The command ended in the error entry. -/
def isError (s : State) (w : Word) (e : CmdError) : Bool :=
  decide (run s w = (s.accept w).errorEntry e)

/-- A step that answers a next state. -/
def isNext (r : Result) : Bool :=
  match r with
  | .next _ => true
  | _ => false

/-- The base point of P-256 and its double (R332, R411). -/
def g : PointVal := .aff 0x6B17D1F2E12C4247F8BCE6E563A440F277037D812DEB33A0F4A13945D898C296
  0x4FE342E2FE1A7F9B8EE7EB4A7C0F9E162BCE33576B315ECECBB6406837BF51F5

def g2 : PointVal := .aff 0x7CF27B188D034F7E8A52380304B51AC3C08969E277F21B35A60B48FC47669978
  0x07775510DB8ED040293D9AC69F7430DBBA7DADE63CE982299E04B79D227873D1

def g3 : PointVal := .aff 0x5ECBE4D1A6330A44C8F7EF951D4BF165E6C6B721EFADA985FB41661BC6E7FD6C
  0x8734640C4998FF7E374B06CE1A64A2ECD82AB036384FB83D9A79B127A27D5032

/-- The base point of edwards25519 (R332). -/
def ge : PointVal := .aff 0x216936D3CD6E53FEC0A4E231FDD6DC5C692CC7609525A7B2C9562D608F25D51A
  0x6666666666666666666666666666666666666666666666666666666666666658

def p0g : State := pts [(0, .p256, g)] State.reset

/-! ### Decoding: every constructor's word, from the encoding lines and examples of its rule -/

theorem test_decode_system_data :
    decode 0x00000000#32 = some .nop ∧ decode 0x01000400#32 = some (.bnLdb 0 0 4) ∧
    decode 0x02000040#32 = some (.bnStb 0 0x40) ∧ decode 0x03100000#32 = some (.bnFromint 1) ∧
    decode 0x04200210#32 = some (.bnLdl 2 0x10 2) ∧ decode 0x05020000#32 = some (.bnStl 2 0) ∧
    decode 0x06300000#32 = some (.bnMov 3 0) ∧ decode 0x07400001#32 = some (.bnResize 4 0 1) ∧
    decode 0x08540000#32 = some (.bnTrim 5 4) ∧ decode 0x0A040000#32 = some (.bnSize 4) ∧
    decode 0x09000000#32 = some (.bnBitlen 0) ∧ decode 0x01009100#32 = some (.bnLdb 0 0 145) := by decide

theorem test_decode_arith :
    decode 0x10201000#32 = some (.bnAdd 2 0 1) ∧ decode 0x11321000#32 = some (.bnSub 3 2 1) ∧
    decode 0x12412000#32 = some (.bnSubge 4 1 2) ∧ decode 0x13500000#32 = some (.bnMul 5 0 0) ∧
    decode 0x14500000#32 = some (.bnSqr 5 0) ∧ decode 0x15201300#32 = some (.bnDivmod 2 3 0 1) ∧
    decode 0x16201000#32 = some (.bnDiv 2 0 1) ∧ decode 0x17301000#32 = some (.bnMod 3 0 1) ∧
    decode 0x18201300#32 = some (.bnDivi 2 3 0 1) ∧ decode 0x19100001#32 = some (.bnShl 1 0 1) ∧
    decode 0x1A210001#32 = some (.bnShr 2 1 1) ∧ decode 0x1B201000#32 = some (.bnAnd 2 0 1) ∧
    decode 0x1C201000#32 = some (.bnOr 2 0 1) ∧ decode 0x1D201000#32 = some (.bnXor 2 0 1) ∧
    decode 0x1E100000#32 = some (.bnNeg 1 0) := by decide

theorem test_decode_compare :
    decode 0x20010000#32 = some (.bnCmp 1 0) ∧ decode 0x21001000#32 = some (.bnEq 0 1) ∧
    decode 0x22010000#32 = some (.bnLt 1 0) ∧ decode 0x23001000#32 = some (.bnGe 0 1) ∧
    decode 0x24010200#32 = some (.bnBetw 1 0 2) ∧ decode 0x25000FFF#32 = some (.bnBit 0 4095) ∧
    decode 0x26000000#32 = some (.bnEven 0) ∧ decode 0x27010000#32 = some (.bnOdd 1) ∧
    decode 0x28201000#32 = some (.bnSel 2 0 1) ∧ decode 0x29000040#32 = some (.bnNyb 0 0x40) := by decide

theorem test_decode_modular :
    decode 0x30301200#32 = some (.bnMadd 3 0 1 2) ∧ decode 0x31310200#32 = some (.bnMsub 3 1 0 2) ∧
    decode 0x32301200#32 = some (.bnMmul 3 0 1 2) ∧ decode 0x33301200#32 = some (.bnMexp 3 0 1 2) := by decide

theorem test_decode_points :
    decode 0x40200100#32 = some (.ecInf 2 1) ∧ decode 0x41101000#32 = some (.ecLdaff 1 0 1 0) ∧
    decode 0x42000000#32 = some (.ecGen 0 0) ∧ decode 0x433000C8#32 = some (.ecLdenc 3 0xC8 0) ∧
    decode 0x44001080#32 = some (.ecStenc 0 0x80 1) ∧ decode 0x45400500#32 = some (.ecAff 4 5 0) ∧
    decode 0x46500000#32 = some (.ecMov 5 0) ∧ decode 0x47600300#32 = some (.ecOrder 6 3) ∧
    decode 0x48700200#32 = some (.ecPrime 7 2) := by decide

theorem test_decode_group :
    decode 0x50201000#32 = some (.ecAdd 2 0 1) ∧ decode 0x51200000#32 = some (.ecDbl 2 0) ∧
    decode 0x52432000#32 = some (.ecMul 4 3 2) ∧ decode 0x53040000#32 = some (.ecMktab 4 0) ∧
    decode 0x54040000#32 = some (.ecDetab 4) ∧ decode 0x55300000#32 = some (.ecNeg 3 0) ∧
    decode 0x58000000#32 = some (.ecIson 0) ∧ decode 0x59010000#32 = some (.ecIsinf 1) ∧
    decode 0x5A023000#32 = some (.ecEq 2 3) := by decide

/-! ### Ill-formed terms, which WellFormed refuses, and their words, which the decoder refuses (R118, R119) -/

theorem smoke_divmod : (Instr.bnDivmod 2 2 0 1).wf = false ∧ decode 0x15201200#32 = none := by decide

theorem smoke_divi : (Instr.bnDivi 2 2 0 1).wf = false ∧ decode 0x18201200#32 = none := by decide

theorem smoke_aff : (Instr.ecAff 4 4 0).wf = false ∧ decode 0x45400400#32 = none := by decide

theorem smoke_stenc : (Instr.ecStenc 1 0x20 2).wf = false ∧ decode 0x44012020#32 = none := by decide

/-- T30-2 to T30-5, T30-8. -/
theorem test_illegal : isError State.reset 0x00000001#32 .illegalCommand ∧ isError State.reset 0x0B000000#32 .illegalCommand ∧
    isError State.reset 0xFF000000#32 .illegalCommand ∧ isError State.reset 0x10201001#32 .illegalCommand ∧
    isError State.reset 0x10201000#32 .unwrittenOperand := by decide

/-! ### Data movement -/

/-- R505. -/
theorem test_nop : (run State.reset 0x00000000#32).cmdCnt = 1 ∧ (run State.reset 0x00000000#32).statusWord = 2#32 := by
  decide

/-- T40-1, T40-2. -/
theorem test_bnLdb : isBn (run (bytes 0 [1, 2, 3, 4, 5] State.reset) 0x01000500#32) 0 2 0x102030405 ∧
    isBn (run (bytes 5 [7] State.reset) 0x01000600#32) 0 2 7 := by decide +kernel

/-- T40-5, T40-6. -/
theorem test_bnLdb_errors : isError State.reset 0x01009100#32 .capacityExceeded ∧
    isError State.reset 0x010007FA#32 .dbufRange := by decide +kernel

/-- T40-8, T40-11. -/
theorem test_bnStb : isOut (run (bns [(0, 2, 0x1020304)] State.reset) 0x02000040#32) 0x40 [1, 2, 3, 4] ∧
    isError (bns [(0, 3, 0xFFFF)] State.reset) 0x020000FF#32 .dbufRange := by decide +kernel

/-- T40-13, T40-14. -/
theorem test_bnFromint : isBn (run { State.reset with argHi := 0x10000#17 } 0x03100000#32) 1 3 0x1000000000000 ∧
    isError { State.reset with argHi := 0x10000#17, argLo := 1 } 0x03100000#32 .invalidArgument := by decide +kernel

/-- T40-16, T40-18, T40-19. -/
theorem test_bnLdl : isBn (run (bytes 0 [1, 2, 3, 4, 5, 6] State.reset) 0x04200200#32) 2 2 0x60504030201 ∧
    isError State.reset 0x04203100#32 .capacityExceeded ∧ isError State.reset 0x042006F0#32 .dbufRange := by
  decide +kernel

/-- T40-20. -/
theorem test_bnStl : isOut (run (bns [(0, 2, 1)] State.reset) 0x05000010#32) 0x10 [1, 0, 0, 0, 0, 0] := by decide +kernel

/-- T40-22. -/
theorem test_bnMov : isBn (run (bns [(0, 2, 0x123456789ABC)] State.reset) 0x06500000#32) 5 2 0x123456789ABC := by
  decide +kernel

/-- T40-23, T40-26. -/
theorem test_bnResize : isBn (run (bns [(0, 2, 0x123456789ABC)] State.reset) 0x07100001#32) 1 1 0x789ABC ∧
    isError (bns [(0, 2, 0x123456789ABC)] State.reset) 0x07100031#32 .capacityExceeded := by decide +kernel

/-- T40-27, T40-28. -/
theorem test_bnTrim : isBn (run (bns [(0, 3, 5)] State.reset) 0x08100000#32) 1 1 5 ∧
    isBn (run (bns [(0, 3, 0)] State.reset) 0x08100000#32) 1 0 0 := by decide +kernel

/-- T40-29, T40-30. -/
theorem test_bnBitlen : (run (bns [(0, 3, 0x1000000000000)] State.reset) 0x09000000#32).res = 49#32 ∧
    (run (bns [(0, 3, 0)] { State.reset with res := 9 }) 0x09000000#32).res = 0#32 := by decide +kernel

/-- T40-31. -/
theorem test_bnSize : (run (bns [(0, 3, 0)] State.reset) 0x0A000000#32).res = 3#32 := by decide +kernel

/-! ### Arithmetic -/

/-- T41-1, T41-3. -/
theorem test_bnAdd : isBn (run (bns [(0, 1, 0xFFFFFF), (1, 1, 1)] State.reset) 0x10201000#32) 2 2 0x1000000 ∧
    isError (bns [(0, 48, 5), (1, 1, 7)] State.reset) 0x10201000#32 .capacityExceeded := by decide +kernel

/-- T41-4, T41-5. -/
theorem test_bnSub : isBn (run (bns [(0, 1, 9), (1, 2, 9)] State.reset) 0x11201000#32) 2 2 0 ∧
    isError (bns [(0, 1, 8), (1, 2, 9)] State.reset) 0x11201000#32 .invalidArgument := by decide +kernel

/-- T41-6, T41-7. -/
theorem test_bnSubge : isBn (run (bns [(1, 1, 1), (2, 2, 0x1000000)] State.reset) 0x12412000#32) 4 2 1 ∧
    isBn (run (bns [(1, 1, 1), (2, 2, 0x1000000)] State.reset) 0x12421000#32) 4 2 0xFFFFFF := by decide +kernel

/-- The example of R210, T41-10. -/
theorem test_bnMul : isBn (run (bns [(0, 1, 0xFFFFFF)] State.reset) 0x13500000#32) 5 2 0xFFFFFE000001 ∧
    isError (bns [(0, 24, 1), (1, 25, 1)] State.reset) 0x13201000#32 .capacityExceeded := by decide +kernel

/-- T41-11, T41-12. -/
theorem test_bnSqr : isBn (run (bns [(0, 2, 0x1000001)] State.reset) 0x14100000#32) 1 4 0x1000002000001 ∧
    isError (bns [(0, 25, 1)] State.reset) 0x14100000#32 .capacityExceeded := by decide +kernel

/-- T41-13, T41-14. -/
theorem test_bnDivmod : isBn (run (bns [(0, 3, 0xF4243), (1, 1, 0x3E8)] State.reset) 0x15201300#32) 2 3 0x3E8 ∧
    isBn (run (bns [(0, 3, 0xF4243), (1, 1, 0x3E8)] State.reset) 0x15201300#32) 3 1 3 ∧
    isError (bns [(0, 3, 0xF4243), (1, 1, 0)] State.reset) 0x15201300#32 .invalidArgument := by decide +kernel

/-- T41-15. -/
theorem test_bnDiv : isBn (run (bns [(0, 1, 7), (1, 2, 0x40000000)] State.reset) 0x16201000#32) 2 1 0 := by decide +kernel

/-- T41-16. -/
theorem test_bnMod : isBn (run (bns [(0, 1, 7), (1, 2, 0x40000000)] State.reset) 0x17201000#32) 2 2 7 := by decide +kernel

/-- T41-17, T41-18. -/
theorem test_bnDivi :
    isBn (run (bns [(0, 2, 0x123456789ABC), (1, 1, 0xFFFFFF)] State.reset) 0x18201300#32) 3 1 0x8ACF12 ∧
    isError (bns [(0, 2, 0x123456789ABC), (1, 2, 0x1000000)] State.reset) 0x18201300#32 .invalidArgument := by
  decide +kernel

/-- T41-19, T41-20. -/
theorem test_bnShl : isBn (run (bns [(0, 1, 0xFFFFFF)] State.reset) 0x19100017#32) 1 2 0x7FFFFF800000 ∧
    isError (bns [(0, 1, 0xFFFFFF)] State.reset) 0x19100018#32 .invalidArgument := by decide +kernel

/-- The example of R228. -/
theorem test_bnShr : isBn (run (bns [(1, 2, 0x1000002)] State.reset) 0x1A210001#32) 2 2 0x800001 := by decide +kernel

/-- The examples of R232, R233, R234. -/
theorem test_bitwise : isBn (run (bns [(0, 1, 0xF0F0F0), (1, 2, 0x10F0F0F)] State.reset) 0x1B201000#32) 2 2 0 ∧
    isBn (run (bns [(0, 1, 0xF0F0F0), (1, 2, 0x10F0F0F)] State.reset) 0x1C201000#32) 2 2 0x1FFFFFF ∧
    isBn (run (bns [(0, 1, 0xF0F0F0), (1, 2, 0x10F0F0F)] State.reset) 0x1D201000#32) 2 2 0x1FFFFFF := by decide +kernel

/-- The example of R236. -/
theorem test_bnNeg : isBn (run (bns [(0, 1, 1)] State.reset) 0x1E100000#32) 1 1 0xFFFFFF := by decide +kernel

/-! ### Comparison -/

/-- The examples of R260. -/
theorem test_bnCmp : isFlags (run (bns [(0, 1, 100), (1, 2, 7)] State.reset) 0x20001000#32) 2#32 ∧
    isFlags (run (bns [(0, 1, 100), (1, 2, 7)] State.reset) 0x20010000#32) 6#32 := by decide +kernel

/-- The examples of R262, R264, R266. -/
theorem test_order : isFlags (run (bns [(0, 1, 100), (1, 3, 100)] State.reset) 0x21001000#32) 1#32 ∧
    isFlags (run (bns [(0, 1, 100), (1, 1, 7)] State.reset) 0x22010000#32) 1#32 ∧
    isFlags (run (bns [(0, 1, 100), (1, 1, 7)] State.reset) 0x22001000#32) 0#32 ∧
    isFlags (run (bns [(0, 1, 100), (1, 1, 7)] State.reset) 0x23001000#32) 1#32 := by decide +kernel

/-- The examples of R268. -/
theorem test_bnBetw : isFlags (run (bns [(0, 1, 0), (1, 1, 5), (2, 1, 7)] State.reset) 0x24010200#32) 1#32 ∧
    isFlags (run (bns [(0, 1, 0), (1, 1, 5), (2, 1, 7)] State.reset) 0x24020200#32) 0#32 := by decide +kernel

/-- The examples of R270. -/
theorem test_bnBit : isFlags (run (bns [(0, 2, 0x1000002)] State.reset) 0x25000018#32) 1#32 ∧
    isFlags (run (bns [(0, 2, 0x1000002)] State.reset) 0x25000000#32) 0#32 := by decide +kernel

/-- The examples of R272, R274. -/
theorem test_parity : isFlags (run (bns [(0, 1, 100)] State.reset) 0x26000000#32) 1#32 ∧
    isFlags (run (bns [(1, 1, 7)] State.reset) 0x27010000#32) 1#32 := by decide +kernel

/-- The examples of R276. -/
theorem test_bnSel : isBn (run ((bns [(0, 1, 100), (1, 2, 7)] State.reset).setC true) 0x28201000#32) 2 2 100 ∧
    isBn (run (bns [(0, 1, 100), (1, 2, 7)] State.reset) 0x28201000#32) 2 2 7 := by decide +kernel

/-- The example of R280. -/
theorem test_bnNyb : isOut (run (bns [(0, 1, 0xFFFFFF)] State.reset) 0x29000040#32) 0x40
    [0xFF, 0, 0, 0, 0, 0, 1] := by decide +kernel

/-! ### Modular arithmetic -/

/-- The examples of R302, R304, R306, R308. -/
theorem test_modular : isBn (run (bns [(0, 1, 5), (1, 1, 4), (2, 1, 7)] State.reset) 0x30301200#32) 3 1 2 ∧
    isBn (run (bns [(0, 1, 5), (1, 1, 4), (2, 1, 7)] State.reset) 0x31310200#32) 3 1 6 ∧
    isBn (run (bns [(0, 1, 5), (1, 1, 4), (2, 1, 7)] State.reset) 0x32301200#32) 3 1 6 ∧
    isBn (run (bns [(0, 1, 5), (1, 1, 4), (2, 1, 7)] State.reset) 0x33301200#32) 3 1 2 := by decide +kernel

/-! ### Points -/

/-- The examples of R346, R348. -/
theorem test_ecInf_ecGen : isPt (run State.reset 0x40200100#32) 2 .p384 .inf ∧
    isPt (run State.reset 0x42000000#32) 0 .p256 g ∧
    isPt (run State.reset 0x40200300#32) 2 .ed25519 (.aff 0 1) := by decide +kernel

/-- The coordinates are reduced, not rejected (R347). -/
theorem test_ecLdaff : isPt (run (bns [(0, 11, 2 ^ 256 - 2 ^ 224 + 2 ^ 192 + 2 ^ 96 - 1 + 5), (1, 1, 3)] State.reset)
    0x41101000#32) 1 .p256 (.aff 5 3) := by decide +kernel

/-- T45-2. -/
theorem test_ecStenc_short : isOut (run p0g 0x44001000#32) 0 [0x03, 0x6B, 0x17, 0xD1, 0xF2, 0xE1, 0x2C, 0x42, 0x47, 0xF8,
    0xBC, 0xE6, 0xE5, 0x63, 0xA4, 0x40, 0xF2, 0x77, 0x03, 0x7D, 0x81, 0x2D, 0xEB, 0x33, 0xA0, 0xF4, 0xA1, 0x39, 0x45, 0xD8,
    0x98, 0xC2, 0x96] := by decide +kernel

/-- T46-2. -/
theorem test_ecStenc_x25519 : isOut (run (pts [(0, .x25519, ge)] State.reset) 0x44000020#32) 0x20
    (9 :: List.replicate 31 0) := by decide +kernel

/-- T45-7, by storing and loading. -/
theorem test_ecLdenc_short : isPt { run (run p0g 0x44001000#32) 0x43300000#32 with cmdCnt := 1 } 3 .p256 g := by
  decide +kernel

/-- T46-11. -/
theorem test_ecLdenc_x25519 : isPt (run (bytes 0 [9] State.reset) 0x43200400#32) 2 .x25519 ge := by decide +kernel

/-- The example of R351. -/
theorem test_ecAff : isBn (run p0g 0x45400500#32) 4 11 0x6B17D1F2E12C4247F8BCE6E563A440F277037D812DEB33A0F4A13945D898C296 ∧
    isBn (run p0g 0x45400500#32) 5 11 0x4FE342E2FE1A7F9B8EE7EB4A7C0F9E162BCE33576B315ECECBB6406837BF51F5 := by
  decide +kernel

/-- T44-34. -/
theorem test_ecMov : isPt (run (p0g.attach 0 1) 0x46500000#32) 5 .p256 g ∧
    ((run (p0g.attach 0 1) 0x46500000#32).p 5).tab = none ∧
    ((run (p0g.attach 0 1) 0x46500000#32).p 0).tab = some 1 := by decide +kernel

/-- The examples of R353, R354. -/
theorem test_order_prime :
    isBn (run State.reset 0x47600300#32) 6 11 (2 ^ 252 + 27742317777372353535851937790883648493) ∧
    isBn (run State.reset 0x48700200#32) 7 22 (2 ^ 521 - 1) := by decide +kernel

/-! ### Group operations and predicates -/

/-- 3·G = 2·G + G (R411). -/
theorem test_ecAdd : isPt (run (pts [(1, .p256, g2)] p0g) 0x50201000#32) 2 .p256 g3 := by decide +kernel

/-- R411. -/
theorem test_ecDbl : isPt (run p0g 0x51200000#32) 2 .p256 g2 := by decide +kernel

/-- The example of R357. -/
theorem test_ecNeg : isPt (run p0g 0x55300000#32) 3 .p256
    (.aff 0x6B17D1F2E12C4247F8BCE6E563A440F277037D812DEB33A0F4A13945D898C296
      (2 ^ 256 - 2 ^ 224 + 2 ^ 192 + 2 ^ 96 - 1 - 0x4FE342E2FE1A7F9B8EE7EB4A7C0F9E162BCE33576B315ECECBB6406837BF51F5)) := by
  decide +kernel

/-- 3·G (R411). -/
theorem test_ecMul : isPt (run (bns [(0, 1, 3)] p0g) 0x52100000#32) 1 .p256 g3 := by decide +kernel

/-- T46-15. -/
theorem test_ecMul_order_two : isPt (run (bns [(2, 1, 2)] (pts [(3, .ed25519, .aff 0 (2 ^ 255 - 20))] State.reset))
    0x52432000#32) 4 .ed25519 (.aff 0 1) := by decide +kernel

/-- The examples of R359, R360. -/
theorem test_tables :
    ((run (pts [(4, .p256, g)] (p0g.attach 0 0)) 0x53040000#32).slotOwner 0 = some 4 ∧
    ((run (pts [(4, .p256, g)] (p0g.attach 0 0)) 0x53040000#32).p 0).tab = none) ∧
    (run (p0g.attach 0 0) 0x54000000#32).slotOwner 0 = none := by decide +kernel

/-- T44-33: a write detaches, even with the same value. -/
theorem test_detach : ((run (p0g.attach 0 1) 0x42000000#32).p 0).tab = none ∧
    (run (p0g.attach 0 1) 0x42000000#32).slotOwner 1 = none := by decide +kernel

/-- The examples of R361, R362, R363, and T44-35. -/
theorem test_predicates : isFlags (run p0g 0x58000000#32) 1#32 ∧
    isFlags (run (pts [(1, .p256, .inf)] State.reset) 0x59010000#32) 1#32 ∧
    isFlags (run (pts [(2, .p256, g2), (3, .p256, g2)] State.reset) 0x5A023000#32) 1#32 ∧
    isFlags (run (pts [(0, .ed25519, ge), (1, .x25519, ge)] State.reset) 0x5A001000#32) 0#32 := by decide +kernel

/-! ### The host's side -/

/-- H4. -/
theorem test_status : (run State.reset 0x02000000#32).statusWord = 0x504#32 ∧
    (run State.reset 0x02000000#32).errCmd = 0x02000000#32 := by decide

/-- H8, H9. -/
theorem test_reserved_bits : (State.reset.writeReg 0x01C 0xFFFFFFFF#32).readReg 0x01C = 0x1FFFF#32 ∧
    (State.reset.writeReg 0x004 0x7FFFFFFF#32).readReg 0x004 = 3#32 := by decide

/-- H10. -/
theorem test_little_endian : (State.reset.writeDbuf 0x100 .word 0x04030201#32).dbuf.readBytes 0 4 = [1, 2, 3, 4] := by
  decide

/-- H12. -/
theorem test_bus_errors : accessOk 0x008 .byte = false ∧ accessOk 0x101 .word = false ∧ accessOk 0x102 .half = true := by
  decide

/-! ### Host programs -/

/-- The examples of R122. -/
theorem test_asm : asmText (.bnAdd 2 0 1) = "BN.ADD b2, b0, b1" ∧ asmText (.ecGen 0 0) = "EC.GEN p0, P256" ∧
    asmText (.ecStenc 1 32 1) = "EC.STENC p1, 32, 1" ∧ asmText .nop = "NOP" := by decide +kernel

/-- R123 at k = 0, 23 and 47. -/
theorem test_shlk : pseudoShlk 1 2 0 = [.command (.bnShl 1 2 0)] ∧ pseudoShlk 1 2 23 = [.command (.bnShl 1 2 23)] ∧
    pseudoShrk 1 2 47 = [.command (.bnShr 1 2 23), .command (.bnShr 1 1 23), .command (.bnShr 1 1 1)] := by decide

/-! ### Witnesses: for each obligation with hypotheses, a state and operands that meet them -/

/-- Registers at the edges of their ranges: b0 = BN(1, 5), b1 = BN(2, 2^24), b2 = BN(0, 0), b3 = BN(48, 2^1152 − 1),
b4 = BN(1, 0), b5 = BN(24, 1), b6 = BN(25, 1), b7 = BN(47, 7), b8 = BN(1, 2^24 − 1), b9 = BN(36, 2^864 − 1); the rest
unwritten. -/
def edges : State :=
  bns [(0, 1, 5), (1, 2, 2 ^ 24), (2, 0, 0), (3, 48, 2 ^ 1152 - 1), (4, 1, 0), (5, 24, 1), (6, 25, 1), (7, 47, 7),
    (8, 1, 2 ^ 24 - 1), (9, 36, 2 ^ 864 - 1)] State.reset

/-- Points at the edges: p0 = P-256 base with slot 0, p1 = INF, p2 = (1, 1) malformed, p3 and p4 the base of
edwards25519 under both encodings, p5 and p6 its identity, p7 = (0, p − 1), p8 = (1, 1) malformed on edwards25519, p9
the base of P-521; the rest EMPTY. FLAGS.C is set. -/
def points : State :=
  (pts [(0, .p256, g), (1, .p256, .inf), (2, .p256, .aff 1 1), (3, .ed25519, ge), (4, .x25519, ge),
    (5, .ed25519, .aff 0 1), (6, .x25519, .aff 0 1), (7, .x25519, .aff 0 (2 ^ 255 - 20)), (8, .ed25519, .aff 1 1),
    (9, .p521, Curve.p521.base)] (edges.setC true)).attach 0 0

theorem edges_inv : edges.Inv := by decide +kernel

theorem points_inv : points.Inv := by decide +kernel

theorem witness_DecodeOfEncode : Instr.nop.wf = true ∧ (Instr.bnLdb 15 255 255).wf = true ∧
    (Instr.bnDivmod 15 0 15 15).wf = true ∧ (Instr.bnBit 15 4095).wf = true ∧ (Instr.ecStenc 15 255 1).wf = true ∧
    (Instr.ecAff 0 15 0).wf = true := by decide

theorem witness_EncodeOfDecode : decode 0#32 = some .nop ∧ decode 0x01FFFFFF#32 = none ∧
    decode 0x01F0FFFF#32 = some (.bnLdb 15 255 255) ∧ decode 0x5A0FF000#32 = some (.ecEq 15 15) := by decide

theorem witness_WordsSelectOneRowOrAreIllegal :
    ((0x00000000#32, 0xFFFFFFFF#32) ∈ opcodeTable ∧ 0#32 &&& 0xFFFFFFFF#32 = 0x00000000#32) ∧
    (decode 0xFFFFFFFF#32 = none ∧ { State.reset with cmdReg := 0xFFFFFFFF#32 }.cmdReg = 0xFFFFFFFF#32) := by decide

theorem witness_IllegalWordsRaise :
    (0x0B ≤ fieldOp 0x0B000000#32 ∧ fieldOp 0x0F000000#32 ≤ 0x0F) ∧ fieldOp 0x1F000000#32 = 0x1F ∧
    (0x2A ≤ fieldOp 0x2A000000#32 ∧ fieldOp 0x2F000000#32 ≤ 0x2F) ∧
    (0x34 ≤ fieldOp 0x34000000#32 ∧ fieldOp 0x3F000000#32 ≤ 0x3F) ∧
    (0x49 ≤ fieldOp 0x49000000#32 ∧ fieldOp 0x4F000000#32 ≤ 0x4F) ∧ fieldOp 0x56000000#32 = 0x56 ∧
    fieldOp 0x57000000#32 = 0x57 ∧ 0x5B ≤ fieldOp 0x5B000000#32 ∧ 0x5B ≤ fieldOp 0xFFFFFFFF#32 ∧
    (fieldOp 0x15000000#32 ∈ [0x15, 0x18, 0x45] ∧ fieldA 0x15000000#32 = fieldD 0x15000000#32) ∧
    (fieldOp 0x18F00F00#32 ∈ [0x15, 0x18, 0x45] ∧ fieldA 0x18F00F00#32 = fieldD 0x18F00F00#32) ∧
    (fieldOp 0x45F00F00#32 ∈ [0x15, 0x18, 0x45] ∧ fieldA 0x45F00F00#32 = fieldD 0x45F00F00#32) ∧
    (fieldOp 0x44002000#32 = 0x44 ∧ 2 ≤ (fieldC 0x44002000#32).val) ∧ fieldOp (State.reset.accept 0x0B000000#32).cmdReg = 0x0B := by
  decide

theorem witness_StepRunsDecodedCommand :
    ((edges.accept 0x10201000#32).hostIn = [] ∧ (edges.accept 0x10201000#32).seq = .busy ∧
      decode (edges.accept 0x10201000#32).cmdReg = some (.bnAdd 2 0 1)) ∧
    { edges.accept 0#32 with hostIn := [.pause] }.hostIn = [.pause] ∧
    decodeTableWord 32 0x10201000 = some (.bnAdd 2 0 1) ∧ decodeTableWord 32 0 = some .nop := by decide +kernel

theorem witness_StepWithoutADecodedCommand :
    { edges with hostIn := [.reset] }.hostIn = [.reset] ∧
    ((edges.accept 1#32).hostIn = [] ∧ (edges.accept 1#32).seq = .busy ∧ decode (edges.accept 1#32).cmdReg = none) ∧
    (edges.hostIn = [] ∧ edges.seq = .idle) ∧ (edges.enterReset.hostIn = [] ∧ edges.enterReset.seq = .resetting) := by
  decide +kernel

theorem witness_CommandsAreCounted : exec .nop State.reset = .next State.reset.completed ∧
    exec (.bnSize 0) State.reset = .next (State.reset.errorEntry .unwrittenOperand) ∧
    exec .nop { State.reset with cmdCnt := 0xFFFFFFFF#32 } =
      .next { State.reset with cmdCnt := 0xFFFFFFFF#32 }.completed := ⟨rfl, rfl, rfl⟩

theorem witness_BigNumNotation : (0 < 1 ∧ 2 ^ (1 - 1) ≤ 1 ∧ 1 < 2 ^ 1) ∧ (0 < 1152 ∧ 2 ^ (1152 - 1) ≤ 2 ^ 1151) ∧
    (0 : Nat) < 48 ∧ 0 < 2 ^ (24 * 0) ∧ 2 ^ 1152 - 1 < 2 ^ (24 * 48) := by decide +kernel

theorem witness_LoadBytes : 256 < (255 : Imm8).val + (2 : Imm8).val ∧
    ((111 : Imm8).val + (145 : Imm8).val ≤ 256 ∧ 48 < ((145 : Imm8).val + 2) / 3) ∧
    ((112 : Imm8).val + (144 : Imm8).val ≤ 256 ∧ ((144 : Imm8).val + 2) / 3 ≤ 48) ∧
    ((255 : Imm8).val + (0 : Imm8).val ≤ 256 ∧ ((0 : Imm8).val + 2) / 3 ≤ 48) := by decide

theorem witness_FromInteger :
    2 ^ 48 < { edges with argHi := 0x10000#17, argLo := 1 }.argHi.toNat * 2 ^ 32 +
      { edges with argHi := 0x10000#17, argLo := 1 }.argLo.toNat ∧
    { edges with argHi := 0x10000#17, argLo := 0 }.argHi.toNat * 2 ^ 32 +
      { edges with argHi := 0x10000#17, argLo := 0 }.argLo.toNat ≤ 2 ^ 48 := by decide +kernel

theorem witness_LoadLimbs : 48 < (49 : Imm8).val ∧
    ((48 : Imm8).val ≤ 48 ∧ 256 < (113 : Imm8).val + 3 * (48 : Imm8).val) ∧
    ((48 : Imm8).val ≤ 48 ∧ (112 : Imm8).val + 3 * (48 : Imm8).val ≤ 256) ∧
    ((0 : Imm8).val ≤ 48 ∧ (255 : Imm8).val + 3 * (0 : Imm8).val ≤ 256) := by decide

theorem witness_StoreBytes : edges.dbuf.wf = true ∧ ¬edges.Written [15] ∧
    (edges.Written [3] ∧ 256 < (113 : Imm8).val + (bitlen (edges.val 3) + 7) / 8) ∧
    (edges.Written [3] ∧ (112 : Imm8).val + (bitlen (edges.val 3) + 7) / 8 ≤ 256) ∧
    (edges.Written [4] ∧ (255 : Imm8).val + (bitlen (edges.val 4) + 7) / 8 ≤ 256) := by decide +kernel

theorem witness_StoreLimbs : edges.dbuf.wf = true ∧ edges.BnOk ∧ ¬edges.Written [15] ∧
    (edges.Written [3] ∧ 256 < (113 : Imm8).val + 3 * edges.size 3) ∧
    (edges.Written [3] ∧ (112 : Imm8).val + 3 * edges.size 3 ≤ 256) ∧
    (edges.Written [2] ∧ (255 : Imm8).val + 3 * edges.size 2 ≤ 256) := by decide +kernel

theorem witness_MoveResizeTrim : ¬edges.Written [15] ∧ edges.Written [3] ∧ edges.Written [2] ∧
    48 < (49 : Imm8).val ∧ (48 : Imm8).val ≤ 48 ∧ (0 : Imm8).val ≤ 48 := by decide +kernel

theorem witness_BitLengthAndSize : edges.BnOk ∧ ¬edges.Written [15] ∧ edges.Written [3] ∧ edges.Written [2] := by
  decide +kernel

theorem witness_GrowingArithmetic : ¬edges.Written [0, 15] ∧ ¬edges.Written [15] ∧
    (edges.Written [3, 0] ∧ 48 < max (edges.size 3) (edges.size 0) + 1) ∧
    (edges.Written [7, 0] ∧ max (edges.size 7) (edges.size 0) + 1 ≤ 48) ∧
    (edges.Written [5, 6] ∧ 48 < edges.size 5 + edges.size 6) ∧ (edges.Written [5, 5] ∧ edges.size 5 + edges.size 5 ≤ 48) ∧
    (edges.Written [6] ∧ 48 < 2 * edges.size 6) ∧ (edges.Written [5] ∧ 2 * edges.size 5 ≤ 48) ∧
    (edges.Written [0] ∧ 23 < (24 : Imm8).val) ∧
    (edges.Written [3] ∧ edges.size 3 = 48 ∧ 23 < (24 : Imm8).val) ∧
    (edges.Written [3] ∧ (23 : Imm8).val ≤ 23 ∧ 48 < edges.size 3 + 1) ∧
    (edges.Written [7] ∧ (23 : Imm8).val ≤ 23 ∧ edges.size 7 + 1 ≤ 48) := by
  refine ⟨?_, ?_, ?_, ?_, ?_, ?_, ?_⟩ <;> decide +kernel

theorem witness_Subtraction : ¬edges.Written [15, 0] ∧ (edges.Written [4, 0] ∧ edges.val 4 < edges.val 0) ∧
    (edges.Written [0, 0] ∧ edges.val 0 ≤ edges.val 0) ∧ edges.Written [2, 3] := by decide +kernel

theorem witness_Division : (0 : BnNum) ≠ 15 ∧ ¬edges.Written [0, 15] ∧ (edges.Written [0, 2] ∧ edges.val 2 = 0) ∧
    (edges.Written [0, 4] ∧ edges.val 4 = 0) ∧ (edges.Written [0, 1] ∧ 2 ^ 24 ≤ edges.val 1) ∧
    (edges.Written [3, 3] ∧ 0 < edges.val 3) ∧
    (edges.Written [3, 8] ∧ 0 < edges.val 8 ∧ edges.val 8 < 2 ^ 24) := by decide +kernel

theorem witness_ShiftRightAndNegate : ¬edges.Written [15] ∧ (edges.Written [0] ∧ 23 < (24 : Imm8).val) ∧
    (edges.Written [3] ∧ (23 : Imm8).val ≤ 23) ∧ edges.Written [2] := by decide +kernel

theorem witness_Bitwise : ¬edges.Written [15, 0] ∧ edges.Written [2, 3] := by decide +kernel

theorem witness_CompareSetsSign : ¬edges.Written [0, 15] ∧ (edges.Written [2, 4] ∧ edges.val 2 = edges.val 4) ∧
    (edges.Written [3, 0] ∧ edges.val 0 < edges.val 3) ∧ (edges.Written [0, 3] ∧ edges.val 0 < edges.val 3) := by
  decide +kernel

theorem witness_OrderPredicates : ¬edges.Written [0, 15] ∧ ¬edges.Written [0, 0, 15] ∧ edges.Written [2, 3] ∧
    edges.Written [0, 4, 8] := by decide +kernel

theorem witness_BitPredicates : ¬edges.Written [15] ∧ edges.Written [0] ∧
    24 * edges.size 0 ≤ (24 : BitIndex).val ∧ 24 * edges.size 3 ≤ (4095 : BitIndex).val := by decide +kernel

theorem witness_SelectByCondition : ¬edges.Written [15, 0] ∧ edges.Written [2, 3] ∧ 0 < max (edges.size 2) (edges.size 3) ∧
    points.flags.c = true ∧ edges.flags.c = false := by decide +kernel

theorem witness_NybbleRecoding : edges.dbuf.wf = true ∧ ¬edges.Written [15] ∧
    (edges.Written [9] ∧ 256 < (40 : Imm8).val + (6 * edges.size 9 + 1)) ∧
    (edges.Written [9] ∧ (39 : Imm8).val + (6 * edges.size 9 + 1) ≤ 256) ∧
    (edges.Written [2] ∧ (255 : Imm8).val + (6 * edges.size 2 + 1) ≤ 256) := by decide +kernel

theorem witness_NybblesSpellTheValue : edges.dbuf.wf = true ∧ edges.Written [8] ∧
    (249 : Imm8).val + (6 * edges.size 8 + 1) ≤ 256 ∧ isNext (exec (.bnNyb 8 249) edges) = true := by decide +kernel

theorem witness_ModularArithmetic : ¬edges.Written [0, 0, 15] ∧ (edges.Written [0, 0, 2] ∧ edges.val 2 = 0) ∧
    (edges.Written [3, 0, 8] ∧ 0 < edges.val 8) := by decide +kernel

theorem witness_CurveConstantCommands : 4 < (5 : CurveField).val ∧ (4 : CurveField).val ≤ 4 ∧ (0 : CurveField).val ≤ 4 ∧
    curveOf 0 = some .p256 ∧ curveOf 4 = some .x25519 := by decide

theorem witness_LoadAffine : ¬edges.Written [0, 15] ∧ (edges.Written [0, 3] ∧ 4 < (5 : CurveField).val) ∧
    (edges.Written [0, 3] ∧ curveOf 2 = some .p521) := by decide +kernel

theorem witness_MoveAndNegatePoint : (points.p 15).cell = .empty ∧
    (points.Holds 1 .p256 .inf ∧ Curve.p256.isNist = true) ∧ points.Holds 0 .p256 g ∧
    (points.Holds 5 .ed25519 (.aff 0 1) ∧ Curve.ed25519.isNist = false) := by decide +kernel

theorem witness_AffineCoordinates : (0 : BnNum) ≠ 15 ∧ points.PointsOk ∧ (points.p 15).cell = .empty ∧
    points.Holds 1 .p256 .inf ∧ points.Holds 7 .x25519 (.aff 0 (2 ^ 255 - 20)) := by decide +kernel

/-- DBUF with the compressed base point of P-256 at 0, an x that is no abscissa at 0x40 (T45-13), and the prefixes 5
and 4 at the end. -/
def encodings : State := bytes 0xFE [5, 4] (bytes 0x40 (2 :: List.replicate 31 0 ++ [1]) (run p0g 0x44001000#32))

theorem witness_LoadEncodedPoint : 4 < (5 : CurveField).val ∧
    (curveOf 0 = some .p256 ∧ Curve.p256.encLen (encodings.dbuf.read (0xFE : Imm8).val) = none) ∧
    (Curve.p256.encLen (encodings.dbuf.read (0xFF : Imm8).val) = some 65 ∧ 256 < (0xFF : Imm8).val + 65) ∧
    (Curve.p256.encLen (encodings.dbuf.read (0x40 : Imm8).val) = some 33 ∧ (0x40 : Imm8).val + 33 ≤ 256 ∧
      Curve.p256.decode (encodings.dbuf.readBytes (0x40 : Imm8).val 33) = none) ∧
    (Curve.p256.encLen (encodings.dbuf.read (0 : Imm8).val) = some 33 ∧ (0 : Imm8).val + 33 ≤ 256 ∧
      Curve.p256.decode (encodings.dbuf.readBytes (0 : Imm8).val 33) = some g) := by decide +kernel

theorem witness_StoreEncodedPoint : points.dbuf.wf = true ∧ (1 : ZField).val ≤ 1 ∧ (points.p 15).cell = .empty ∧
    (points.Holds 3 .ed25519 ge ∧ Curve.ed25519.isNist = false ∧ (1 : ZField).val = 1) ∧
    (points.Holds 1 .p256 .inf ∧ Curve.p256.isNist = true) ∧
    (points.Holds 2 .p256 (.aff 1 1) ∧ 256 < (224 : Imm8).val + (Curve.p256.encode 1 1 true).length) ∧
    (points.Holds 2 .p256 (.aff 1 1) ∧ (223 : Imm8).val + (Curve.p256.encode 1 1 true).length ≤ 256) ∧
    (points.Holds 5 .ed25519 (.aff 0 1) ∧ (0 : ZField).val = 0 ∧
      (224 : Imm8).val + (Curve.ed25519.encode 0 1 false).length ≤ 256) ∧ 2 ≤ (2 : ZField).val := by decide +kernel

theorem witness_PointAddition : (points.p 15).cell = .empty ∧
    (points.Holds 0 .p256 g ∧ points.Holds 3 .ed25519 ge ∧ Curve.p256 ≠ Curve.ed25519) ∧
    (points.Holds 1 .p256 .inf ∧ Curve.p256.wellFormed g = true ∧ Curve.p256.wellFormed .inf = true) ∧
    (points.Holds 2 .p256 (.aff 1 1) ∧ Curve.p256.wellFormed (.aff 1 1) = false) ∧
    (points.Holds 8 .ed25519 (.aff 1 1) ∧ Curve.ed25519.wellFormed (.aff 1 1) = false) := by decide +kernel

theorem witness_PointDoubling : (points.p 15).cell = .empty ∧
    (points.Holds 0 .p256 g ∧ Curve.p256.wellFormed g = true) ∧
    (points.Holds 2 .p256 (.aff 1 1) ∧ Curve.p256.wellFormed (.aff 1 1) = false) := by decide +kernel

theorem witness_ScalarMultiplication : points.PointsOk ∧ (points.p 15).cell = .empty ∧ ¬points.Written [15] ∧
    (points.Holds 3 .ed25519 ge ∧ points.Written [2] ∧ Curve.ed25519.wellFormed ge = true) ∧
    (points.Holds 2 .p256 (.aff 1 1) ∧ points.Written [3] ∧ Curve.p256.wellFormed (.aff 1 1) = false) := by decide +kernel

theorem witness_NistSumOfPoints : Curve.p256.isNist = true ∧ Curve.p256.inDomain g = true ∧
    Curve.p256.inDomain g2 = true ∧ Curve.p256.wellFormed g = true ∧ Curve.p256.wellFormed g2 = true ∧
    (∃ x y y', g = .aff x y ∧ Curve.p256.neg g = .aff x y' ∧ (y + y') % Curve.p256.prime = 0 ∧
      ¬(x = x ∧ (y + y) % Curve.p256.prime = 0)) ∧ (∃ x y x' y', g = .aff x y ∧ g2 = .aff x' y' ∧ x ≠ x') :=
  ⟨rfl, by decide +kernel, by decide +kernel, by decide +kernel, by decide +kernel,
    ⟨_, _, _, rfl, rfl, by decide +kernel, by decide +kernel⟩, ⟨_, _, _, _, rfl, rfl, by decide +kernel⟩⟩

theorem witness_EdwardsSumOfPoints : Curve.ed25519.isNist = false ∧ Curve.ed25519.inDomain ge = true ∧
    Curve.ed25519.wellFormed ge = true ∧ Curve.ed25519.inDomain (.aff 0 1) = true ∧
    Curve.ed25519.wellFormed (.aff 0 1) = true := by decide +kernel

theorem witness_WellFormedPointsAreAGroup : Curve.p256.inDomain g = true ∧ Curve.p256.wellFormed g = true ∧
    Curve.p256.inDomain .inf = true ∧ Curve.p256.wellFormed .inf = true ∧ Curve.x25519.inDomain ge = true ∧
    Curve.x25519.wellFormed ge = true := by decide +kernel

theorem witness_TablesAttachAndDetach : points.TabsAgree ∧ (points.p 15).cell = .empty ∧
    (points.Holds 0 .p256 g ∧ 4 ≤ (4 : Imm8).val) ∧
    (points.Holds 3 .ed25519 ge ∧ (0 : Imm8).val = (0 : Fin 4).val ∧ points.slotOwner 0 = some 0) ∧
    (points.Holds 0 .p256 g ∧ (3 : Imm8).val = (3 : Fin 4).val ∧ (points.p 0).tab = some 0) := by decide +kernel

theorem witness_AttachmentAndOwnershipAgree : points.TabsAgree ∧ isNext (exec (.ecMktab 3 0) points) = true ∧
    isNext (exec (.ecGen 0 0) points) = true := by decide +kernel

theorem witness_PointPredicates : (points.p 15).cell = .empty ∧
    (points.Holds 1 .p256 .inf ∧ Curve.p256.isNist = true) ∧ points.Holds 2 .p256 (.aff 1 1) ∧
    (points.Holds 5 .ed25519 (.aff 0 1) ∧ Curve.ed25519.isNist = false) ∧
    (points.Holds 3 .ed25519 ge ∧ points.Holds 4 .x25519 ge) := by decide +kernel

theorem witness_NopCompletes : { State.reset with ctrl := ⟨true, false⟩ }.ctrl.ieDone = true ∧
    (fieldOp 1#32 = 0 ∧ (1#32 : Word) ≠ 0#32) ∧ fieldOp 0x00FFFFFF#32 = 0 := by decide

theorem witness_PointEncodings : Curve.p521.isNist = true ∧ Curve.p521.inDomain (.aff (2 ^ 521 - 2) 0) = true ∧
    0 < Curve.p521.fieldBytes ∧ Curve.ed25519.inDomain (.aff 1 (2 ^ 255 - 20)) = true ∧
    Curve.x25519.inDomain (.aff 0 1) = true ∧ Curve.x25519.inDomain (.aff 1 (2 ^ 255 - 20)) = true := by decide +kernel

theorem witness_NistPointDecoding : Curve.p256.isNist = true ∧
    ((0x05#8 : Byte) ≠ 0x02#8 ∧ (0x05#8 : Byte) ≠ 0x03#8 ∧ (0x05#8 : Byte) ≠ 0x04#8) ∧
    ((0x04#8 :: List.replicate 64 0 : List Byte).length = 2 * Curve.p256.fieldBytes + 1 ∧
      (0x04#8 :: List.replicate 64 0 : List Byte).getD 0 0 = 0x04#8) ∧
    ((0x02#8 :: List.replicate 32 0 : List Byte).length = Curve.p256.fieldBytes + 1 ∧
      (0x02#8 :: List.replicate 32 0 : List Byte).getD 0 0 = 0x02#8) ∧
    ((0x03#8 :: List.replicate 32 0 : List Byte).length = Curve.p256.fieldBytes + 1 ∧
      (0x03#8 :: List.replicate 32 0 : List Byte).getD 0 0 = 0x03#8) := by decide

theorem witness_EdwardsPointDecoding : Curve.ed25519.isNist = false ∧ Curve.x25519.isNist = false ∧
    (9#8 :: List.replicate 31 0 : List Byte).length = 32 := by decide

/-- EC.STENC of each kind of point completes, so EncodingsRoundTrip speaks of it. -/
theorem witness_EncodingsRoundTrip : points.dbuf.wf = true ∧
    (Curve.p256.inDomain g = true ∧ points.Holds 0 .p256 g ∧ curveOf 0 = some .p256 ∧
      Curve.p256.wellFormed g = true ∧ (run points 0x44001000#32).status.err = false) ∧
    (points.Holds 2 .p256 (.aff 1 1) ∧ Curve.p256.wellFormed (.aff 1 1) = false ∧
      (run points 0x44021000#32).status.err = false ∧ (run points 0x44020000#32).status.err = false) ∧
    (points.Holds 3 .ed25519 ge ∧ curveOf 3 = some .ed25519 ∧ Curve.ed25519.wellFormed ge = true ∧
      (run points 0x440300E0#32).status.err = false) ∧
    (points.Holds 4 .x25519 ge ∧ curveOf 4 = some .x25519 ∧ Curve.x25519.wellFormed ge = true ∧
      (run points 0x440400E0#32).status.err = false) ∧
    (points.Holds 6 .x25519 (.aff 0 1) ∧ (run points 0x440600E0#32).status.err = false) := by decide +kernel

theorem witness_HostReads : (edges.seq ≠ .resetting ∧ edges.seq = .idle) ∧ (edges.accept 0#32).seq = .busy ∧
    edges.enterReset.seq = .resetting ∧ (0x02C ≤ 0x02C ∧ 0x0FC < 0x100 ∧ 0x0FC % 4 = 0) ∧
    (252 < 256 ∧ 252 % Width.word.bytes = 0) ∧ (255 < 256 ∧ 255 % Width.byte.bytes = 0) ∧
    ((0#32 : Word).toNat = 0 ∧ edges.dbuf.read 255 = 0#8) := by decide +kernel

/-- The premise of HostReads in its reads while BUSY, and the accesses of ReadsAs, are met by pending events. -/
theorem witness_HostReads_pending :
    { edges with hostIn := [.read (Config.bnecBase + 0x014) .word] }.hostIn =
      [.read (Config.bnecBase + 0x014) .word] ∧
    { edges with hostIn := [.read (Config.bnecBase + 0x010) .word] }.hostIn =
      [.read (Config.bnecBase + 0x010) .word] ∧
    { edges with hostIn := [.read (Config.bnecBase + 0x1FF) .byte] }.hostIn =
      [.read (Config.bnecBase + 0x1FF) .byte] := ⟨rfl, rfl, rfl⟩

theorem witness_HostWrites : edges.seq ≠ .resetting ∧ edges.seq = .idle ∧ (edges.accept 0#32).seq = .busy ∧
    edges.dbuf.wf = true ∧ (0x7FFFFFFF#32 : Word).getLsbD 31 = false ∧ (0x02C ≤ 0x02C ∧ 0x0FC < 0x100 ∧ 0x0FC % 4 = 0) ∧
    (252 < 256 ∧ 252 % Width.word.bytes = 0) ∧ (254 < 256 ∧ 254 % Width.half.bytes = 0) := by decide +kernel

theorem witness_HostWrites_pending :
    { edges with hostIn := [.write (Config.bnecBase + 0x010) .word 1#32] }.hostIn =
      [.write (Config.bnecBase + 0x010) .word 1#32] := rfl

theorem witness_CommandAcceptance : (edges.seq = .idle ∧ edges.status.err = false) ∧ (edges.accept 0#32).seq = .busy ∧
    ((edges.errorEntry .dbufRange).seq = .idle ∧ (edges.errorEntry .dbufRange).status.err = true) ∧
    (4#32 : Word).getLsbD 2 = true := by decide +kernel

theorem witness_CommandAcceptance_pending :
    { edges with hostIn := [.write (Config.bnecBase + 0x008) .word 4#32, .write (Config.bnecBase + 0x00C) .word 0#32] }.hostIn =
      [.write (Config.bnecBase + 0x008) .word 4#32, .write (Config.bnecBase + 0x00C) .word 0#32] := rfl

/-- Entered with nothing and with a read after it, ended with nothing pending and at a pause, and a write in between. -/
theorem witness_Resets : { edges with hostIn := [.reset] }.hostIn = [.reset] ∧
    { edges with hostIn := [.reset, .read (Config.bnecBase + 0x008) .word] }.hostIn =
      [.reset, .read (Config.bnecBase + 0x008) .word] ∧
    { edges with hostIn := [.write (Config.bnecBase + 0x004) .word 0x80000000#32] }.hostIn =
      [.write (Config.bnecBase + 0x004) .word 0x80000000#32] ∧ (0x80000000#32 : Word).getLsbD 31 = true ∧
    edges.seq ≠ .resetting ∧ (edges.enterReset.ResettingOk ∧ edges.enterReset.seq = .resetting ∧
      edges.enterReset.hostIn = []) ∧
    ({ edges with hostIn := [.pause] }.enterReset.ResettingOk ∧ { edges with hostIn := [.pause] }.enterReset.seq = .resetting ∧
      { edges with hostIn := [.pause] }.enterReset.hostIn = [.pause]) ∧
    accessOk 0x010 .word = true ∧ accessOk 0x1FF .byte = true :=
  ⟨rfl, rfl, rfl, by decide, by decide +kernel, ⟨fun _ => rfl, rfl, rfl⟩, ⟨fun _ => rfl, rfl, rfl⟩, by decide, by decide⟩

theorem witness_OnlyHostAccessesFault : 0x0FF < 0x100 ∧ (0x100 ≤ 0x1FF ∧ 0x1FF < 0x200) ∧
    accessOk 0x0FF .word = false ∧ accessOk 0x1FE .word = false ∧
    { edges with hostIn := [.read (Config.bnecBase + 0x1FE) .word] }.hostIn = [.read (Config.bnecBase + 0x1FE) .word] ∧
    Config.bnecBase + 0x200 ≤ Config.bnecBase + 0x200 ∧
    { edges with hostIn := [.write (Config.bnecBase + 0x200) .byte 0#32] }.hostIn =
      [.write (Config.bnecBase + 0x200) .byte 0#32] ∧ edges.hostIn = [] ∧ HostEvent.pause.safe :=
  ⟨by decide, by decide, by decide, by decide, rfl, Nat.le_refl _, rfl, by decide +kernel, trivial⟩

theorem witness_StepKeepsInvariant : points.Inv ∧ isNext (step (points.accept 0x50200000#32)) = true ∧
    (points.accept 0x50200000#32).Inv ∧ points.enterReset.Inv :=
  ⟨points_inv, by decide +kernel, by decide +kernel, by decide +kernel⟩

theorem witness_InterruptsFollowStatus : (edges.accept 0#32).StatusOk ∧ (edges.accept 0#32).seq = .busy ∧
    exec .nop (edges.accept 0#32) = .next (edges.accept 0#32).completed :=
  ⟨by decide +kernel, rfl, rfl⟩

theorem witness_WhatCommandsMayWrite : exec .nop State.reset = .next State.reset.completed ∧
    (run points 0x21004000#32).flags.c ≠ points.flags.c ∧ (run points 0x20003000#32).flags.cmp ≠ points.flags.cmp ∧
    (run points 0x0A030000#32).res ≠ points.res ∧ (run points 0x02030000#32).dbuf ≠ points.dbuf ∧
    (run points 0x06F30000#32).b 15 ≠ points.b 15 ∧ ((run points 0x42F00000#32).p 15).cell ≠ (points.p 15).cell ∧
    ((run points 0x53030003#32).p 3).tab ≠ (points.p 3).tab := by
  refine ⟨rfl, ?_⟩
  decide +kernel

end Sys2Proof.Tests
end

section
/-! PROOF. O11: the notation of spec/00_scope.md R9. The limbs of a BigNum by position, bit length as the only k with
2^(k-1) ≤ v < 2^k, and what a register holds after the write `b[i] <- BN(s, v)`. -/

namespace Sys2Proof.Machine

/-! ### The limbs by position -/

/-- `limbsVal` as a sum over positions: a limb more is one weight up for the rest. -/
theorem limbsVal_eq_sum (ls : List Limb) :
    limbsVal ls = ∑ j ∈ Finset.range ls.length, (ls.getD j 0).toNat * 2 ^ (24 * j) := by
  induction ls with
  | nil => rfl
  | cons l ls ih =>
    have hweight (j : Nat) : 2 ^ (24 * (j + 1)) = 2 ^ 24 * 2 ^ (24 * j) := by rw [mul_add, pow_add, mul_comm]
    rw [limbsVal, ih, List.length_cons, Finset.sum_range_succ', Finset.mul_sum, add_comm]
    simp [hweight, mul_left_comm]

theorem BigNum.val_eq_sum (b : BigNum) :
    b.val = ∑ j ∈ Finset.range b.size, (b.limb j).toNat * 2 ^ (24 * j) := limbsVal_eq_sum b.limbs

/-- Limb `j` of `v` is digit `j` of `v` in base 2^24. -/
theorem toNat_limbsOf_getD {s j : Nat} (hj : j < s) (v : Nat) :
    ((limbsOf s v).getD j 0).toNat = v / 2 ^ (24 * j) % 2 ^ 24 := by
  induction s generalizing j v with
  | zero => omega
  | succ s ih =>
    cases j with
    | zero => simp [limbsOf]
    | succ j =>
      have hdiv : v / 2 ^ (24 * (j + 1)) = v / 2 ^ 24 / 2 ^ (24 * j) := by
        rw [Nat.div_div_eq_div_mul, ← pow_add, mul_add, add_comm]
      rw [limbsOf, List.getD_cons_succ, ih (by omega), hdiv]

theorem BigNum.toNat_limb_ofVal {s j : Nat} (hj : j < s) (v : Nat) :
    ((BigNum.ofVal s v).limb j).toNat = v / 2 ^ (24 * j) % 2 ^ 24 := toNat_limbsOf_getD hj v

/-! ### Bit length -/

/-- The bounds of R9 leave one bit length: `v < 2 ^ k` bounds it by `k`, and `2 ^ (k - 1) ≤ v` rules out less. -/
theorem bitlen_eq_of_bounds {v k : Nat} (hk : 0 < k) (hlow : 2 ^ (k - 1) ≤ v) (hhigh : v < 2 ^ k) : bitlen v = k := by
  have hle : bitlen v ≤ k := (bitlen_le_iff v k).2 hhigh
  have hge : ¬bitlen v ≤ k - 1 := fun h => absurd ((bitlen_le_iff v (k - 1)).1 h) (not_lt.2 hlow)
  omega

/-! ### The register write -/

/-- Writing BN(size, v) with a `v` that fits leaves a written register of that capacity and value (R9, R33). -/
theorem holdsBn_writeB_ofVal (s : State) (i : BnNum) {size v : Nat} (h : v < 2 ^ (24 * size)) :
    HoldsBn (s.writeB i (BigNum.ofVal size v)) i size v := by
  simp [HoldsBn, BigNum.val_ofVal_of_lt h]

/-- Settles O11: the sum and the digits by induction on the limbs, the bit length from its two bounds. -/
theorem bigNumNotation : Obligations.BigNumNotation :=
  ⟨BigNum.val_eq_sum,
    fun s v => ⟨BigNum.size_ofVal s v, fun _ hj => BigNum.toNat_limb_ofVal hj v⟩,
    rfl,
    fun _ _ => bitlen_eq_of_bounds,
    fun _ => rfl,
    fun s i _ _ => holdsBn_writeB_ofVal s i⟩

end Sys2Proof.Machine
end

section
/-! PROOF. What an effect (Laws/Exec.lean) may change of each part of the state, and by which commands (spec/10_state.md
R36 to R59). The rules O10, O58 and O60 are assembled from. -/

namespace Sys2Proof.Machine

/-- The opcodes of the commands that write FLAGS.C (R41). -/
abbrev condOps : List Nat := [0x21, 0x22, 0x23, 0x24, 0x25, 0x26, 0x27, 0x58, 0x59, 0x5A]

/-- The opcodes of the commands that store to DBUF (R46). -/
abbrev storeOps : List Nat := [0x02, 0x05, 0x29, 0x44]

/-- The opcodes of the commands with two BigNum destinations, in the fields A and D (R118). -/
abbrev twoBnOps : List Nat := [0x15, 0x18, 0x45]

/-- The opcodes of the commands whose destination is a point register (R345). -/
abbrev pointOps : List Nat := [0x40, 0x41, 0x42, 0x43, 0x46, 0x50, 0x51, 0x52, 0x55]

/-- The commands that may draw a point (R337) write a point register. -/
theorem drawOps_subset_pointOps : [0x50, 0x51, 0x52] ⊆ pointOps := by decide

/-! ### The drawn point of R337 read back: a point write that also counts the draw -/

section Draw

variable (s : State) (i : PtNum) (c : Curve)

@[simp] theorem State.writeDraw_flags : (s.writeDraw i c).flags = s.flags := by simp [State.writeDraw]
@[simp] theorem State.writeDraw_res : (s.writeDraw i c).res = s.res := by simp [State.writeDraw]
@[simp] theorem State.writeDraw_dbuf : (s.writeDraw i c).dbuf = s.dbuf := by simp [State.writeDraw]

@[simp] theorem State.b_writeDraw (j : BnNum) : (s.writeDraw i c).b j = s.b j :=
  s.b_writeP i c (c.draw s.draws) j

@[simp] theorem State.p_writeDraw (j : PtNum) :
    (s.writeDraw i c).p j = if i = j then { cell := .pt c (c.draw s.draws), tab := none } else s.p j :=
  s.p_writeP i j c (c.draw s.draws)

@[simp] theorem State.slotOwner_writeDraw (u : Fin 4) :
    (s.writeDraw i c).slotOwner u = if (s.p i).tab = some u then none else s.slotOwner u :=
  s.slotOwner_writeP i c (c.draw s.draws) u

end Draw

/-! ### What an effect may change, field by field -/

section Effects

variable {i : Instr} {s u : State}

/-- No effect writes a control register: what completion leaves is R470's (R57). -/
theorem Effect.completedFrom (he : Effect i s u) : CompletedFrom s u.completed := by
  cases he with
  | nothing => exact (nothingElse_completed s).completed
  | bn => exact (onlyBn_writeB ..).completed
  | bnTwo => exact (onlyBn_writeB_writeB ..).completed
  | cond => exact (onlyFlags_setC ..).completed
  | cmp => exact (onlyFlags_setCmp ..).completed
  | res => exact (onlyRes_setRes ..).completed
  | store => apply completedFrom_completed <;> rfl
  | point => exact (onlyPoint_writeP ..).completed
  | draw => apply completedFrom_completed <;> simp [State.writeDraw]
  | attach => exact (onlyTabs_attach ..).completed
  | detach => exact (onlyTabs_detach ..).completed

theorem Effect.c_eq_or (he : Effect i s u) : u.flags.c = s.flags.c ∨ fieldOp (encode i) ∈ condOps := by
  cases he with
  | cond c ho => exact .inr ho
  | _ => simp

theorem Effect.cmp_eq_or (he : Effect i s u) : u.flags.cmp = s.flags.cmp ∨ fieldOp (encode i) = 0x20 := by
  cases he with
  | cmp r ho => exact .inr ho
  | _ => simp

/-- RES takes the length of a store to DBUF, or what BN.BITLEN and BN.SIZE report (R56). -/
theorem Effect.res_eq_or (he : Effect i s u) :
    u.res = s.res ∨ fieldOp (encode i) ∈ storeOps ++ [0x09, 0x0A] := by
  cases he with
  | store off bs ho => exact .inr (List.mem_append_left _ ho)
  | res n ho => exact .inr (List.mem_append_right _ ho)
  | _ => simp

/-- A store lies inside DBUF, so it keeps the canonical form (R46, R475). -/
theorem Effect.dbuf_eq_or (he : Effect i s u) :
    u.dbuf = s.dbuf ∨ fieldOp (encode i) ∈ storeOps ∧ (s.dbuf.wf = true → u.dbuf.wf = true) := by
  cases he with
  | store off bs ho hl => exact .inr ⟨ho, fun hwf => Memory.wf_writeBytes hwf off bs hl⟩
  | _ => simp

/-- A BigNum register changes by a write to a destination field, which leaves it written with at most LMAX limbs. -/
theorem Effect.b_eq_or (he : Effect i s u) (j : BnNum) :
    u.b j = s.b j ∨
      ((u.b j).written = true ∧ (s.BnOk → (u.b j).num.size ≤ Config.lmax)) ∧
      (fieldA (encode i) = j ∨ (fieldOp (encode i) ∈ twoBnOps ∧ fieldD (encode i) = j)) ∧
      (fieldOp (encode i) < 0x40 ∨ fieldOp (encode i) ∈ [0x45, 0x47, 0x48]) := by
  cases he with
  | bn rd n ha ho hn =>
    by_cases hj : rd = j
    · subst hj
      refine .inr ⟨by simpa using hn, .inl ha, ho.imp_right (List.mem_cons_of_mem _)⟩
    · simp [hj]
  | bnTwo rd rd' n n' ha hd ho hn hn' =>
    have hrange : ∀ op ∈ twoBnOps, op < 0x40 ∨ op ∈ [0x45, 0x47, 0x48] := by decide
    by_cases hd' : rd' = j
    · subst hd'
      exact .inr ⟨by simpa using hn', .inr ⟨ho, hd⟩, hrange _ ho⟩
    · by_cases ha' : rd = j
      · subst ha'
        exact .inr ⟨by simpa [hd'] using hn, .inl ha, hrange _ ho⟩
      · simp [hd', ha']
  | nothing | cond | cmp | res | store => exact .inl rfl
  | point | draw | attach | detach => simp

/-- A point value changes by a write to the destination field, of a value of the curve's domain (R38). -/
theorem Effect.cell_eq_or (he : Effect i s u) (j : PtNum) :
    (u.p j).cell = (s.p j).cell ∨
      (s.PointsOk → (u.p j).cell.ok = true) ∧ fieldA (encode i) = j ∧ fieldOp (encode i) ∈ pointOps := by
  cases he with
  | point pd c v ha ho hv =>
    by_cases hj : pd = j
    · subst hj; exact .inr ⟨by simpa [PointCell.ok] using hv, ha, ho⟩
    · simp [hj]
  | draw pd c ha ho =>
    by_cases hj : pd = j
    · subst hj
      exact .inr ⟨by simp [PointCell.ok, Curve.inDomain_draw], ha, drawOps_subset_pointOps ho⟩
    · simp [hj]
  | attach q t => simp [State.p_attach]
  | detach q =>
    by_cases hj : q = j
    · subst hj; simp
    · simp [hj]
  | _ => exact .inl rfl

/-- An attachment changes by EC.MKTAB and EC.DETAB, and where the point register is written (R39, R345). -/
theorem Effect.tab_eq_or (he : Effect i s u) (j : PtNum) :
    (u.p j).tab = (s.p j).tab ∨ fieldOp (encode i) ∈ [0x53, 0x54] ∨
      (fieldA (encode i) = j ∧ fieldOp (encode i) ∈ pointOps) := by
  cases he with
  | attach q t ho => simp [ho]
  | detach q ho => simp [ho]
  | point pd c v ha ho =>
    by_cases hj : pd = j
    · exact .inr (.inr ⟨ha.trans hj, ho⟩)
    · simp [hj]
  | draw pd c ha ho =>
    by_cases hj : pd = j
    · exact .inr (.inr ⟨ha.trans hj, drawOps_subset_pointOps ho⟩)
    · simp [hj]
  | _ => exact .inl rfl

/-! ### Attachment and ownership (R344) -/

/-- Detaching a register frees its slot on both sides. -/
theorem State.TabsAgree.detach (h : s.TabsAgree) (q : PtNum) : (s.detach q).TabsAgree := by
  intro j t
  rw [State.slotOwner_detach, State.p_detach]
  by_cases hj : q = j
  · subst hj; simp [← h q t]
  · have hfree : (s.p q).tab = some t → (s.p j).tab ≠ some t := fun hq hjt =>
      hj (Option.some.inj (((h q t).1 hq).symm.trans ((h j t).1 hjt)))
    by_cases hq : (s.p q).tab = some t
    · simp [hj, hq, hfree hq]
    · simpa [hj, hq] using h j t

/-- A write to a point register changes the attachments as its detachment does (R345). -/
theorem State.TabsAgree.writeP (h : s.TabsAgree) (pd : PtNum) (c : Curve) (v : PointVal) :
    (s.writeP pd c v).TabsAgree := by
  intro j t
  have hdet := h.detach pd j t
  rw [State.slotOwner_detach, State.p_detach] at hdet
  rw [State.slotOwner_writeP, State.p_writeP]
  by_cases hj : pd = j
  · simpa [hj] using hdet
  · simpa [hj] using hdet

/-- Attaching takes the slot from its old owner and frees the register's old slot (R359). -/
theorem State.TabsAgree.attach (h : s.TabsAgree) (q : PtNum) (t : Fin 4) : (s.attach q t).TabsAgree := by
  intro j t'
  rw [State.slotOwner_attach, State.p_attach]
  by_cases ht : t' = t
  · subst ht
    by_cases hj : j = q
    · simp [hj]
    · simp [hj, Ne.symm hj, ← h j t']
  · by_cases hj : j = q
    · subst hj; simp [Ne.symm ht, ht, h j t']
    · have hkeep : s.slotOwner t = some j → (s.p j).tab ≠ some t' := fun ho hjt =>
        ht (Option.some.inj (hjt.symm.trans ((h j t).2 ho)))
      have hother : (s.p q).tab = some t' → s.slotOwner t' ≠ some j := fun hq ho =>
        hj (Option.some.inj (ho.symm.trans ((h q t').1 hq)))
      have hagree := h j t'
      by_cases ho : s.slotOwner t = some j
      · simp [hj, ht, ho, ← hagree, hkeep ho]
      · by_cases hq : (s.p q).tab = some t'
        · simp [hj, ht, ho, hq, hagree, hother hq]
        · simpa [hj, ht, ho, hq] using hagree

theorem Effect.tabsAgree (he : Effect i s u) (h : s.TabsAgree) : u.TabsAgree := by
  cases he with
  | point pd c v => exact h.writeP pd c v
  | draw pd c => exact h.writeP pd c (c.draw s.draws)
  | attach q t => exact h.attach q t
  | detach q => exact h.detach q
  | _ => exact h

end Effects
end Sys2Proof.Machine
end

section
/-! PROOF. O10 and O60: what the end of a command leaves of each field, from the rules of its effect. -/

namespace Sys2Proof.Machine

/-- A command that has completed has raised nothing: only completion moves CMDCNT (R59). -/
theorem completed_ne_errorEntry {i : Instr} {s u : State} (he : Effect i s u) (e : CmdError) :
    u.completed ≠ s.errorEntry e := by
  intro h
  have hcnt : s.cmdCnt + 1 = s.cmdCnt := by rw [← he.completedFrom.cmdCnt, h, State.errorEntry_cmdCnt]
  simp at hcnt

theorem not_raises_of_exec_completed {i : Instr} {s u : State} (he : Effect i s u) (h : exec i s = .next u.completed) :
    ¬∃ e, Raises i s e := by
  rintro ⟨e, hraise⟩
  exact completed_ne_errorEntry he e (Host.Outcome.next.inj (h.symm.trans hraise))

/-- Settles O10: the error entry keeps CMDCNT, completion adds 1, and no ending is both. -/
theorem commandsAreCounted : Obligations.CommandsAreCounted := by
  refine ⟨fun i s t h => ?_, fun s => ⟨s.completed, rfl, by simp [BitVec.toNat_add]⟩, rfl⟩
  rcases exec_cases h with ⟨e, rfl⟩ | ⟨u, he, rfl⟩
  · exact .inl ⟨⟨e, h⟩, rfl⟩
  · have hend := he.completedFrom
    exact .inr ⟨not_raises_of_exec_completed he h, by rw [hend.cmdCnt, BitVec.toNat_add]; rfl, rfl⟩

/-- Settles O60: an error entry changes none of these fields, and a completion those of its effect. -/
theorem whatCommandsMayWrite : Obligations.WhatCommandsMayWrite := by
  intro i s t h
  rcases exec_cases h with ⟨e, rfl⟩ | ⟨u, he, rfl⟩
  · simp
  · have hend := he.completedFrom
    refine ⟨he.c_eq_or.resolve_left, he.cmp_eq_or.resolve_left, he.res_eq_or.resolve_left,
      fun hd => (he.dbuf_eq_or.resolve_left hd).1, fun j hj => ?_, fun j hj => ((he.cell_eq_or j).resolve_left hj).2,
      fun j hj => (he.tab_eq_or j).resolve_left hj, hend.ctrl, hend.argLo, hend.argHi⟩
    obtain ⟨⟨hwritten, -⟩, hdest⟩ := (he.b_eq_or j).resolve_left hj
    exact ⟨hwritten, hdest⟩

end Sys2Proof.Machine
end

section
/-! PROOF. The host's accesses as equations: where an address of the window lands (spec/20_memory.md R80 to R86), and
what each write does to the state, for O52 to O54 and O58. -/

namespace Sys2Proof.Machine

/-! ### The window -/

theorem windowOffset_base_add {off : Nat} (h : off < 0x200) : windowOffset (Config.bnecBase + off) = some off := by
  simp [windowOffset, h]

/-- An address the window decodes lies inside it. -/
theorem lt_of_windowOffset {addr off : Nat} (h : windowOffset addr = some off) : off < 0x200 := by
  simp only [windowOffset, Option.ite_none_right_eq_some, Option.some.injEq] at h
  obtain ⟨⟨hlow, hhigh⟩, rfl⟩ := h
  simp only [Config.windowSize] at hhigh
  omega

/-- A naturally aligned access to DBUF ends inside it (R84). -/
theorem accessOk_dbuf_end {off : Nat} {w : Width} (h : accessOk off w = true) (hlow : ¬off < 0x100)
    (hhigh : off < 0x200) :
    off - 0x100 + w.bytes ≤ 0x100 := by
  simp only [accessOk, hlow, if_false, beq_iff_eq] at h
  cases w <;> simp only [Width.bytes] at h ⊢ <;> omega

theorem accessOk_word {off : Nat} (hoff : off < 0x100) (halign : off % 4 = 0) : accessOk off .word = true := by
  simp [accessOk, hoff, halign]

theorem accessOk_dbuf {j : Nat} {w : Width} (h : j % w.bytes = 0) : accessOk (0x100 + j) w = true := by
  cases w <;> simp only [accessOk, Width.bytes] at h ⊢ <;> simp <;> omega

/-! ### Writes -/

/-- STATUS written: each flag is cleared by its own bit, ERRCODE with ERR (R51, R480). -/
theorem State.writeStatus_eq (s : State) (d : Word) : s.writeStatus d = { s with status := {
    done := s.status.done && !d.getLsbD 1
    err := s.status.err && !d.getLsbD 2
    ovr := s.status.ovr && !d.getLsbD 3
    errCode := if d.getLsbD 2 then 0 else s.status.errCode } } := by
  unfold State.writeStatus State.clearError
  cases d.getLsbD 1 <;> cases d.getLsbD 2 <;> cases d.getLsbD 3 <;> simp

theorem State.unlessBusy_of_busy {s t : State} (h : s.seq = .busy) : s.unlessBusy t = s.overrun := if_pos h

theorem State.unlessBusy_of_idle {s t : State} (h : s.seq = .idle) : s.unlessBusy t = t := by
  simp [State.unlessBusy, h]

theorem State.writeCmd_of_ready {s : State} (d : Word) (hseq : s.seq = .idle) (herr : s.status.err = false) :
    s.writeCmd d = s.accept d := if_pos ⟨hseq, herr⟩

theorem State.writeCmd_of_not_ready {s : State} (d : Word) (h : ¬(s.seq = .idle ∧ s.status.err = false)) :
    s.writeCmd d = s.overrun := if_neg h

/-- The read-only registers and the reserved offsets ignore writes (R49, R85). -/
theorem State.writeReg_of_readOnly (s : State) {off : Nat} (d : Word)
    (h : off ∉ [0x004, 0x008, 0x00C, 0x010, 0x018, 0x01C]) : s.writeReg off d = s := by
  simp only [List.mem_cons, List.mem_nil_iff, or_false, not_or] at h
  unfold State.writeReg
  split <;> simp_all

end Sys2Proof.Machine
end

section
/-! PROOF. O57 and O58: the invariant holds at reset and every step keeps it. One lemma for each way a step changes the
state: the host's side, an entry into reset, an error entry, a completed effect, and each write of the host. -/

namespace Sys2Proof.Machine

section Invariant

variable {s t : State}

theorem State.Inv.statusOk (h : s.Inv) : s.StatusOk := by
  obtain ⟨-, -, -, -, hstatus, -⟩ := h
  exact hstatus

/-- The invariant sees the host's pending accesses, the answers and the count of draws nowhere. -/
theorem State.Inv.with_host (h : s.Inv) (hin : List HostEvent) (hout : List Word) (n : Nat) :
    { s with hostIn := hin, hostOut := hout, draws := n }.Inv := by
  obtain ⟨hbn, hpt, htab, hdbuf, hstatus, hreset⟩ := h
  exact ⟨hbn, hpt, htab, hdbuf, hstatus, fun hseq =>
    congrArg (fun u : State => { u with hostIn := hin, hostOut := hout, draws := n }) (hreset hseq)⟩

/-- Outside RESETTING a change of the control registers alone owes a consistent STATUS alone. -/
theorem State.Inv.of_sameData (h : s.Inv) (hbn : t.bn = s.bn) (hpt : t.pt = s.pt) (howner : t.owner = s.owner)
    (hdbuf : t.dbuf = s.dbuf) (hstatus : t.StatusOk) (hseq : t.seq ≠ .resetting) : t.Inv := by
  obtain ⟨hbnOk, hptOk, htab, hwf, -, -⟩ := h
  refine ⟨fun i => ?_, fun i => ?_, fun i j => ?_, hdbuf ▸ hwf, hstatus, fun hr => absurd hr hseq⟩
  · rw [State.b_eq hbn]; exact hbnOk i
  · rw [State.p_eq hpt]; exact hptOk i
  · rw [State.p_eq hpt, State.slotOwner_eq howner]; exact htab i j

/-! ### Reset -/

@[simp] theorem State.b_reset (i : BnNum) : State.reset.b i = BigReg.reset := by simp [State.b, State.reset]

@[simp] theorem State.p_reset (i : PtNum) : State.reset.p i = PointReg.reset := by simp [State.p, State.reset]

@[simp] theorem State.slotOwner_reset (j : Fin 4) : State.reset.slotOwner j = none := by
  simp [State.slotOwner, State.reset]

theorem State.inv_reset : State.reset.Inv :=
  ⟨fun i => by simp [BigReg.reset, BigNum.size], fun i => by simp [PointReg.reset, PointCell.ok],
    fun i j => by simp [PointReg.reset], Memory.wf_nil, by decide, by simp [State.ResettingOk, State.reset]⟩

theorem State.inv_enterReset (s : State) : s.enterReset.Inv := by
  obtain ⟨hbn, hpt, htab, hdbuf, -, -⟩ := State.inv_reset
  exact ⟨hbn, hpt, htab, hdbuf, by simp [State.reset, State.StatusOk], fun _ => rfl⟩

theorem State.Inv.finishReset (h : s.Inv) : s.finishReset.Inv := by
  obtain ⟨hcode, hcodes, hexcl, -⟩ := h.statusOk
  exact h.of_sameData rfl rfl rfl rfl ⟨hcode, hcodes, hexcl, by simp⟩ (by simp)

/-! ### How a command ends -/

/-- code(E) is one of 1..6 (R471). -/
theorem CmdError.code_range (e : CmdError) : 1 ≤ e.code.toNat ∧ e.code.toNat ≤ 6 := by cases e <;> decide

/-- A running command found DONE and ERR clear, so its error entry leaves ERR alone set (R52, R492). -/
theorem State.Inv.errorEntry (h : s.Inv) (hbusy : s.seq = .busy) (e : CmdError) : (s.errorEntry e).Inv := by
  obtain ⟨-, -, -, hclear⟩ := h.statusOk
  exact h.of_sameData rfl rfl rfl rfl ⟨by simp, fun _ => e.code_range, by simp [(hclear hbusy).1], by simp⟩
    (by simp)

/-- A completed command keeps the data by its effect, and leaves DONE alone set. -/
theorem State.Inv.completed {i : Instr} {u : State} (h : s.Inv) (hbusy : s.seq = .busy) (he : Effect i s u) :
    u.completed.Inv := by
  obtain ⟨hbn, hpt, htab, hwf, ⟨hcode, hcodes, -, hclear⟩, -⟩ := h
  refine ⟨fun j => ?_, fun j => ?_, he.tabsAgree htab, ?_, ?_, by simp⟩
  · rcases he.b_eq_or j with hsame | ⟨⟨hwritten, hsize⟩, -⟩
    · simpa [hsame] using hbn j
    · exact ⟨hsize hbn, by simp [hwritten]⟩
  · rcases he.cell_eq_or j with hsame | ⟨hok, -⟩
    · simpa [hsame] using hpt j
    · exact hok hpt
  · rcases he.dbuf_eq_or with hsame | ⟨-, hkeep⟩
    · simpa [hsame] using hwf
    · exact hkeep hwf
  · have herr := (hclear hbusy).2
    rw [State.StatusOk, he.completedFrom.status]
    exact ⟨hcode, hcodes, by simp [herr], by simp⟩

theorem State.Inv.exec {i : Instr} (h : s.Inv) (hbusy : s.seq = .busy) (hex : exec i s = .next t) : t.Inv := by
  rcases exec_cases hex with ⟨e, rfl⟩ | ⟨u, he, rfl⟩
  · exact h.errorEntry hbusy e
  · exact h.completed hbusy he

theorem State.Inv.sequencerStep (h : s.Inv) (hst : sequencerStep s = .next t) : t.Inv := by
  unfold Machine.sequencerStep at hst
  split at hst
  · next hbusy =>
    unfold runCommand at hst
    split at hst
    · exact h.exec hbusy hst
    · cases hst; exact h.errorEntry hbusy _
  · cases hst; exact h.finishReset
  · cases hst; exact h

/-! ### The host's accesses -/

theorem State.Inv.hostRead {off : Nat} {w : Width} (h : s.Inv) (hst : hostRead off w s = .next t) : t.Inv := by
  have hreply (v : Word) (n : Nat) : { s.reply v with draws := n }.Inv := h.with_host s.hostIn (s.hostOut ++ [v]) n
  unfold Machine.hostRead at hst
  split at hst
  · split at hst
    · cases hst; exact hreply _ s.draws
    · split at hst
      · cases hst; exact hreply _ (s.draws + 1)
      · cases hst; exact hreply _ s.draws
    · cases hst; exact hreply _ s.draws
  · cases hst

section Writes

variable (h : s.Inv) (hseq : s.seq ≠ .resetting)
include h hseq

theorem State.Inv.overrun : s.overrun.Inv := h.of_sameData rfl rfl rfl rfl h.statusOk hseq

theorem State.Inv.unlessBusy (ht : t.Inv) : (s.unlessBusy t).Inv := by
  unfold State.unlessBusy
  split
  · exact h.overrun hseq
  · exact ht

theorem State.Inv.writeCtrl (d : Word) : (s.writeCtrl d).Inv := by
  unfold State.writeCtrl
  split
  · exact s.inv_enterReset
  · exact h.of_sameData rfl rfl rfl rfl h.statusOk hseq

/-- Clearing flags keeps STATUS consistent: ERRCODE is cleared with ERR, and no flag is set (R51). -/
theorem State.Inv.writeStatus (d : Word) : (s.writeStatus d).Inv := by
  obtain ⟨hcode, hcodes, hexcl, hclear⟩ := h.statusOk
  rw [State.writeStatus_eq]
  refine h.of_sameData rfl rfl rfl rfl ⟨fun herr => ?_, fun herr => ?_, ?_, fun hbusy => ?_⟩ hseq
  · cases hd : d.getLsbD 2 <;> simp_all
  · simp only [Bool.and_eq_true, Bool.not_eq_true'] at herr
    simpa only [herr.2, Bool.false_eq_true, if_false] using hcodes herr.1
  · rintro ⟨hdone, herr⟩
    simp only [Bool.and_eq_true] at hdone herr
    exact hexcl ⟨hdone.1, herr.1⟩
  · simp [hclear hbusy]

/-- A command is accepted with ERR clear, and DONE is cleared (R52). -/
theorem State.Inv.writeCmd (d : Word) : (s.writeCmd d).Inv := by
  obtain ⟨hcode, hcodes, -, -⟩ := h.statusOk
  by_cases hready : s.seq = .idle ∧ s.status.err = false
  · rw [State.writeCmd_of_ready d hready.1 hready.2]
    exact h.of_sameData rfl rfl rfl rfl ⟨hcode, hcodes, by simp, by simp [hready.2]⟩ (by simp)
  · rw [State.writeCmd_of_not_ready d hready]
    exact h.overrun hseq

theorem State.Inv.writeReg (off : Nat) (d : Word) : (s.writeReg off d).Inv := by
  unfold State.writeReg
  split
  · exact h.writeCtrl hseq d
  · exact h.writeStatus hseq d
  · exact h.writeCmd hseq d
  · exact h.unlessBusy hseq (h.of_sameData rfl rfl rfl rfl h.statusOk hseq)
  · exact h.unlessBusy hseq (h.of_sameData rfl rfl rfl rfl h.statusOk hseq)
  · exact h.unlessBusy hseq (h.of_sameData rfl rfl rfl rfl h.statusOk hseq)
  · exact h

theorem State.Inv.writeDbuf {off : Nat} {w : Width} (d : Word) (hend : off - 0x100 + w.bytes ≤ 0x100) :
    (s.writeDbuf off w d).Inv := by
  obtain ⟨hbn, hpt, htab, hwf, hstatus, -⟩ := h
  exact ⟨hbn, hpt, htab, Memory.wf_writeBytes hwf _ _ (by simpa using hend), hstatus, fun hr => absurd hr hseq⟩

end Writes

theorem State.Inv.hostWrite {off : Nat} {w : Width} {d : Word} (h : s.Inv) (hoff : off < 0x200)
    (hst : hostWrite off w d s = .next t) : t.Inv := by
  unfold Machine.hostWrite at hst
  split at hst
  · next hacc =>
    split at hst
    · cases hst; exact h
    · next hseq =>
      split at hst
      · cases hst; exact h.writeReg hseq off d
      · next hdbuf =>
        cases hst
        exact h.unlessBusy hseq (h.writeDbuf hseq d (accessOk_dbuf_end hacc hdbuf hoff))
  · cases hst

theorem State.Inv.runEvent {e : HostEvent} (h : s.Inv) (hst : runEvent e s = .next t) : t.Inv := by
  cases e with
  | read addr w =>
    simp only [Machine.runEvent] at hst
    split at hst
    · exact h.hostRead hst
    · cases hst
  | write addr w d =>
    simp only [Machine.runEvent] at hst
    split at hst
    · next hwin => exact h.hostWrite (lt_of_windowOffset hwin) hst
    · cases hst
  | reset => cases hst; exact s.inv_enterReset
  | pause => exact h.sequencerStep hst

end Invariant

/-- Settles O58: a step is one event or the sequencer's own move, and each keeps the invariant. -/
theorem stepKeepsInvariant : Obligations.StepKeepsInvariant := by
  intro s t h hst
  unfold step at hst
  split at hst
  · exact h.sequencerStep hst
  · next es _ => exact (h.with_host es s.hostOut s.draws).runEvent hst

/-- Settles O57: the registers read back from the reset state, whose other fields are written out in it. -/
theorem resetState : Obligations.ResetState :=
  ⟨State.inv_reset, fun i => by simp [BigReg.reset, BigNum.size], fun i => by simp [PointReg.reset],
    State.slotOwner_reset, rfl, fun _ => rfl, rfl, rfl, rfl, rfl, rfl, rfl, rfl, rfl, rfl, rfl⟩

end Sys2Proof.Machine
end

section
/-! PROOF. O53 and O54: the writes of the host (spec/20_memory.md R82 to R85, spec/10_state.md R48 to R59). A write is
settled by its value in the state itself, since what the host will do next is read by none. -/

namespace Sys2Proof.Machine

section Writes

variable {s t : State} {off : Nat} {d : Word}

theorem step_write {w : Width} {es : List HostEvent} (hin : s.hostIn = .write (Config.bnecBase + off) w d :: es)
    (hoff : off < 0x200) : step s = hostWrite off w d { s with hostIn := es } := by
  simp [step, hin, runEvent, windowOffset_base_add hoff]

/-- A register write and the host's pending accesses do not meet. -/
theorem State.writeReg_with_hostIn (s : State) (off : Nat) (d : Word) (es : List HostEvent) :
    { s with hostIn := es }.writeReg off d = { s.writeReg off d with hostIn := es } := by
  unfold State.writeReg
  split
  · unfold State.writeCtrl; split <;> rfl
  · simp only [State.writeStatus_eq]
  · unfold State.writeCmd; split <;> rfl
  · unfold State.unlessBusy; split <;> rfl
  · unfold State.unlessBusy; split <;> rfl
  · unfold State.unlessBusy; split <;> rfl
  · rfl

theorem State.writeDbuf_with_hostIn (s : State) (off : Nat) (w : Width) (d : Word) (es : List HostEvent) :
    { s with hostIn := es }.unlessBusy ({ s with hostIn := es }.writeDbuf off w d) =
      { s.unlessBusy (s.writeDbuf off w d) with hostIn := es } := by
  unfold State.unlessBusy; split <;> rfl

/-- Outside RESETTING a 32-bit write at a multiple of 4 is the register's write. -/
theorem writeLeadsTo_of_writeReg (hseq : s.seq ≠ .resetting) (hoff : off < 0x100) (halign : off % 4 = 0)
    (ht : s.writeReg off d = t) : WriteLeadsTo s off .word d t := by
  intro es hin
  rw [step_write hin (by omega), hostWrite, if_pos (accessOk_word hoff halign), if_neg hseq, if_pos hoff,
    State.writeReg_with_hostIn, ht]

/-- Outside RESETTING a naturally aligned write from 0x100 on is the write of DBUF, which BUSY turns into OVR. -/
theorem writeLeadsTo_of_writeDbuf {w : Width} {j : Nat} (hseq : s.seq ≠ .resetting) (hj : j < 256)
    (halign : j % w.bytes = 0) (ht : s.unlessBusy (s.writeDbuf (0x100 + j) w d) = t) :
    WriteLeadsTo s (0x100 + j) w d t := by
  intro es hin
  rw [step_write hin (by omega), hostWrite, if_pos (accessOk_dbuf halign), if_neg hseq, if_neg (by omega),
    State.writeDbuf_with_hostIn, ht]

/-- The bytes of a DBUF write are the bytes of its data, the low ones first (R82, R84). -/
theorem leBytes_getElem_extractLsb' {n k : Nat} (d : Word) (h : k < (leBytes n d.toNat).length) :
    (leBytes n d.toNat)[k] = d.extractLsb' (8 * k) 8 := by
  rw [leBytes_getElem]
  apply BitVec.eq_of_toNat_eq
  rw [BitVec.toNat_ofNat, BitVec.extractLsb'_toNat, Nat.shiftRight_eq_div_pow, pow_mul, show 2 ^ 8 = 256 from rfl]

/-- A DBUF write inside DBUF: its bytes at their addresses, every other byte as before. -/
theorem writeDbuf_read {w : Width} {j : Nat} (hwf : s.dbuf.wf = true) (hend : j + w.bytes ≤ 256) :
    (s.writeDbuf (0x100 + j) w d).dbuf.wf = true ∧
    (∀ k < w.bytes, (s.writeDbuf (0x100 + j) w d).dbuf.read (j + k) = d.extractLsb' (8 * k) 8) ∧
    ∀ a, a < j ∨ j + w.bytes ≤ a → (s.writeDbuf (0x100 + j) w d).dbuf.read a = s.dbuf.read a := by
  simp only [State.writeDbuf, Nat.add_sub_cancel_left]
  refine ⟨Memory.wf_writeBytes hwf j _ (by simpa using hend), fun k hk => ?_, fun a ha => ?_⟩
  · rw [Memory.read_writeBytes (Memory.wfFrom_of_wf hwf), dif_pos (by simpa using hk), leBytes_getElem_extractLsb']
    simp
  · exact Memory.read_writeBytes_outside (Memory.wfFrom_of_wf hwf) (by simpa using ha)

theorem add_bytes_le_of_aligned {w : Width} {j : Nat} (hj : j < 256) (halign : j % w.bytes = 0) :
    j + w.bytes ≤ 256 := by
  cases w <;> simp only [Width.bytes] at halign ⊢ <;> omega

/-- The return from an error (R480). -/
theorem State.writeStatus_err_cleared (s : State) (h : d.getLsbD 2 = true) :
    (s.writeStatus d).status.err = false ∧ (s.writeStatus d).status.errCode = 0 := by
  rw [State.writeStatus_eq]
  exact ⟨by simp only [h, Bool.not_true, Bool.and_false], if_pos h⟩

end Writes

/-- Settles O53: each offset is a case of `writeReg` or a write of DBUF. -/
theorem hostWrites : Obligations.HostWrites := by
  intro s d hseq hwf
  refine ⟨fun hrst => ?_, ?_, fun off hoff => ?_, fun off hlow hhigh halign => ?_, fun hidle => ⟨?_, ?_, ?_, ?_⟩,
    fun hbusy => ⟨fun off hoff => ?_, fun j w hj halign => ?_⟩⟩
  · exact writeLeadsTo_of_writeReg hseq (by decide) (by decide) (if_neg (by rw [hrst]; exact Bool.false_ne_true))
  · exact writeLeadsTo_of_writeReg hseq (by decide) (by decide) (s.writeStatus_eq d)
  · have hreadOnly : ∀ o ∈ [0x000, 0x014, 0x020, 0x024, 0x028],
        o < 0x100 ∧ o % 4 = 0 ∧ o ∉ [0x004, 0x008, 0x00C, 0x010, 0x018, 0x01C] := by decide
    obtain ⟨hlt, halign, hnot⟩ := hreadOnly off hoff
    exact writeLeadsTo_of_writeReg hseq hlt halign (s.writeReg_of_readOnly d hnot)
  · exact writeLeadsTo_of_writeReg hseq hhigh halign
      (s.writeReg_of_readOnly d (by simp only [List.mem_cons, List.mem_nil_iff, or_false]; omega))
  · exact writeLeadsTo_of_writeReg hseq (by decide) (by decide) (State.unlessBusy_of_idle hidle)
  · exact writeLeadsTo_of_writeReg hseq (by decide) (by decide) (State.unlessBusy_of_idle hidle)
  · exact writeLeadsTo_of_writeReg hseq (by decide) (by decide)
      ((State.unlessBusy_of_idle hidle).trans (by rw [BitVec.setWidth_eq_extractLsb' (by decide)]))
  · intro j w hj halign
    refine ⟨(s.writeDbuf (0x100 + j) w d).dbuf, ?_, writeDbuf_read hwf (add_bytes_le_of_aligned hj halign)⟩
    exact writeLeadsTo_of_writeDbuf hseq hj halign (State.unlessBusy_of_idle hidle)
  · have hregs : ∀ o ∈ [0x010, 0x018, 0x01C], o < 0x100 ∧ o % 4 = 0 := by decide
    obtain ⟨hlt, halign⟩ := hregs off hoff
    refine writeLeadsTo_of_writeReg hseq hlt halign ?_
    simp only [List.mem_cons, List.mem_nil_iff, or_false] at hoff
    rcases hoff with rfl | rfl | rfl <;> exact State.unlessBusy_of_busy hbusy
  · exact writeLeadsTo_of_writeDbuf hseq hj halign (State.unlessBusy_of_busy hbusy)

/-- Settles O54: `writeCmd` by readiness, and the return from an error followed by an accepted command. -/
theorem commandAcceptance : Obligations.CommandAcceptance := by
  have haccept (s : State) (w : Word) (hseq : s.seq = .idle) (herr : s.status.err = false) :
      WriteLeadsTo s 0x00C .word w (s.accept w) :=
    writeLeadsTo_of_writeReg (by simp [hseq]) (by decide) (by decide) (State.writeCmd_of_ready w hseq herr)
  refine ⟨haccept, fun s w hbusy => ?_, fun s d w es hseq _ hclear hin => ?_⟩
  · refine writeLeadsTo_of_writeReg ?_ (by decide) (by decide) (State.writeCmd_of_not_ready w ?_)
    · rcases hbusy with hbusy | ⟨hidle, -⟩ <;> simp [*]
    · rcases hbusy with hbusy | ⟨-, herr⟩ <;> simp [*]
  · obtain ⟨herr, hcode⟩ := s.writeStatus_err_cleared hclear
    have hreturn := writeLeadsTo_of_writeReg (s := s) (off := 0x008) (d := d) (by simp [hseq]) (by decide) (by decide)
      rfl _ hin
    have hkeep : (s.writeStatus d).seq = s.seq ∧ (s.writeStatus d).errCmd = s.errCmd := by simp [State.writeStatus_eq]
    have hnext := haccept { s.writeStatus d with hostIn := .write (Config.bnecBase + 0x00C) .word w :: es } w
      (hkeep.1.trans hseq) herr es rfl
    exact ⟨_, _, hreturn, herr, hcode, hkeep.2, hnext, rfl, rfl, hkeep.2⟩

end Sys2Proof.Machine
end

section
/-! PROOF. O52: the reads of the host (spec/20_memory.md R82 to R94, spec/10_state.md R48 to R59), by the sequencer's
state. A read is settled by what it answers in the state itself, since what the host will do next is read by none. -/

namespace Sys2Proof.Machine

/-! ### The words the registers read as, by their fields -/

/-- Two fields side by side: the upper one is worth its value times the lower one's weight. -/
theorem toNat_append_eq_add {m n : Nat} (x : BitVec m) (y : BitVec n) :
    (x ++ y).toNat = x.toNat * 2 ^ n + y.toNat := by
  rw [BitVec.toNat_append, ← Nat.shiftLeft_add_eq_or_of_lt y.isLt, Nat.shiftLeft_eq]

theorem toNat_ofBool_eq_bitVal (b : Bool) : (BitVec.ofBool b).toNat = bitVal b := by cases b <;> rfl

theorem bitVal_lt (b : Bool) : bitVal b < 2 := by cases b <;> decide

theorem State.ctrlWord_eq (s : State) :
    s.ctrlWord = 0#30 ++ BitVec.ofBool s.ctrl.ieErr ++ BitVec.ofBool s.ctrl.ieDone := by
  have herr := bitVal_lt s.ctrl.ieErr
  have hdone := bitVal_lt s.ctrl.ieDone
  apply BitVec.eq_of_toNat_eq
  simp only [State.ctrlWord, BitVec.toNat_ofNat, toNat_append_eq_add, toNat_ofBool_eq_bitVal]
  omega

theorem State.flagsWord_eq (s : State) : s.flagsWord = 0#29 ++ s.flags.cmp.code ++ BitVec.ofBool s.flags.c := by
  have hc := bitVal_lt s.flags.c
  have hcmp := s.flags.cmp.code.isLt
  apply BitVec.eq_of_toNat_eq
  simp only [State.flagsWord, BitVec.toNat_ofNat, toNat_append_eq_add, toNat_ofBool_eq_bitVal]
  omega

/-- Outside RESETTING the BUSY bit says that a command runs (R47). -/
theorem State.busyBit_eq {s : State} (h : s.seq ≠ .resetting) : s.busyBit = (s.seq == .busy) := by
  unfold State.busyBit
  cases hseq : s.seq with
  | resetting => exact absurd hseq h
  | idle => rfl
  | busy => rfl

theorem State.statusWord_eq {s : State} (h : s.seq ≠ .resetting) :
    s.statusWord = 0#16 ++ s.status.errCode ++ 0#4 ++ BitVec.ofBool s.status.ovr ++ BitVec.ofBool s.status.err ++
      BitVec.ofBool s.status.done ++ BitVec.ofBool (s.seq == .busy) := by
  have hcode := s.status.errCode.isLt
  have hovr := bitVal_lt s.status.ovr
  have herr := bitVal_lt s.status.err
  have hdone := bitVal_lt s.status.done
  have hbusy := bitVal_lt (s.seq == .busy)
  apply BitVec.eq_of_toNat_eq
  simp only [State.statusWord, State.busyBit_eq h, BitVec.toNat_ofNat, toNat_append_eq_add, toNat_ofBool_eq_bitVal]
  omega

theorem State.argHi_setWidth (s : State) : s.argHi.setWidth 32 = 0#15 ++ s.argHi := by
  have hlt := s.argHi.isLt
  apply BitVec.eq_of_toNat_eq
  simp only [BitVec.toNat_setWidth, BitVec.toNat_ofNat, toNat_append_eq_add]
  omega

/-- CFG by its fields (R55). -/
theorem cfgWord_eq : Config.cfgWord = 0x104FF030#32 := by decide

/-- The reserved offsets above CFG read 0 (R85). -/
theorem State.readReg_of_reserved (s : State) {off : Nat} (h : 0x02C ≤ off) : s.readReg off = 0 := by
  unfold State.readReg
  split <;> simp_all

theorem readResetting_of_other {off : Nat} (h : off ∉ [0x000, 0x008, 0x028]) : readResetting off = 0 := by
  simp only [List.mem_cons, List.mem_nil_iff, or_false, not_or] at h
  unfold readResetting
  split <;> simp_all

/-- A DBUF read by its bytes, the first least significant (R11, R82). -/
theorem leVal_readBytes (m : Memory) (off n : Nat) :
    leVal (m.readBytes off n) = ∑ k ∈ Finset.range n, (m.read (off + k)).toNat * 256 ^ k := by
  induction n generalizing off with
  | zero => rfl
  | succ n ih =>
    have hshift (k : Nat) : off + 1 + k = off + (k + 1) := by omega
    rw [Memory.readBytes, leVal, ih, Finset.sum_range_succ', Finset.mul_sum, add_comm]
    simp [hshift, pow_succ', mul_left_comm]

theorem State.readDbuf_eq {s : State} {j : Nat} {w : Width} {v : Word}
    (h : v.toNat = ∑ k ∈ Finset.range w.bytes, (s.dbuf.read (j + k)).toNat * 256 ^ k) :
    s.readDbuf (0x100 + j) w = v := by
  rw [State.readDbuf, Nat.add_sub_cancel_left, leVal_readBytes, ← h, BitVec.ofNat_toNat, BitVec.setWidth_eq]

/-! ### Reads by the sequencer's state -/

section Reads

variable {s : State} {off : Nat} {w : Width} {v : Word}

theorem step_read {es : List HostEvent} (hin : s.hostIn = .read (Config.bnecBase + off) w :: es)
    (hoff : off < 0x200) : step s = hostRead off w { s with hostIn := es } := by
  simp [step, hin, runEvent, windowOffset_base_add hoff]

/-- Outside RESETTING a read that BUSY does not make a draw answers the state's own value (R87). -/
theorem hostRead_of_readNow (hseq : s.seq ≠ .resetting) (hacc : accessOk off w = true)
    (hstable : s.seq = .busy → drawnWhileBusy off = false) :
    hostRead off w s = .next (s.reply (s.readNow off w)) := by
  rw [hostRead, if_pos hacc]
  split
  · exact absurd ‹_› hseq
  · next hbusy => rw [hstable hbusy]; rfl
  · rfl

theorem readsAs_of_readNow (hseq : s.seq ≠ .resetting) (hoff : off < 0x200) (hacc : accessOk off w = true)
    (hstable : s.seq = .busy → drawnWhileBusy off = false) (hv : s.readNow off w = v) : ReadsAs s off w v := by
  intro es hin
  rw [step_read hin hoff, hostRead_of_readNow (s := { s with hostIn := es }) hseq hacc hstable, ← hv]
  rfl

/-- A 32-bit read of a register that no command writes while it runs. -/
theorem readsAs_of_readReg (hseq : s.seq ≠ .resetting) (hoff : off < 0x100) (halign : off % 4 = 0)
    (hstable : s.seq = .busy → drawnWhileBusy off = false) (hv : s.readReg off = v) : ReadsAs s off .word v :=
  readsAs_of_readNow hseq (by omega) (accessOk_word hoff halign) hstable ((if_pos hoff).trans hv)

/-- In RESETTING a read answers the constants of R522. -/
theorem readsAs_of_readResetting (hseq : s.seq = .resetting) (hoff : off < 0x200) (hacc : accessOk off w = true)
    (hv : readResetting off = v) : ReadsAs s off w v := by
  intro es hin
  rw [step_read hin hoff, hostRead, if_pos hacc]
  simp [hseq, hv, State.reply]

/-- In BUSY a read of FLAGS, RES or DBUF answers a draw, and counts it (R94). -/
theorem step_read_drawn {es : List HostEvent} (hseq : s.seq = .busy) (hoff : off < 0x200) (hacc : accessOk off w = true)
    (hdrawn : drawnWhileBusy off = true) (hin : s.hostIn = .read (Config.bnecBase + off) w :: es) :
    step s = .next { s with
      hostIn := es, hostOut := s.hostOut ++ [drawRead s.draws off w], draws := s.draws + 1 } := by
  rw [step_read hin hoff, hostRead, if_pos hacc]
  simp [hseq, hdrawn, State.reply]

end Reads

/-- A draw fits the access, and of FLAGS its three defined bits (R49, R94). -/
theorem drawRead_bounds (n off : Nat) (w : Width) (h : off = 0x010 → w = .word) :
    (drawRead n off w).toNat < 256 ^ w.bytes ∧ (off = 0x010 → (drawRead n off w).toNat < 2 ^ 3) := by
  have hlt := drawRead_lt n off w
  by_cases hflags : off = 0x010
  · rw [h hflags] at hlt ⊢
    simp only [drawnBits, hflags, if_true] at hlt ⊢
    exact ⟨lt_trans hlt (by decide), fun _ => hlt⟩
  · simp only [drawnBits, hflags, if_false, pow_mul] at hlt
    exact ⟨hlt, fun hf => absurd hf hflags⟩

/-- The accesses that BUSY answers with a draw: FLAGS and RES as words, and DBUF (R94). -/
theorem drawn_access {off : Nat} {w : Width}
    (h : (off = 0x010 ∨ off = 0x014) ∧ w = .word ∨ (0x100 ≤ off ∧ off < 0x200 ∧ off % w.bytes = 0)) :
    off < 0x200 ∧ accessOk off w = true ∧ drawnWhileBusy off = true ∧ (off = 0x010 → w = .word) := by
  rcases h with ⟨hreg, rfl⟩ | ⟨hlow, hhigh, halign⟩
  · rcases hreg with rfl | rfl <;> exact ⟨by decide, rfl, rfl, fun _ => rfl⟩
  · exact ⟨hhigh, by simp [accessOk, not_lt.2 hlow, halign], by simp [drawnWhileBusy, hlow], by omega⟩

/-- A register whose own value is what RESETTING answers reads as that value in every state: ID, CFG and the reserved
offsets (R54, R55, R85, R522). -/
theorem readsAs_of_eq_readResetting (s : State) {off : Nat} {v : Word} (hoff : off < 0x100) (halign : off % 4 = 0)
    (hstable : drawnWhileBusy off = false) (hv : s.readReg off = v) (hr : readResetting off = v) :
    ReadsAs s off .word v := by
  by_cases hseq : s.seq = .resetting
  · exact readsAs_of_readResetting hseq (by omega) (accessOk_word hoff halign) hr
  · exact readsAs_of_readReg hseq hoff halign (fun _ => hstable) hv

/-- Settles O52: each offset by the sequencer's state, and the words by their fields. -/
theorem hostReads : Obligations.HostReads := by
  intro s
  refine ⟨readsAs_of_eq_readResetting s (by decide) (by decide) rfl rfl rfl,
    readsAs_of_eq_readResetting s (by decide) (by decide) rfl cfgWord_eq cfgWord_eq, fun hseq => ?_,
    fun off hlow hoff halign => ?_, fun hidle => ?_, fun hbusy off w es haccess hin => ?_, fun hreset => ?_⟩
  · have hread {off : Nat} {v : Word} (hoff : off < 0x100) (halign : off % 4 = 0)
        (hstable : drawnWhileBusy off = false) : s.readReg off = v → ReadsAs s off .word v :=
      readsAs_of_readReg hseq hoff halign fun _ => hstable
    exact ⟨hread (by decide) (by decide) rfl s.ctrlWord_eq,
      hread (by decide) (by decide) rfl (State.statusWord_eq hseq),
      hread (by decide) (by decide) rfl rfl, hread (by decide) (by decide) rfl rfl,
      hread (by decide) (by decide) rfl s.argHi_setWidth, hread (by decide) (by decide) rfl rfl,
      hread (by decide) (by decide) rfl rfl⟩
  · refine readsAs_of_eq_readResetting s hoff halign ?_ (s.readReg_of_reserved hlow) (readResetting_of_other ?_)
    · simp [drawnWhileBusy]; omega
    · simp only [List.mem_cons, List.mem_nil_iff, or_false]; omega
  · have hseq : s.seq ≠ .resetting := by simp [hidle]
    have hnotBusy (p : Prop) (h : s.seq = .busy) : p := by simp [hidle] at h
    refine ⟨readsAs_of_readReg hseq (by decide) (by decide) (hnotBusy _) s.flagsWord_eq,
      readsAs_of_readReg hseq (by decide) (by decide) (hnotBusy _) rfl, fun j w v hj halign hv => ?_⟩
    exact readsAs_of_readNow hseq (by omega) (accessOk_dbuf halign) (hnotBusy _)
      ((if_neg (by omega)).trans (State.readDbuf_eq hv))
  · obtain ⟨hoff, hacc, hdrawn, hword⟩ := drawn_access haccess
    obtain ⟨hlt, hflags⟩ := drawRead_bounds s.draws off w hword
    exact ⟨_, hlt, hflags, step_read_drawn hbusy hoff hacc hdrawn hin⟩
  · have hother {off : Nat} (h : off ∉ [0x000, 0x008, 0x028]) {w : Width} (hoff : off < 0x200)
        (hacc : accessOk off w = true) : ReadsAs s off w 0#32 :=
      readsAs_of_readResetting hreset hoff hacc (readResetting_of_other h)
    refine ⟨readsAs_of_readResetting hreset (by decide) rfl rfl, fun off hoff halign hid hstatus hcfg => ?_,
      fun j w hj halign => ?_⟩
    · exact hother (by simp [hid, hstatus, hcfg]) (by omega) (accessOk_word hoff halign)
    · exact hother (by simp only [List.mem_cons, List.mem_nil_iff, or_false]; omega) (by omega) (accessOk_dbuf halign)

end Sys2Proof.Machine
end

section
/-! PROOF. O7 and O56: what a step does by its first pending event or the sequencer's state (spec/20_memory.md R93,
spec/60_exceptions.md R470), and that only a host access of a wrong form faults (R83 to R86, R484). -/

namespace Sys2Proof.Machine

/-! ### The step by its first event and the sequencer's state -/

section Step

variable {s : State} {e : HostEvent} {es : List HostEvent}

theorem step_of_hostIn_nil (hin : s.hostIn = []) : step s = sequencerStep s := by simp only [step, hin]

theorem step_of_hostIn_cons (hin : s.hostIn = e :: es) : step s = runEvent e { s with hostIn := es } := by
  simp only [step, hin]

theorem sequencerStep_of_busy (hseq : s.seq = .busy) : sequencerStep s = runCommand s := by
  simp only [sequencerStep, hseq]

theorem sequencerStep_of_resetting (hseq : s.seq = .resetting) : sequencerStep s = .next s.finishReset := by
  simp only [sequencerStep, hseq]

theorem sequencerStep_of_idle (hseq : s.seq = .idle) : sequencerStep s = .next s := by
  simp only [sequencerStep, hseq]

theorem runCommand_of_decode_some {i : Instr} (hdec : decode s.cmdReg = some i) : runCommand s = exec i s := by
  simp only [runCommand, hdec]

theorem runCommand_of_decode_none (hdec : decode s.cmdReg = none) :
    runCommand s = .next (s.errorEntry .illegalCommand) := by
  simp only [runCommand, hdec, raise]

end Step

/-- Settles O7: each clause is an equation of `step`, `sequencerStep` or `runCommand`. -/
theorem stepWithoutADecodedCommand : Obligations.StepWithoutADecodedCommand := by
  refine ⟨fun s e es hin => step_of_hostIn_cons hin, fun s hin hbusy hdec => ?_, fun s hin hidle => ?_,
    fun s hin hreset => ?_⟩
  · rw [step_of_hostIn_nil hin, sequencerStep_of_busy hbusy, runCommand_of_decode_none hdec]
  · rw [step_of_hostIn_nil hin, sequencerStep_of_idle hidle]
  · rw [step_of_hostIn_nil hin, sequencerStep_of_resetting hreset, State.finishReset]

section Accesses

variable {s : State} {e : HostEvent} {off addr : Nat} {w : Width} {d : Word}

/-! ### The forms of an access -/

theorem accessOk_register_iff (hoff : off < 0x100) : accessOk off w = true ↔ w = .word ∧ off % 4 = 0 := by
  simp [accessOk, hoff]

theorem accessOk_dbuf_iff (hoff : 0x100 ≤ off) : accessOk off w = true ↔ w.bytes ∣ off := by
  simp [accessOk, not_lt.2 hoff, Nat.dvd_iff_mod_eq_zero]

theorem windowOffset_of_outside (h : addr < Config.bnecBase ∨ Config.bnecBase + 0x200 ≤ addr) :
    windowOffset addr = none :=
  if_neg (by simp only [Config.windowSize]; omega)

/-! ### What faults -/

theorem hostRead_of_not_accessOk (h : accessOk off w = false) : hostRead off w s = .fault .busError := by
  simp [hostRead, h]

theorem hostWrite_of_not_accessOk (h : accessOk off w = false) : hostWrite off w d s = .fault .busError := by
  simp [hostWrite, h]

theorem runEvent_read_of_outside (h : windowOffset addr = none) :
    runEvent (.read addr w) s = .fault .notDecoded := by
  simp only [runEvent, h]

theorem runEvent_write_of_outside (h : windowOffset addr = none) :
    runEvent (.write addr w d) s = .fault .notDecoded := by
  simp only [runEvent, h]

/-! ### What answers a next state -/

/-- An accepted read answers in each state of the sequencer (R87, R94, R522). -/
theorem hostRead_next (s : State) (h : accessOk off w = true) : ∃ t, hostRead off w s = .next t := by
  rw [hostRead, if_pos h]
  cases s.seq with
  | resetting => exact ⟨_, rfl⟩
  | idle => exact ⟨_, rfl⟩
  | busy => cases drawnWhileBusy off <;> exact ⟨_, rfl⟩

/-- An accepted write is ignored, written to its register, or written to DBUF. -/
theorem hostWrite_next (s : State) (d : Word) (h : accessOk off w = true) : ∃ t, hostWrite off w d s = .next t := by
  rw [hostWrite, if_pos h]
  split
  · exact ⟨_, rfl⟩
  · split <;> exact ⟨_, rfl⟩

/-- No command word faults: one that decodes ends as its command does, any other in the error entry (R470, R484). -/
theorem runCommand_next (s : State) : ∃ t, runCommand s = .next t := by
  cases hdec : decode s.cmdReg with
  | some i => rw [runCommand_of_decode_some hdec]; exact exec_next i s
  | none => exact ⟨_, runCommand_of_decode_none hdec⟩

theorem sequencerStep_next (s : State) : ∃ t, sequencerStep s = .next t := by
  cases hseq : s.seq with
  | busy => rw [sequencerStep_of_busy hseq]; exact runCommand_next s
  | resetting => exact ⟨_, sequencerStep_of_resetting hseq⟩
  | idle => exact ⟨_, sequencerStep_of_idle hseq⟩

theorem runEvent_next (s : State) (h : e.safe) : ∃ t, runEvent e s = .next t := by
  cases e with
  | read addr w =>
    obtain ⟨off, hwin, hacc⟩ := h
    simp only [runEvent, hwin]
    exact hostRead_next s hacc
  | write addr w d =>
    obtain ⟨off, hwin, hacc⟩ := h
    simp only [runEvent, hwin]
    exact hostWrite_next s d hacc
  | reset => exact ⟨_, rfl⟩
  | pause => exact sequencerStep_next s

end Accesses

/-- Settles O56: the accepted forms, the two faults by read and write, and every safe step by its first event. -/
theorem onlyHostAccessesFault : Obligations.OnlyHostAccessesFault := by
  refine ⟨fun off w => accessOk_register_iff, fun off w hlow _ => accessOk_dbuf_iff hlow,
    fun s es off w d hoff hacc hin => ?_, fun s es addr w d hout hin => ?_, fun s hsafe => ?_⟩
  · rcases hin with hread | hwrite
    · exact (step_read hread hoff).trans (hostRead_of_not_accessOk hacc)
    · exact (step_write hwrite hoff).trans (hostWrite_of_not_accessOk hacc)
  · have hwin := windowOffset_of_outside hout
    rcases hin with hread | hwrite
    · exact (step_of_hostIn_cons hread).trans (runEvent_read_of_outside hwin)
    · exact (step_of_hostIn_cons hwrite).trans (runEvent_write_of_outside hwin)
  · cases hin : s.hostIn with
    | nil => rw [step_of_hostIn_nil hin]; exact sequencerStep_next s
    | cons e es => rw [step_of_hostIn_cons hin]; exact runEvent_next _ (hsafe e es hin)

end Sys2Proof.Machine
end

section
/-! PROOF. O1 to O5: the decoder and the encoder of command words (spec/30_encoding.md R110 to R121). A format answers
exactly where the fields it leaves out are zero, so a row of the map answers a command exactly at that command's word,
and the row's mask covers its opcode and the same fields. -/

namespace Sys2Proof

open Machine (twoBnOps runCommand_of_decode_none)

/-! ### The fields of a word (R111) -/

section Word

variable (w v : Word)

/-- L overlays C and D: its high digit is C. -/
theorem fieldL_div : (fieldL w).val / 16 = fieldC w := by
  simp only [fieldL, fieldC]; omega

theorem fieldL_mod : (fieldL w).val % 16 = fieldD w := by
  simp only [fieldL, fieldD]; omega

/-- X overlays D and I: its high digit is D. -/
theorem fieldX_div : (fieldX w).val / 256 = fieldD w := by
  simp only [fieldX, fieldD]; omega

theorem fieldX_mod : (fieldX w).val % 256 = fieldI w := by
  simp only [fieldX, fieldI]; omega

theorem fieldOp_lt : fieldOp w < 2 ^ 8 := by
  have := w.isLt
  simp only [fieldOp]; omega

theorem word_ext_iff {w v : Word} : w = v ↔ fieldOp w = fieldOp v ∧ (fieldA w).val = fieldA v ∧
    (fieldB w).val = fieldB v ∧ (fieldC w).val = fieldC v ∧ (fieldD w).val = fieldD v ∧ (fieldI w).val = fieldI v := by
  constructor
  · rintro rfl
    exact ⟨rfl, rfl, rfl, rfl, rfl, rfl⟩
  · rintro ⟨hop, ha, hb, hc, hd, hi⟩
    rw [← packWord_fields w, ← packWord_fields v, hop, ha, hb, hc, hd, hi]

theorem fieldA_eq_fieldD_packWord {op a b c d i : Nat} (ho : op < 256) (ha : a < 16) (hb : b < 16) (hc : c < 16)
    (hd : d < 16) (hi : i < 256) : fieldA (packWord op a b c d i) = fieldD (packWord op a b c d i) ↔ a = d := by
  rw [Fin.ext_iff, fieldA_packWord ho ha hb hc hd hi, fieldD_packWord ho ha hb hc hd hi]

/-! A bitwise AND acts on each field by itself. -/

theorem fieldOp_and : fieldOp (w &&& v) = fieldOp w &&& fieldOp v := by
  simp only [fieldOp, BitVec.toNat_and, Nat.and_div_two_pow]

theorem fieldA_and : (fieldA (w &&& v)).val = (fieldA w).val &&& (fieldA v).val := by
  simp only [fieldA, BitVec.toNat_and, Nat.and_div_two_pow, Nat.and_mod_two_pow (n := 4)]

theorem fieldB_and : (fieldB (w &&& v)).val = (fieldB w).val &&& (fieldB v).val := by
  simp only [fieldB, BitVec.toNat_and, Nat.and_div_two_pow, Nat.and_mod_two_pow (n := 4)]

theorem fieldC_and : (fieldC (w &&& v)).val = (fieldC w).val &&& (fieldC v).val := by
  simp only [fieldC, BitVec.toNat_and, Nat.and_div_two_pow, Nat.and_mod_two_pow (n := 4)]

theorem fieldD_and : (fieldD (w &&& v)).val = (fieldD w).val &&& (fieldD v).val := by
  simp only [fieldD, BitVec.toNat_and, Nat.and_div_two_pow, Nat.and_mod_two_pow (n := 4)]

theorem fieldI_and : (fieldI (w &&& v)).val = (fieldI w).val &&& (fieldI v).val := by
  simp only [fieldI, BitVec.toNat_and, Nat.and_mod_two_pow (n := 8)]

/-! The fields of a word written out. -/

section Numeral

variable (n : Nat)

theorem fieldOp_ofNat : fieldOp (BitVec.ofNat 32 n) = n % 2 ^ 32 / 2 ^ 24 := rfl

theorem fieldA_ofNat : fieldA (BitVec.ofNat 32 n) = Fin.ofNat 16 (n % 2 ^ 32 / 2 ^ 20) := rfl

theorem fieldB_ofNat : fieldB (BitVec.ofNat 32 n) = Fin.ofNat 16 (n % 2 ^ 32 / 2 ^ 16) := rfl

theorem fieldC_ofNat : fieldC (BitVec.ofNat 32 n) = Fin.ofNat 16 (n % 2 ^ 32 / 2 ^ 12) := rfl

theorem fieldD_ofNat : fieldD (BitVec.ofNat 32 n) = Fin.ofNat 16 (n % 2 ^ 32 / 2 ^ 8) := rfl

theorem fieldI_ofNat : fieldI (BitVec.ofNat 32 n) = Fin.ofNat 256 (n % 2 ^ 32) := rfl

end Numeral

end Word

/-! ### The formats (R112, R115) -/

section Formats

variable {w : Word} {i : Instr}

@[simp] theorem formatN_eq_some {k : Instr} : formatN w k = some i ↔
    (fieldA w = 0 ∧ fieldB w = 0 ∧ fieldC w = 0 ∧ fieldD w = 0 ∧ fieldI w = 0) ∧ k = i := by
  simp [formatN]

@[simp] theorem formatR3_eq_some {k : Fin 16 → Fin 16 → Fin 16 → Instr} : formatR3 w k = some i ↔
    (fieldD w = 0 ∧ fieldI w = 0) ∧ k (fieldA w) (fieldB w) (fieldC w) = i := by
  simp [formatR3]

@[simp] theorem formatR2_eq_some {k : Fin 16 → Fin 16 → Instr} : formatR2 w k = some i ↔
    (fieldC w = 0 ∧ fieldD w = 0 ∧ fieldI w = 0) ∧ k (fieldA w) (fieldB w) = i := by
  simp [formatR2]

@[simp] theorem formatR4_eq_some {k : Fin 16 → Fin 16 → Fin 16 → Fin 16 → Instr} : formatR4 w k = some i ↔
    fieldI w = 0 ∧ k (fieldA w) (fieldB w) (fieldC w) (fieldD w) = i := by
  simp [formatR4]

@[simp] theorem formatQ_eq_some {k : Fin 16 → Fin 16 → Fin 16 → Fin 16 → Instr} : formatQ w k = some i ↔
    fieldI w = 0 ∧ k (fieldA w) (fieldD w) (fieldB w) (fieldC w) = i := by
  simp [formatQ]

@[simp] theorem formatS1_eq_some {k : Fin 16 → Instr} : formatS1 w k = some i ↔
    (fieldA w = 0 ∧ fieldC w = 0 ∧ fieldD w = 0 ∧ fieldI w = 0) ∧ k (fieldB w) = i := by
  simp [formatS1]

@[simp] theorem formatS2_eq_some {k : Fin 16 → Fin 16 → Instr} : formatS2 w k = some i ↔
    (fieldA w = 0 ∧ fieldD w = 0 ∧ fieldI w = 0) ∧ k (fieldB w) (fieldC w) = i := by
  simp [formatS2]

@[simp] theorem formatS3_eq_some {k : Fin 16 → Fin 16 → Fin 16 → Instr} : formatS3 w k = some i ↔
    (fieldA w = 0 ∧ fieldI w = 0) ∧ k (fieldB w) (fieldC w) (fieldD w) = i := by
  simp [formatS3]

@[simp] theorem formatD1_eq_some {k : Fin 16 → Instr} : formatD1 w k = some i ↔
    (fieldB w = 0 ∧ fieldC w = 0 ∧ fieldD w = 0 ∧ fieldI w = 0) ∧ k (fieldA w) = i := by
  simp [formatD1]

@[simp] theorem formatMI_eq_some {k : Fin 16 → Imm8 → Imm8 → Instr} : formatMI w k = some i ↔
    fieldB w = 0 ∧ k (fieldA w) (fieldI w) (fieldL w) = i := by
  simp [formatMI]

@[simp] theorem formatMO_eq_some {k : Fin 16 → Imm8 → Instr} : formatMO w k = some i ↔
    (fieldA w = 0 ∧ fieldC w = 0 ∧ fieldD w = 0) ∧ k (fieldB w) (fieldI w) = i := by
  simp [formatMO]

@[simp] theorem formatSH_eq_some {k : Fin 16 → Fin 16 → Imm8 → Instr} : formatSH w k = some i ↔
    (fieldC w = 0 ∧ fieldD w = 0) ∧ k (fieldA w) (fieldB w) (fieldI w) = i := by
  simp [formatSH]

@[simp] theorem formatBX_eq_some {k : Fin 16 → BitIndex → Instr} : formatBX w k = some i ↔
    (fieldA w = 0 ∧ fieldC w = 0) ∧ k (fieldB w) (fieldX w) = i := by
  simp [formatBX]

@[simp] theorem formatCV_eq_some {k : Fin 16 → Fin 16 → Instr} : formatCV w k = some i ↔
    (fieldB w = 0 ∧ fieldC w = 0 ∧ fieldI w = 0) ∧ k (fieldA w) (fieldD w) = i := by
  simp [formatCV]

@[simp] theorem formatCA_eq_some {k : Fin 16 → Fin 16 → Fin 16 → Fin 16 → Instr} : formatCA w k = some i ↔
    fieldI w = 0 ∧ k (fieldA w) (fieldB w) (fieldC w) (fieldD w) = i := by
  simp [formatCA]

@[simp] theorem formatCE_eq_some {k : Fin 16 → Imm8 → Fin 16 → Instr} : formatCE w k = some i ↔
    (fieldB w = 0 ∧ fieldC w = 0) ∧ k (fieldA w) (fieldI w) (fieldD w) = i := by
  simp [formatCE]

@[simp] theorem formatSE_eq_some {k : Fin 16 → Imm8 → Fin 16 → Instr} : formatSE w k = some i ↔
    (fieldA w = 0 ∧ fieldD w = 0) ∧ k (fieldB w) (fieldI w) (fieldC w) = i := by
  simp [formatSE]

@[simp] theorem formatAF_eq_some {k : Fin 16 → Fin 16 → Fin 16 → Instr} : formatAF w k = some i ↔
    (fieldC w = 0 ∧ fieldI w = 0) ∧ k (fieldA w) (fieldD w) (fieldB w) = i := by
  simp [formatAF]

@[simp] theorem formatPS_eq_some {k : Fin 16 → Imm8 → Instr} : formatPS w k = some i ↔
    (fieldA w = 0 ∧ fieldC w = 0 ∧ fieldD w = 0) ∧ k (fieldB w) (fieldI w) = i := by
  simp [formatPS]

end Formats

/-! ### The decoder and the encoder -/

/-- Row by row: the word packed for a command has its opcode and zero in the fields its format leaves out, and the
format reads the operands back. -/
theorem decodeRow_encode (i : Instr) : decodeRow (encode i) = some i := by
  cases i <;>
    simp (disch := omega) [encode, decodeRow, fieldOp_packWord, fieldA_packWord, fieldB_packWord, fieldC_packWord,
      fieldD_packWord, fieldI_packWord, fieldL_packWord, fieldX_packWord, Fin.ext_iff, Nat.div_add_mod]

/-- Row by row: the operands and the zero fields a format has checked are all the fields of the word. -/
theorem encode_of_decodeRow {w : Word} {i : Instr} (h : decodeRow w = some i) : encode i = w := by
  suffices encode i = packWord (fieldOp w) (fieldA w) (fieldB w) (fieldC w) (fieldD w) (fieldI w) from
    this.trans (packWord_fields w)
  unfold decodeRow at h
  split at h
  -- the last arm is the one of R117, where no row answers
  case h_59 => contradiction
  all_goals
    next hop =>
    simp only [formatN_eq_some, formatR3_eq_some, formatR2_eq_some, formatR4_eq_some, formatQ_eq_some,
      formatS1_eq_some, formatS2_eq_some, formatS3_eq_some, formatD1_eq_some, formatMI_eq_some, formatMO_eq_some,
      formatSH_eq_some, formatBX_eq_some, formatCV_eq_some, formatCA_eq_some, formatCE_eq_some, formatSE_eq_some,
      formatAF_eq_some, formatPS_eq_some] at h
    obtain ⟨hzero, rfl⟩ := h
    simp [encode, hop, hzero, fieldL_div, fieldL_mod, fieldX_div, fieldX_mod]

section Decode

variable {w : Word} {i : Instr}

theorem decode_eq_filter (w : Word) : decode w = (decodeRow w).filter Instr.wf := by
  unfold decode
  cases decodeRow w <;> rfl

theorem decode_eq_some_iff_decodeRow : decode w = some i ↔ decodeRow w = some i ∧ i.wf = true := by
  rw [decode_eq_filter, Option.filter_eq_some_iff]

/-- The decoder inverts the encoder on the well-formed commands, and accepts no other word. -/
theorem decode_eq_some_iff : decode w = some i ↔ i.wf = true ∧ encode i = w := by
  rw [decode_eq_some_iff_decodeRow, and_comm]
  refine and_congr_right fun _ => ⟨encode_of_decodeRow, ?_⟩
  rintro rfl
  exact decodeRow_encode i

/-! ### The checks of R118 and R119 on the fields -/

/-- The word names one register as both destinations of a command with two (R118). -/
abbrev DoublesDestination (w : Word) : Prop := fieldOp w ∈ twoBnOps ∧ fieldA w = fieldD w

/-- The word is an EC.STENC whose flag z is 2 or more (R119). -/
abbrev FlagOutOfRange (w : Word) : Prop := fieldOp w = 0x44 ∧ 1 < (fieldC w).val

theorem wf_iff_encode (i : Instr) : i.wf = true ↔ ¬DoublesDestination (encode i) ∧ ¬FlagOutOfRange (encode i) := by
  cases i <;>
    simp (disch := omega) [Instr.wf, encode, fieldOp_packWord, fieldC_packWord, fieldA_eq_fieldD_packWord, Fin.val_inj]

/-- R121: a word decodes exactly where a row answers and the checks of R118 and R119 pass. -/
theorem decode_ne_none_iff :
    decode w ≠ none ↔ decodeRow w ≠ none ∧ ¬DoublesDestination w ∧ ¬FlagOutOfRange w := by
  have hrow {i : Instr} (h : decodeRow w = some i) : i.wf = true ↔ ¬DoublesDestination w ∧ ¬FlagOutOfRange w := by
    rw [wf_iff_encode, encode_of_decodeRow h]
  simp only [Option.ne_none_iff_exists', decode_eq_some_iff_decodeRow]
  constructor
  · rintro ⟨i, hi, hwf⟩
    exact ⟨⟨i, hi⟩, (hrow hi).1 hwf⟩
  · rintro ⟨⟨i, hi⟩, hchecks⟩
    exact ⟨i, hi, (hrow hi).2 hchecks⟩

/-! ### The rows of the opcode map (R115, R116) -/

theorem fieldOp_encode_mem (i : Instr) : fieldOp (encode i) ∈ opcodeTable.map fun r => fieldOp r.1 := by
  cases i <;> (simp (disch := omega) only [encode, fieldOp_packWord]; decide)

theorem exists_row_of_decodeRow_ne_none (h : decodeRow w ≠ none) : ∃ r ∈ opcodeTable, fieldOp r.1 = fieldOp w := by
  obtain ⟨i, hi⟩ := Option.ne_none_iff_exists'.1 h
  rw [← encode_of_decodeRow hi]
  exact List.mem_map.1 (fieldOp_encode_mem i)

theorem row_eq_of_fieldOp_eq : ∀ r ∈ opcodeTable, ∀ r' ∈ opcodeTable, fieldOp r.1 = fieldOp r'.1 → r = r' :=
  List.inj_on_of_nodup_map (by decide)

/-- A mask of none or all of `n` bits keeps nothing or everything. -/
theorem and_eq_zero_iff {x m n : Nat} (hx : x < 2 ^ n) (hm : m = 0 ∨ m = 2 ^ n - 1) :
    x &&& m = 0 ↔ (m ≠ 0 → x = 0) := by
  rcases hm with rfl | rfl
  · simp
  · rw [Nat.and_two_pow_sub_one_of_lt_two_pow hx]
    omega

/-- Each row's mask has all of OP and none or all of each other field, where the match is 0. -/
theorem opcodeTable_fields : ∀ r ∈ opcodeTable, fieldOp r.2 = 2 ^ 8 - 1 ∧
    ((fieldA r.1).val = 0 ∧ (fieldB r.1).val = 0 ∧ (fieldC r.1).val = 0 ∧ (fieldD r.1).val = 0 ∧ (fieldI r.1).val = 0) ∧
    ((fieldA r.2).val = 0 ∨ (fieldA r.2).val = 2 ^ 4 - 1) ∧ ((fieldB r.2).val = 0 ∨ (fieldB r.2).val = 2 ^ 4 - 1) ∧
    ((fieldC r.2).val = 0 ∨ (fieldC r.2).val = 2 ^ 4 - 1) ∧ ((fieldD r.2).val = 0 ∨ (fieldD r.2).val = 2 ^ 4 - 1) ∧
    ((fieldI r.2).val = 0 ∨ (fieldI r.2).val = 2 ^ 8 - 1) := by
  simp [opcodeTable, fieldOp_ofNat, fieldA_ofNat, fieldB_ofNat, fieldC_ofNat, fieldD_ofNat, fieldI_ofNat]

variable {r : Word × Word}

/-- R115: a word selects a row when it has the row's opcode and zero in each field the row's mask covers. -/
theorem selects_iff (hr : r ∈ opcodeTable) : w &&& r.2 = r.1 ↔ fieldOp w = fieldOp r.1 ∧
    ((fieldA r.2).val ≠ 0 → (fieldA w).val = 0) ∧ ((fieldB r.2).val ≠ 0 → (fieldB w).val = 0) ∧
    ((fieldC r.2).val ≠ 0 → (fieldC w).val = 0) ∧ ((fieldD r.2).val ≠ 0 → (fieldD w).val = 0) ∧
    ((fieldI r.2).val ≠ 0 → (fieldI w).val = 0) := by
  obtain ⟨hop, ⟨ha, hb, hc, hd, hi⟩, hma, hmb, hmc, hmd, hmi⟩ := opcodeTable_fields r hr
  rw [word_ext_iff, fieldOp_and, fieldA_and, fieldB_and, fieldC_and, fieldD_and, fieldI_and, hop, ha, hb, hc, hd, hi,
    Nat.and_two_pow_sub_one_of_lt_two_pow (fieldOp_lt w), and_eq_zero_iff (fieldA w).isLt hma,
    and_eq_zero_iff (fieldB w).isLt hmb, and_eq_zero_iff (fieldC w).isLt hmc, and_eq_zero_iff (fieldD w).isLt hmd,
    and_eq_zero_iff (fieldI w).isLt hmi]

/-- Row by row: the fields the mask covers are those the row's format leaves out. -/
theorem decodeRow_ne_none_iff_of_fieldOp (hr : r ∈ opcodeTable) (hop : fieldOp w = fieldOp r.1) :
    decodeRow w ≠ none ↔ w &&& r.2 = r.1 := by
  rw [selects_iff hr, Option.ne_none_iff_exists']
  revert r
  simp only [opcodeTable, List.cons_append, List.nil_append, List.forall_mem_cons, List.not_mem_nil, false_imp_iff,
    forall_const, and_true]
  and_intros
  all_goals
    intro hop
    simp only [fieldOp_ofNat, Nat.reducePow, Nat.reduceMod, Nat.reduceDiv] at hop
    simp [decodeRow, hop, fieldOp_ofNat, fieldA_ofNat, fieldB_ofNat, fieldC_ofNat, fieldD_ofNat, fieldI_ofNat]

theorem decodeRow_ne_none_iff : decodeRow w ≠ none ↔ ∃ r ∈ opcodeTable, w &&& r.2 = r.1 := by
  constructor
  · intro h
    obtain ⟨r, hr, hop⟩ := exists_row_of_decodeRow_ne_none h
    exact ⟨r, hr, (decodeRow_ne_none_iff_of_fieldOp hr hop.symm).1 h⟩
  · rintro ⟨r, hr, hsel⟩
    obtain ⟨hop, -⟩ := (selects_iff hr).1 hsel
    exact (decodeRow_ne_none_iff_of_fieldOp hr hop).2 hsel

/-! ### Undefined opcodes and checked commands by their opcode -/

/-- The opcodes R117 leaves undefined. -/
abbrev UndefinedOpcode (op : Nat) : Prop :=
  (0x0B ≤ op ∧ op ≤ 0x0F) ∨ op = 0x1F ∨ (0x2A ≤ op ∧ op ≤ 0x2F) ∨ (0x34 ≤ op ∧ op ≤ 0x3F) ∨
    (0x49 ≤ op ∧ op ≤ 0x4F) ∨ op = 0x56 ∨ op = 0x57 ∨ 0x5B ≤ op

theorem not_undefinedOpcode_of_row : ∀ r ∈ opcodeTable, ¬UndefinedOpcode (fieldOp r.1) := by
  simp [opcodeTable, fieldOp_ofNat]

theorem not_undefinedOpcode_of_decode_ne_none (h : decode w ≠ none) : ¬UndefinedOpcode (fieldOp w) := by
  obtain ⟨hrow, -⟩ := decode_ne_none_iff.1 h
  obtain ⟨r, hr, hop⟩ := exists_row_of_decodeRow_ne_none hrow
  exact hop ▸ not_undefinedOpcode_of_row r hr

/-- The rows of the commands R118 and R119 check are those with their opcodes. -/
theorem checked_rows : ∀ r ∈ opcodeTable,
    (r.1 ∈ [0x15000000#32, 0x18000000#32, 0x45000000#32] ↔ fieldOp r.1 ∈ twoBnOps) ∧
    (r.1 = 0x44000000#32 ↔ fieldOp r.1 = 0x44) := by
  simp [opcodeTable, fieldOp_ofNat]

/-- The checks of R118 and R119 on the row a word selects are the checks on the word's own fields. -/
theorem checks_iff_of_selects (hr : r ∈ opcodeTable) (hsel : w &&& r.2 = r.1) :
    (¬(r.1 ∈ [0x15000000#32, 0x18000000#32, 0x45000000#32] ∧ fieldA w = fieldD w) ∧
      ¬(r.1 = 0x44000000#32 ∧ 1 < (fieldC w).val)) ↔ ¬DoublesDestination w ∧ ¬FlagOutOfRange w := by
  obtain ⟨hop, -⟩ := (selects_iff hr).1 hsel
  obtain ⟨htwo, hstenc⟩ := checked_rows r hr
  rw [htwo, hstenc, ← hop]

end Decode

/-! ### The obligations -/

/-- Settles O2: the row of the command reads it back, and the checks of R118 and R119 are its well-formedness. -/
theorem decodeOfEncode : Obligations.DecodeOfEncode := fun _ hwf => decode_eq_some_iff.2 ⟨hwf, rfl⟩

/-- Settles O3: the row that answered has checked every field its command's word leaves zero. -/
theorem encodeOfDecode : Obligations.EncodeOfDecode := fun _ _ h => decode_eq_some_iff.1 h

/-- Settles O4: a selected row has the word's opcode, and no two rows have one opcode. -/
theorem wordsSelectOneRowOrAreIllegal : Obligations.WordsSelectOneRowOrAreIllegal := by
  refine fun w => ⟨fun r hr r' hr' hsel hsel' => ?_, ?_, fun hnone s hs => ?_⟩
  · obtain ⟨hop, -⟩ := (selects_iff hr).1 hsel
    obtain ⟨hop', -⟩ := (selects_iff hr').1 hsel'
    exact row_eq_of_fieldOp_eq r hr r' hr' (hop.symm.trans hop')
  · rw [decode_ne_none_iff, decodeRow_ne_none_iff]
    constructor
    · rintro ⟨⟨r, hr, hsel⟩, hchecks⟩
      exact ⟨r, hr, hsel, (checks_iff_of_selects hr hsel).2 hchecks⟩
    · rintro ⟨r, hr, hsel, hchecks⟩
      exact ⟨⟨r, hr, hsel⟩, (checks_iff_of_selects hr hsel).1 hchecks⟩
  · subst hs
    exact runCommand_of_decode_none hnone

/-- Settles O5: a word that decodes has a row's opcode and passes the checks of R118 and R119. -/
theorem illegalWordsRaise : Obligations.IllegalWordsRaise := by
  intro s hillegal
  refine runCommand_of_decode_none (by_contra fun hdec => ?_)
  have hdefined := not_undefinedOpcode_of_decode_ne_none hdec
  obtain ⟨-, hdest, hflag⟩ := decode_ne_none_iff.1 hdec
  simp only [UndefinedOpcode, not_or] at hdefined
  tauto

/-- Settles O1: each word is computed. -/
theorem exampleWordsDecode : Obligations.ExampleWordsDecode := by
  unfold Obligations.ExampleWordsDecode
  decide

end Sys2Proof
end

section
/-! PROOF. What the commands' proofs share: the end of a command from the equation of its meaning, and the bytes a store
leaves in DBUF (spec/60_exceptions.md R470, R473; spec/10_state.md R46, R56). -/

namespace Sys2Proof.Machine

/-! ### Endings -/

section Endings

variable {i : Instr} {s u : State} {r : BnNum}

theorem completes_of_exec {P : State → Prop} (hexec : exec i s = complete u) (h : P u.completed) : Completes i s P :=
  ⟨_, hexec, h⟩

theorem State.written_singleton : s.Written [r] ↔ (s.b r).written = true := by simp [State.Written]

/-- A command that reads its one source first raises UNWRITTEN_OPERAND where that is unwritten (R473). -/
theorem needsB_of_exec_withB {k : BigNum → Result} (hexec : exec i s = withB s r k) : NeedsB i s [r] := by
  intro hunwritten
  rw [State.written_singleton, Bool.not_eq_true] at hunwritten
  exact hexec.trans (withB_of_unwritten hunwritten)

/-- A command that reads its one source first goes on with that register's number where it is written. -/
theorem exec_of_written {k : BigNum → Result} (hexec : exec i s = withB s r k) (hw : s.Written [r]) :
    exec i s = k (s.b r).num :=
  hexec.trans (withB_of_written (State.written_singleton.1 hw))

theorem holdsBn_writeB_of_eq (s : State) (i : BnNum) {b : BigNum} {size v : Nat} (hsize : b.size = size)
    (hval : b.val = v) : HoldsBn (s.writeB i b).completed i size v := by
  simp [HoldsBn, hsize, hval]

theorem State.toNat_res_setRes {n : Nat} (s : State) (h : n < 2 ^ 32) : (s.setRes n).completed.res.toNat = n := by
  rw [State.completed_res, State.setRes_res, BitVec.toNat_ofNat, Nat.mod_eq_of_lt h]

end Endings

/-! ### Stores -/

/-- Byte `j` of the bytes written reads back at its address. -/
theorem Memory.read_writeBytes_add {m : Memory} (hwf : m.wf = true) (off : Nat) {bs : List Byte} {j : Nat}
    (hj : j < bs.length) : (m.writeBytes off bs).read (off + j) = bs[j] := by
  rw [Memory.read_writeBytes (Memory.wfFrom_of_wf hwf), dif_pos (by omega)]
  simp

/-- A store that fits DBUF leaves its bytes there and their number in RES, and changes nothing else (R46, R56). -/
theorem completes_store {i : Instr} {s : State} {off n : Nat} {bs : List Byte} (hwf : s.dbuf.wf = true)
    (hlen : bs.length = n) (hend : off + n ≤ 256)
    (hexec : exec i s = complete ({ s with dbuf := s.dbuf.writeBytes off bs }.setRes n)) :
    Completes i s fun t => (∀ (j : Nat) (hj : j < bs.length), t.dbuf.read (off + j) = bs[j]) ∧
      t.res.toNat = n ∧ OnlyResAndDbuf s t off n := by
  refine completes_of_exec hexec ⟨fun j hj => Memory.read_writeBytes_add hwf off hj,
    State.toNat_res_setRes _ (by omega), ?_⟩
  have hframe := onlyResAndDbuf_writeBytes s (Memory.wfFrom_of_wf hwf) off n bs
  rwa [hlen] at hframe

end Sys2Proof.Machine
end

section
/-! PROOF. O12 to O18: the BigNum construction, conversion and size commands (spec/40_bignum_data.md). First the bytes
of DBUF as numbers and limbs, and back (spec/00_scope.md R11, spec/20_memory.md R89); then each command by the branches
of its meaning. -/

namespace Sys2Proof.Machine

/-! ### Big-endian byte strings (R11) -/

theorem leVal_append_singleton (bs : List Byte) (b : Byte) :
    leVal (bs ++ [b]) = leVal bs + b.toNat * 256 ^ bs.length := by
  induction bs with
  | nil => simp [leVal]
  | cons c bs ih =>
    rw [List.cons_append, leVal, ih, leVal, List.length_cons, pow_succ]
    ring

/-- The first byte of a big-endian string has the highest weight. -/
theorem beVal_cons (b : Byte) (bs : List Byte) : beVal (b :: bs) = beVal bs + b.toNat * 256 ^ bs.length := by
  simp [beVal, leVal_append_singleton]

theorem beVal_readBytes (m : Memory) (off n : Nat) :
    beVal (m.readBytes off n) = ∑ j ∈ Finset.range n, (m.read (off + j)).toNat * 256 ^ (n - 1 - j) := by
  induction n generalizing off with
  | zero => rfl
  | succ n ih =>
    have haddr (j : Nat) : off + 1 + j = off + (j + 1) := by omega
    have hweight (j : Nat) : n - 1 - j = n - (j + 1) := by omega
    rw [Memory.readBytes, beVal_cons, ih, Finset.sum_range_succ']
    simp [haddr, hweight]

/-- `len` bytes fit ceil(len / 3) limbs (R151). -/
theorem beVal_lt_ceilDiv_limbs (bs : List Byte) : beVal bs < 2 ^ (24 * ceilDiv bs.length 3) := by
  have hbytes := le_mul_ceilDiv bs.length 3 (by decide)
  calc beVal bs < 256 ^ bs.length := beVal_lt bs
    _ = 2 ^ (8 * bs.length) := (pow_mul 2 8 bs.length).symm
    _ ≤ 2 ^ (24 * ceilDiv bs.length 3) := Nat.pow_le_pow_right (by decide) (by omega)

theorem toNat_beBytes_getElem {n v j : Nat} (hj : j < (beBytes n v).length) :
    (beBytes n v)[j].toNat = v / 256 ^ (n - 1 - j) % 256 := by
  simp [beBytes, List.getElem_reverse, leBytes_getElem]

/-! ### Limbs of three little-endian bytes (R89) -/

theorem limbsOfBytes_readBytes_succ (m : Memory) (off n : Nat) :
    limbsOfBytes (m.readBytes off (3 * (n + 1))) =
      BitVec.ofNat 24 (leVal (m.readBytes off 3)) :: limbsOfBytes (m.readBytes (off + 3) (3 * n)) := rfl

theorem leVal_readBytes_three (m : Memory) (off : Nat) : leVal (m.readBytes off 3) =
    (m.read off).toNat + 256 * (m.read (off + 1)).toNat + 65536 * (m.read (off + 2)).toNat := by
  simp only [Memory.readBytes, leVal, add_assoc, Nat.reduceAdd]
  omega

theorem toNat_limb_readBytes (m : Memory) (off : Nat) :
    (BitVec.ofNat 24 (leVal (m.readBytes off 3))).toNat = leVal (m.readBytes off 3) := by
  have hlt : leVal (m.readBytes off 3) < 2 ^ 24 := by simpa using leVal_lt (m.readBytes off 3)
  rw [BitVec.toNat_ofNat, Nat.mod_eq_of_lt hlt]

theorem limbsVal_limbsOfBytes_readBytes (m : Memory) (off n : Nat) :
    limbsVal (limbsOfBytes (m.readBytes off (3 * n))) = ∑ j ∈ Finset.range n,
      ((m.read (off + 3 * j)).toNat + 256 * (m.read (off + 3 * j + 1)).toNat +
        65536 * (m.read (off + 3 * j + 2)).toNat) * 2 ^ (24 * j) := by
  simp only [← leVal_readBytes_three]
  induction n generalizing off with
  | zero => rfl
  | succ n ih =>
    have haddr (j : Nat) : off + 3 + 3 * j = off + 3 * (j + 1) := by omega
    have hweight (j : Nat) : 2 ^ (24 * (j + 1)) = 2 ^ 24 * 2 ^ (24 * j) := by rw [mul_add, pow_add, mul_comm]
    rw [limbsOfBytes_readBytes_succ, limbsVal, toNat_limb_readBytes, ih, Finset.sum_range_succ', Finset.mul_sum,
      add_comm]
    simp [haddr, hweight, mul_left_comm]

/-- Byte `k` of limb `j` stands at `3 j + k`. -/
theorem toNat_bytesOfLimbs_getElem {ls : List Limb} {j k : Nat} (hk : k < 3)
    (h : 3 * j + k < (bytesOfLimbs ls).length) :
    (bytesOfLimbs ls)[3 * j + k].toNat = (ls.getD j 0).toNat / 256 ^ k % 256 := by
  induction ls generalizing j with
  | nil => simp [bytesOfLimbs] at h
  | cons l ls ih =>
    cases j with
    | zero => simp [bytesOfLimbs, List.getElem_append_left, leBytes_getElem, hk]
    | succ j =>
      have hidx : 3 * (j + 1) + k - 3 = 3 * j + k := by omega
      simp only [bytesOfLimbs_length, List.length_cons] at h
      simp only [bytesOfLimbs]
      rw [List.getElem_append_right (by simp; omega)]
      simp only [leBytes_length, hidx, List.getD_cons_succ]
      exact ih (by simp; omega)

/-! ### The capacity bounds the bit length -/

/-- A register holds at most LMAX limbs, so its bit length is at most theirs (R9, R32). -/
theorem State.BnOk.bitlen_le {s : State} (h : s.BnOk) (r : BnNum) : bitlen (s.val r) ≤ 24 * Config.lmax :=
  (bitlen_le_iff _ _).2 ((s.b r).num.val_lt_of_le (h r).1)

/-! ### The commands with a source register, by their meanings (R157 to R174) -/

section Arms

variable (rd rs : BnNum) (off n : Imm8) (s : State)

theorem exec_bnStb : exec (.bnStb rs off) s = execBnStb rs off s := rfl

theorem exec_bnStl : exec (.bnStl rs off) s = execBnStl rs off s := rfl

theorem exec_bnMov : exec (.bnMov rd rs) s = execBnMov rd rs s := rfl

theorem exec_bnResize : exec (.bnResize rd rs n) s = execBnResize rd rs n s := rfl

theorem exec_bnTrim : exec (.bnTrim rd rs) s = execBnTrim rd rs s := rfl

theorem exec_bnBitlen : exec (.bnBitlen rs) s = execBnBitlen rs s := rfl

theorem exec_bnSize : exec (.bnSize rs) s = execBnSize rs s := rfl

end Arms

/-! ### The obligations -/

/-- Settles O12: the three branches of the meaning, and the bytes read as one number. -/
theorem loadBytes : Obligations.LoadBytes := by
  intro s rd off len
  refine ⟨fun hrange => if_pos hrange, fun hrange hcap => (if_neg (not_lt.2 hrange)).trans (if_pos hcap),
    fun hrange hcap => ?_, decodeOfEncode (.bnLdb rd off len) rfl⟩
  refine completes_of_exec ((if_neg (not_lt.2 hrange)).trans (if_neg (not_lt.2 hcap))) ⟨?_, onlyBn_writeB ..⟩
  rw [← beVal_readBytes]
  have hlt := beVal_lt_ceilDiv_limbs (s.dbuf.readBytes off.val len.val)
  rw [Memory.readBytes_length] at hlt
  exact holdsBn_writeB s rd hlt

/-- Settles O13: 2^48 is far below what three limbs hold. -/
theorem fromInteger : Obligations.FromInteger := by
  intro s rd
  refine ⟨fun hbig => if_pos hbig, fun hfits => ?_, decodeOfEncode (.bnFromint rd) rfl⟩
  exact completes_of_exec (if_neg (not_lt.2 hfits))
    ⟨holdsBn_writeB s rd (lt_of_le_of_lt hfits (by decide)), onlyBn_writeB ..⟩

/-- Settles O14: the three branches of the meaning, and the bytes read limb by limb. -/
theorem loadLimbs : Obligations.LoadLimbs := by
  intro s rd off n
  refine ⟨fun hcap => if_pos hcap, fun hcap hrange => (if_neg (not_lt.2 hcap)).trans (if_pos hrange),
    fun hcap hrange => ?_, decodeOfEncode (.bnLdl rd off n) rfl⟩
  exact completes_of_exec ((if_neg (not_lt.2 hcap)).trans (if_neg (not_lt.2 hrange)))
    ⟨holdsBn_writeB_of_eq s rd (limbsOfBytes_length n.val _ (Memory.readBytes_length ..))
      (limbsVal_limbsOfBytes_readBytes ..), onlyBn_writeB ..⟩

/-- Settles O15: a store of the big-endian bytes. -/
theorem storeBytes : Obligations.StoreBytes := by
  intro s rs off hwf
  refine ⟨needsB_of_exec_withB (exec_bnStb ..),
    fun hw hrange => (exec_of_written (exec_bnStb ..) hw).trans (if_pos hrange), fun hw hrange => ?_,
    decodeOfEncode (.bnStb rs off) rfl⟩
  obtain ⟨t, hexec, hbytes, hres, hframe⟩ := completes_store hwf (beBytes_length ..) hrange
    ((exec_of_written (exec_bnStb ..) hw).trans (if_neg (not_lt.2 hrange)))
  refine ⟨t, hexec, fun j hj => ?_, hres, hframe⟩
  rw [hbytes j (by simpa using hj), toNat_beBytes_getElem]

/-- Settles O16: a store of the bytes of every limb of the capacity. -/
theorem storeLimbs : Obligations.StoreLimbs := by
  intro s rs off hwf _
  refine ⟨needsB_of_exec_withB (exec_bnStl ..),
    fun hw hrange => (exec_of_written (exec_bnStl ..) hw).trans (if_pos hrange), fun hw hrange => ?_,
    decodeOfEncode (.bnStl rs off) rfl⟩
  obtain ⟨t, hexec, hbytes, hres, hframe⟩ := completes_store hwf (bytesOfLimbs_length _) hrange
    ((exec_of_written (exec_bnStl ..) hw).trans (if_neg (not_lt.2 hrange)))
  refine ⟨t, hexec, fun j hj k hk => ?_, hres, hframe⟩
  have hidx : 3 * j + k < (bytesOfLimbs (s.b rs).num.limbs).length := by
    rw [bytesOfLimbs_length]
    simp only [BigNum.size] at hj
    omega
  rw [add_assoc, hbytes _ hidx, toNat_bytesOfLimbs_getElem hk, BigNum.limb]

/-- Settles O17: each command writes its destination with a value that fits the new capacity. -/
theorem moveResizeTrim : Obligations.MoveResizeTrim := by
  intro s rd rs n
  refine ⟨needsB_of_exec_withB (exec_bnMov ..), needsB_of_exec_withB (exec_bnResize ..),
    needsB_of_exec_withB (exec_bnTrim ..), fun hw => ?_,
    fun hw hcap => (exec_of_written (exec_bnResize ..) hw).trans (if_pos hcap), fun hw hcap => ?_, fun hw => ?_,
    decodeOfEncode (.bnMov rd rs) rfl, decodeOfEncode (.bnResize rd rs n) rfl, decodeOfEncode (.bnTrim rd rs) rfl⟩
  · exact completes_of_exec (exec_of_written (exec_bnMov ..) hw)
      ⟨holdsBn_writeB s rd (s.b rs).num.val_lt, onlyBn_writeB ..⟩
  · exact completes_of_exec ((exec_of_written (exec_bnResize ..) hw).trans (if_neg (not_lt.2 hcap)))
      ⟨holdsBn_writeB s rd (Nat.mod_lt _ (Nat.two_pow_pos _)), onlyBn_writeB ..⟩
  · exact completes_of_exec (exec_of_written (exec_bnTrim ..) hw)
      ⟨holdsBn_writeB s rd (lt_nlimbs _), onlyBn_writeB ..⟩

/-- Settles O18: at most 48 limbs, so RES holds the bit length and the capacity whole. -/
theorem bitLengthAndSize : Obligations.BitLengthAndSize := by
  intro s rs hok
  have hbits := hok.bitlen_le rs
  obtain ⟨hsize, -⟩ := hok rs
  refine ⟨needsB_of_exec_withB (exec_bnBitlen ..), needsB_of_exec_withB (exec_bnSize ..), fun hw => ?_, fun hw => ?_,
    decodeOfEncode (.bnBitlen rs) rfl, decodeOfEncode (.bnSize rs) rfl⟩
  · exact completes_of_exec (exec_of_written (exec_bnBitlen ..) hw)
      ⟨s.toNat_res_setRes (lt_of_le_of_lt hbits (by decide)), onlyRes_setRes ..⟩
  · exact completes_of_exec (exec_of_written (exec_bnSize ..) hw)
      ⟨s.toNat_res_setRes (lt_of_le_of_lt hsize (by decide)), onlyRes_setRes ..⟩

end Sys2Proof.Machine
end

section
/-! PROOF. O19 to O23: BigNum arithmetic, shifts and bitwise commands (spec/41_bignum_arith.md). First the commands with
two sources and what a command's own writes leave in its destinations, then the bounds that make each result fit the
capacity of R200. -/

namespace Sys2Proof

/-- A command the checks of R118 and R119 reject is not read back from its word. -/
theorem decode_encode_of_not_wf {i : Instr} (h : i.wf = false) : decode (encode i) = none := by
  rw [decode_eq_filter, decodeRow_encode]
  simp [h]

end Sys2Proof

namespace Sys2Proof.Machine

/-! ### Commands with two source registers (R473) -/

section TwoSources

variable {i : Instr} {s : State} {r1 r2 : BnNum} {k : BigNum → BigNum → Result}

theorem State.written_pair : s.Written [r1, r2] ↔ (s.b r1).written = true ∧ (s.b r2).written = true := by
  simp [State.Written]

/-- A command that reads its two sources first raises UNWRITTEN_OPERAND where one of them is unwritten. -/
theorem needsB_of_exec_withB_withB (hexec : exec i s = withB s r1 fun a => withB s r2 (k a)) :
    NeedsB i s [r1, r2] := by
  intro hunwritten
  rw [State.written_pair, not_and, Bool.not_eq_true] at hunwritten
  by_cases h1 : (s.b r1).written = true
  · exact hexec.trans ((withB_of_written h1).trans (withB_of_unwritten (hunwritten h1)))
  · exact hexec.trans (withB_of_unwritten (Bool.eq_false_iff.2 h1))

/-- A command that reads its two sources first goes on with their numbers where both are written. -/
theorem exec_of_written_pair (hexec : exec i s = withB s r1 fun a => withB s r2 (k a)) (hw : s.Written [r1, r2]) :
    exec i s = k (s.b r1).num (s.b r2).num := by
  obtain ⟨h1, h2⟩ := State.written_pair.1 hw
  exact hexec.trans ((withB_of_written h1).trans (withB_of_written h2))

end TwoSources

/-! ### Commands that write BigNum registers -/

section Writes

variable {i : Instr} {s : State} {rd rd' : BnNum} {size v size' v' : Nat}

/-- A command that completes after one write leaves a value that fits in its destination, and nothing else changes. -/
theorem completes_writeB (hexec : exec i s = complete (s.writeB rd (BigNum.ofVal size v)))
    (hfits : v < 2 ^ (24 * size)) :
    Completes i s fun t => HoldsBn t rd size v ∧ OnlyBn s t [rd] :=
  completes_of_exec hexec ⟨holdsBn_writeB s rd hfits, onlyBn_writeB ..⟩

/-- The second of two writes leaves the first destination, another register, as it was written. -/
theorem completes_writeB_writeB
    (hexec : exec i s = complete ((s.writeB rd (BigNum.ofVal size v)).writeB rd' (BigNum.ofVal size' v')))
    (hne : rd ≠ rd') (hfits : v < 2 ^ (24 * size)) (hfits' : v' < 2 ^ (24 * size')) :
    Completes i s fun t => HoldsBn t rd size v ∧ HoldsBn t rd' size' v' ∧ OnlyBn s t [rd, rd'] := by
  refine completes_of_exec hexec ⟨?_, holdsBn_writeB _ rd' hfits', onlyBn_writeB_writeB ..⟩
  have hkept : ((s.writeB rd (BigNum.ofVal size v)).writeB rd' (BigNum.ofVal size' v')).completed.b rd =
      (s.writeB rd (BigNum.ofVal size v)).completed.b rd := by simp [hne.symm]
  rw [HoldsBn, hkept]
  exact holdsBn_writeB s rd hfits

/-- One write, its value given bit by bit. -/
theorem completes_writeB_testBit {bit : Nat → Bool}
    (hexec : exec i s = complete (s.writeB rd (BigNum.ofVal size v))) (hfits : v < 2 ^ (24 * size))
    (hbit : ∀ k, v.testBit k = bit k) : Completes i s fun t => (t.b rd).written = true ∧ t.size rd = size ∧
      (∀ k, (t.val rd).testBit k = bit k) ∧ OnlyBn s t [rd] := by
  obtain ⟨t, hnext, ⟨hwritten, hsize, hval⟩, hframe⟩ := completes_writeB hexec hfits
  exact ⟨t, hnext, hwritten, hsize, fun k => by rw [State.val, hval, hbit k], hframe⟩

end Writes

/-! ### The results fit their capacities (R200) -/

section Bounds

variable {x y m n : Nat}

theorem add_lt_limbs_succ (hx : x < 2 ^ (24 * n)) (hy : y < 2 ^ (24 * n)) : x + y < 2 ^ (24 * (n + 1)) := by
  rw [mul_add, pow_add]
  omega

theorem mul_lt_limbs_add (hx : x < 2 ^ (24 * m)) (hy : y < 2 ^ (24 * n)) : x * y < 2 ^ (24 * (m + n)) := by
  rw [mul_add, pow_add]
  exact Nat.mul_lt_mul'' hx hy

theorem BigNum.div_lt (a : BigNum) (d : Nat) : a.val / d < 2 ^ (24 * a.size) :=
  lt_of_le_of_lt (Nat.div_le_self ..) a.val_lt

theorem BigNum.sub_lt_max (a b : BigNum) (d : Nat) : a.val - d < 2 ^ (24 * max a.size b.size) :=
  lt_of_le_of_lt (Nat.sub_le ..) (a.val_lt_of_le (le_max_left ..))

end Bounds

/-! ### The commands by their meanings -/

section Arms

variable (rd rs rs1 rs2 rq rr : BnNum) (sh : Imm8) (s : State)

theorem exec_bnAdd : exec (.bnAdd rd rs1 rs2) s = execBnAdd rd rs1 rs2 s := rfl

theorem exec_bnSub : exec (.bnSub rd rs1 rs2) s = execBnSub rd rs1 rs2 s := rfl

theorem exec_bnSubge : exec (.bnSubge rd rs1 rs2) s = execBnSubge rd rs1 rs2 s := rfl

theorem exec_bnMul : exec (.bnMul rd rs1 rs2) s = execBnMul rd rs1 rs2 s := rfl

theorem exec_bnSqr : exec (.bnSqr rd rs) s = execBnSqr rd rs s := rfl

theorem exec_bnDivmod : exec (.bnDivmod rq rr rs1 rs2) s = execBnDivmod rq rr rs1 rs2 s := rfl

theorem exec_bnDiv : exec (.bnDiv rd rs1 rs2) s = execBnDiv rd rs1 rs2 s := rfl

theorem exec_bnMod : exec (.bnMod rd rs1 rs2) s = execBnMod rd rs1 rs2 s := rfl

theorem exec_bnDivi : exec (.bnDivi rq rr rs1 rs2) s = execBnDivi rq rr rs1 rs2 s := rfl

theorem exec_bnShl : exec (.bnShl rd rs sh) s = execBnShl rd rs sh s := rfl

theorem exec_bnShr : exec (.bnShr rd rs sh) s = execBnShr rd rs sh s := rfl

theorem exec_bnAnd : exec (.bnAnd rd rs1 rs2) s = execBnAnd rd rs1 rs2 s := rfl

theorem exec_bnOr : exec (.bnOr rd rs1 rs2) s = execBnOr rd rs1 rs2 s := rfl

theorem exec_bnXor : exec (.bnXor rd rs1 rs2) s = execBnXor rd rs1 rs2 s := rfl

theorem exec_bnNeg : exec (.bnNeg rd rs) s = execBnNeg rd rs s := rfl

end Arms

/-! ### The obligations -/

/-- Settles O19: one limb more than the larger operand holds a sum, the operands' limbs together hold a product, and a
shift by less than a limb is a product with one limb. -/
theorem growingArithmetic : Obligations.GrowingArithmetic := by
  intro s rd rs1 rs2 rs sh
  refine ⟨needsB_of_exec_withB_withB (exec_bnAdd ..), needsB_of_exec_withB_withB (exec_bnMul ..),
    needsB_of_exec_withB (exec_bnSqr ..), needsB_of_exec_withB (exec_bnShl ..),
    fun hw hcap => (exec_of_written_pair (exec_bnAdd ..) hw).trans (if_pos hcap), fun hw hcap => ?_,
    fun hw hcap => (exec_of_written_pair (exec_bnMul ..) hw).trans (if_pos hcap), fun hw hcap => ?_,
    fun hw hcap => (exec_of_written (exec_bnSqr ..) hw).trans (if_pos hcap), fun hw hcap => ?_,
    fun hw hsh => (exec_of_written (exec_bnShl ..) hw).trans (if_pos hsh),
    fun hw hsh hcap => ((exec_of_written (exec_bnShl ..) hw).trans (if_neg (not_lt.2 hsh))).trans (if_pos hcap),
    fun hw hsh hcap => ?_,
    decodeOfEncode (.bnAdd rd rs1 rs2) rfl, decodeOfEncode (.bnMul rd rs1 rs2) rfl, decodeOfEncode (.bnSqr rd rs) rfl,
    decodeOfEncode (.bnShl rd rs sh) rfl⟩
  · exact completes_writeB ((exec_of_written_pair (exec_bnAdd ..) hw).trans (if_neg (not_lt.2 hcap)))
      (add_lt_limbs_succ (BigNum.val_lt_of_le _ (le_max_left ..)) (BigNum.val_lt_of_le _ (le_max_right ..)))
  · exact completes_writeB ((exec_of_written_pair (exec_bnMul ..) hw).trans (if_neg (not_lt.2 hcap)))
      (mul_lt_limbs_add (BigNum.val_lt _) (BigNum.val_lt _))
  · refine completes_writeB ((exec_of_written (exec_bnSqr ..) hw).trans (if_neg (not_lt.2 hcap))) ?_
    rw [two_mul]
    exact mul_lt_limbs_add (BigNum.val_lt _) (BigNum.val_lt _)
  · refine completes_writeB
      (((exec_of_written (exec_bnShl ..) hw).trans (if_neg (not_lt.2 hsh))).trans (if_neg (not_lt.2 hcap))) ?_
    exact mul_lt_limbs_add (BigNum.val_lt _) (Nat.pow_lt_pow_right (by decide) (by omega))

/-- Settles O21: the quotient is at most the dividend, and the remainder is below the divisor. -/
theorem division : Obligations.Division := by
  intro s rq rr rd rs1 rs2
  refine ⟨fun _ => ⟨needsB_of_exec_withB_withB (exec_bnDivmod ..), needsB_of_exec_withB_withB (exec_bnDivi ..)⟩,
    needsB_of_exec_withB_withB (exec_bnDiv ..), needsB_of_exec_withB_withB (exec_bnMod ..),
    fun hw hzero => ⟨fun _ => ⟨(exec_of_written_pair (exec_bnDivmod ..) hw).trans (if_pos hzero),
        (exec_of_written_pair (exec_bnDivi ..) hw).trans (if_pos hzero)⟩,
      (exec_of_written_pair (exec_bnDiv ..) hw).trans (if_pos hzero),
      (exec_of_written_pair (exec_bnMod ..) hw).trans (if_pos hzero)⟩,
    fun _ hw hlarge => ?_, fun hne hw hpos => ?_, fun hw hpos => ?_, fun hw hpos => ?_,
    fun hne hw hpos hlimb => ?_,
    fun hne => ⟨decodeOfEncode (.bnDivmod rq rr rs1 rs2) (bne_iff_ne.2 hne),
      decodeOfEncode (.bnDivi rq rr rs1 rs2) (bne_iff_ne.2 hne)⟩,
    decode_encode_of_not_wf (i := .bnDivmod rq rq rs1 rs2) (bne_self_eq_false rq),
    decode_encode_of_not_wf (i := .bnDivi rq rq rs1 rs2) (bne_self_eq_false rq),
    decodeOfEncode (.bnDiv rd rs1 rs2) rfl, decodeOfEncode (.bnMod rd rs1 rs2) rfl⟩
  · exact ((exec_of_written_pair (exec_bnDivi ..) hw).trans
      (if_neg (lt_of_lt_of_le (by decide) hlarge).ne')).trans (if_pos hlarge)
  · exact completes_writeB_writeB ((exec_of_written_pair (exec_bnDivmod ..) hw).trans (if_neg hpos.ne')) hne
      (BigNum.div_lt ..) ((Nat.mod_lt _ hpos).trans (BigNum.val_lt _))
  · exact completes_writeB ((exec_of_written_pair (exec_bnDiv ..) hw).trans (if_neg hpos.ne')) (BigNum.div_lt ..)
  · exact completes_writeB ((exec_of_written_pair (exec_bnMod ..) hw).trans (if_neg hpos.ne'))
      ((Nat.mod_lt _ hpos).trans (BigNum.val_lt _))
  · exact completes_writeB_writeB
      (((exec_of_written_pair (exec_bnDivi ..) hw).trans (if_neg hpos.ne')).trans (if_neg (not_le.2 hlimb))) hne
      (BigNum.div_lt ..) ((Nat.mod_lt _ hpos).trans hlimb)

/-- Settles O23: both operands fit the larger capacity, and a bit both leave 0 is 0 in the result. -/
theorem bitwise : Obligations.Bitwise := by
  intro s rd rs1 rs2
  refine ⟨needsB_of_exec_withB_withB (exec_bnAnd ..), needsB_of_exec_withB_withB (exec_bnOr ..),
    needsB_of_exec_withB_withB (exec_bnXor ..), fun hw => ?_, decodeOfEncode (.bnAnd rd rs1 rs2) rfl,
    decodeOfEncode (.bnOr rd rs1 rs2) rfl, decodeOfEncode (.bnXor rd rs1 rs2) rfl⟩
  have hfits1 := (s.b rs1).num.val_lt_of_le (le_max_left (s.size rs1) (s.size rs2))
  have hfits2 := (s.b rs2).num.val_lt_of_le (le_max_right (s.size rs1) (s.size rs2))
  exact ⟨completes_writeB_testBit (exec_of_written_pair (exec_bnAnd ..) hw) (Nat.and_lt_two_pow _ hfits2)
      (Nat.testBit_and _ _),
    completes_writeB_testBit (exec_of_written_pair (exec_bnOr ..) hw) (Nat.or_lt_two_pow hfits1 hfits2)
      (Nat.testBit_or _ _),
    completes_writeB_testBit (exec_of_written_pair (exec_bnXor ..) hw) (Nat.xor_lt_two_pow hfits1 hfits2)
      (Nat.testBit_xor _ _)⟩

/-- Settles O20: neither result exceeds the minuend. -/
theorem subtraction : Obligations.Subtraction := by
  intro s rd rs1 rs2
  refine ⟨needsB_of_exec_withB_withB (exec_bnSub ..), needsB_of_exec_withB_withB (exec_bnSubge ..),
    fun hw hunder => (exec_of_written_pair (exec_bnSub ..) hw).trans (if_pos hunder), fun hw hge => ?_, fun hw => ?_,
    decodeOfEncode (.bnSub rd rs1 rs2) rfl, decodeOfEncode (.bnSubge rd rs1 rs2) rfl⟩
  · exact completes_writeB ((exec_of_written_pair (exec_bnSub ..) hw).trans (if_neg (not_lt.2 hge)))
      (BigNum.sub_lt_max ..)
  · refine completes_writeB (exec_of_written_pair (exec_bnSubge ..) hw) ?_
    split
    · exact BigNum.sub_lt_max ..
    · exact BigNum.val_lt_of_le _ (le_max_left ..)

/-- Settles O22: a quotient and a remainder modulo 2^W both fit the operand's capacity. -/
theorem shiftRightAndNegate : Obligations.ShiftRightAndNegate := by
  intro s rd rs sh
  refine ⟨needsB_of_exec_withB (exec_bnShr ..), needsB_of_exec_withB (exec_bnNeg ..),
    fun hw hsh => (exec_of_written (exec_bnShr ..) hw).trans (if_pos hsh), fun hw hsh => ?_, fun hw => ?_,
    decodeOfEncode (.bnShr rd rs sh) rfl, decodeOfEncode (.bnNeg rd rs) rfl⟩
  · exact completes_writeB ((exec_of_written (exec_bnShr ..) hw).trans (if_neg (not_lt.2 hsh))) (BigNum.div_lt ..)
  · exact completes_writeB (exec_of_written (exec_bnNeg ..) hw) (Nat.mod_lt _ (Nat.two_pow_pos _))

end Sys2Proof.Machine
end

section
/-! PROOF. O24 to O29: BigNum comparison, predicates, select and signed-nybble recoding (spec/42_bignum_compare.md).
First the commands with three sources and those that write FLAGS, then the select data path by limbs, then the nybbles
of R280: the bias is a 7 in every nybble, so 7 off each nybble of the biased value takes the whole bias off again. -/

namespace Sys2Proof.Machine

/-! ### Commands with three source registers (R473) -/

section ThreeSources

variable {i : Instr} {s : State} {r1 r2 r3 : BnNum} {k : BigNum → BigNum → BigNum → Result}

theorem State.written_triple : s.Written [r1, r2, r3] ↔ (s.b r1).written = true ∧ s.Written [r2, r3] := by
  simp [State.Written]

/-- A command that reads its three sources first raises UNWRITTEN_OPERAND where one of them is unwritten. -/
theorem needsB_of_exec_withB_withB_withB
    (hexec : exec i s = withB s r1 fun a => withB s r2 fun b => withB s r3 (k a b)) : NeedsB i s [r1, r2, r3] := by
  intro hunwritten
  rw [State.written_triple, not_and] at hunwritten
  by_cases h1 : (s.b r1).written = true
  · exact needsB_of_exec_withB_withB (hexec.trans (withB_of_written h1)) (hunwritten h1)
  · exact hexec.trans (withB_of_unwritten (Bool.eq_false_iff.2 h1))

/-- A command that reads its three sources first goes on with their numbers where all are written. -/
theorem exec_of_written_triple
    (hexec : exec i s = withB s r1 fun a => withB s r2 fun b => withB s r3 (k a b)) (hw : s.Written [r1, r2, r3]) :
    exec i s = k (s.b r1).num (s.b r2).num (s.b r3).num := by
  obtain ⟨h1, hpair⟩ := State.written_triple.1 hw
  exact exec_of_written_pair (hexec.trans (withB_of_written h1)) hpair

end ThreeSources

/-! ### Commands that write FLAGS (R40, R41) -/

theorem completes_setC {i : Instr} {s : State} {c : Bool} (hexec : exec i s = complete (s.setC c)) :
    Completes i s fun t => t.flags = { s.flags with c := c } ∧ OnlyFlags s t :=
  completes_of_exec hexec ⟨rfl, onlyFlags_setC ..⟩

section CompareSign

variable {a b : Nat}

theorem compareSign_of_eq (h : a = b) : compareSign a b = .equal := if_pos h

theorem compareSign_of_gt (h : b < a) : compareSign a b = .greater := (if_neg h.ne').trans (if_pos h)

theorem compareSign_of_lt (h : a < b) : compareSign a b = .less := (if_neg h.ne).trans (if_neg h.not_gt)

end CompareSign

/-- No value has a bit at or beyond its capacity (R270). -/
theorem BigNum.bitSet_of_size_le (b : BigNum) {idx : Nat} (h : 24 * b.size ≤ idx) : bitSet b.val idx = false := by
  have hlt : b.val < 2 ^ idx := lt_of_lt_of_le b.val_lt (Nat.pow_le_pow_right (by decide) h)
  simp [bitSet, Nat.div_eq_of_lt hlt]

/-! ### The select data path (R276) -/

/-- The limbs that do not exist count as 0, so a value is the sum of its limbs in any larger capacity (R202). -/
theorem BigNum.val_eq_sum_of_size_le (b : BigNum) {n : Nat} (h : b.size ≤ n) :
    b.val = ∑ j ∈ Finset.range n, (b.limb j).toNat * 2 ^ (24 * j) := by
  rw [b.val_eq_sum]
  refine Finset.sum_subset (Finset.range_subset_range.2 h) fun j _ hj => ?_
  have hbeyond : b.limbs.length ≤ j := not_lt.1 (mt Finset.mem_range.2 hj)
  simp [BigNum.limb, hbeyond]

section Select

variable (c : Bool) (a b : BigNum)

theorem limb_selectBig {j : Nat} (hj : j < max a.size b.size) :
    (selectBig c a b).limb j = selectLimb c (a.limb j) (b.limb j) := by
  simp [BigNum.limb, selectBig, hj]

/-- Limb by limb the selected number's, up to the larger capacity. -/
theorem val_selectBig : (selectBig c a b).val = if c then a.val else b.val := by
  have hlimbs : (selectBig c a b).val = ∑ j ∈ Finset.range (max a.size b.size),
      (if c then a.limb j else b.limb j).toNat * 2 ^ (24 * j) := by
    rw [BigNum.val_eq_sum, selectBig_size]
    refine Finset.sum_congr rfl fun j hj => ?_
    rw [limb_selectBig c a b (Finset.mem_range.1 hj), selectLimb_eq]
  rw [hlimbs]
  cases c
  · exact (b.val_eq_sum_of_size_le (le_max_right ..)).symm
  · exact (a.val_eq_sum_of_size_le (le_max_left ..)).symm

end Select

/-! ### The nybbles of R280 -/

theorem nybbleBias_eq_sum (size : Nat) : nybbleBias size = ∑ j ∈ Finset.range size, 0x777777 * 2 ^ (24 * j) := by
  rw [nybbleBias, limbsVal_eq_sum, List.length_replicate]
  refine Finset.sum_congr rfl fun j hj => ?_
  simp [Finset.mem_range.1 hj]

/-- A limb is six nybbles. -/
theorem two_pow_limbs_eq (size : Nat) : 2 ^ (24 * size) = 16 ^ (6 * size) := by
  rw [show 24 * size = 4 * (6 * size) by omega]
  exact pow_mul 2 4 (6 * size)

/-- The bias is a 7 in every nybble. -/
theorem nybbleBias_eq_sum_nybbles (size : Nat) :
    nybbleBias size = ∑ i ∈ Finset.range (6 * size), 7 * 16 ^ i := by
  rw [nybbleBias_eq_sum]
  induction size with
  | zero => rfl
  | succ size ih =>
    rw [Finset.sum_range_succ, ih, mul_add, Finset.sum_range_add, two_pow_limbs_eq]
    simp only [Finset.sum_range_succ, Finset.sum_range_zero, pow_add]
    omega

theorem nybbleBias_lt (size : Nat) : nybbleBias size < 2 ^ (24 * size) := by
  simpa [nybbleBias] using limbsVal_lt (List.replicate size 0x777777#24)

/-- The biased value passes the capacity by one bit at most: the final carry (R281). -/
theorem carry_lt_two {v size : Nat} (h : v < 2 ^ (24 * size)) : (v + nybbleBias size) / 2 ^ (24 * size) < 2 := by
  have hbias := nybbleBias_lt size
  rw [Nat.div_lt_iff_lt_mul (Nat.two_pow_pos _)]
  omega

section NybbleBytes

variable {size v : Nat}

theorem nybbleBytes_getElem {i : Nat} (hi : i < 6 * size) (h : i < (nybbleBytes size v).length) :
    (nybbleBytes size v)[i] = BitVec.ofInt 8 ((((v + nybbleBias size) / 16 ^ i % 16 : Nat) : Int) - 7) := by
  simp [nybbleBytes, nybbleDigits, List.getElem_append_left, hi]

theorem toNat_nybbleBytes_getElem_last (hv : v < 2 ^ (24 * size)) (h : 6 * size < (nybbleBytes size v).length) :
    (nybbleBytes size v)[6 * size].toNat = (v + nybbleBias size) / 2 ^ (24 * size) := by
  have hcarry := carry_lt_two hv
  have hlast : (nybbleBytes size v)[6 * size] = BitVec.ofNat 8 ((v + nybbleBias size) / 2 ^ (24 * size)) := by
    simp [nybbleBytes, nybbleDigits, ← BitVec.ofInt_natCast]
  rw [hlast, BitVec.toNat_ofNat, Nat.mod_eq_of_lt (by omega)]

end NybbleBytes

/-- A nybble less 7 is the two's-complement value of its byte. -/
theorem toInt_ofInt_nybble {n : Nat} (h : n < 16) : (BitVec.ofInt 8 ((n : Int) - 7)).toInt = n - 7 :=
  BitVec.toInt_ofInt_eq_self (by decide) (by omega) (by omega)

/-- The nybbles of a number and what lies above them spell it. -/
theorem sum_nybbles_add (w n : Nat) :
    ∑ i ∈ Finset.range n, w / 16 ^ i % 16 * 16 ^ i + w / 16 ^ n * 16 ^ n = w := by
  induction n with
  | zero => simp
  | succ n ih =>
    have hsplit : w / 16 ^ n = w / 16 ^ n % 16 + w / 16 ^ (n + 1) * 16 := by
      rw [pow_succ, ← Nat.div_div_eq_div_mul]
      omega
    calc
      _ = ∑ i ∈ Finset.range n, w / 16 ^ i % 16 * 16 ^ i +
            (w / 16 ^ n % 16 + w / 16 ^ (n + 1) * 16) * 16 ^ n := by rw [Finset.sum_range_succ]; ring
      _ = w := by rw [← hsplit, ih]

/-- R282: taking 7 off every nybble of the biased value takes the bias off. -/
theorem sum_signedNybbles (v size : Nat) :
    ∑ i ∈ Finset.range (6 * size), ((((v + nybbleBias size) / 16 ^ i % 16 : Nat) : Int) - 7) * 16 ^ i +
      (((v + nybbleBias size) / 2 ^ (24 * size) : Nat) : Int) * 16 ^ (6 * size) = v := by
  rw [two_pow_limbs_eq]
  have hspell := sum_nybbles_add (v + nybbleBias size) (6 * size)
  have hbias := nybbleBias_eq_sum_nybbles size
  zify at hspell hbias ⊢
  simp only [sub_mul, Finset.sum_sub_distrib]
  linarith

/-! ### The commands by their meanings -/

section Arms

variable (rd rs rs1 rs2 ra rb : BnNum) (idx : BitIndex) (off : Imm8) (s : State)

theorem exec_bnCmp : exec (.bnCmp rs1 rs2) s = execBnCmp rs1 rs2 s := rfl

theorem exec_bnEq : exec (.bnEq rs1 rs2) s = execBnEq rs1 rs2 s := rfl

theorem exec_bnLt : exec (.bnLt rs1 rs2) s = execBnLt rs1 rs2 s := rfl

theorem exec_bnGe : exec (.bnGe rs1 rs2) s = execBnGe rs1 rs2 s := rfl

theorem exec_bnBetw : exec (.bnBetw rs ra rb) s = execBnBetw rs ra rb s := rfl

theorem exec_bnBit : exec (.bnBit rs idx) s = execBnBit rs idx s := rfl

theorem exec_bnEven : exec (.bnEven rs) s = execBnEven rs s := rfl

theorem exec_bnOdd : exec (.bnOdd rs) s = execBnOdd rs s := rfl

theorem exec_bnSel : exec (.bnSel rd rs1 rs2) s = execBnSel rd rs1 rs2 s := rfl

theorem exec_bnNyb : exec (.bnNyb rs off) s = execBnNyb rs off s := rfl

end Arms

/-! ### The obligations -/

/-- Settles O24: the three orders of two values are the three signs. -/
theorem compareSetsSign : Obligations.CompareSetsSign := by
  intro s rs1 rs2
  refine ⟨needsB_of_exec_withB_withB (exec_bnCmp ..), fun hw => ?_, decodeOfEncode (.bnCmp rs1 rs2) rfl⟩
  exact completes_of_exec (exec_of_written_pair (exec_bnCmp ..) hw)
    ⟨fun h => congrArg CmpSign.code (compareSign_of_eq h), fun h => congrArg CmpSign.code (compareSign_of_gt h),
      fun h => congrArg CmpSign.code (compareSign_of_lt h), rfl, onlyFlags_setCmp ..⟩

/-- Settles O25: each command writes C with its comparison and completes. -/
theorem orderPredicates : Obligations.OrderPredicates := by
  intro s rs1 rs2 rs ra rb
  exact ⟨needsB_of_exec_withB_withB (exec_bnEq ..), needsB_of_exec_withB_withB (exec_bnLt ..),
    needsB_of_exec_withB_withB (exec_bnGe ..), needsB_of_exec_withB_withB_withB (exec_bnBetw ..),
    fun hw => ⟨completes_setC (exec_of_written_pair (exec_bnEq ..) hw),
      completes_setC (exec_of_written_pair (exec_bnLt ..) hw),
      completes_setC (exec_of_written_pair (exec_bnGe ..) hw)⟩,
    fun hw => completes_setC (exec_of_written_triple (exec_bnBetw ..) hw),
    decodeOfEncode (.bnEq rs1 rs2) rfl, decodeOfEncode (.bnLt rs1 rs2) rfl, decodeOfEncode (.bnGe rs1 rs2) rfl,
    decodeOfEncode (.bnBetw rs ra rb) rfl⟩

/-- Settles O26: each command writes C with its bit, and the value ends at its capacity. -/
theorem bitPredicates : Obligations.BitPredicates := by
  intro s rs idx
  exact ⟨needsB_of_exec_withB (exec_bnBit ..), needsB_of_exec_withB (exec_bnEven ..),
    needsB_of_exec_withB (exec_bnOdd ..),
    fun hw => ⟨completes_of_exec (exec_of_written (exec_bnBit ..) hw)
        ⟨rfl, (s.b rs).num.bitSet_of_size_le, onlyFlags_setC ..⟩,
      completes_setC (exec_of_written (exec_bnEven ..) hw), completes_setC (exec_of_written (exec_bnOdd ..) hw)⟩,
    decodeOfEncode (.bnBit rs idx) rfl, decodeOfEncode (.bnEven rs) rfl, decodeOfEncode (.bnOdd rs) rfl⟩

/-- Settles O27: the masked XOR is the selected limb, and the limbs spell the selected value. -/
theorem selectByCondition : Obligations.SelectByCondition := by
  intro s rd rs1 rs2
  refine ⟨needsB_of_exec_withB_withB (exec_bnSel ..), fun hw => ?_, decodeOfEncode (.bnSel rd rs1 rs2) rfl⟩
  refine completes_of_exec (exec_of_written_pair (exec_bnSel ..) hw)
    ⟨holdsBn_writeB_of_eq s rd (selectBig_size ..) (val_selectBig ..), fun j hj => ?_, onlyBn_writeB ..⟩
  rw [State.b_completed, State.b_writeB, if_pos rfl]
  exact limb_selectBig s.flags.c _ _ hj

/-- Settles O28: a store of the digits' bytes, the last of them the carry. -/
theorem nybbleRecoding : Obligations.NybbleRecoding := by
  intro s rs off hwf
  refine ⟨needsB_of_exec_withB (exec_bnNyb ..),
    fun hw hrange => (exec_of_written (exec_bnNyb ..) hw).trans (if_pos hrange), fun hw hrange => ?_,
    decodeOfEncode (.bnNyb rs off) rfl⟩
  obtain ⟨t, hexec, hbytes, hres, hframe⟩ := completes_store hwf (nybbleBytes_length ..) hrange
    ((exec_of_written (exec_bnNyb ..) hw).trans (if_neg (not_lt.2 hrange)))
  rw [← nybbleBias_eq_sum]
  refine ⟨t, hexec, fun i hi => ?_, ?_, hres, hframe⟩
  · rw [hbytes i (by simpa using Nat.lt_succ_of_lt hi), nybbleBytes_getElem hi]
  · rw [hbytes _ (by simp), toNat_nybbleBytes_getElem_last (s.b rs).num.val_lt]

/-- Settles O29: each stored byte is its digit, the last one the carry, and the biased value less its bias is left. -/
theorem nybblesSpellTheValue : Obligations.NybblesSpellTheValue := by
  intro s t rs off hwf hw hrange hnext
  obtain ⟨-, -, hstore, -⟩ := nybbleRecoding s rs off hwf
  obtain ⟨t', hnext', hdigit, hcarry, -⟩ := hstore hw hrange
  obtain rfl : t' = t := by simpa using hnext'.symm.trans hnext
  rw [← nybbleBias_eq_sum] at hdigit hcarry
  have hdigitInt (i : Nat) (hi : i < 6 * s.size rs) : (t'.dbuf.read (off.val + i)).toInt =
      (((s.val rs + nybbleBias (s.size rs)) / 16 ^ i % 16 : Nat) : Int) - 7 := by
    rw [hdigit i hi, toInt_ofInt_nybble (Nat.mod_lt _ (by decide))]
  have hbit : (s.val rs + nybbleBias (s.size rs)) / 2 ^ (24 * s.size rs) < 2 := carry_lt_two (s.b rs).num.val_lt
  have hcarryInt : (t'.dbuf.read (off.val + 6 * s.size rs)).toInt =
      (((s.val rs + nybbleBias (s.size rs)) / 2 ^ (24 * s.size rs) : Nat) : Int) := by
    rw [BitVec.toInt_eq_toNat_of_lt (by omega), hcarry]
  refine ⟨fun i hi => ?_, ?_, ?_⟩
  · rw [hdigitInt i hi]
    omega
  · rw [hcarryInt]
    omega
  · rw [Finset.sum_range_succ, hcarryInt,
      Finset.sum_congr rfl fun i hi => by rw [hdigitInt i (Finset.mem_range.1 hi)]]
    exact sum_signedNybbles ..

end Sys2Proof.Machine
end

section
/-! PROOF. O30: the modular arithmetic commands (spec/43_modular.md R300 to R308). The four meanings are one meaning of
an operation modulo the third source; the operations are the exact remainders of R302 to R308, and a remainder fits the
capacity of its modulus. -/

namespace Sys2Proof.Machine

/-! ### One meaning for the four commands (R300) -/

/-- The meaning the modular commands share: three sources, a modulus that is not 0, and `op m a b` written in the
capacity of the modulus. `exec_bnMadd` to `exec_bnMexp` say which operation each command has. -/
def execModular (op : Nat → Nat → Nat → Nat) (rd rs1 rs2 rm : BnNum) (s : State) : Result :=
  withB s rs1 fun a => withB s rs2 fun b => withB s rm fun m =>
    if m.val = 0 then raise .invalidArgument s
    else complete (s.writeB rd (BigNum.ofVal m.size (op m.val a.val b.val)))

section Arms

variable (rd rs1 rs2 rm : BnNum) (s : State)

theorem exec_bnMadd :
    exec (.bnMadd rd rs1 rs2 rm) s = execModular (fun m a b => (a + b) % m) rd rs1 rs2 rm s := rfl

theorem exec_bnMsub : exec (.bnMsub rd rs1 rs2 rm) s = execModular subMod rd rs1 rs2 rm s := rfl

theorem exec_bnMmul :
    exec (.bnMmul rd rs1 rs2 rm) s = execModular (fun m a b => a * b % m) rd rs1 rs2 rm s := rfl

theorem exec_bnMexp : exec (.bnMexp rd rs1 rs2 rm) s = execModular powMod rd rs1 rs2 rm s := rfl

end Arms

section Modular

variable {i : Instr} {op : Nat → Nat → Nat → Nat} {rd rs1 rs2 rm : BnNum} {s : State}

theorem needsB_of_exec_modular (hexec : exec i s = execModular op rd rs1 rs2 rm s) : NeedsB i s [rs1, rs2, rm] :=
  needsB_of_exec_withB_withB_withB hexec

theorem raises_of_modulus_eq_zero (hexec : exec i s = execModular op rd rs1 rs2 rm s)
    (hw : s.Written [rs1, rs2, rm]) (hzero : s.val rm = 0) : Raises i s .invalidArgument :=
  (exec_of_written_triple hexec hw).trans (if_pos hzero)

/-- A result below the modulus fits the modulus's capacity, so it is written whole. -/
theorem completes_of_modulus_pos {v : Nat} (hexec : exec i s = execModular op rd rs1 rs2 rm s)
    (hw : s.Written [rs1, rs2, rm]) (hpos : 0 < s.val rm) (hop : op (s.val rm) (s.val rs1) (s.val rs2) = v)
    (hlt : v < s.val rm) : Completes i s fun t => HoldsBn t rd (s.size rm) v ∧ OnlyBn s t [rd] := by
  subst hop
  exact completes_writeB ((exec_of_written_triple hexec hw).trans (if_neg hpos.ne')) (hlt.trans (BigNum.val_lt _))

end Modular

/-! ### The difference (R304) -/

/-- The difference of the model is the integer remainder, which is not negative (R8). -/
theorem subMod_eq_toNat_emod {m : Nat} (hm : 0 < m) (a b : Nat) : subMod m a b = (((a : Int) - b) % m).toNat := by
  rw [← subMod_eq_emod hm, Int.toNat_natCast]

/-! ### The obligation -/

/-- Settles O30: each operation is the remainder of its exact result, and a remainder is below its modulus. -/
theorem modularArithmetic : Obligations.ModularArithmetic := by
  intro s rd rs1 rs2 rm
  refine ⟨needsB_of_exec_modular (exec_bnMadd ..), needsB_of_exec_modular (exec_bnMsub ..),
    needsB_of_exec_modular (exec_bnMmul ..), needsB_of_exec_modular (exec_bnMexp ..),
    fun hw hzero => ⟨raises_of_modulus_eq_zero (exec_bnMadd ..) hw hzero,
      raises_of_modulus_eq_zero (exec_bnMsub ..) hw hzero, raises_of_modulus_eq_zero (exec_bnMmul ..) hw hzero,
      raises_of_modulus_eq_zero (exec_bnMexp ..) hw hzero⟩,
    fun hw hpos => ⟨?_, ?_, ?_, ?_⟩,
    decodeOfEncode (.bnMadd rd rs1 rs2 rm) rfl, decodeOfEncode (.bnMsub rd rs1 rs2 rm) rfl,
    decodeOfEncode (.bnMmul rd rs1 rs2 rm) rfl, decodeOfEncode (.bnMexp rd rs1 rs2 rm) rfl⟩
  · exact completes_of_modulus_pos (exec_bnMadd ..) hw hpos rfl (Nat.mod_lt _ hpos)
  · have hsub := subMod_eq_toNat_emod hpos (s.val rs1) (s.val rs2)
    exact completes_of_modulus_pos (exec_bnMsub ..) hw hpos hsub (hsub ▸ subMod_lt hpos ..)
  · exact completes_of_modulus_pos (exec_bnMmul ..) hw hpos rfl (Nat.mod_lt _ hpos)
  · exact completes_of_modulus_pos (exec_bnMexp ..) hw hpos (powMod_eq ..) (Nat.mod_lt _ hpos)

end Sys2Proof.Machine
end

section
/-! PROOF. O31 to O39 and O44 to O46: the elliptic-curve commands that load, store, move, combine, attach and test
points (spec/44_ec_common.md R346 to R363). First the sources and the destination they share, then each command by the
branches of its meaning. -/

namespace Sys2Proof.Machine

/-! ### Commands with point sources and a curve field (R331, R473) -/

section Sources

variable {i : Instr} {s : State} {r r1 r2 : PtNum} {rk : BnNum} {cv : CurveField} {c c1 c2 : Curve}
  {v v1 v2 : PointVal}

/-- A command that reads a point register first raises UNWRITTEN_OPERAND where that is EMPTY. -/
theorem needsP_of_exec_withP {k : Curve → PointVal → Result} (hexec : exec i s = withP s r k) : NeedsP i s r :=
  fun hempty => hexec.trans (withP_of_empty hempty)

theorem exec_of_holds {k : Curve → PointVal → Result} (hexec : exec i s = withP s r k) (h : s.Holds r c v) :
    exec i s = k c v :=
  hexec.trans (withP_of_pt h)

/-- The second of two point sources is reported EMPTY by the same error as the first. -/
theorem needsP_snd_of_exec_withP_withP {k : Curve → PointVal → Curve → PointVal → Result}
    (hexec : exec i s = withP s r1 fun c v => withP s r2 (k c v)) : NeedsP i s r2 := by
  intro hempty
  cases h1 : (s.p r1).cell with
  | empty => exact needsP_of_exec_withP hexec h1
  | pt c v => exact needsP_of_exec_withP (exec_of_holds hexec h1) hempty

theorem exec_of_holds_pair {k : Curve → PointVal → Curve → PointVal → Result}
    (hexec : exec i s = withP s r1 fun c v => withP s r2 (k c v)) (h1 : s.Holds r1 c1 v1) (h2 : s.Holds r2 c2 v2) :
    exec i s = k c1 v1 c2 v2 :=
  exec_of_holds (exec_of_holds hexec h1) h2

/-- A BigNum source after a point source is reported unwritten by the same error. -/
theorem needsB_of_exec_withP_withB {k : Curve → PointVal → BigNum → Result}
    (hexec : exec i s = withP s r fun c v => withB s rk (k c v)) : NeedsB i s [rk] := by
  intro hunwritten
  cases hr : (s.p r).cell with
  | empty => exact needsP_of_exec_withP hexec hr
  | pt c v => exact needsB_of_exec_withB (exec_of_holds hexec hr) hunwritten

/-- A command whose curve field names no curve raises INVALID_ARGUMENT (R331). -/
theorem raises_of_four_lt {k : Curve → Result} (hexec : exec i s = withCurve s cv k) (h : 4 < cv.val) :
    Raises i s .invalidArgument := by
  rw [Raises, hexec, withCurve, (curveOf_eq_none_iff cv).2 h, raise]

theorem exec_of_curveOf {k : Curve → Result} (hexec : exec i s = withCurve s cv k) (h : curveOf cv = some c) :
    exec i s = k c := by
  rw [hexec, withCurve, h]

end Sources

/-! ### Commands that write a point register (R345) -/

section Destination

variable {i : Instr} {s : State} {pd : PtNum} {c : Curve} {v : PointVal}

theorem completes_writeP (hexec : exec i s = complete (s.writeP pd c v)) :
    Completes i s fun t => HoldsPt t pd c v ∧ OnlyPoint s t pd ∧ t.draws = s.draws :=
  completes_of_exec hexec ⟨holdsPt_writeP .., onlyPoint_writeP .., by simp⟩

/-- The draw is counted beside the one write. -/
theorem onlyPoint_writeDraw (s : State) (pd : PtNum) (c : Curve) : OnlyPoint s (s.writeDraw pd c).completed pd := by
  refine ⟨by apply completedFrom_completed <;> simp [State.writeDraw], fun _ _ => by simp, fun j hj => ?_, by simp,
    fun j => by simp, fun a => by simp, by simp, by simp⟩
  simp [Ne.symm hj]

/-- A drawn point lies in its curve's domain (R337). -/
theorem completes_writeDraw (hexec : exec i s = complete (s.writeDraw pd c)) :
    Completes i s fun t => HoldsPt t pd c (c.draw s.draws) ∧ c.inDomain (c.draw s.draws) = true ∧
      t.draws = s.draws + 1 ∧ OnlyPoint s t pd :=
  completes_of_exec hexec ⟨by simp [HoldsPt], c.inDomain_draw _, rfl, onlyPoint_writeDraw ..⟩

end Destination

/-! ### Constants and coordinates fit the curve's sizes (R330) -/

theorem Curve.prime_lt (c : Curve) : c.prime < 2 ^ (24 * c.fieldLimbs) := by cases c <;> decide +kernel

theorem Curve.order_lt (c : Curve) : c.order < 2 ^ (24 * c.orderLimbs) := by cases c <;> decide +kernel

/-! ### The commands by their meanings -/

section Arms

variable (pd ps ps1 ps2 : PtNum) (rd rx ry rk : BnNum) (off slot : Imm8) (cv : CurveField) (z : ZField) (s : State)

theorem exec_ecInf : exec (.ecInf pd cv) s = execEcInf pd cv s := rfl

theorem exec_ecLdaff : exec (.ecLdaff pd rx ry cv) s = execEcLdaff pd rx ry cv s := rfl

theorem exec_ecGen : exec (.ecGen pd cv) s = execEcGen pd cv s := rfl

theorem exec_ecLdenc : exec (.ecLdenc pd off cv) s = execEcLdenc pd off cv s := rfl

theorem exec_ecStenc : exec (.ecStenc ps off z) s = execEcStenc ps off z s := rfl

theorem exec_ecAff : exec (.ecAff rx ry ps) s = execEcAff rx ry ps s := rfl

theorem exec_ecMov : exec (.ecMov pd ps) s = execEcMov pd ps s := rfl

theorem exec_ecOrder : exec (.ecOrder rd cv) s = execEcOrder rd cv s := rfl

theorem exec_ecPrime : exec (.ecPrime rd cv) s = execEcPrime rd cv s := rfl

theorem exec_ecAdd : exec (.ecAdd pd ps1 ps2) s = execEcAdd pd ps1 ps2 s := rfl

theorem exec_ecDbl : exec (.ecDbl pd ps) s = execEcDbl pd ps s := rfl

theorem exec_ecMul : exec (.ecMul pd ps rk) s = execEcMul pd ps rk s := rfl

theorem exec_ecMktab : exec (.ecMktab ps slot) s = execEcMktab ps slot s := rfl

theorem exec_ecDetab : exec (.ecDetab ps) s = execEcDetab ps s := rfl

theorem exec_ecNeg : exec (.ecNeg pd ps) s = execEcNeg pd ps s := rfl

theorem exec_ecIson : exec (.ecIson ps) s = execEcIson ps s := rfl

theorem exec_ecIsinf : exec (.ecIsinf ps) s = execEcIsinf ps s := rfl

theorem exec_ecEq : exec (.ecEq ps1 ps2) s = execEcEq ps1 ps2 s := rfl

end Arms

/-! ### Load, store and move -/

theorem hasRomP256_p256 : HasRomP256 .p256 := by
  constructor <;> decide +kernel

theorem hasRomP384_p384 : HasRomP384 .p384 := by
  constructor <;> decide +kernel

theorem hasRomP521_p521 : HasRomP521 .p521 := by
  constructor <;> decide +kernel

theorem hasRomEd25519 {c : Curve} (hc : c = .ed25519 ∨ c = .x25519) : HasRomEd25519 c := by
  rcases hc with rfl | rfl <;> constructor <;> decide +kernel

/-- Settles O31: the curve field selects a curve, and each constant of it fits its register. -/
theorem curveConstantCommands : Obligations.CurveConstantCommands := by
  intro s pd rd cv
  refine ⟨fun h => ⟨raises_of_four_lt (exec_ecInf ..) h, raises_of_four_lt (exec_ecGen ..) h,
      raises_of_four_lt (exec_ecOrder ..) h, raises_of_four_lt (exec_ecPrime ..) h⟩,
    fun h => Option.isSome_iff_exists.1 ((curveOf_isSome_iff cv).2 h), ⟨rfl, rfl, rfl, rfl, rfl⟩, ⟨rfl, rfl, rfl, rfl⟩,
    hasRomP256_p256, hasRomP384_p384, hasRomP521_p521, hasRomEd25519 (.inl rfl), hasRomEd25519 (.inr rfl),
    fun c hc => ⟨?_, ?_, ?_, ?_⟩,
    decodeOfEncode (.ecInf pd cv) rfl, decodeOfEncode (.ecGen pd cv) rfl, decodeOfEncode (.ecOrder rd cv) rfl,
    decodeOfEncode (.ecPrime rd cv) rfl⟩
  · exact completes_writeP (exec_of_curveOf (exec_ecInf ..) hc)
  · exact completes_writeP (exec_of_curveOf (exec_ecGen ..) hc)
  · exact completes_writeB (exec_of_curveOf (exec_ecOrder ..) hc) c.order_lt
  · exact completes_writeB (exec_of_curveOf (exec_ecPrime ..) hc) c.prime_lt

/-- Settles O32: the sources are read before the curve field, and the reduced pair is written. -/
theorem loadAffine : Obligations.LoadAffine := by
  intro s pd rx ry cv
  exact ⟨needsB_of_exec_withB_withB (exec_ecLdaff ..),
    fun hw hcv => raises_of_four_lt (exec_of_written_pair (exec_ecLdaff ..) hw) hcv,
    fun c hw hc => completes_writeP (exec_of_curveOf (exec_of_written_pair (exec_ecLdaff ..) hw) hc),
    decodeOfEncode (.ecLdaff pd rx ry cv) rfl⟩

/-- Settles O33: the value, or its negation by the curve's family, is written. -/
theorem moveAndNegatePoint : Obligations.MoveAndNegatePoint := by
  intro s pd ps
  refine ⟨needsP_of_exec_withP (exec_ecMov ..), needsP_of_exec_withP (exec_ecNeg ..),
    fun c v h => ⟨completes_writeP (exec_of_holds (exec_ecMov ..) h), ?_⟩,
    decodeOfEncode (.ecMov pd ps) rfl, decodeOfEncode (.ecNeg pd ps) rfl⟩
  obtain ⟨t, hnext, hholds, hframe⟩ := completes_writeP (exec_of_holds (exec_ecNeg ..) h)
  refine ⟨t, hnext, fun hnist hv => ?_, fun x y hnist hv => ?_, fun x y hnist hv => ?_, hframe⟩
  all_goals
    subst hv
    simpa only [Curve.neg, nistNeg, edNeg, hnist, Bool.false_eq_true, if_true, if_false] using hholds

/-- Settles O34: coordinates of the domain are below the prime, so each fits the field's capacity. -/
theorem affineCoordinates : Obligations.AffineCoordinates := by
  intro s rx ry ps hne hpoints
  refine ⟨needsP_of_exec_withP (exec_ecAff ..), fun c h => exec_of_holds (exec_ecAff ..) h, fun c x y h => ?_,
    decodeOfEncode (.ecAff rx ry ps) (bne_iff_ne.2 hne),
    decode_encode_of_not_wf (i := .ecAff rx rx ps) (bne_self_eq_false rx)⟩
  have hdom : c.inDomain (.aff x y) = true := by simpa [h, PointCell.ok] using hpoints ps
  obtain ⟨hx, hy⟩ : x < c.prime ∧ y < c.prime := by simpa [Curve.inDomain] using hdom
  exact completes_writeB_writeB (exec_of_holds (exec_ecAff ..) h) hne (hx.trans c.prime_lt) (hy.trans c.prime_lt)

/-- Settles O35: the branches of the meaning in their order. -/
theorem loadEncodedPoint : Obligations.LoadEncodedPoint := by
  intro s pd off cv
  refine ⟨raises_of_four_lt (exec_ecLdenc ..), fun c hc hlen => ?_, fun c n hc hlen hrange => ?_,
    fun c n hc hlen hrange hdec => ?_, fun c n v hc hlen hrange hdec => completes_writeP ?_,
    decodeOfEncode (.ecLdenc pd off cv) rfl⟩
  all_goals refine (exec_of_curveOf (exec_ecLdenc ..) hc).trans ?_
  · simp only [hlen, raise]
  · simp only [hlen, if_pos hrange, raise]
  · simp only [hlen, if_neg (not_lt.2 hrange), hdec, raise]
  · simp only [hlen, if_neg (not_lt.2 hrange), hdec]

/-- Settles O36: a store of the encoding, after the checks in their order. -/
theorem storeEncodedPoint : Obligations.StoreEncodedPoint := by
  intro s ps off z hwf hz
  have hsupported {c : Curve} (h : c.isNist = true ∨ z.val = 0) : ¬(c.isNist = false ∧ z.val = 1) := by
    rintro ⟨hnist, hone⟩
    simp [hnist, hone] at h
  refine ⟨needsP_of_exec_withP (exec_ecStenc ..),
    fun c v h hnist hz => (exec_of_holds (exec_ecStenc ..) h).trans (if_pos ⟨hnist, hz⟩),
    fun c h hform => (exec_of_holds (exec_ecStenc ..) h).trans (if_neg (hsupported hform)),
    fun c x y h hform hrange => ((exec_of_holds (exec_ecStenc ..) h).trans (if_neg (hsupported hform))).trans
      (if_pos hrange),
    fun c x y h hform hrange => ?_, decodeOfEncode (.ecStenc ps off z) (decide_eq_true hz),
    fun z' hz' => decode_encode_of_not_wf (i := .ecStenc ps off z') (decide_eq_false (by omega))⟩
  obtain ⟨t, hnext, hbytes, hres, hframe⟩ := completes_store hwf rfl hrange
    (((exec_of_holds (exec_ecStenc ..) h).trans (if_neg (hsupported hform))).trans (if_neg (not_lt.2 hrange)))
  refine ⟨t, hnext, List.ext_getElem (Memory.readBytes_length ..) fun j _ hj => ?_, hres, hframe⟩
  rw [Memory.readBytes_getElem, hbytes j hj]

/-! ### Group operations -/

/-- Settles O37: one curve, and two well-formed values or a draw. -/
theorem pointAddition : Obligations.PointAddition := by
  intro s pd ps1 ps2
  refine ⟨needsP_of_exec_withP (exec_ecAdd ..), needsP_snd_of_exec_withP_withP (exec_ecAdd ..),
    fun c1 v1 c2 v2 h1 h2 hne => (exec_of_holds_pair (exec_ecAdd ..) h1 h2).trans (if_pos hne),
    fun c v1 v2 h1 h2 hw1 hw2 => completes_writeP ?_, fun c v1 v2 h1 h2 hmal => completes_writeDraw ?_,
    decodeOfEncode (.ecAdd pd ps1 ps2) rfl⟩
  all_goals refine (exec_of_holds_pair (exec_ecAdd ..) h1 h2).trans ((if_neg (not_ne_iff.2 rfl)).trans ?_)
  · exact if_pos (by simp [hw1, hw2])
  · exact if_neg (by rcases hmal with hmal | hmal <;> simp [hmal])

/-- Settles O38: a well-formed value or a draw. -/
theorem pointDoubling : Obligations.PointDoubling := by
  intro s pd ps
  exact ⟨needsP_of_exec_withP (exec_ecDbl ..),
    fun c v h hw => completes_writeP ((exec_of_holds (exec_ecDbl ..) h).trans (if_pos hw)),
    fun c v h hmal => completes_writeDraw ((exec_of_holds (exec_ecDbl ..) h).trans (if_neg (Bool.eq_false_iff.1 hmal))),
    decodeOfEncode (.ecDbl pd ps) rfl⟩

/-- Settles O39: doubling and adding is the k-fold sum of a well-formed value of the domain. -/
theorem scalarMultiplication : Obligations.ScalarMultiplication := by
  intro s pd ps rk hpoints
  have hexec {c : Curve} {v : PointVal} (h : s.Holds ps c v) (hw : s.Written [rk]) :=
    exec_of_written (exec_of_holds (exec_ecMul pd ps rk s) h) hw
  refine ⟨needsP_of_exec_withP (exec_ecMul ..), needsB_of_exec_withP_withB (exec_ecMul ..),
    fun c v h hw hwf => ?_,
    fun c v h hw hmal => completes_writeDraw ((hexec h hw).trans (if_neg (Bool.eq_false_iff.1 hmal))),
    decodeOfEncode (.ecMul pd ps rk) rfl⟩
  have hdom : c.inDomain v = true := by simpa [h, PointCell.ok] using hpoints ps
  rw [← Curve.mul_eq_kFold hwf hdom]
  exact completes_writeP ((hexec h hw).trans (if_pos hwf))

/-! ### Tables -/

/-- Settles O44: the attachment's own rules, and detaching is the same at both ends. -/
theorem tablesAttachAndDetach : Obligations.TablesAttachAndDetach := by
  intro s ps slot _
  refine ⟨needsP_of_exec_withP (exec_ecMktab ..), needsP_of_exec_withP (exec_ecDetab ..), fun c v h hslot => ?_,
    fun c v t4 h hslot => ?_, fun c v h => ?_, decodeOfEncode (.ecMktab ps slot) rfl,
    decodeOfEncode (.ecDetab ps) rfl⟩
  · refine (exec_of_holds (exec_ecMktab ..) h).trans ?_
    simp only [(slotOf_eq_none_iff slot).2 hslot, raise]
  · have hexec : exec (.ecMktab ps slot) s = complete (s.attach ps t4) := by
      refine (exec_of_holds (exec_ecMktab ..) h).trans ?_
      simp only [(slotOf_eq_some_iff slot t4).2 hslot]
    refine completes_of_exec hexec ⟨?_, ?_, fun q hq => ?_, fun u hu => ?_, onlyTabs_attach ..⟩
    · simp [State.p_attach]
    · simp [State.slotOwner_attach]
    · simp [State.p_attach, hq]
    · simp [State.slotOwner_attach, hu]
  · exact completes_of_exec (exec_of_holds (exec_ecDetab ..) h)
      ⟨by simp, fun q hq => by simp [Ne.symm hq], fun u => by simp, onlyTabs_detach ..⟩

/-- Settles O45: an error entry changes no table, an effect keeps the agreement, and after reset there is no table. -/
theorem attachmentAndOwnershipAgree : Obligations.AttachmentAndOwnershipAgree := by
  obtain ⟨-, -, hreset, -⟩ := State.inv_reset
  refine ⟨fun i s t h hnext => ?_, fun s => ⟨hreset, hreset⟩, hreset⟩
  rcases exec_cases hnext with ⟨e, rfl⟩ | ⟨u, he, rfl⟩
  · exact h
  · exact he.tabsAgree h

/-! ### Predicates -/

/-- The on-curve test of R398 on integers. -/
theorem nistOnCurve_aff_eq {p : Nat} (hp : 0 < p) (b x y : Nat) : nistOnCurve p b (.aff x y) =
    decide (((y : Int) ^ 2 - (x ^ 3 - 3 * x + b)) % p = 0) := by
  have hrhs : (nistRhs p b x : Int) = ((x : Int) ^ 3 - 3 * x + b) % p := by
    rw [nistRhs, subMod_eq_emod hp]
    push_cast
    congr 1
    ring
  have htest : (subMod p (y * y) (nistRhs p b x) : Int) = ((y : Int) ^ 2 - (x ^ 3 - 3 * x + b)) % p := by
    rw [subMod_eq_emod hp, hrhs, Int.sub_emod_emod]
    push_cast
    congr 1
    ring
  rw [nistOnCurve, ← htest, Bool.eq_iff_iff, beq_iff_eq, decide_eq_true_iff, Int.natCast_eq_zero]

/-- The on-curve test of R439 on integers. -/
theorem edOnCurve_aff_eq {p : Nat} (hp : 0 < p) (d x y : Nat) : edOnCurve p d (.aff x y) =
    decide ((-(x : Int) ^ 2 + y ^ 2 - 1 - d * x ^ 2 * y ^ 2) % p = 0) := by
  have htest : (subMod p (y * y) (x * x + 1 + d * (x * x) * (y * y)) : Int) =
      (-(x : Int) ^ 2 + y ^ 2 - 1 - d * x ^ 2 * y ^ 2) % p := by
    rw [subMod_eq_emod hp]
    push_cast
    congr 1
    ring
  rw [edOnCurve, ← htest, Bool.eq_iff_iff, beq_iff_eq, decide_eq_true_iff, Int.natCast_eq_zero]

/-- No affine pair is the identity of a NIST curve, and (0, 1) alone that of edwards25519 (R334). -/
theorem Curve.aff_eq_identity_iff (c : Curve) (x y : Nat) :
    PointVal.aff x y = c.identity ↔ c.isNist = false ∧ x = 0 ∧ y = 1 := by
  unfold Curve.identity
  cases c.isNist <;> simp

/-- Settles O46: each command writes C with its test, which is the equation of the curve's family. -/
theorem pointPredicates : Obligations.PointPredicates := by
  intro s ps ps1 ps2
  have hison {c : Curve} {v : PointVal} (h : s.Holds ps c v) := completes_setC (exec_of_holds (exec_ecIson ps s) h)
  have hisinf {c : Curve} {v : PointVal} (h : s.Holds ps c v) := completes_setC (exec_of_holds (exec_ecIsinf ps s) h)
  refine ⟨needsP_of_exec_withP (exec_ecIson ..), needsP_of_exec_withP (exec_ecIsinf ..),
    needsP_of_exec_withP (exec_ecEq ..), needsP_snd_of_exec_withP_withP (exec_ecEq ..), fun c h hnist => ⟨?_, ?_⟩,
    fun c x y h => ⟨fun hnist => ?_, fun hnist => ?_, ?_⟩,
    fun c1 v1 c2 v2 h1 h2 => completes_setC (exec_of_holds_pair (exec_ecEq ..) h1 h2),
    decodeOfEncode (.ecIson ps) rfl, decodeOfEncode (.ecIsinf ps) rfl, decodeOfEncode (.ecEq ps1 ps2) rfl⟩
  · simpa only [Curve.wellFormed, hnist, if_true, nistOnCurve] using hison h
  · simpa only [Curve.identity, hnist, if_true, decide_true] using hisinf h
  · rw [← nistOnCurve_aff_eq c.prime_pos]
    simpa only [Curve.wellFormed, hnist, if_true] using hison h
  · rw [← edOnCurve_aff_eq c.prime_pos]
    simpa only [Curve.wellFormed, hnist, Bool.false_eq_true, if_false] using hison h
  · simpa only [Curve.aff_eq_identity_iff] using hisinf h

end Sys2Proof.Machine
end

section
/-! PROOF. O42 and O43: the well-formed points of a curve are a group, and its constants fit together
(spec/44_ec_common.md R333, R336). That n − 1 times the base point is its negation is computed without inversions, in
the internal forms of R391 and R431; the last Z, not 0, shows that no step divided by 0. -/

namespace Sys2Proof.Machine

/-! ### The group laws (R336) -/

section Group

variable {c : Curve} {v : PointVal}

theorem Curve.identity_add (hw : c.wellFormed v = true) (hd : c.inDomain v = true) : c.add c.identity v = v := by
  obtain ⟨G, _, R, h⟩ := c.exists_groupModel
  obtain ⟨P, hP⟩ := h.exists_of_wellFormed hw hd
  exact h.unique (zero_add P ▸ h.add h.identity hP) hP

theorem Curve.wellFormed_identity (c : Curve) : c.wellFormed c.identity = true := by
  obtain ⟨G, _, R, h⟩ := c.exists_groupModel
  exact h.wellFormed h.identity

theorem Curve.wellFormed_neg (hw : c.wellFormed v = true) (hd : c.inDomain v = true) :
    c.wellFormed (c.neg v) = true := by
  obtain ⟨G, _, R, h⟩ := c.exists_groupModel
  obtain ⟨P, hP⟩ := h.exists_of_wellFormed hw hd
  exact h.wellFormed (h.neg hP)

theorem Curve.kFold_two_mul (hw : c.wellFormed v = true) (hd : c.inDomain v = true) (k : Nat) :
    c.kFold v (2 * k) = c.add (c.kFold v k) (c.kFold v k) := by
  obtain ⟨G, _, R, h⟩ := c.exists_groupModel
  obtain ⟨P, hP⟩ := h.exists_of_wellFormed hw hd
  have hk := h.kFold hP k
  have htwo := h.kFold hP (2 * k)
  rw [two_mul, add_nsmul, ← two_mul] at htwo
  exact h.unique htwo (h.add hk hk)

end Group

/-- Settles O42: closure and the laws, each of which the values have from the group they stand for. -/
theorem wellFormedPointsAreAGroup : Obligations.WellFormedPointsAreAGroup := by
  intro c u v w hud hvd hwd hu hv hw
  have hleft := Curve.identity_add hu hud
  have hright := (Curve.sum_comm hu hud c.wellFormed_identity c.inDomain_identity).trans hleft
  obtain ⟨hsum, hsumd⟩ := Curve.wellFormed_add hu hud hv hvd
  exact ⟨hsumd, hsum, Curve.inDomain_neg hud, Curve.wellFormed_neg hu hud, c.inDomain_identity, c.wellFormed_identity,
    hright, hleft, Curve.sum_neg hu hud, Curve.sum_comm hu hud hv hvd, Curve.sum_assoc hu hud hv hvd hw hwd⟩

/-! ### Triples that stand for a point value (R391, R431) -/

/-- A point value with its coordinates scaled by powers of `z`. -/
structure Scaled where
  x : Nat
  y : Nat
  z : Nat

/-- The triple stands for the pair (x, y) with X = x·Z^m and Y = y·Z^n, the weights (m, n) being (2, 3) for Jacobian
and (1, 1) for homogeneous coordinates. A triple with Z = 0 says nothing, and every step below keeps such a Z. -/
def Scaled.Stands (p : Nat) (weights : Nat × Nat) (t : Scaled) (v : PointVal) : Prop :=
  (t.z : ZMod p) ≠ 0 → ∃ x y : Nat, x < p ∧ y < p ∧ v = .aff x y ∧
    (t.x : ZMod p) = x * t.z ^ weights.1 ∧ (t.y : ZMod p) = y * t.z ^ weights.2

section Triples

variable {p : Nat} [hp : Fact p.Prime]

theorem cast_ne_zero_of_mod {a : Nat} (h : a % p ≠ 0) : (a : ZMod p) ≠ 0 :=
  fun h0 => h (Nat.mod_eq_zero_of_dvd ((ZMod.natCast_eq_zero_iff ..).1 h0))

theorem mul_invMod_mod_eq {a b d : Nat} (hd : (d : ZMod p) ≠ 0) (hb : b < p) (h : (a : ZMod p) = b * d) :
    a * invMod p d % p = b := by
  refine natCast_inj_of_lt (Nat.mod_lt _ hp.out.pos) hb ?_
  rw [ZMod.natCast_mod, Nat.cast_mul, invMod_cast_eq hd, h, mul_inv_cancel_right₀ hd]

theorem Scaled.Stands.jacobianValue_eq {t : Scaled} {v : PointVal} (h : t.Stands p (2, 3) v) (hz : t.z % p ≠ 0) :
    jacobianValue p t.x t.y t.z = v := by
  have hz0 := cast_ne_zero_of_mod hz
  obtain ⟨x, y, hx, hy, rfl, hX, hY⟩ := h hz0
  have hpow (e : Nat) : ((t.z ^ e : Nat) : ZMod p) ≠ 0 := by simpa using pow_ne_zero e hz0
  rw [jacobianValue, if_neg hz, mul_invMod_mod_eq (hpow 2) hx (by simpa using hX),
    mul_invMod_mod_eq (hpow 3) hy (by simpa using hY)]

theorem Scaled.Stands.extendedValue_eq {t : Scaled} {v : PointVal} (h : t.Stands p (1, 1) v) (hz : t.z % p ≠ 0) :
    extendedValue p t.x t.y t.z = v := by
  have hz0 := cast_ne_zero_of_mod hz
  obtain ⟨x, y, hx, hy, rfl, hX, hY⟩ := h hz0
  rw [extendedValue, mul_invMod_mod_eq hz0 hx (by simpa using hX), mul_invMod_mod_eq hz0 hy (by simpa using hY)]

/-! ### The line through two points of a NIST curve, scaled (R393) -/

/-- `nistChord` with the slope, the abscissas and the ordinate scaled by Z, Z^2 and Z^3. -/
def jacChord (p l x1 y1 x2 z : Nat) : Scaled :=
  let x3 := subMod p (subMod p (l * l) x1) x2
  ⟨x3, subMod p (l * subMod p x1 x3) y1, z⟩

/-- The doubled point: Z grows by the tangent's denominator 2·Y. -/
def jacDouble (p : Nat) (t : Scaled) : Scaled :=
  let z2 := t.z * t.z % p
  let y2 := t.y * t.y % p
  let s := 4 * t.x * y2 % p
  jacChord p (subMod p (3 * t.x * t.x) (3 * z2 * z2)) s (8 * y2 * y2 % p) s (2 * t.y * t.z % p)

/-- The point (x, y) added: Z grows by the chord's denominator. -/
def jacAdd (p x y : Nat) (t : Scaled) : Scaled :=
  let z2 := t.z * t.z % p
  let h := subMod p (x * z2) t.x
  let h2 := h * h % p
  jacChord p (subMod p (y * z2 * t.z) t.y) (t.x * h2 % p) (t.y * h2 * h % p) (x * z2 * h2 % p) (t.z * h % p)

theorem jacChord_stands {l x1 y1 x2 L X1 Y1 X2 z : Nat} (hl : (L : ZMod p) = l * z) (hx1 : (X1 : ZMod p) = x1 * z ^ 2)
    (hy1 : (Y1 : ZMod p) = y1 * z ^ 3) (hx2 : (X2 : ZMod p) = x2 * z ^ 2) :
    (jacChord p L X1 Y1 X2 z).Stands p (2, 3) (nistChord p l x1 y1 x2) := by
  intro _
  refine ⟨_, _, subMod_lt hp.out.pos .., subMod_lt hp.out.pos .., rfl, ?_, ?_⟩
  all_goals
    simp only [jacChord, subMod_cast hp.out.pos, Nat.cast_mul, hl, hx1, hy1, hx2]
    ring

theorem nistSlope_tangent {x y : Nat} (h : (2 * y : ZMod p) ≠ 0) :
    (nistSlope p x y x y : ZMod p) * (2 * y) = 3 * x ^ 2 - 3 := by
  have hden : ((2 * y : Nat) : ZMod p) ≠ 0 := by exact_mod_cast h
  rw [nistSlope, if_pos rfl, ZMod.natCast_mod, Nat.cast_mul, invMod_cast_eq hden, subMod_cast hp.out.pos]
  push_cast
  rw [inv_mul_cancel_right₀ h]
  ring

theorem nistSlope_chord {x1 y1 x2 y2 : Nat} (h : (x2 - x1 : ZMod p) ≠ 0) :
    (nistSlope p x1 y1 x2 y2 : ZMod p) * (x2 - x1) = y2 - y1 := by
  have hne : x1 ≠ x2 := fun heq => h (by rw [heq, sub_self])
  have hden : ((subMod p x2 x1 : Nat) : ZMod p) ≠ 0 := by rwa [subMod_cast hp.out.pos]
  rw [nistSlope, if_neg hne, ZMod.natCast_mod, Nat.cast_mul, invMod_cast_eq hden, subMod_cast hp.out.pos,
    subMod_cast hp.out.pos]
  field_simp

theorem jacDouble_stands {t : Scaled} {v : PointVal} (h : t.Stands p (2, 3) v) :
    (jacDouble p t).Stands p (2, 3) (nistAdd p v v) := by
  intro hz'
  have hz : (2 * t.y * t.z : ZMod p) ≠ 0 := by simpa [jacDouble, jacChord] using hz'
  obtain ⟨x, y, -, -, rfl, hx, hy⟩ := h (right_ne_zero_of_mul hz)
  have hden : (2 * y : ZMod p) ≠ 0 := by
    intro h0
    apply hz
    linear_combination 2 * t.z * hy + t.z ^ 4 * h0
  have hl := nistSlope_tangent (x := x) hden
  have hinv : ¬(x = x ∧ (y + y) % p = 0) := by
    rintro ⟨-, h0⟩
    rw [add_mod_eq_zero_iff] at h0
    exact hden (by linear_combination h0)
  rw [nistAdd, if_neg hinv]
  refine jacChord_stands ?_ ?_ ?_ ?_ hz'
  all_goals simp only [ZMod.natCast_mod, subMod_cast hp.out.pos, Nat.cast_mul, Nat.cast_ofNat, hx, hy]
  · linear_combination -(t.z : ZMod p) ^ 4 * hl
  all_goals ring

theorem jacAdd_stands {t : Scaled} {v : PointVal} {x2 y2 : Nat} (h : t.Stands p (2, 3) v) :
    (jacAdd p x2 y2 t).Stands p (2, 3) (nistAdd p v (.aff x2 y2)) := by
  intro hz'
  have hz : (t.z * (x2 * (t.z * t.z) - t.x) : ZMod p) ≠ 0 := by
    simpa [jacAdd, jacChord, subMod_cast hp.out.pos] using hz'
  obtain ⟨x1, y1, -, -, rfl, hx, hy⟩ := h (left_ne_zero_of_mul hz)
  have hden : (x2 - x1 : ZMod p) ≠ 0 := by
    intro h0
    apply hz
    linear_combination -t.z * hx + t.z ^ 3 * h0
  have hl := nistSlope_chord (y1 := y1) (y2 := y2) hden
  have hinv : ¬(x1 = x2 ∧ (y1 + y2) % p = 0) := by
    rintro ⟨rfl, -⟩
    exact hden (sub_self _)
  rw [nistAdd, if_neg hinv]
  refine jacChord_stands ?_ ?_ ?_ ?_ hz'
  all_goals simp only [ZMod.natCast_mod, subMod_cast hp.out.pos, Nat.cast_mul, hx, hy]
  · linear_combination -(t.z : ZMod p) ^ 3 * hl
  all_goals ring

/-! ### The unified law of edwards25519, scaled (R434) -/

/-- The sum of two triples: Z grows by both denominators. -/
def homAdd (p d : Nat) (t u : Scaled) : Scaled :=
  let a := t.z * u.z % p
  let b := a * a % p
  let cx := t.x * u.x % p
  let cy := t.y * u.y % p
  let e := d * cx * cy % p
  let f := subMod p b e
  let g := (b + e) % p
  ⟨b * f * (t.x * u.y + t.y * u.x) % p, b * g * (cy + cx) % p, a * f * g % p⟩

theorem homAdd_stands {d : Nat} {t u : Scaled} {v w : PointVal} (ht : t.Stands p (1, 1) v) (hu : u.Stands p (1, 1) w) :
    (homAdd p d t u).Stands p (1, 1) (edAdd p d v w) := by
  intro hz'
  simp only [homAdd, ZMod.natCast_mod, subMod_cast hp.out.pos, Nat.cast_mul, Nat.cast_add] at hz' ⊢
  obtain ⟨haf, hg⟩ := mul_ne_zero_iff.1 hz'
  obtain ⟨hz, hf⟩ := mul_ne_zero_iff.1 haf
  obtain ⟨x1, y1, -, -, rfl, hx1, hy1⟩ := ht (left_ne_zero_of_mul hz)
  obtain ⟨x2, y2, -, -, rfl, hx2, hy2⟩ := hu (right_ne_zero_of_mul hz)
  have hcross : (edCross p d x1 y1 x2 y2 : ZMod p) = d * x1 * x2 * y1 * y2 := by simp [edCross]
  have hplus : ((1 + edCross p d x1 y1 x2 y2 : Nat) : ZMod p) = 1 + d * x1 * x2 * y1 * y2 := by
    rw [Nat.cast_add, hcross, Nat.cast_one]
  have hminus : ((subMod p 1 (edCross p d x1 y1 x2 y2) : Nat) : ZMod p) = 1 - d * x1 * x2 * y1 * y2 := by
    rw [subMod_cast hp.out.pos, hcross, Nat.cast_one]
  rw [hx1, hx2, hy1, hy2] at hf hg
  have hden1 : (1 + d * x1 * x2 * y1 * y2 : ZMod p) ≠ 0 := by
    intro h0
    exact hg (by linear_combination (t.z * u.z) ^ 2 * h0)
  have hden2 : (1 - d * x1 * x2 * y1 * y2 : ZMod p) ≠ 0 := by
    intro h0
    exact hf (by linear_combination (t.z * u.z) ^ 2 * h0)
  refine ⟨_, _, Nat.mod_lt _ hp.out.pos, Nat.mod_lt _ hp.out.pos, rfl, ?_, ?_⟩
  · rw [ZMod.natCast_mod, Nat.cast_mul, invMod_cast_eq (hplus ▸ hden1), hplus, hx1, hx2, hy1, hy2]
    push_cast
    field_simp
  · rw [ZMod.natCast_mod, Nat.cast_mul, invMod_cast_eq (hminus ▸ hden2), hminus, hx1, hx2, hy1, hy2]
    push_cast
    field_simp

end Triples

/-! ### Multiples of the base point, from the top bit down -/

/-- The weights of a family's internal form. -/
def Curve.weights (c : Curve) : Nat × Nat := if c.isNist then (2, 3) else (1, 1)

/-- The value of a triple in the internal form of the curve's family. -/
def Curve.valueOf (c : Curve) (t : Scaled) : PointVal :=
  if c.isNist then jacobianValue c.prime t.x t.y t.z else extendedValue c.prime t.x t.y t.z

/-- The base point, unscaled. -/
def Curve.scaledBase (c : Curve) : Scaled := ⟨c.gx, c.gy, 1⟩

/-- The triple doubled by the family's formula. -/
def Curve.scaledDouble (c : Curve) (t : Scaled) : Scaled :=
  if c.isNist then jacDouble c.prime t else homAdd c.prime c.coeff t t

/-- The base point added to the triple by the family's formula. -/
def Curve.scaledAddBase (c : Curve) (t : Scaled) : Scaled :=
  if c.isNist then jacAdd c.prime c.gx c.gy t else homAdd c.prime c.coeff t c.scaledBase

/-- The multiple of the base point by `k`, which has `f` bits below its top bit. -/
def Curve.scaledMultiple (c : Curve) : Nat → Nat → Scaled
  | 0, _ => c.scaledBase
  | f + 1, k =>
    let q := c.scaledDouble (c.scaledMultiple f (k / 2))
    if k % 2 = 1 then c.scaledAddBase q else q

section Multiples

variable {c : Curve} {t : Scaled} {v : PointVal}

theorem Curve.wellFormed_base (c : Curve) : c.wellFormed c.base = true := by cases c <;> decide +kernel

theorem Curve.stands_scaledBase (c : Curve) : c.scaledBase.Stands c.prime c.weights c.base := by
  intro _
  obtain ⟨hx, hy⟩ : c.gx < c.prime ∧ c.gy < c.prime := by simpa [Curve.base, Curve.inDomain] using c.inDomain_base
  exact ⟨c.gx, c.gy, hx, hy, rfl, by simp [Curve.scaledBase], by simp [Curve.scaledBase]⟩

theorem Scaled.Stands.scaledDouble (h : t.Stands c.prime c.weights v) :
    (c.scaledDouble t).Stands c.prime c.weights (c.add v v) := by
  have := Fact.mk c.prime_prime
  cases hc : c.isNist with
  | true =>
    simp only [Curve.weights, Curve.scaledDouble, Curve.add, hc, if_true] at h ⊢
    exact jacDouble_stands h
  | false =>
    simp only [Curve.weights, Curve.scaledDouble, Curve.add, hc, Bool.false_eq_true, if_false] at h ⊢
    exact homAdd_stands h h

theorem Scaled.Stands.scaledAddBase (h : t.Stands c.prime c.weights v) :
    (c.scaledAddBase t).Stands c.prime c.weights (c.add v c.base) := by
  have := Fact.mk c.prime_prime
  have hbase := c.stands_scaledBase
  cases hc : c.isNist with
  | true =>
    simp only [Curve.weights, Curve.scaledAddBase, Curve.add, hc, if_true] at h ⊢
    exact jacAdd_stands h
  | false =>
    simp only [Curve.weights, Curve.scaledAddBase, Curve.add, hc, Bool.false_eq_true, if_false] at h hbase ⊢
    exact homAdd_stands h hbase

theorem Scaled.Stands.valueOf_eq (h : t.Stands c.prime c.weights v) (hz : t.z % c.prime ≠ 0) : c.valueOf t = v := by
  have := Fact.mk c.prime_prime
  cases hc : c.isNist with
  | true =>
    simp only [Curve.weights, Curve.valueOf, hc, if_true] at h ⊢
    exact h.jacobianValue_eq hz
  | false =>
    simp only [Curve.weights, Curve.valueOf, hc, Bool.false_eq_true, if_false] at h ⊢
    exact h.extendedValue_eq hz

theorem Curve.stands_scaledMultiple (c : Curve) {f k : Nat} (hk : k / 2 ^ f = 1) :
    (c.scaledMultiple f k).Stands c.prime c.weights (c.kFold c.base k) := by
  induction f generalizing k with
  | zero =>
    obtain rfl : k = 1 := by simpa using hk
    rw [Curve.kFold, Curve.kFold, Curve.identity_add c.wellFormed_base c.inDomain_base]
    exact c.stands_scaledBase
  | succ f ih =>
    have hdouble := (ih (k := k / 2) (by rwa [Nat.div_div_eq_div_mul, ← pow_succ'])).scaledDouble
    rw [← Curve.kFold_two_mul c.wellFormed_base c.inDomain_base] at hdouble
    rw [Curve.scaledMultiple]
    split
    · next hodd =>
      have hadd := hdouble.scaledAddBase
      rwa [← Curve.kFold, show (2 * (k / 2)).succ = k by omega] at hadd
    · next heven => rwa [show 2 * (k / 2) = k by omega] at hdouble

end Multiples

/-! ### The group orders (R333) -/

/-- The multiple by n − 1, as a triple. -/
abbrev Curve.scaledPred (c : Curve) : Scaled := c.scaledMultiple (c.order - 1).log2 (c.order - 1)

/-- Computed: no denominator on the way was 0, and the value is that of R392 and R433. -/
theorem Curve.scaledPred_eq_neg_base (c : Curve) :
    c.scaledPred.z % c.prime ≠ 0 ∧ c.valueOf c.scaledPred = c.neg c.base := by
  cases c <;> decide +kernel

theorem Curve.kFold_pred_order (c : Curve) : c.kFold c.base (c.order - 1) = c.neg c.base := by
  have htop : (c.order - 1) / 2 ^ (c.order - 1).log2 = 1 := by cases c <;> decide +kernel
  obtain ⟨hz, hvalue⟩ := c.scaledPred_eq_neg_base
  rw [← (c.stands_scaledMultiple htop).valueOf_eq hz, hvalue]

/-- The last addition is of the base point to its negation. -/
theorem Curve.kFold_order (c : Curve) : c.kFold c.base c.order = c.identity := by
  have hw := c.wellFormed_base
  have hd := c.inDomain_base
  have hpos : c.order = c.order - 1 + 1 := by cases c <;> decide +kernel
  rw [hpos, Curve.kFold, c.kFold_pred_order,
    Curve.sum_comm (Curve.wellFormed_neg hw hd) (Curve.inDomain_neg hd) hw hd, Curve.sum_neg hw hd]

/-- Settles O43: the primes by their certificates, the base points by their equations, the orders by computation. -/
theorem curveConstantsAreConsistent : Obligations.CurveConstantsAreConsistent :=
  fun c => ⟨c.prime_prime, c.inDomain_base, c.wellFormed_base, c.kFold_order⟩

end Sys2Proof.Machine
end

section
/-! PROOF. O40: the sum of two points of a NIST curve (spec/45_ec_nist.md R393, R394). Well-formed points
that are not inverse to each other give the slope a denominator that is not 0. -/

namespace Sys2Proof.Machine

section NistSum

variable {p b : Nat} [hp : Fact p.Prime] {x y x1 y1 x2 y2 : Nat}

theorem natCast_nistRhs : (nistRhs p b x : ZMod p) = (x : ZMod p) ^ 3 - 3 * x + b := by
  rw [nistRhs, subMod_cast hp.out.pos]
  push_cast
  ring

/-- The on-curve test of R398 is the curve equation in the field. -/
theorem nistOnCurve_aff_iff_sq : nistOnCurve p b (.aff x y) = true ↔ (y : ZMod p) ^ 2 = x ^ 3 - 3 * x + b := by
  rw [nistOnCurve_aff_iff, WeierstrassCurve.Affine.equation_iff]
  simp [nistCurve, sub_eq_add_neg]

/-- One abscissa has two ordinates, so points that are not inverse to each other have the same one, not 0. -/
theorem eq_and_two_mul_ne_zero_of_not_inverse (htwo : (2 : ZMod p) ≠ 0) (h1 : nistOnCurve p b (.aff x y1) = true)
    (h2 : nistOnCurve p b (.aff x y2) = true) (hinv : (y1 + y2) % p ≠ 0) :
    (y1 : ZMod p) = y2 ∧ (2 * y1 : ZMod p) ≠ 0 := by
  have hne : (y1 : ZMod p) ≠ -y2 := mt add_mod_eq_zero_iff.2 hinv
  have hsq : (y1 : ZMod p) ^ 2 = (y2 : ZMod p) ^ 2 := by
    rw [nistOnCurve_aff_iff_sq.1 h1, nistOnCurve_aff_iff_sq.1 h2]
  have heq := (sq_eq_sq_iff_eq_or_eq_neg.1 hsq).resolve_right hne
  refine ⟨heq, mul_ne_zero htwo fun h0 => hne ?_⟩
  rw [← heq, h0, neg_zero]

end NistSum

theorem Curve.lt_prime_of_inDomain {c : Curve} {x y : Nat} (h : c.inDomain (.aff x y) = true) :
    x < c.prime ∧ y < c.prime := by
  simpa [Curve.inDomain] using h

theorem Curve.wellFormed_of_isNist {c : Curve} (hc : c.isNist = true) (v : PointVal) :
    c.wellFormed v = nistOnCurve c.prime c.coeff v := by
  rw [Curve.wellFormed, if_pos hc]

/-- Settles O40: INF by its two equations, and the tangent or chord by the slope's denominator, which is not 0. -/
theorem nistSumOfPoints : Obligations.NistSumOfPoints := by
  intro c hc
  have := Fact.mk c.prime_prime
  have hadd (v w : PointVal) : c.add v w = nistAdd c.prime v w := if_pos hc
  refine ⟨fun v => ⟨hadd .inf v, (hadd v .inf).trans ?_⟩, fun x1 y1 x2 y2 hd1 hd2 hw1 hw2 =>
    ⟨fun hx hy => (hadd ..).trans (if_pos ⟨hx, hy⟩), fun hinv => ?_⟩⟩
  · cases v <;> rfl
  · refine ⟨nistSlope c.prime x1 y1 x2 y2, _, _, (hadd ..).trans (if_neg hinv), subMod_lt c.prime_pos ..,
      subMod_lt c.prime_pos .., ?_, fun hx => ?_, ?_, ?_⟩
    · rintro rfl
      rw [Curve.wellFormed_of_isNist hc] at hw1 hw2
      have hne : (y1 + y2) % c.prime ≠ 0 := fun h => hinv ⟨rfl, h⟩
      obtain ⟨heq, hden⟩ :=
        eq_and_two_mul_ne_zero_of_not_inverse (two_ne_zero_of_odd c.two_lt_prime) hw1 hw2 hne
      obtain rfl := natCast_inj_of_lt (Curve.lt_prime_of_inDomain hd1).2 (Curve.lt_prime_of_inDomain hd2).2 heq
      exact ⟨nistSlope_tangent hden, hden⟩
    · have hden : (x2 - x1 : ZMod c.prime) ≠ 0 := fun h => hx (natCast_inj_of_lt
        (Curve.lt_prime_of_inDomain hd1).1 (Curve.lt_prime_of_inDomain hd2).1 (sub_eq_zero.1 h).symm)
      exact ⟨nistSlope_chord hden, hden⟩
    · simp only [subMod_cast c.prime_pos, Nat.cast_mul, sq]
    · simp only [subMod_cast c.prime_pos, Nat.cast_mul]

end Sys2Proof.Machine
end

section
/-! PROOF. O48 and O49: the bytes of a point, and what a NIST encoding decodes to (spec/45_ec_nist.md R401 to R407,
spec/46_ec_edwards.md R440, R443). -/

namespace Sys2Proof.Machine

/-! ### The bytes of a point (R401, R402, R440, R443) -/

section Bytes

variable {n j : Nat}

theorem toNat_leBytes_getD (hj : j < n) (v : Nat) : ((leBytes n v).getD j 0).toNat = v / 256 ^ j % 256 := by
  have hlen : j < (leBytes n v).length := by rwa [leBytes_length]
  rw [List.getD_eq_getElem _ _ hlen, leBytes_getElem, BitVec.toNat_ofNat]

theorem toNat_beBytes_getD (hj : j < n) (v : Nat) :
    ((beBytes n v).getD j 0).toNat = v / 256 ^ (n - 1 - j) % 256 := by
  have hlen : j < (beBytes n v).length := by rwa [beBytes_length]
  rw [List.getD_eq_getElem _ _ hlen, toNat_beBytes_getElem]

end Bytes

section NistForms

variable {F x y j : Nat}

@[simp] theorem nistEncode_length (F x y : Nat) : (nistEncode F x y).length = 2 * F + 1 := by
  simp [nistEncode, two_mul]

@[simp] theorem nistEncodeShort_length (F x y : Nat) : (nistEncodeShort F x y).length = F + 1 := by
  simp [nistEncodeShort]

theorem nistEncode_getD_x (hj : j < F) : (nistEncode F x y).getD (1 + j) 0 = (beBytes F x).getD j 0 := by
  rw [nistEncode, add_comm 1 j, List.getD_cons_succ, List.getD_append _ _ _ _ (by rwa [beBytes_length])]

theorem nistEncode_getD_y (F x y j : Nat) : (nistEncode F x y).getD (F + 1 + j) 0 = (beBytes F y).getD j 0 := by
  rw [nistEncode, add_right_comm, List.getD_cons_succ, List.getD_append_right _ _ _ _ (by simp)]
  simp

theorem nistEncodeShort_getD_x (F x y j : Nat) : (nistEncodeShort F x y).getD (1 + j) 0 = (beBytes F x).getD j 0 := by
  rw [nistEncodeShort, add_comm 1 j, List.getD_cons_succ]

theorem toNat_nistEncodeShort_head (F x y : Nat) : ((nistEncodeShort F x y).getD 0 0).toNat = 2 + y % 2 := by
  rw [nistEncodeShort, List.getD_cons_zero, BitVec.toNat_ofNat]
  omega

end NistForms

section Forms

variable {c : Curve}

theorem Curve.encode_long_of_isNist (hc : c.isNist = true) (x y : Nat) :
    c.encode x y false = nistEncode c.fieldBytes x y := by
  cases c
  case ed25519 | x25519 => cases hc
  all_goals rfl

theorem Curve.encode_short_of_isNist (hc : c.isNist = true) (x y : Nat) :
    c.encode x y true = nistEncodeShort c.fieldBytes x y := by
  cases c
  case ed25519 | x25519 => cases hc
  all_goals rfl

theorem Curve.decode_of_isNist (hc : c.isNist = true) (e : List Byte) :
    c.decode e = nistDecode c.prime c.coeff c.fieldBytes e := by
  cases c
  case ed25519 | x25519 => cases hc
  all_goals rfl

end Forms

section Montgomery

variable {p : Nat} [hp : Fact p.Prime] {y : Nat}

@[simp] theorem montU_one (p : Nat) : montU p 1 = 0 := rfl

theorem montU_lt (y : Nat) : montU p y < p := by
  unfold montU
  split
  · exact hp.out.pos
  · exact Nat.mod_lt _ hp.out.pos

theorem one_sub_ne_zero (hy : y < p) (hne : y ≠ 1) : (1 - y : ZMod p) ≠ 0 := by
  intro h0
  refine hne (natCast_inj_of_lt hy hp.out.one_lt ?_)
  rw [Nat.cast_one, sub_eq_zero.1 h0]

/-- u is the quotient of 1 + y by 1 - y (R443). -/
theorem natCast_montU_mul (hy : y < p) (hne : y ≠ 1) : (montU p y : ZMod p) * (1 - y) = 1 + y := by
  have hden : ((subMod p 1 y : Nat) : ZMod p) = 1 - y := by rw [subMod_cast hp.out.pos, Nat.cast_one]
  have hne0 := one_sub_ne_zero hy hne
  rw [montU, if_neg hne, ZMod.natCast_mod, Nat.cast_mul, invMod_cast_eq (hden ▸ hne0), hden,
    inv_mul_cancel_right₀ hne0, Nat.cast_add, Nat.cast_one]

end Montgomery

/-- Settles O48: each form is a head byte and byte strings of the coordinates; u is the model's own quotient. -/
theorem pointEncodings : Obligations.PointEncodings := by
  refine ⟨fun c x y hc _ => ?_, fun x y _ => ⟨leBytes_length .., fun j hj => toNat_leBytes_getD hj _⟩,
    fun x y hd => ?_, rfl, rfl, rfl⟩
  · rw [Curve.encode_long_of_isNist hc, Curve.encode_short_of_isNist hc]
    refine ⟨nistEncode_length .., rfl, fun j hj => ⟨?_, ?_⟩, nistEncodeShort_length ..,
      toNat_nistEncodeShort_head .., fun j hj => ?_⟩
    · rw [nistEncode_getD_x hj, toNat_beBytes_getD hj]
    · rw [nistEncode_getD_y, toNat_beBytes_getD hj]
    · rw [nistEncodeShort_getD_x, toNat_beBytes_getD hj]
  · have := Fact.mk Curve.x25519.prime_prime
    exact ⟨montU Curve.x25519.prime y, montU_lt y, fun hy => by rw [hy, montU_one],
      natCast_montU_mul (Curve.lt_prime_of_inDomain hd).2, leBytes_length .., fun j hj => toNat_leBytes_getD hj _⟩

/-! ### What a NIST encoding decodes to (R403 to R407) -/

theorem beVal_eq_sum (bs : List Byte) :
    beVal bs = ∑ j ∈ Finset.range bs.length, (bs.getD j 0).toNat * 256 ^ (bs.length - 1 - j) := by
  induction bs with
  | nil => rfl
  | cons b bs ih =>
    have hweight (j : Nat) : bs.length - 1 - j = bs.length - (j + 1) := by omega
    rw [beVal_cons, ih, List.length_cons, Finset.sum_range_succ']
    simp [hweight]

/-- The bytes of `e` at k, ..., k + n - 1 as a big-endian number. -/
theorem beVal_slice {e : List Byte} {k n : Nat} (h : k + n ≤ e.length) :
    beVal ((e.drop k).take n) = ∑ j ∈ Finset.range n, (e.getD (k + j) 0).toNat * 256 ^ (n - 1 - j) := by
  have hlen : ((e.drop k).take n).length = n := by rw [List.length_take, List.length_drop]; omega
  rw [beVal_eq_sum, hlen]
  refine Finset.sum_congr rfl fun j hj => ?_
  have hj' := Finset.mem_range.1 hj
  rw [List.getD_eq_getElem _ _ (by omega), List.getD_eq_getElem _ _ (by omega), List.getElem_take, List.getElem_drop]

section Roots

variable {p : Nat} [hp : Fact p.Prime] {r y s : Nat}

/-- Two square roots of one element are equal or add up to p. -/
theorem eq_or_add_eq_of_sq_eq (hr : r < p) (hy : y < p) (h : (r : ZMod p) ^ 2 = (y : ZMod p) ^ 2) :
    r = y ∨ r + y = p := by
  rcases sq_eq_sq_iff_eq_or_eq_neg.1 h with heq | hneg
  · exact .inl (natCast_inj_of_lt hr hy heq)
  · have hmod := add_mod_eq_zero_iff.2 hneg
    rcases lt_or_ge (r + y) p with hlt | hge
    · rw [Nat.mod_eq_of_lt hlt] at hmod
      omega
    · rw [Nat.mod_eq_sub_mod hge, Nat.mod_eq_of_lt (by omega)] at hmod
      omega

/-- Of the two roots the parity tells which one is meant (R406). -/
theorem root_of_parity_eq (hodd : p % 2 = 1) (hr : r < p) (hy : y < p) (h : (r : ZMod p) ^ 2 = (y : ZMod p) ^ 2) :
    (if r % 2 = y % 2 then r else (p - r) % p) = y := by
  rcases eq_or_add_eq_of_sq_eq hr hy h with rfl | hsum
  · exact if_pos rfl
  · rw [if_neg (by omega), Nat.mod_eq_of_lt (by omega)]
    omega

theorem subMod_eq_zero_iff {a b : Nat} : subMod p a b = 0 ↔ (a : ZMod p) = b := by
  rw [← sub_eq_zero (a := (a : ZMod p)), ← subMod_cast hp.out.pos, ZMod.natCast_eq_zero_iff]
  exact ⟨fun h => h ▸ dvd_zero p, fun h => Nat.eq_zero_of_dvd_of_lt h (subMod_lt hp.out.pos ..)⟩

/-- The root that R406 takes is one of any element that has one, p being 3 mod 4 (R407). -/
theorem natCast_nistSqrt_sq {a : Nat} {z : ZMod p} (hp4 : p % 4 = 3) (h : (a : ZMod p) = z ^ 2) :
    (nistSqrt p a : ZMod p) ^ 2 = a := by
  have hexp : 2 * ((p + 1) / 4 * 2) = p + 1 := by omega
  rw [nistSqrt, powMod_eq, ZMod.natCast_mod, Nat.cast_pow, h, ← pow_mul, ← pow_mul, hexp, pow_succ, ZMod.pow_card, sq]

end Roots

theorem Curve.prime_mod_four_of_isNist {c : Curve} (hc : c.isNist = true) : c.prime % 4 = 3 := by
  cases c
  case ed25519 | x25519 => cases hc
  all_goals decide +kernel

/-- The uncompressed form decodes to its coordinates where both are below p (R404). -/
theorem nistDecodeLong_eq {p F : Nat} {e : List Byte} {x y : Nat} (hx : x = beVal ((e.drop 1).take F))
    (hy : y = beVal ((e.drop (F + 1)).take F)) :
    nistDecodeLong p F e = if x < p ∧ y < p then some (.aff x y) else none := by
  simp only [nistDecodeLong, ← hx, ← hy, ← not_lt, ← not_and_or, ite_not]

section NistDecode

variable {p b F : Nat} [hp : Fact p.Prime] {e : List Byte}

/-- The compressed form decodes to the point of its abscissa and parity on the curve (R406). -/
theorem nistDecodeShort_eq_some_iff {x : Nat} (hp4 : p % 4 = 3) (hx : x = beVal ((e.drop 1).take F)) (v : PointVal) :
    nistDecodeShort p b F e = some v ↔ ∃ y : Nat, v = .aff x y ∧ x < p ∧ y < p ∧ y % 2 = (e.headD 0).toNat - 2 ∧
      (y : ZMod p) ^ 2 = x ^ 3 - 3 * x + b := by
  have hroot : nistSqrt p (nistRhs p b x) < p := powMod_lt hp.out.pos ..
  simp only [nistDecodeShort, ← hx, Option.ite_none_left_eq_some, Option.some.injEq, not_le, not_not,
    subMod_eq_zero_iff, ← sq, Nat.cast_pow, ← natCast_nistRhs]
  constructor
  · rintro ⟨hxp, hsq, hpar, rfl⟩
    refine ⟨_, rfl, hxp, ?_, hpar, ?_⟩
    · split
      · exact hroot
      · exact Nat.mod_lt _ hp.out.pos
    · split
      · exact hsq
      · rw [ZMod.natCast_mod, Nat.cast_sub hroot.le, ZMod.natCast_self, zero_sub, neg_sq, hsq]
  · rintro ⟨y, rfl, hxp, hy, hpar, hsq⟩
    have hrsq := natCast_nistSqrt_sq hp4 hsq.symm
    rw [← hpar, root_of_parity_eq (by omega) hroot hy (hrsq.trans hsq.symm)]
    exact ⟨hxp, hrsq, rfl, rfl⟩

end NistDecode

/-- Settles O49: the first byte selects the form, whose byte strings are the coordinates. -/
theorem nistPointDecoding : Obligations.NistPointDecoding := by
  intro c hc
  have := Fact.mk c.prime_prime
  have hlen (h : Byte) : c.encLen h = nistEncLen c.fieldBytes h := if_pos hc
  refine ⟨hlen _, hlen _, hlen _, fun h h2 h3 h4 => ?_, fun e x hx => ⟨fun y hlen hhead hy => ?_,
    fun hlen hhead v => ?_⟩⟩
  · rw [hlen, nistEncLen, if_neg h4, if_neg (not_or.2 ⟨h2, h3⟩)]
  all_goals
    rw [Curve.decode_of_isNist hc, nistDecode, List.headD_eq_getD]
  · rw [← beVal_slice (by omega)] at hx hy
    rw [if_pos hhead, nistDecodeLong_eq hx hy]
  · rw [← beVal_slice (by omega)] at hx
    have hne : e.getD 0 0 ≠ 0x04#8 := by rcases hhead with h | h <;> rw [h] <;> decide
    rw [if_neg hne, nistDecodeShort_eq_some_iff (Curve.prime_mod_four_of_isNist hc) hx, List.headD_eq_getD]

end Sys2Proof.Machine
end

section
/-! PROOF. O51: EC.LDENC of the bytes EC.STENC wrote (spec/45_ec_nist.md R408, spec/46_ec_edwards.md R440 to R445).
First the decoders on the bytes of the encoders, then the two commands one after the other. -/

namespace Sys2Proof.Machine

/-! ### The NIST forms -/

theorem Curve.prime_lt_fieldBytes (c : Curve) : c.prime < 256 ^ c.fieldBytes := by cases c <;> decide +kernel

section NistForms

variable {c : Curve} {x y : Nat}

/-- A coordinate below the prime is kept whole in its field bytes. -/
theorem Curve.beVal_take_beBytes (hx : x < c.prime) (bs : List Byte) :
    beVal ((beBytes c.fieldBytes x ++ bs).take c.fieldBytes) = x := by
  rw [List.take_left' (beBytes_length ..), beVal_beBytes, Nat.mod_eq_of_lt (hx.trans c.prime_lt_fieldBytes)]

theorem Curve.decode_encode_long (hc : c.isNist = true) (hd : c.inDomain (.aff x y) = true) :
    c.decode (c.encode x y false) = some (.aff x y) := by
  obtain ⟨hx, hy⟩ := Curve.lt_prime_of_inDomain hd
  have hxv : x = beVal (((nistEncode c.fieldBytes x y).drop 1).take c.fieldBytes) := by
    rw [nistEncode, List.drop_succ_cons, List.drop_zero, Curve.beVal_take_beBytes hx]
  have hyv : y = beVal (((nistEncode c.fieldBytes x y).drop (c.fieldBytes + 1)).take c.fieldBytes) := by
    rw [nistEncode, List.drop_succ_cons, List.drop_left' (beBytes_length ..), ← List.append_nil (beBytes _ y),
      Curve.beVal_take_beBytes hy]
  rw [Curve.encode_long_of_isNist hc, Curve.decode_of_isNist hc, nistDecode, if_pos (by rfl), nistDecodeLong_eq hxv hyv,
    if_pos ⟨hx, hy⟩]

/-- The compressed form of (x, y) decodes to the points of the curve with that abscissa and parity. -/
theorem Curve.decode_encode_short_iff (hc : c.isNist = true) (hd : c.inDomain (.aff x y) = true) (v : PointVal) :
    c.decode (c.encode x y true) = some v ↔
      ∃ y', v = .aff x y' ∧ y' < c.prime ∧ y' % 2 = y % 2 ∧ c.wellFormed (.aff x y') = true := by
  have := Fact.mk c.prime_prime
  have hx := (Curve.lt_prime_of_inDomain hd).1
  have hxv : x = beVal (((nistEncodeShort c.fieldBytes x y).drop 1).take c.fieldBytes) := by
    rw [nistEncodeShort, List.drop_succ_cons, List.drop_zero, ← List.append_nil (beBytes _ x),
      Curve.beVal_take_beBytes hx]
  have hhead := toNat_nistEncodeShort_head c.fieldBytes x y
  rw [← List.headD_eq_getD] at hhead
  have hne : (nistEncodeShort c.fieldBytes x y).headD 0 ≠ 0x04#8 := by
    intro h
    rw [h] at hhead
    have : (0x04#8 : Byte).toNat = 4 := rfl
    omega
  rw [Curve.encode_short_of_isNist hc, Curve.decode_of_isNist hc, nistDecode, if_neg hne,
    nistDecodeShort_eq_some_iff (Curve.prime_mod_four_of_isNist hc) hxv]
  simp only [hhead, Nat.add_sub_cancel_left, Curve.wellFormed_of_isNist hc, nistOnCurve_aff_iff_sq, hx, true_and]

end NistForms

/-! ### The root of R441 and R442 -/

section EdwardsRoot

variable {p d : Nat} [hp : Fact p.Prime] {u w x y r s : Nat}

/-- The candidate of R442 is a root up to a power that is 1 or -1. -/
theorem natCast_edRootCandidate_sq_mul (hp8 : p % 8 = 5) :
    (edRootCandidate p u w : ZMod p) ^ 2 * w = u * (u * w ^ 7) ^ ((p - 1) / 4) := by
  have hexp : (p - 1) / 4 = 2 * ((p - 5) / 8) + 1 := by omega
  rw [edRootCandidate, ZMod.natCast_mod, Nat.cast_mul, powMod_eq, ZMod.natCast_mod, hexp]
  push_cast
  rw [ZMod.natCast_mod]
  push_cast
  ring

/-- That power is 1 or -1 by Euler's criterion, the base being the square of x·w^4. -/
theorem mul_pow_eq_or_eq_neg (hp8 : p % 8 = 5) (h : (x : ZMod p) ^ 2 * w = u) :
    (u : ZMod p) * (u * w ^ 7) ^ ((p - 1) / 4) = u ∨ (u : ZMod p) * (u * w ^ 7) ^ ((p - 1) / 4) = -u := by
  by_cases hu : (u : ZMod p) = 0
  · simp [hu]
  · obtain ⟨hx2, hw⟩ := mul_ne_zero_iff.1 (h ▸ hu)
    have hbase : (u * w ^ 7 : ZMod p) = (x * w ^ 4) ^ 2 := by rw [← h]; ring
    have hexp : 2 * ((p - 1) / 4) = p / 2 := by omega
    have hne : (x * w ^ 4 : ZMod p) ≠ 0 := mul_ne_zero (pow_ne_zero_iff two_ne_zero |>.1 hx2) (pow_ne_zero 4 hw)
    rw [hbase, ← pow_mul, hexp]
    rcases ZMod.pow_div_two_eq_neg_one_or_one p hne with h1 | h1 <;> simp [h1]

/-- Where u/w has a square root, the method of R442 gives one. -/
theorem edSqrtRatio_eq_some_of_root (hp8 : p % 8 = 5) (htwo : (2 : ZMod p) ^ ((p - 1) / 2) = -1)
    (h : (x : ZMod p) ^ 2 * w = u) :
    ∃ r, edSqrtRatio p u w = some r ∧ r < p ∧ (r : ZMod p) ^ 2 * w = u := by
  have hpos := hp.out.pos
  have hcand := natCast_edRootCandidate_sq_mul (u := u) (w := w) hp8
  have hv : ((w * edRootCandidate p u w * edRootCandidate p u w % p : Nat) : ZMod p) =
      (edRootCandidate p u w : ZMod p) ^ 2 * w := by
    rw [ZMod.natCast_mod]
    push_cast
    ring
  by_cases hroot : (edRootCandidate p u w : ZMod p) ^ 2 * w = u
  · refine ⟨edRootCandidate p u w, if_pos ?_, Nat.mod_lt _ hpos, hroot⟩
    refine natCast_inj_of_lt (Nat.mod_lt _ hpos) (Nat.mod_lt _ hpos) ?_
    rw [hv, hroot, ZMod.natCast_mod]
  · have hneg := (mul_pow_eq_or_eq_neg hp8 h).resolve_left (hcand ▸ hroot)
    rw [← hcand] at hneg
    refine ⟨edRootCandidate p u w * powMod p 2 ((p - 1) / 4) % p,
      (if_neg fun hvu => hroot ?_).trans (if_pos ?_), Nat.mod_lt _ hpos, ?_⟩
    · rw [← hv, hvu, ZMod.natCast_mod]
    · refine natCast_inj_of_lt (Nat.mod_lt _ hpos) (subMod_lt hpos ..) ?_
      rw [hv, hneg, subMod_cast hpos, Nat.cast_zero, zero_sub]
    · have hexp : (p - 1) / 2 = (p - 1) / 4 * 2 := by omega
      rw [hexp, pow_mul] at htwo
      rw [ZMod.natCast_mod, Nat.cast_mul, powMod_eq, ZMod.natCast_mod, Nat.cast_pow, Nat.cast_ofNat]
      linear_combination (edRootCandidate p u w : ZMod p) ^ 2 * w * htwo - hneg

theorem natCast_edRootNum (p y : Nat) [hp : Fact p.Prime] : (edRootNum p y : ZMod p) = (y : ZMod p) ^ 2 - 1 := by
  rw [edRootNum, subMod_cast hp.out.pos, Nat.cast_mul, Nat.cast_one, sq]

theorem natCast_edRootDen (p d y : Nat) : (edRootDen p d y : ZMod p) = d * (y : ZMod p) ^ 2 + 1 := by
  rw [edRootDen, ZMod.natCast_mod]
  push_cast
  ring

/-- The root of one parity is the one R441 recovers. Were the denominator 0, y would be a root of 1 and d be -1. -/
theorem edRecoverX_eq_some_of_root (hp8 : p % 8 = 5) (htwo : (2 : ZMod p) ^ ((p - 1) / 2) = -1)
    (hd : (1 + d : ZMod p) ≠ 0) (hx : x < p) (h : (x : ZMod p) ^ 2 * (d * y ^ 2 + 1) = y ^ 2 - 1) :
    edRecoverX p d y (x % 2) = some x := by
  have hden : (d * y ^ 2 + 1 : ZMod p) ≠ 0 := by
    intro h0
    apply hd
    linear_combination h0 + d * (h - x ^ 2 * h0)
  rw [← natCast_edRootNum, ← natCast_edRootDen] at h
  obtain ⟨r, hsome, hr, hrsq⟩ := edSqrtRatio_eq_some_of_root hp8 htwo h
  rw [← natCast_edRootDen] at hden
  rw [edRecoverX, hsome]
  rcases eq_or_add_eq_of_sq_eq hr hx (mul_right_cancel₀ hden (hrsq.trans h.symm)) with rfl | hsum
  · have hsign : ¬(r = 0 ∧ r % 2 = 1) := by omega
    simp [hsign]
  · have hsign : ¬(r = 0 ∧ x % 2 = 1) := by omega
    have hpar : r % 2 ≠ x % 2 := by omega
    simp only [if_neg hsign, if_pos hpar, Option.some.injEq]
    omega

end EdwardsRoot

/-! ### The Edwards forms -/

section EdwardsForms

variable {p d : Nat} [hp : Fact p.Prime] {x y : Nat}

/-- The equation of R439 solved for the square of x, as R441 takes its root. -/
theorem edOnCurve_aff_iff_root :
    edOnCurve p d (.aff x y) = true ↔ (x : ZMod p) ^ 2 * (d * y ^ 2 + 1) = y ^ 2 - 1 := by
  rw [edOnCurve_aff_iff, Edwards.On]
  constructor <;> intro h <;> linear_combination -h

/-- y and the parity of x, stored below and at bit 255, are read back (R440, R441). -/
theorem edDecode_edEncode {p : Nat} (hp255 : p < 2 ^ 255) (hy : y < p) (h : edRecoverX p d y (x % 2) = some x) :
    edDecode p d (edEncode x y) = some (.aff x y) := by
  have hval : leVal (edEncode x y) = y + 2 ^ 255 * (x % 2) := by
    rw [edEncode, leVal_leBytes, Nat.mod_eq_of_lt (by omega)]
  have hsign : (y + 2 ^ 255 * (x % 2)) / 2 ^ 255 % 2 = x % 2 := by omega
  have hord : (y + 2 ^ 255 * (x % 2)) % 2 ^ 255 = y := by omega
  simp only [edDecode, hval, hsign, hord, if_neg (not_le.2 hy), h, Option.map_some]

theorem natCast_montU_add_one_ne_zero (htwo : (2 : ZMod p) ≠ 0) (hy : y < p) : (montU p y + 1 : ZMod p) ≠ 0 := by
  intro h0
  by_cases hone : y = 1
  · rw [hone, montU_one] at h0
    simp at h0
  · apply htwo
    linear_combination (1 - y) * h0 - natCast_montU_mul hy hone

/-- y is read back from u, except 1, whose u stands for -1 (R443 to R445). -/
theorem montY_montU (htwo : (2 : ZMod p) ≠ 0) (hy : y < p) :
    montY p (montU p y) = if y = 1 then p - 1 else y := by
  have hpos := hp.out.pos
  have hden : ((montU p y + 1 : Nat) : ZMod p) ≠ 0 := by exact_mod_cast natCast_montU_add_one_ne_zero htwo hy
  refine mul_invMod_mod_eq hden ?_ ?_
  · split <;> omega
  · rw [subMod_cast hpos]
    split
    · next hone =>
      rw [hone, montU_one, cast_pred hpos]
      simp
    · next hone =>
      push_cast
      linear_combination natCast_montU_mul hy hone

/-- u is read back, and the even root of its y is taken (R444). -/
theorem montDecode_montEncode (hp255 : p < 2 ^ 255) (htwo : (2 : ZMod p) ≠ 0) (hy : y < p)
    (h : edRecoverX p d (montY p (montU p y)) 0 = some x) :
    montDecode p d (montEncode p y) = some (.aff x (montY p (montU p y))) := by
  have hu := montU_lt (p := p) y
  have hval : leVal (montEncode p y) % 2 ^ 255 % p = montU p y := by
    rw [montEncode, leVal_leBytes, Nat.mod_eq_of_lt (a := montU p y) (by omega),
      Nat.mod_eq_of_lt (a := montU p y) (by omega), Nat.mod_eq_of_lt hu]
  have hne : (montU p y + 1) % p ≠ 0 := by
    rw [Ne, ← Nat.dvd_iff_mod_eq_zero, ← ZMod.natCast_eq_zero_iff]
    exact_mod_cast natCast_montU_add_one_ne_zero htwo hy
  simp only [montDecode, hval, if_neg hne, h, Option.map_some]

end EdwardsForms

section EdwardsCurves

variable {c : Curve} {x y : Nat}

theorem Curve.wellFormed_of_not_isNist (hc : c.isNist = false) (v : PointVal) :
    c.wellFormed v = edOnCurve c.prime c.coeff v := by
  rw [Curve.wellFormed, hc, if_neg Bool.false_ne_true]

theorem Curve.prime_eq_of_not_isNist (hc : c.isNist = false) : c.prime = 2 ^ 255 - 19 := by
  cases c
  case ed25519 | x25519 => rfl
  all_goals cases hc

theorem Curve.prime_lt_of_not_isNist (hc : c.isNist = false) : c.prime < 2 ^ 255 := by
  rw [Curve.prime_eq_of_not_isNist hc]
  omega

theorem Curve.one_add_coeff_ne_zero (hc : c.isNist = false) : (1 + c.coeff : ZMod c.prime) ≠ 0 := by
  have hmod : ¬c.prime ∣ 1 + c.coeff := by
    cases c
    case ed25519 | x25519 => decide +kernel
    all_goals cases hc
  rw [← ZMod.natCast_eq_zero_iff] at hmod
  exact_mod_cast hmod

theorem Curve.edRecoverX_eq_some (hc : c.isNist = false) (hx : x < c.prime)
    (h : c.wellFormed (.aff x y) = true) : edRecoverX c.prime c.coeff y (x % 2) = some x := by
  have := Fact.mk c.prime_prime
  have hprime := Curve.prime_eq_of_not_isNist hc
  have htwo : ((2 : Nat) : ZMod c.prime) ^ ((c.prime - 1) / 2) = -1 := by
    rw [← cast_pred c.prime_pos]
    apply cast_pow_of_powMod
    rw [hprime]
    exact ed_two_pow_half
  rw [Curve.wellFormed_of_not_isNist hc, edOnCurve_aff_iff_root] at h
  exact edRecoverX_eq_some_of_root (by omega) htwo (Curve.one_add_coeff_ne_zero hc) hx h

/-- The ordinate 1 is that of the identity alone. -/
theorem Curve.eq_zero_of_wellFormed_one (hc : c.isNist = false) (hx : x < c.prime)
    (h : c.wellFormed (.aff x 1) = true) : x = 0 := by
  have := Fact.mk c.prime_prime
  rw [Curve.wellFormed_of_not_isNist hc, edOnCurve_aff_iff_root] at h
  have hzero : (x : ZMod c.prime) ^ 2 * (1 + c.coeff) = 0 := by
    push_cast at h
    linear_combination h
  have hx0 := pow_eq_zero_iff two_ne_zero |>.1 ((mul_eq_zero.1 hzero).resolve_right (Curve.one_add_coeff_ne_zero hc))
  exact natCast_inj_of_lt hx c.prime_pos (by rw [hx0, Nat.cast_zero])

/-- One of a point and its negation has an even abscissa. -/
theorem Curve.exists_even_abscissa (hc : c.isNist = false) (hd : c.inDomain (.aff x y) = true)
    (h : c.wellFormed (.aff x y) = true) : ∃ x', x' < c.prime ∧ c.wellFormed (.aff x' y) = true ∧ x' % 2 = 0 ∧
      (PointVal.aff x' y = .aff x y ∨ PointVal.aff x' y = c.neg (.aff x y)) := by
  have hx := (Curve.lt_prime_of_inDomain hd).1
  have hneg : c.neg (.aff x y) = .aff ((c.prime - x) % c.prime) y := by rw [Curve.neg, hc]; rfl
  rcases Nat.mod_two_eq_zero_or_one x with heven | hodd
  · exact ⟨x, hx, h, heven, .inl rfl⟩
  · refine ⟨_, Nat.mod_lt _ c.prime_pos, hneg ▸ Curve.wellFormed_neg h hd, ?_, .inr hneg.symm⟩
    have hprime := Curve.prime_eq_of_not_isNist hc
    rw [Nat.mod_eq_of_lt (show c.prime - x < c.prime by omega)]
    omega

theorem decode_encode_ed25519_eq (x y : Nat) (z : Bool) : Curve.ed25519.decode (Curve.ed25519.encode x y z) =
    edDecode Curve.ed25519.prime Curve.ed25519.coeff (edEncode x y) := rfl

theorem decode_encode_x25519_eq (x y : Nat) (z : Bool) : Curve.x25519.decode (Curve.x25519.encode x y z) =
    montDecode Curve.x25519.prime Curve.x25519.coeff (montEncode Curve.x25519.prime y) := rfl

theorem decode_encode_ed25519 (hd : Curve.ed25519.inDomain (.aff x y) = true)
    (h : Curve.ed25519.wellFormed (.aff x y) = true) (z : Bool) :
    Curve.ed25519.decode (Curve.ed25519.encode x y z) = some (.aff x y) := by
  obtain ⟨hx, hy⟩ := Curve.lt_prime_of_inDomain hd
  rw [decode_encode_ed25519_eq]
  exact edDecode_edEncode (Curve.prime_lt_of_not_isNist rfl) hy (Curve.edRecoverX_eq_some rfl hx h)

/-- The bytes of (x, y) decode to the point of even abscissa and the ordinate that u stands for. -/
theorem decode_encode_x25519 {x' : Nat} (hd : Curve.x25519.inDomain (.aff x y) = true) (hx' : x' < Curve.x25519.prime)
    (heven : x' % 2 = 0) {y' : Nat} (hy' : (if y = 1 then Curve.x25519.prime - 1 else y) = y')
    (h : Curve.x25519.wellFormed (.aff x' y') = true) (z : Bool) :
    Curve.x25519.decode (Curve.x25519.encode x y z) = some (.aff x' y') := by
  have := Fact.mk Curve.x25519.prime_prime
  have htwo := two_ne_zero_of_odd Curve.x25519.two_lt_prime
  have hy := (Curve.lt_prime_of_inDomain hd).2
  have hord := (montY_montU htwo hy).trans hy'
  have hrec := Curve.edRecoverX_eq_some rfl hx' h
  rw [heven, ← hord] at hrec
  rw [decode_encode_x25519_eq, ← hord]
  exact montDecode_montEncode (Curve.prime_lt_of_not_isNist rfl) htwo hy hrec

end EdwardsCurves

/-! ### EC.LDENC after EC.STENC -/

theorem Curve.encLen_encode (c : Curve) (x y : Nat) (z : Bool) :
    c.encLen ((c.encode x y z).getD 0 0) = some (c.encode x y z).length := by
  cases hc : c.isNist with
  | true =>
    rw [Curve.encLen, if_pos hc]
    cases z with
    | false =>
      rw [Curve.encode_long_of_isNist hc, nistEncode_length]
      rfl
    | true =>
      have hhead : (nistEncodeShort c.fieldBytes x y).getD 0 0 = 0x02#8 ∨
          (nistEncodeShort c.fieldBytes x y).getD 0 0 = 0x03#8 := by
        rw [nistEncodeShort, List.getD_cons_zero]
        rcases Nat.mod_two_eq_zero_or_one y with h | h <;> simp [h]
      have hne : (nistEncodeShort c.fieldBytes x y).getD 0 0 ≠ 0x04#8 := by
        rcases hhead with h | h <;> rw [h] <;> decide
      rw [Curve.encode_short_of_isNist hc, nistEncLen, if_neg hne, if_pos hhead, nistEncodeShort_length]
  | false =>
    rw [Curve.encLen, hc, if_neg Bool.false_ne_true]
    cases c
    case ed25519 | x25519 => rfl
    all_goals cases hc

theorem Memory.readBytes_getD_zero (m : Memory) (off : Nat) {n : Nat} (hn : 0 < n) :
    (m.readBytes off n).getD 0 0 = m.read off := by
  obtain ⟨k, rfl⟩ := Nat.exists_eq_add_of_lt hn
  rw [Nat.zero_add, Memory.readBytes, List.getD_cons_zero]

section Commands

variable {s t : State} {ps pd : PtNum} {off : Imm8} {z : ZField} {cv : CurveField} {c : Curve} {x y : Nat}

theorem not_raises_of_err_eq_false {i : Instr} {e : CmdError} (hexec : exec i s = .next t)
    (herr : t.status.err = false) : ¬Raises i s e := by
  intro hraises
  cases hexec.symm.trans hraises
  cases herr

/-- EC.STENC without an error has left the encoding in DBUF (R350). -/
theorem stored_of_ecStenc (hwf : s.dbuf.wf = true) (hz : z.val ≤ 1) (h : s.Holds ps c (.aff x y))
    (hexec : exec (.ecStenc ps off z) s = .next t) (herr : t.status.err = false) :
    off.val + (c.encode x y (decide (z.val = 1))).length ≤ 256 ∧
      t.dbuf.readBytes off.val (c.encode x y (decide (z.val = 1))).length = c.encode x y (decide (z.val = 1)) := by
  obtain ⟨-, hunsupported, -, hrange, hstored, -⟩ := storeEncodedPoint s ps off z hwf hz
  have hform : c.isNist = true ∨ z.val = 0 := by
    by_contra hno
    obtain ⟨hnist, hz0⟩ := not_or.1 hno
    exact not_raises_of_err_eq_false hexec herr
      (hunsupported c _ h (Bool.not_eq_true _ ▸ hnist) (by omega))
  have hfits : off.val + (c.encode x y (decide (z.val = 1))).length ≤ 256 := by
    by_contra hno
    exact not_raises_of_err_eq_false hexec herr (hrange c x y h hform (not_le.1 hno))
  obtain ⟨t', hnext, hbytes, -⟩ := hstored c x y h hform hfits
  cases hexec.symm.trans hnext
  exact ⟨hfits, hbytes⟩

/-- EC.LDENC of an encoding in DBUF ends as its decoding says. -/
theorem ecLdenc_of_stored {k : Bool} (pd : PtNum) (hc : curveOf cv = some c)
    (hfits : off.val + (c.encode x y k).length ≤ 256)
    (hbytes : t.dbuf.readBytes off.val (c.encode x y k).length = c.encode x y k) :
    (∀ v, c.decode (c.encode x y k) = some v → Completes (.ecLdenc pd off cv) t fun u => HoldsPt u pd c v) ∧
    (c.decode (c.encode x y k) = none → Raises (.ecLdenc pd off cv) t .invalidArgument) := by
  obtain ⟨-, -, -, hnone, hsome, -⟩ := loadEncodedPoint t pd off cv
  have hlen : c.encLen (t.dbuf.read off.val) = some (c.encode x y k).length := by
    have hpos : 0 < (c.encode x y k).length := by cases c <;> cases k <;> exact Nat.succ_pos _
    rw [← Memory.readBytes_getD_zero _ _ hpos, hbytes, Curve.encLen_encode]
  refine ⟨fun v hv => ?_, fun hv => hnone c _ hc hlen hfits (hbytes.symm ▸ hv)⟩
  obtain ⟨u, hnext, hholds, -⟩ := hsome c _ v hc hlen hfits (hbytes.symm ▸ hv)
  exact ⟨u, hnext, hholds⟩

end Commands

/-- Settles O51: the bytes stored are the encoding, and each form decodes as the lemmas above say. -/
theorem encodingsRoundTrip : Obligations.EncodingsRoundTrip := by
  intro s t ps pd off z cv c x y hwf hd h hc hz hexec herr
  obtain ⟨hfits, hbytes⟩ := stored_of_ecStenc hwf hz h hexec herr
  obtain ⟨hsome, hnone⟩ := ecLdenc_of_stored pd hc hfits hbytes
  refine ⟨fun hnist hform => hsome _ ?_, fun hnist hmal hz1 => ?_, ?_, ?_, ?_⟩
  · rcases hz01 : decide (z.val = 1) with _ | _
    · exact Curve.decode_encode_long hnist hd
    · have hw := hform.resolve_right (by rw [of_decide_eq_true hz01]; decide)
      exact (Curve.decode_encode_short_iff hnist hd _).2 ⟨y, rfl, (Curve.lt_prime_of_inDomain hd).2, rfl, hw⟩
  · rw [hz1] at hsome hnone
    cases hdec : c.decode (c.encode x y (decide (1 = 1))) with
    | none => exact .inl (hnone hdec)
    | some v =>
      obtain ⟨u, hnext, hholds⟩ := hsome v hdec
      obtain ⟨y', rfl, -, -, hw⟩ := (Curve.decode_encode_short_iff hnist hd v).1 hdec
      exact .inr ⟨u, hnext, _, hholds, fun heq => by simp [← heq, hw] at hmal, hw⟩
  · rintro rfl hw
    exact hsome _ (decode_encode_ed25519 hd hw _)
  · rintro rfl hw hne
    have hy1 : y ≠ 1 := by
      rintro rfl
      exact hne ⟨Curve.eq_zero_of_wellFormed_one rfl (Curve.lt_prime_of_inDomain hd).1 hw, rfl⟩
    obtain ⟨x', hx', hw', heven, hsame⟩ := Curve.exists_even_abscissa rfl hd hw
    obtain ⟨u, hnext, hholds⟩ := hsome _ (decode_encode_x25519 hd hx' heven (if_neg hy1) hw' _)
    exact ⟨u, hnext, x', hholds, heven, hsame⟩
  · rintro rfl ⟨rfl, rfl⟩
    exact hsome _ (decode_encode_x25519 hd Curve.x25519.prime_pos rfl (if_pos rfl) (by decide +kernel) _)

end Sys2Proof.Machine
end

section
/-! PROOF. O41: the sum of two points of edwards25519 (spec/46_ec_edwards.md R434, R435). The denominators are not 0
because -1 is a square mod p and d is not. -/

namespace Sys2Proof.Machine

section EdwardsSum

variable {p d : Nat} [hp : Fact p.Prime] {x1 y1 x2 y2 : Nat}

/-- The model's quotient is one in the field. -/
theorem natCast_mul_invMod_mod_mul {a b : Nat} (hb : (b : ZMod p) ≠ 0) :
    ((a * invMod p b % p : Nat) : ZMod p) * b = a := by
  rw [ZMod.natCast_mod, Nat.cast_mul, invMod_cast_eq hb, inv_mul_cancel_right₀ hb]

theorem natCast_edCross : (edCross p d x1 y1 x2 y2 : ZMod p) = d * x1 * x2 * y1 * y2 := by
  rw [edCross, ZMod.natCast_mod]
  push_cast
  rfl

/-- Where its denominators are not 0, the model's sum is that of R434. -/
theorem edAdd_aff_equations (hplus : (1 + d * x1 * x2 * y1 * y2 : ZMod p) ≠ 0)
    (hminus : (1 - d * x1 * x2 * y1 * y2 : ZMod p) ≠ 0) :
    ∃ x3 y3 : Nat, edAdd p d (.aff x1 y1) (.aff x2 y2) = .aff x3 y3 ∧ x3 < p ∧ y3 < p ∧
      (x3 : ZMod p) * (1 + d * x1 * x2 * y1 * y2) = x1 * y2 + y1 * x2 ∧
      (y3 : ZMod p) * (1 - d * x1 * x2 * y1 * y2) = y1 * y2 + x1 * x2 := by
  have hdenX : ((1 + edCross p d x1 y1 x2 y2 : Nat) : ZMod p) = 1 + d * x1 * x2 * y1 * y2 := by
    rw [Nat.cast_add, natCast_edCross, Nat.cast_one]
  have hdenY : ((subMod p 1 (edCross p d x1 y1 x2 y2) : Nat) : ZMod p) = 1 - d * x1 * x2 * y1 * y2 := by
    rw [subMod_cast hp.out.pos, natCast_edCross, Nat.cast_one]
  refine ⟨_, _, rfl, Nat.mod_lt _ hp.out.pos, Nat.mod_lt _ hp.out.pos, ?_, ?_⟩
  · rw [← hdenX, natCast_mul_invMod_mod_mul (hdenX ▸ hplus)]
    push_cast
    rfl
  · rw [← hdenY, natCast_mul_invMod_mod_mul (hdenY ▸ hminus)]
    push_cast
    rfl

end EdwardsSum

section Nonresidues

variable {c : Curve}

theorem Curve.two_pow_half_prime (hc : c.isNist = false) : (2 : ZMod c.prime) ^ ((c.prime - 1) / 2) = -1 := by
  rw [← cast_pred c.prime_pos, Curve.prime_eq_of_not_isNist hc]
  exact cast_pow_of_powMod (a := 2) ed_two_pow_half

/-- 2^((p-1)/4) is a root of -1. -/
theorem Curve.two_pow_quarter_prime_sq (hc : c.isNist = false) :
    ((2 : ZMod c.prime) ^ ((c.prime - 1) / 4)) ^ 2 = -1 := by
  have hprime := Curve.prime_eq_of_not_isNist hc
  have hexp : (c.prime - 1) / 4 * 2 = (c.prime - 1) / 2 := by omega
  rw [← pow_mul, hexp, Curve.two_pow_half_prime hc]

theorem Curve.coeff_pow_half_prime (hc : c.isNist = false) : (c.coeff : ZMod c.prime) ^ (c.prime / 2) = -1 := by
  rw [← cast_pred c.prime_pos]
  cases c
  case ed25519 | x25519 => exact cast_pow_of_powMod ed_coeff_pow_half
  all_goals cases hc

/-- d is not a square, by Euler's criterion (R435). -/
theorem Curve.not_isSquare_coeff (hc : c.isNist = false) : ¬IsSquare (c.coeff : ZMod c.prime) := by
  have := Fact.mk c.prime_prime
  have := Fact.mk c.two_lt_prime
  have hpow := Curve.coeff_pow_half_prime hc
  have hne : (c.coeff : ZMod c.prime) ≠ 0 := by
    intro h0
    have hexp : c.prime / 2 ≠ 0 := by have := c.two_lt_prime; omega
    rw [h0, zero_pow hexp, eq_comm, neg_eq_zero] at hpow
    exact one_ne_zero hpow
  rw [ZMod.euler_criterion _ hne, hpow]
  exact ZMod.neg_one_ne_one

end Nonresidues

/-- Settles O41: with both denominators not 0, the model's quotients satisfy the equations. -/
theorem edwardsSumOfPoints : Obligations.EdwardsSumOfPoints := by
  intro c hc x1 y1 x2 y2 _ _ hw1 hw2
  have := Fact.mk c.prime_prime
  have htwo := two_ne_zero_of_odd c.two_lt_prime
  have hroot := Curve.two_pow_quarter_prime_sq hc
  have hd := Curve.not_isSquare_coeff hc
  rw [Curve.wellFormed_of_not_isNist hc, edOnCurve_aff_iff] at hw1 hw2
  have hplus := Edwards.one_add_cross_ne_zero htwo hroot hd hw1 hw2
  have hminus := Edwards.one_sub_cross_ne_zero htwo hroot hd hw1 hw2
  obtain ⟨x3, y3, hsum, hx3, hy3, hX, hY⟩ := edAdd_aff_equations hplus hminus
  have hadd (v w : PointVal) : c.add v w = edAdd c.prime c.coeff v w := by rw [Curve.add, hc, if_neg Bool.false_ne_true]
  exact ⟨x3, y3, (hadd ..).trans hsum, hx3, hy3, hplus, hminus, hX, hY⟩

end Sys2Proof.Machine
end

section
/-! PROOF. O50: what 32 bytes decode to on edwards25519 (spec/46_ec_edwards.md R441, R442, R444). -/

namespace Sys2Proof.Machine

/-! ### The bytes -/

theorem leVal_eq_sum (bs : List Byte) : leVal bs = ∑ j ∈ Finset.range bs.length, (bs.getD j 0).toNat * 256 ^ j := by
  induction bs with
  | nil => rfl
  | cons b bs ih =>
    rw [leVal, ih, List.length_cons, Finset.sum_range_succ', Finset.mul_sum, add_comm]
    simp [pow_succ', mul_left_comm]

theorem toNat_getD_eq_leVal_div (bs : List Byte) (j : Nat) : (bs.getD j 0).toNat = leVal bs / 256 ^ j % 256 := by
  induction bs generalizing j with
  | nil => simp [leVal]
  | cons b bs ih =>
    have hb := b.isLt
    cases j with
    | zero =>
      rw [List.getD_cons_zero, leVal, pow_zero, Nat.div_one]
      omega
    | succ j =>
      have htail : (b.toNat + 256 * leVal bs) / 256 = leVal bs := by omega
      rw [List.getD_cons_succ, ih, leVal, pow_succ', ← Nat.div_div_eq_div_mul, htail]

/-- The parity bit of R441 is bit 255 of the number that the bytes spell. -/
theorem toNat_getD_div_eq_leVal_div (e : List Byte) : (e.getD 31 0).toNat / 128 = leVal e / 2 ^ 255 % 2 := by
  rw [toNat_getD_eq_leVal_div]
  omega

/-! ### The root of R441 is one -/

section EdwardsRoot

variable {p d : Nat} [hp : Fact p.Prime] {u w x y r s : Nat}

/-- What the method of R442 gives is a root: the candidate, or the candidate times a root of -1. -/
theorem root_of_edSqrtRatio_eq_some (hp4 : p % 4 = 1) (htwo : (2 : ZMod p) ^ ((p - 1) / 2) = -1)
    (h : edSqrtRatio p u w = some r) : r < p ∧ (r : ZMod p) ^ 2 * w = u := by
  have hpos := hp.out.pos
  simp only [edSqrtRatio] at h
  generalize hx : edRootCandidate p u w = x at h
  have hv : ((w * x * x % p : Nat) : ZMod p) = (x : ZMod p) ^ 2 * w := by
    rw [ZMod.natCast_mod]
    push_cast
    ring
  split at h
  · next hroot =>
    obtain rfl := Option.some.inj h
    refine ⟨hx ▸ Nat.mod_lt _ hpos, ?_⟩
    rw [← hv, hroot, ZMod.natCast_mod]
  · split at h
    · next hneg =>
      obtain rfl := Option.some.inj h
      refine ⟨Nat.mod_lt _ hpos, ?_⟩
      rw [hneg, subMod_cast hpos, Nat.cast_zero, zero_sub] at hv
      have hexp : (p - 1) / 2 = (p - 1) / 4 * 2 := by omega
      rw [hexp, pow_mul] at htwo
      rw [ZMod.natCast_mod, Nat.cast_mul, powMod_eq, ZMod.natCast_mod, Nat.cast_pow, Nat.cast_ofNat]
      linear_combination (x : ZMod p) ^ 2 * w * htwo + hv
    · cases h

/-- R441 recovers the root of the given parity, where there is one, and nothing else. -/
theorem edRecoverX_eq_some_iff (hp8 : p % 8 = 5) (htwo : (2 : ZMod p) ^ ((p - 1) / 2) = -1)
    (hd : (1 + d : ZMod p) ≠ 0) (hs : s < 2) :
    edRecoverX p d y s = some x ↔ x < p ∧ x % 2 = s ∧ (x : ZMod p) ^ 2 * (d * y ^ 2 + 1) = y ^ 2 - 1 := by
  constructor
  · intro h
    rw [edRecoverX] at h
    split at h
    · cases h
    · next r hr =>
      obtain ⟨hrp, hsq⟩ := root_of_edSqrtRatio_eq_some (by omega) htwo hr
      rw [natCast_edRootNum, natCast_edRootDen] at hsq
      simp only [Option.ite_none_left_eq_some] at h
      obtain ⟨hzero, h⟩ := h
      split at h
      · next hpar =>
        obtain rfl := Option.some.inj h
        refine ⟨by omega, by omega, ?_⟩
        rwa [Nat.cast_sub hrp.le, ZMod.natCast_self, zero_sub, neg_sq]
      · next hpar =>
        obtain rfl := Option.some.inj h
        exact ⟨hrp, not_not.1 hpar, hsq⟩
  · rintro ⟨hx, rfl, hsq⟩
    exact edRecoverX_eq_some_of_root hp8 htwo hd hx hsq

end EdwardsRoot

/-! ### The ordinate of a Montgomery coordinate (R444) -/

section Montgomery

variable {p : Nat} [hp : Fact p.Prime] {u y : Nat}

theorem montY_eq_iff (hu : (u + 1 : ZMod p) ≠ 0) : montY p u = y ↔ y < p ∧ (y : ZMod p) * (u + 1) = u - 1 := by
  have hden : ((u + 1 : Nat) : ZMod p) ≠ 0 := by rwa [Nat.cast_add, Nat.cast_one]
  have hnum : ((subMod p u 1 : Nat) : ZMod p) = u - 1 := by rw [subMod_cast hp.out.pos, Nat.cast_one]
  constructor
  · rintro rfl
    refine ⟨Nat.mod_lt _ hp.out.pos, ?_⟩
    have hmul := natCast_mul_invMod_mod_mul (a := subMod p u 1) hden
    rwa [hnum, Nat.cast_add, Nat.cast_one] at hmul
  · rintro ⟨hy, h⟩
    exact mul_invMod_mod_eq hden hy (by rw [hnum, Nat.cast_add, Nat.cast_one, h])

end Montgomery

/-! ### The two decoders -/

section EdwardsForms

variable {p d : Nat} [hp : Fact p.Prime] (hp8 : p % 8 = 5) (htwo : (2 : ZMod p) ^ ((p - 1) / 2) = -1)
  (hd : (1 + d : ZMod p) ≠ 0) (e : List Byte) (v : PointVal)

include hp8 htwo hd

theorem edDecode_eq_some_iff :
    edDecode p d e = some v ↔ ∃ x y : Nat, v = .aff x y ∧ y = leVal e % 2 ^ 255 ∧ y < p ∧ x < p ∧
      x % 2 = leVal e / 2 ^ 255 % 2 ∧ (x : ZMod p) ^ 2 * (d * y ^ 2 + 1) = y ^ 2 - 1 := by
  have hs : leVal e / 2 ^ 255 % 2 < 2 := Nat.mod_lt _ two_pos
  simp only [edDecode, Option.ite_none_left_eq_some, not_le, Option.map_eq_some_iff,
    edRecoverX_eq_some_iff hp8 htwo hd hs]
  constructor
  · rintro ⟨hy, x, ⟨hx, hpar, hsq⟩, rfl⟩
    exact ⟨x, _, rfl, rfl, hy, hx, hpar, hsq⟩
  · rintro ⟨x, y, rfl, rfl, hy, hx, hpar, hsq⟩
    exact ⟨hy, x, ⟨hx, hpar, hsq⟩, rfl⟩

theorem montDecode_eq_some_iff :
    montDecode p d e = some v ↔ ∃ u x y : Nat, v = .aff x y ∧ u = leVal e % 2 ^ 255 % p ∧ (u + 1 : ZMod p) ≠ 0 ∧
      y < p ∧ (y : ZMod p) * (u + 1) = u - 1 ∧ x < p ∧ x % 2 = 0 ∧
      (x : ZMod p) ^ 2 * (d * y ^ 2 + 1) = y ^ 2 - 1 := by
  have hne (u : Nat) : ¬(u + 1) % p = 0 ↔ (u + 1 : ZMod p) ≠ 0 := by
    rw [← Nat.dvd_iff_mod_eq_zero, ← ZMod.natCast_eq_zero_iff, Nat.cast_add, Nat.cast_one]
  simp only [montDecode, Option.ite_none_left_eq_some, hne, Option.map_eq_some_iff,
    edRecoverX_eq_some_iff hp8 htwo hd two_pos]
  constructor
  · rintro ⟨hu, x, ⟨hx, hpar, hsq⟩, rfl⟩
    obtain ⟨hy, hmul⟩ := (montY_eq_iff hu).1 rfl
    exact ⟨_, x, _, rfl, rfl, hu, hy, hmul, hx, hpar, hsq⟩
  · rintro ⟨u, x, y, rfl, rfl, hu, hy, hmul, hx, hpar, hsq⟩
    rw [(montY_eq_iff hu).2 ⟨hy, hmul⟩]
    exact ⟨hu, x, ⟨hx, hpar, hsq⟩, rfl⟩

end EdwardsForms

/-- Settles O50: the bytes spell LE(e) with the parity in bit 255, and each decoder takes the root of R441. -/
theorem edwardsPointDecoding : Obligations.EdwardsPointDecoding := by
  refine ⟨fun c h hc => by rw [Curve.encLen, hc, if_neg Bool.false_ne_true], fun e n hlen hn => ?_⟩
  rw [← hlen, ← leVal_eq_sum] at hn
  have hp8 {c : Curve} (hc : c.isNist = false) : c.prime % 8 = 5 := by
    have := Curve.prime_eq_of_not_isNist hc
    omega
  refine ⟨fun v => ?_, fun v => ?_⟩
  · have := Fact.mk Curve.ed25519.prime_prime
    have hdec := edDecode_eq_some_iff (hp8 rfl) (Curve.two_pow_half_prime rfl)
      (Curve.one_add_coeff_ne_zero (c := .ed25519) rfl) e v
    rwa [← toNat_getD_div_eq_leVal_div, ← hn] at hdec
  · have := Fact.mk Curve.x25519.prime_prime
    have hdec := montDecode_eq_some_iff (hp8 rfl) (Curve.two_pow_half_prime rfl)
      (Curve.one_add_coeff_ne_zero (c := .x25519) rfl) e v
    rwa [← hn] at hdec

end Sys2Proof.Machine
end

section
/-! PROOF. O6, O8, O9, O47 and O59: a command from its decoded word to its end (spec/60_exceptions.md R470 to R492,
R505). The two ends of a command stand in Laws/Exec.lean; O9 and O59 are read off them. -/

namespace Sys2Proof.Machine

/-! ### A step that runs a command (R470) -/

section Run

variable {s : State} {i : Instr}

theorem sequencerStep_of_decode_some (hseq : s.seq = .busy) (hdec : decode s.cmdReg = some i) :
    sequencerStep s = exec i s := by
  rw [sequencerStep_of_busy hseq, runCommand_of_decode_some hdec]

/-- At a pause the sequencer moves (R93). -/
theorem step_of_hostIn_pause {es : List HostEvent} (hin : s.hostIn = .pause :: es) :
    step s = sequencerStep { s with hostIn := es } := step_of_hostIn_cons hin

/-- A command word is 32 bits already (R110). -/
theorem commandWord_eq_ofNat (w : Nat) : commandWord 32 w = BitVec.ofNat 32 w :=
  BitVec.eq_of_toNat_eq (by simp [commandWord])

theorem decodeTableWord_eq_decode (w : Nat) : decodeTableWord 32 w = decode (BitVec.ofNat 32 w) :=
  congrArg decode (commandWord_eq_ofNat w)

/-- In the state that has accepted a word the sequencer moves before the host does (log entry 4). -/
theorem step_withFetchWord (s : State) (w : Nat) :
    step (s.withFetchWord 32 w) = sequencerStep (s.accept (BitVec.ofNat 32 w)) := by
  unfold State.withFetchWord
  rw [commandWord_eq_ofNat]
  cases hin : s.hostIn with
  | nil => rw [step_of_hostIn_nil rfl, sequencerFirst, ← hin]; rfl
  | cons e es => rw [step_of_hostIn_pause rfl, ← hin]; rfl

end Run

/-- Settles O6: with no event, at a pause, and after an accepted word the step is the sequencer's, which decodes. -/
theorem stepRunsDecodedCommand : Obligations.StepRunsDecodedCommand := by
  refine ⟨fun s i hin hbusy hdec => ?_, fun s i es hin hbusy hdec => ?_, fun s w i hdec => ?_⟩
  · rw [step_of_hostIn_nil hin, sequencerStep_of_decode_some hbusy hdec]
  · rw [step_of_hostIn_pause hin]
    exact sequencerStep_of_decode_some hbusy hdec
  · rw [step_withFetchWord]
    exact sequencerStep_of_decode_some rfl ((decodeTableWord_eq_decode w).symm.trans hdec)

/-! ### The two ends of a command (R470, R476) -/

/-- Settles O8: the fields and registers of the error entry read back, and the codes in the order of R471. -/
theorem errorEntryWrites : Obligations.ErrorEntryWrites :=
  ⟨fun s e => by simp, rfl, rfl, rfl, rfl, rfl, rfl⟩

/-- Settles O9: a command ends in the error entry, or in its effect completed, whose frame is R470's. -/
theorem errorsArePrecise : Obligations.ErrorsArePrecise := by
  intro i s
  obtain ⟨t, h⟩ := exec_next i s
  refine ⟨t, h, ?_⟩
  rcases exec_cases h with herror | ⟨u, he, rfl⟩
  · exact .inl herror
  · have hend := he.completedFrom
    exact .inr ⟨hend, by rw [hend.status]⟩

/-! ### IRQ (R490) -/

section Irq

variable {s : State}

theorem State.irq_iff : s.irq = true ↔
    (s.status.done = true ∧ s.ctrl.ieDone = true) ∨ (s.status.err = true ∧ s.ctrl.ieErr = true) := by
  simp [State.irq]

theorem State.irq_of_done (hdone : s.status.done = true) (herr : s.status.err = false) : s.irq = s.ctrl.ieDone := by
  simp [State.irq, hdone, herr]

theorem State.irq_of_err (hdone : s.status.done = false) (herr : s.status.err = true) : s.irq = s.ctrl.ieErr := by
  simp [State.irq, hdone, herr]

end Irq

/-- Settles O59: a running command found DONE and ERR clear, and its end sets one of them. -/
theorem interruptsFollowStatus : Obligations.InterruptsFollowStatus := by
  refine ⟨fun s => State.irq_iff, fun i s t hok hbusy h => ?_, fun s => rfl, rfl⟩
  obtain ⟨-, -, -, hclear⟩ := hok
  obtain ⟨hdone, herr⟩ := hclear hbusy
  rcases exec_cases h with ⟨e, rfl⟩ | ⟨u, he, rfl⟩
  · exact .inr ⟨hdone, rfl, State.irq_of_err hdone rfl⟩
  · have hend := he.completedFrom
    have herr' : u.completed.status.err = false := by rw [hend.status]; exact herr
    exact .inl ⟨rfl, herr', (State.irq_of_done rfl herr').trans (by rw [hend.ctrl])⟩

/-! ### NOP (R505) -/

theorem exec_nop (s : State) : exec .nop s = .next s.completed := rfl

/-- The row of NOP covers every field, so the zero word alone selects it. -/
theorem decode_eq_none_of_fieldOp_eq_zero {w : Word} (hop : fieldOp w = 0) (hw : w ≠ 0#32) : decode w = none := by
  refine Option.eq_none_iff_forall_ne_some.2 fun i hdec => hw ?_
  obtain ⟨hrow, -⟩ := decode_eq_some_iff_decodeRow.1 hdec
  have hformat : formatN w .nop = some i := by simpa only [decodeRow, hop] using hrow
  obtain ⟨-, rfl⟩ := formatN_eq_some.1 hformat
  exact (encode_of_decodeRow hrow).symm

/-- Settles O47: NOP is the end of a command alone, and the decoder's row of opcode 0 covers every field. -/
theorem nopCompletes : Obligations.NopCompletes := by
  obtain ⟨hzero, -⟩ := exampleWordsDecode
  exact ⟨fun s => ⟨s.completed, exec_nop s, nothingElse_completed s⟩,
    fun s hie => ⟨s.completed, exec_nop s, State.irq_iff.2 (.inl ⟨rfl, hie⟩)⟩,
    hzero, fun w => decode_eq_none_of_fieldOp_eq_zero⟩

end Sys2Proof.Machine
end

section
/-! PROOF. O55: the two ways into RESETTING, the way out of it, and the writes it ignores
(spec/70_reset_and_hazards.md R520 to R522). -/

namespace Sys2Proof.Machine

section Reset

variable {s : State} {d : Word}

/-- SRST = 1 starts a reset, the other bits written being ignored (R521). -/
theorem State.writeCtrl_of_srst (s : State) (h : d.getLsbD 31 = true) : s.writeCtrl d = s.enterReset := if_pos h

theorem writeLeadsTo_enterReset (hseq : s.seq ≠ .resetting) (h : d.getLsbD 31 = true) :
    WriteLeadsTo s 0x004 .word d s.enterReset :=
  writeLeadsTo_of_writeReg hseq (by decide) (by decide) (s.writeCtrl_of_srst h)

/-- RESETTING is zeroized already, so its end is the state of R63 (log entry 5). -/
theorem State.ResettingOk.sequencerStep_eq (hok : s.ResettingOk) (hseq : s.seq = .resetting) (es : List HostEvent) :
    sequencerStep { s with hostIn := es } =
      .next { State.reset with hostIn := es, hostOut := s.hostOut, draws := s.draws } :=
  (sequencerStep_of_resetting (s := { s with hostIn := es }) hseq).trans
    (congrArg (fun u : State => (.next { u.finishReset with hostIn := es } : Result)) (hok hseq))

theorem hostWrite_of_resetting {off : Nat} {w : Width} (hseq : s.seq = .resetting) (hacc : accessOk off w = true) :
    hostWrite off w d s = .next s := by
  rw [hostWrite, if_pos hacc, if_pos hseq]

end Reset

/-- Settles O55: both events enter the reset, the sequencer's move ends it, and a write finds RESETTING. -/
theorem resets : Obligations.Resets := by
  refine ⟨fun s e es hin hreset => ?_, fun s es hok hseq hmove => ?_, fun s off w d es hseq hoff hacc hin => ?_⟩
  · rcases hreset with rfl | ⟨d, rfl, hsrst, hseq⟩
    · exact step_of_hostIn_cons hin
    · exact writeLeadsTo_enterReset hseq hsrst es hin
  · rcases hmove with ⟨hin, rfl⟩ | hin
    · rw [step_of_hostIn_nil hin, ← hin]
      exact hok.sequencerStep_eq hseq s.hostIn
    · exact (step_of_hostIn_pause hin).trans (hok.sequencerStep_eq hseq es)
  · exact (step_write hin hoff).trans (hostWrite_of_resetting hseq hacc)

end Sys2Proof.Machine
end
